-- ==== Sys2Proof/Word.lean ====
section
/-! DEFINITION. The words of the Chequel: bytes, 32-bit registers, 64-bit pairs, the 57-bit program counter. -/

namespace Sys2Proof

/-- One byte of memory. -/
abbrev Byte := BitVec 8

/-- A general register (R76). -/
abbrev Word := BitVec 32

/-- A register pair gN:gN+1, an instruction word or a 64-bit address (R8, R81). -/
abbrev DWord := BitVec 64

/-- A register field: a flat index 0 to 511 (R84). -/
abbrev Reg := BitVec 9

/-- A predicate index 0 to 7 (R8). -/
abbrev PredIx := BitVec 3

/-- A program counter (R76: 57 bits). -/
abbrev Pc := BitVec 57

end Sys2Proof
end

