-- ==== Sys2Proof/Syntax.lean ====
section
/-! DEFINITION. The abstract syntax: one constructor of `Instr` per row of the opcode table. Instruction words carry their
decoded fields; the machine's other steps (dispatch, parks, home, fabric, host and reliability events) carry the choices
that the spec leaves open, such as the core a team is placed on (R286). -/

namespace Sys2Proof

/-- The scheduling and guard fields of an instruction word (R81 to R83). -/
structure Ctl where
  /-- VER = 0, the conservative version: the word is read as if SW were 1 (R82). -/
  ver0 : Bool
  /-- The switch marker: a park follows (R81). -/
  sw : Bool
  /-- KEEP, a hint only (R57). -/
  keep : BitVec 2
  /-- The guard is negated (R83). -/
  pneg : Bool
  /-- The guard predicate; p0 means unguarded (R83). -/
  pred : PredIx
  deriving DecidableEq, Repr

/-- The integer types of MOD[7:5] in class 0 (R86, R117). -/
inductive IntTy
  | i32 | n32 | i64 | n64 | i16x2 | n16x2 | i8x4 | b32
  deriving DecidableEq, Repr

/-- Source B of an opcode with an F1 form: a register, or IMM18 (R85). -/
inductive Src
  | reg (r : Reg)
  | imm (v : BitVec 18)
  deriving DecidableEq, Repr

/-- The rounding modes and their codes (R39). -/
inductive Rm
  | rne | rz | ru | rd
  deriving DecidableEq, Repr

/-- The comparisons of ISETP (R128). -/
inductive ICmp
  | eq | ne | lt | le | gt | ge
  deriving DecidableEq, Repr

/-- The first source of PLOP: a predicate, or a register with `.reg` (R128). -/
inductive PSrc
  | pred (p : PredIx)
  | reg (r : Reg)
  deriving DecidableEq, Repr

/-- The special values of SREAD (R130). -/
inductive Sv
  | lane | group | team | core | die | pkg | cell | task | arg | clock | width | mirror
  deriving DecidableEq, Repr

/-- The floating-point types of MOD[7:5] in class 1 (R86). -/
inductive FTy
  | f32 | f16x2 | bf16x2 | f64
  deriving DecidableEq, Repr

/-- The saturation codes of FADD, FSUB, FMUL and FFMA (R142). -/
inductive FSat
  | none | satf | sat01
  deriving DecidableEq, Repr

/-- The comparisons of FSETP (R145). -/
inductive FCmp
  | eq | ne | lt | le | gt | ge | num | nan
  deriving DecidableEq, Repr

/-- The six floating-point formats, in the code order of FCVT (R148). -/
inductive FFmt
  | f32 | f16 | bf16 | f64 | e4m3 | e5m2
  deriving DecidableEq, Repr

/-- The integer types of ICVT (R149). -/
inductive CvtInt
  | i32 | n32 | i64 | n64
  deriving DecidableEq, Repr

/-- The selector modes of SHFL (R150). -/
inductive ShflMode
  | idx | up | down | xor
  deriving DecidableEq, Repr

/-- The modes of VOTE (R150). -/
inductive VoteMode
  | ballot | all | any
  deriving DecidableEq, Repr

/-- The types of GRED and GSCAN (R151). -/
inductive RTy
  | f32 | f16x2 | bf16x2 | f64 | i32 | n32 | i64 | n64
  deriving DecidableEq, Repr

/-- The operations of GRED and GSCAN (R151). -/
inductive ROp
  | add | min | max | and | or | xor
  deriving DecidableEq, Repr

/-- The memory spaces of MOD[7:6] (R87). -/
inductive Space
  | g | s | p | l
  deriving DecidableEq, Repr

/-- The access sizes of MOD[5:3] (R87). -/
inductive Size
  | n8 | i8 | n16 | i16 | b32 | b64 | b128
  deriving DecidableEq, Repr

/-- The scopes 1 to 5 (R87). -/
inductive Scope
  | grp | team | pkg | cell | space
  deriving DecidableEq, Repr

/-- The order of an LD (R87). -/
inductive LdOrd
  | plain
  | acq (sc : Scope)
  | spec
  deriving DecidableEq, Repr

/-- The order of an ATOM (R87). -/
inductive AtOrd
  | plain
  | acq (sc : Scope)
  | rel (sc : Scope)
  | acqRel (sc : Scope)
  deriving DecidableEq, Repr

/-- The types of ATOM and RED (R169). -/
inductive AtTy
  | i32 | n32 | i64 | n64 | f32 | f64 | f16x2 | bf16x2
  deriving DecidableEq, Repr

/-- The operations of ATOM and RED (R169). -/
inductive AtOp
  | add | min | max | and | or | xor | exch | cas
  deriving DecidableEq, Repr

/-- The kinds of FENCE (R68, R161). -/
inductive FenceKind
  | ld | st | all
  deriving DecidableEq, Repr

/-- The operations of CMNT (R176). -/
inductive CmntOp
  | inv | wb | evict
  deriving DecidableEq, Repr

/-- The A formats of MML with `.s`, and `.g`, where the page gives the format (R207). -/
inductive AFmt
  | f16 | bf16 | e4m3 | e5m2 | i8 | page
  deriving DecidableEq, Repr

/-- The formats of ACCST (R207). -/
inductive StFmt
  | f32 | f16 | bf16 | e4m3 | e5m2 | i8 | i32
  deriving DecidableEq, Repr

/-- A group of the machine: its package, the Booth context slot that its team keeps wherever it runs (R300, R305), and
its index in the team (R11). -/
structure Where where
  pkg : Nat
  ctx : Nat
  group : Nat
  deriving DecidableEq, Repr

/-- A Carousel schedule image (R340): version, epoch in nanoseconds of fabric time, and the entries with C = 1. -/
structure SchedImage where
  sver : BitVec 32
  epoch : Nat
  /-- Package, slot, link and peer of each connected entry, in ascending order. -/
  ents : List (Nat × Nat × Nat × Nat)
  deriving DecidableEq, Repr

/-- An SPDM request (R358): Param1, Param2 and the bytes that follow them. -/
structure SpdmReq where
  param1 : BitVec 8
  param2 : BitVec 8
  body : List Byte
  deriving DecidableEq, Repr

/-- One constructor per row of the opcode table. -/
inductive Instr
  -- class 0 INT (R116 to R138)
  | nop (c : Ctl)
  | mov (c : Ctl) (ty : IntTy) (d a : Reg)
  | movi (c : Ctl) (ty : IntTy) (d : Reg) (imm : BitVec 27)
  | movhi (c : Ctl) (d a : Reg) (b : Src)
  | sel (c : Ctl) (ty : IntTy) (d a b : Reg) (p : PredIx)
  | iadd (c : Ctl) (ty : IntTy) (sat : Bool) (d a : Reg) (b : Src)
  | isub (c : Ctl) (ty : IntTy) (sat : Bool) (d a : Reg) (b : Src)
  | imul (c : Ctl) (ty : IntTy) (sat : Bool) (d a : Reg) (b : Src)
  | imulh (c : Ctl) (ty : IntTy) (d a : Reg) (b : Src)
  | imad (c : Ctl) (ty : IntTy) (sat : Bool) (d a b e : Reg)
  | imadw (c : Ctl) (ty : IntTy) (d a b e : Reg)
  | idiv (c : Ctl) (ty : IntTy) (rm : Rm) (d a b : Reg)
  | irem (c : Ctl) (ty : IntTy) (rm : Rm) (d a b : Reg)
  | iabs (c : Ctl) (ty : IntTy) (sat : Bool) (d a : Reg)
  | ineg (c : Ctl) (ty : IntTy) (sat : Bool) (d a : Reg)
  | imin (c : Ctl) (ty : IntTy) (d a : Reg) (b : Src)
  | imax (c : Ctl) (ty : IntTy) (d a : Reg) (b : Src)
  | ishl (c : Ctl) (ty : IntTy) (d a : Reg) (b : Src)
  | ishr (c : Ctl) (ty : IntTy) (d a : Reg) (b : Src)
  | isar (c : Ctl) (ty : IntTy) (d a : Reg) (b : Src)
  | irot (c : Ctl) (ty : IntTy) (d a : Reg) (b : Src)
  | and (c : Ctl) (ty : IntTy) (d a : Reg) (b : Src)
  | or (c : Ctl) (ty : IntTy) (d a : Reg) (b : Src)
  | xor (c : Ctl) (ty : IntTy) (d a : Reg) (b : Src)
  | not (c : Ctl) (ty : IntTy) (d a : Reg)
  | andn (c : Ctl) (ty : IntTy) (d a : Reg) (b : Src)
  | bfx (c : Ctl) (ty : IntTy) (d a : Reg) (b : Src)
  | bfi (c : Ctl) (ty : IntTy) (d a b e : Reg)
  | popc (c : Ctl) (ty : IntTy) (d a : Reg)
  | clz (c : Ctl) (ty : IntTy) (d a : Reg)
  | ctz (c : Ctl) (ty : IntTy) (d a : Reg)
  | brev (c : Ctl) (ty : IntTy) (d a : Reg)
  | prmb (c : Ctl) (d a : Reg) (b : Src)
  | lea (c : Ctl) (ty : IntTy) (sh : BitVec 3) (d a : Reg) (b : Src)
  | isetp (c : Ctl) (ty : IntTy) (cc : ICmp) (pd : PredIx) (a : Reg) (b : Src)
  | plop (c : Ctl) (tt : BitVec 4) (pd : PredIx) (a : PSrc) (pb : PredIx)
  | p2g (c : Ctl) (d : Reg)
  | g2p (c : Ctl) (mask : BitVec 7) (g : Reg)
  | sread (c : Ctl) (d : Reg) (v : Sv)
  | bra (c : Ctl) (imm : BitVec 27)
  | brx (c : Ctl) (g : Reg)
  | call (c : Ctl) (g : Reg) (imm : BitVec 27)
  | ret (c : Ctl) (g : Reg)
  | exit (c : Ctl)
  | yield (c : Ctl)
  | chkd (c : Ctl) (pair : Bool) (g : Reg) (imm : BitVec 18)
  -- class 1 VEC (R139 to R157)
  | fadd (c : Ctl) (ty : FTy) (rm : Rm) (sat : FSat) (d a : Reg) (b : Src)
  | fsub (c : Ctl) (ty : FTy) (rm : Rm) (sat : FSat) (d a : Reg) (b : Src)
  | fmul (c : Ctl) (ty : FTy) (rm : Rm) (sat : FSat) (d a : Reg) (b : Src)
  | ffma (c : Ctl) (ty : FTy) (rm : Rm) (sat : FSat) (d a b e : Reg)
  | fmin (c : Ctl) (ty : FTy) (d a : Reg) (b : Src)
  | fmax (c : Ctl) (ty : FTy) (d a : Reg) (b : Src)
  | fsetp (c : Ctl) (ty : FTy) (cc : FCmp) (pd : PredIx) (a : Reg) (b : Src)
  | fclass (c : Ctl) (ty : FTy) (d a : Reg)
  | frnd (c : Ctl) (ty : FTy) (rm : Rm) (x : Bool) (d a : Reg)
  | fcvt (c : Ctl) (dst src : FFmt) (rm : Rm) (d a b : Reg)
  | icvt (c : Ctl) (f2i : Bool) (flt : FFmt) (int : CvtInt) (rm : Rm) (d a : Reg)
  | fscale (c : Ctl) (ty : FTy) (rm : Rm) (d a b : Reg)
  | shfl (c : Ctl) (wide : Bool) (mode : ShflMode) (d a : Reg) (b : Src)
  | vote (c : Ctl) (mode : VoteMode) (d : Reg) (pa : PredIx)
  | gred (c : Ctl) (ty : RTy) (op : ROp) (rm : Rm) (d a : Reg)
  | gscan (c : Ctl) (ty : RTy) (op : ROp) (rm : Rm) (d a : Reg)
  | rand (c : Ctl) (stream : BitVec 8) (d a b : Reg)
  -- class 2 SFU (R158 to R160)
  | frcp (c : Ctl) (rm : Rm) (d a : Reg)
  | frsq (c : Ctl) (rm : Rm) (d a : Reg)
  | fsqrt (c : Ctl) (rm : Rm) (d a : Reg)
  | fdiv (c : Ctl) (rm : Rm) (d a b : Reg)
  | fexp2 (c : Ctl) (rm : Rm) (d a : Reg)
  | flog2 (c : Ctl) (rm : Rm) (d a : Reg)
  | fsinpi (c : Ctl) (rm : Rm) (d a : Reg)
  | fcospi (c : Ctl) (rm : Rm) (d a : Reg)
  | ftanh (c : Ctl) (rm : Rm) (d a : Reg)
  -- class 3 MEM (R161 to R185)
  | ldOff (c : Ctl) (sp : Space) (sz : Size) (spec : Bool) (d a : Reg) (off : BitVec 18)
  | ldIdx (c : Ctl) (sp : Space) (sz : Size) (ord : LdOrd) (d a b : Reg)
  | stOff (c : Ctl) (sp : Space) (sz : Size) (d a : Reg) (off : BitVec 18)
  | stIdx (c : Ctl) (sp : Space) (sz : Size) (rel : Option Scope) (d a b : Reg)
  | ldeOff (c : Ctl) (cn : BitVec 3) (d a : Reg) (off : BitVec 18)
  | ldeIdx (c : Ctl) (sp : Space) (cn : BitVec 3) (fmt : BitVec 4) (d a b : Reg)
  | steOff (c : Ctl) (cn : BitVec 3) (d a : Reg) (off : BitVec 18)
  | steIdx (c : Ctl) (sp : Space) (cn : BitVec 3) (fmt : BitVec 4) (d a b : Reg)
  | atom (c : Ctl) (sp : Space) (ty : AtTy) (op : AtOp) (ord : AtOrd) (d a b : Reg)
  | red (c : Ctl) (sp : Space) (ty : AtTy) (op : AtOp) (key : Bool) (rel : Option Scope) (d a b : Reg)
  | fence (c : Ctl) (kind : FenceKind) (sc : Scope)
  | waitm (c : Ctl) (sc : Scope) (d a b t : Reg)
  | prefOff (c : Ctl) (sz : Size) (a : Reg) (off : BitVec 18)
  | prefIdx (c : Ctl) (sz : Size) (a b : Reg)
  | cmntOff (c : Ctl) (sz : Size) (op : CmntOp) (a : Reg) (off : BitVec 18)
  | cmntIdx (c : Ctl) (sz : Size) (op : CmntOp) (a b : Reg)
  | rbeg (c : Ctl) (d a : Reg)
  | rcmt (c : Ctl)
  | rabt (c : Ctl)
  -- class 4 SYN (R186 to R206)
  | nbinit (c : Ctl) (n : Reg)
  | nbarv (c : Ctl) (n : Reg) (b : Src)
  | nbsync (c : Ctl) (n : Reg) (b : Src)
  | bbinit (c : Ctl) (n b : Reg)
  | bbexp (c : Ctl) (n : Reg) (b : Src)
  | bbarv (c : Ctl) (n : Reg) (b : Src)
  | bbwait (c : Ctl) (n : Reg)
  | bbtest (c : Ctl) (pd : PredIx) (n : Reg)
  | tkreq (c : Ctl) (yld : Bool) (d a : Reg) (pk : PredIx)
  | tktry (c : Ctl) (pd : PredIx) (a : Reg)
  | tkwait (c : Ctl) (a : Reg)
  | tkgive (c : Ctl) (a b : Reg)
  | tkswap (c : Ctl) (pd : PredIx) (a b : Reg)
  | tkaban (c : Ctl) (a : Reg)
  | tkrel (c : Ctl) (a : Reg)
  | boothStep (p die obj : Nat)
  | tkinfo (c : Ctl) (d a : Reg)
  | honew (c : Ctl) (d a : Reg)
  | hodel (c : Ctl) (a : Reg)
  | tspawn (c : Ctl) (n : BitVec 6) (d a b e : Reg)
  | tdec (c : Ctl) (a : Reg)
  | tarm (c : Ctl) (a b e : Reg)
  | tdisarm (c : Ctl) (pd : PredIx) (a : Reg)
  | certw (c : Ctl) (pd : PredIx) (a : Reg)
  -- class 5 ENG (R207 to R235, R236 to R256)
  | wbld (c : Ctl) (a b e : Reg)
  | mml (c : Ctl) (af : AFmt) (a b : Reg)
  | mmlg (c : Ctl) (af : AFmt) (a b t : Reg)
  | accz (c : Ctl) (a : Reg)
  | accrd (c : Ctl) (n : BitVec 3) (d a : Reg)
  | accst (c : Ctl) (fmt : StFmt) (rm : Rm) (int : Bool) (a b e : Reg)
  | cpy (c : Ctl) (a : Reg)
  | cpym (c : Ctl) (a : Reg)
  | cpyx (c : Ctl) (a : Reg)
  | coll (c : Ctl) (d a : Reg)
  | collq (c : Ctl) (d a : Reg)
  | vpjinit (c : Ctl) (a b e : Reg)
  | vpj (c : Ctl) (a : Reg)
  | vpjmrg (c : Ctl) (a b e : Reg)
  | vpjfin (c : Ctl) (a b : Reg)
  | vsamp (c : Ctl) (a : Reg)
  | vpjbwd (c : Ctl) (a : Reg)
  | vtopk (c : Ctl) (a : Reg)
  | vsmax (c : Ctl) (a : Reg)
  -- class 6 SYS (R257 to R268)
  | trapReg (c : Ctl) (a : Reg)
  | trapImm (c : Ctl) (imm : BitVec 18)
  | rtt (c : Ctl)
  | tmaskReg (c : Ctl) (a : Reg)
  | tmaskImm (c : Ctl) (imm : BitVec 18)
  | ctlrdReg (c : Ctl) (d b : Reg)
  | ctlrdImm (c : Ctl) (d : Reg) (sel : BitVec 18)
  | ctlwrReg (c : Ctl) (d b : Reg)
  | ctlwrImm (c : Ctl) (d : Reg) (sel : BitVec 18)
  | tlbiPage (c : Ctl) (a : Reg)
  | tlbiAll (c : Ctl)
  | bkpt (c : Ctl) (n : BitVec 8)
  | evrec (c : Ctl) (a b : Reg)
  -- teams, groups and tasks
  | teamResourcesFree (p ctx : Nat)
  | mirrorRedispatch (p ctx : Nat)
  | teamDispatch (p core slot ctx : Nat)
  | portPick (w : Where)
  | deferredResultReturn (w : Where) (lane k : Nat)
  | park (w : Where) (pc : Pc)
  | groupRetire (w : Where)
  | taskComplete (p ctx : Nat)
  | recordRetire (p : Nat) (inst : BitVec 40)
  | deferredLaunch (p : Nat)
  | mboxMsg (p page : Nat) (bytes : List Byte)
  | mboxStatWrite (p page : Nat) (v : Word)
  | launch (p page : Nat)
  | slotFire (p page : Nat)
  -- driver commands, each the head of the command FIFO (R350)
  | cancel (p : Nat)
  | free (p : Nat)
  | preempt (p : Nat)
  | slice (p : Nat)
  | migrate (p : Nat)
  | endfwd (p : Nat)
  | dead (p : Nat)
  | scrub (p : Nat) (host : List Byte)
  | dbghalt (p : Nat)
  | objdel (p : Nat)
  | dbgcont (p : Nat)
  | cmdBadOp (p : Nat)
  | cmdStatWrite (p : Nat) (v : Word)
  -- pre-emption and the Big Wheel
  | sliceExpiry (p core : Nat)
  | preemptSwitch (p core : Nat)
  | contextSpill (p ctx : Nat)
  | teamResume (p ctx core slot : Nat)
  | wheelWindow (p core : Nat)
  | scanPass (p core : Nat)
  | scanFail (p core : Nat)
  | barkerTimeout (p core : Nat)
  | waitmTimeout (w : Where) (lane : Nat)
  -- page faults (R294)
  | faultReplay (p : Nat) (resp : DWord)
  | faultFail (p : Nat) (resp : DWord)
  | faultResponseReserved (p : Nat) (resp : DWord)
  -- engines
  | copyStart (p ctx k : Nat)
  | copyPieceWritten (p ctx k n : Nat)
  | copyEnd (p ctx k : Nat)
  | matrixCmdStart (p ctx : Nat) (odd : Bool)
  | matrixCmdComplete (p ctx : Nat) (odd : Bool)
  | collExchange (p : Nat) (h : DWord)
  | collContribution (p link : Nat)
  | collAbortToken (p link : Nat)
  | collEnd (p : Nat) (h : DWord)
  -- the home and its requesters: each takes the next flit of a link
  | gets (p link : Nat)
  | getm (p link : Nat)
  | wrh (p link : Nat)
  | redReq (p link : Nat)
  | wb (p link : Nat)
  | eve (p link : Nat)
  | snp (p link : Nat)
  | snpr (p link : Nat)
  | rspData (p link : Nat)
  | rspAck (p link : Nat)
  | rspRefused (p link : Nat)
  | rspPoison (p link : Nat)
  | rspHold (p link : Nat)
  | remoteReadTimeout (p r : Nat)
  | remoteWriteTimeout (p r : Nat)
  | migrationSwitch (p page : Nat)
  | turnstileWrite (p region : Nat) (v : BitVec 128)
  | turnstileDone (p region : Nat)
  | cellTableWrite (p off : Nat) (bytes : List Byte)
  | peerSilenceTimeout (p q : Nat)
  | safetyNetWalk (p line : Nat)
  | heartbeat (p link : Nat)
  | deathNotice (p link : Nat)
  | retireNotice (p link : Nat)
  | taggedLaunchMsg (p link : Nat)
  -- links
  | flitIdle (p link : Nat)
  | flitReplayRequest (p link : Nat)
  | linkReplayTimeout (p link : Nat)
  | connectionStart (p link : Nat)
  | slotDrain (p : Nat)
  | slotGuard (p : Nat)
  | linkPick (p link : Nat)
  | lightLoss (p link fibre : Nat)
  | restripe (p link : Nat)
  | feedReturn (p link fibre : Nat)
  | scheduleWrite (p : Nat) (img : List (Nat × Byte))
  | scheduleEpoch (p : Nat)
  -- host and reliability
  | bar2Read (p off n : Nat)
  | bar2Write (p off : Nat) (bytes : List Byte)
  | packageReset (p : Nat)
  | functionReady (p bit : Nat) (ok : Bool)
  | freeze (p : Nat)
  | thermalLimit (p : Nat)
  | powerRemove (p : Nat)
  | getVersion (p : Nat) (r : SpdmReq)
  | getCapabilities (p : Nat) (r : SpdmReq)
  | negotiateAlgorithms (p : Nat) (r : SpdmReq)
  | getDigests (p : Nat) (r : SpdmReq)
  | getCertificate (p : Nat) (r : SpdmReq)
  | challenge (p : Nat) (r : SpdmReq)
  | getMeasurements (p : Nat) (r : SpdmReq)
  | spdmUnsupported (p : Nat) (code : Byte) (r : SpdmReq)
  | registerWrite (p off : Nat) (bytes : List Byte)
  | relayedFlit (p link : Nat)
  | tdecMsg (p link : Nat)
  | certwMsg (p link : Nat)
  | evrTail (p page : Nat) (v : Word)
  deriving DecidableEq, Repr

end Sys2Proof
end

