-- ==== Sys2Proof/WellFormed.lean ====
section
/-! DEFINITION. What a word's fields may hold (R84 to R88, R120 to R266): the operand registers of each instruction with
their widths, its barrier indexes, and the checks that make an abstract instruction encodable. An event of the machine
has no encoding and is always well formed. -/

namespace Sys2Proof

/-- A register operand: its field, how many registers it names, and the alignment of its base (R84). -/
structure Opnd where
  r : Reg
  n : Nat
  al : Nat
  deriving DecidableEq, Repr

/-- A single register. -/
def Opnd.one (r : Reg) : Opnd := ⟨r, 1, 1⟩
/-- An even–odd pair. -/
def Opnd.pair (r : Reg) : Opnd := ⟨r, 2, 2⟩
/-- A quad. -/
def Opnd.quad (r : Reg) : Opnd := ⟨r, 4, 4⟩
/-- A run of n registers, aligned at Min(n, 4) (R166, R218). -/
def Opnd.run (r : Reg) (n : Nat) : Opnd := ⟨r, n, if n < 4 then n else 4⟩

/-- The operand lies within an allocation of `nregs` registers (R84, step 14 of R96); index 0 is the zero register at
every width. -/
def Opnd.inRange (o : Opnd) (nregs : Nat) : Bool := o.r == 0 || decide (o.r.toNat + o.n ≤ nregs)

/-- The operand's base is aligned (R84, step 15 of R96). -/
def Opnd.aligned (o : Opnd) : Bool := o.r.toNat % o.al == 0

/-- The width in registers of an operand of a class 0 type (R117). -/
def IntTy.wide : IntTy → Bool
  | .i64 | .n64 => true
  | _ => false

/-- One register or a pair. -/
def Opnd.sized (wide : Bool) (r : Reg) : Opnd := if wide then .pair r else .one r

/-- Source B as an operand. -/
def Src.opnd (wide : Bool) : Src → List Opnd
  | .reg r => [.sized wide r]
  | .imm _ => []

def FTy.wide : FTy → Bool
  | .f64 => true
  | _ => false

def RTy.wide : RTy → Bool
  | .f64 | .i64 | .n64 => true
  | _ => false

def RTy.isFloat : RTy → Bool
  | .f32 | .f16x2 | .bf16x2 | .f64 => true
  | _ => false

def CvtInt.wide : CvtInt → Bool
  | .i64 | .n64 => true
  | _ => false

def FFmt.wideFmt : FFmt → Bool
  | .f32 | .f64 => true
  | _ => false

def AtTy.wide : AtTy → Bool
  | .i64 | .n64 | .f64 => true
  | _ => false

def AtTy.isInt : AtTy → Bool
  | .i32 | .n32 | .i64 | .n64 => true
  | _ => false

/-- The bytes of a memory access of size `sz` (R87). -/
def Size.bytes : Size → Nat
  | .n8 | .i8 => 1
  | .n16 | .i16 => 2
  | .b32 => 4
  | .b64 => 8
  | .b128 => 16

/-- The registers that hold a datum of size `sz` (R164). -/
def Size.regs : Size → Nat
  | .b64 => 2
  | .b128 => 4
  | _ => 1

/-- The data operand of an LD or ST (R164). -/
def Size.opnd (sz : Size) (r : Reg) : Opnd := ⟨r, sz.regs, sz.regs⟩

def Size.unsigned : Size → Bool
  | .i8 | .i16 => false
  | _ => true

/-- The register run of LDE and STE: 2^cN elements, doubled for FP64 in .s and .p; in .g decode takes the narrowest
width (R166, R378). -/
def elemRun (cn : BitVec 3) (fmt : BitVec 4) (d : Reg) : Opnd :=
  .run d (if fmt == 8 then 2 * 2 ^ cn.toNat else 2 ^ cn.toNat)

/-- The destination of FCVT (R148). -/
def fcvtDst (dst src : FFmt) (d : Reg) : Opnd :=
  match src.wideFmt, dst with
  | true, .f64 => .pair d
  | true, _ => .one d
  | false, .f32 => .pair d
  | false, .f64 => .quad d
  | false, _ => .one d

/-- Which 64-bit selectors of R265 there are. -/
def selWide (sel : BitVec 18) : Bool :=
  sel == 0x02 || sel == 0x03 || sel == 0x04 || sel == 0x12

def selKnown (sel : BitVec 18) : Bool :=
  decide (sel.toNat ≤ 5) || sel == 0x10 || sel == 0x11 || sel == 0x12

def selRO (sel : BitVec 18) : Bool := sel == 0x05 || sel == 0x10

/-- The width of a special value (R130). -/
def Sv.wide : Sv → Bool
  | .task | .arg | .clock => true
  | _ => false

def Space.notL : Space → Bool
  | .l => false
  | _ => true

/-- The register operands whose width the word itself fixes, at the width decode checks (R84, R378). -/
def Instr.opnds : Instr → List Opnd
  | .mov _ ty d a => [.sized ty.wide d, .sized ty.wide a]
  | .movi _ ty d _ => [.sized ty.wide d]
  | .movhi _ d a b => [.one d, .one a] ++ b.opnd false
  | .sel _ ty d a b _ => [.sized ty.wide d, .sized ty.wide a, .sized ty.wide b]
  | .iadd _ ty _ d a b | .isub _ ty _ d a b | .imul _ ty _ d a b | .imulh _ ty d a b | .imin _ ty d a b
  | .imax _ ty d a b | .ishl _ ty d a b | .ishr _ ty d a b | .isar _ ty d a b | .irot _ ty d a b | .and _ ty d a b
  | .or _ ty d a b | .xor _ ty d a b | .andn _ ty d a b | .bfx _ ty d a b =>
    [.sized ty.wide d, .sized ty.wide a] ++ b.opnd ty.wide
  | .imad _ ty _ d a b e => [.sized ty.wide d, .sized ty.wide a, .sized ty.wide b, .sized ty.wide e]
  | .imadw _ _ d a b e => [.pair d, .one a, .one b, .pair e]
  | .idiv _ ty _ d a b | .irem _ ty _ d a b => [.sized ty.wide d, .sized ty.wide a, .sized ty.wide b]
  | .iabs _ ty _ d a | .ineg _ ty _ d a | .not _ ty d a | .brev _ ty d a => [.sized ty.wide d, .sized ty.wide a]
  | .bfi _ ty d a b e => [.sized ty.wide d, .sized ty.wide a, .sized ty.wide b, .one e]
  | .popc _ ty d a | .clz _ ty d a | .ctz _ ty d a => [.one d, .sized ty.wide a]
  | .prmb _ d a b => [.one d, .pair a] ++ b.opnd false
  | .lea _ _ _ d a b => [.pair d, .pair a] ++ b.opnd false
  | .isetp _ ty _ _ a b => [.sized ty.wide a] ++ b.opnd ty.wide
  | .plop _ _ _ a _ => match a with
    | .pred _ => []
    | .reg r => [.one r]
  | .p2g _ d => [.one d]
  | .g2p _ _ g => [.one g]
  | .sread _ d v => [.sized v.wide d]
  | .brx _ g | .call _ g _ | .ret _ g => [.pair g]
  | .chkd _ pair g _ => [.sized pair g]
  | .fadd _ ty _ _ d a b | .fsub _ ty _ _ d a b | .fmul _ ty _ _ d a b | .fmin _ ty d a b | .fmax _ ty d a b =>
    [.sized ty.wide d, .sized ty.wide a] ++ b.opnd ty.wide
  | .ffma _ ty _ _ d a b e => [.sized ty.wide d, .sized ty.wide a, .sized ty.wide b, .sized ty.wide e]
  | .fsetp _ ty _ _ a b => [.sized ty.wide a] ++ b.opnd ty.wide
  | .fclass _ ty d a => [.one d, .sized ty.wide a]
  | .frnd _ ty _ _ d a => [.sized ty.wide d, .sized ty.wide a]
  | .fcvt _ dst src _ d a b =>
    [fcvtDst dst src d, .sized (src == .f64) a] ++
      (if src.wideFmt && !dst.wideFmt then [.sized (src == .f64) b] else [])
  | .icvt _ f2i flt int _ d a =>
    if f2i then [.sized int.wide d, .sized (flt == .f64) a] else [.sized (flt == .f64) d, .sized int.wide a]
  | .fscale _ ty _ d a b => [.sized ty.wide d, .sized ty.wide a, .one b]
  | .shfl _ wide _ d a b => [.sized wide d, .sized wide a] ++ b.opnd false
  | .vote _ mode d _ => match mode with
    | .ballot => [.one d]
    | _ => []
  | .gred _ ty _ _ d a | .gscan _ ty _ _ d a => [.sized ty.wide d, .sized ty.wide a]
  | .rand _ _ d a b => [.quad d, .pair a, .pair b]
  | .frcp _ _ d a | .frsq _ _ d a | .fsqrt _ _ d a | .fexp2 _ _ d a | .flog2 _ _ d a | .fsinpi _ _ d a
  | .fcospi _ _ d a | .ftanh _ _ d a => [.one d, .one a]
  | .fdiv _ _ d a b => [.one d, .one a, .one b]
  | .ldOff _ _ sz _ d a _ => [sz.opnd d, .pair a]
  | .ldIdx _ _ sz _ d a b => [sz.opnd d, .pair a, .one b]
  | .stOff _ _ sz d a _ => [sz.opnd d, .pair a]
  | .stIdx _ _ sz _ d a b => [sz.opnd d, .pair a, .one b]
  | .ldeOff _ cn d a _ | .steOff _ cn d a _ => [elemRun cn 0 d, .pair a]
  | .ldeIdx _ _ cn fmt d a b | .steIdx _ _ cn fmt d a b => [elemRun cn fmt d, .pair a, .one b]
  | .atom _ _ ty op _ d a b =>
    [.sized ty.wide d, .pair a, if op == .cas then (if ty.wide then .quad b else .pair b) else .sized ty.wide b]
  | .red _ _ ty _ key _ d a b => [.sized ty.wide d, .pair a] ++ (if key then [.one b] else [])
  | .waitm _ _ d a b t => [.one d, .pair a, .pair b, .one t]
  | .prefOff _ _ a _ | .cmntOff _ _ _ a _ => [.pair a]
  | .prefIdx _ _ a b | .cmntIdx _ _ _ a b => [.pair a, .one b]
  | .rbeg _ d a => [.one d, .pair a]
  | .nbarv _ _ b | .nbsync _ _ b | .bbexp _ _ b | .bbarv _ _ b => b.opnd false
  | .bbinit _ _ b => [.one b]
  | .tkreq _ _ d a _ => [.pair d, .pair a]
  | .tktry _ _ a | .tkwait _ a | .tkaban _ a | .tkrel _ a | .hodel _ a | .tdec _ a | .certw _ _ a => [.pair a]
  | .tkgive _ a b | .tkswap _ _ a b => [.pair a, .pair b]
  | .tkinfo _ d a => [.pair d, .pair a]
  | .honew _ d a => [.pair d, .one a]
  | .tspawn _ _ d a b e => [.pair d, .pair a, .pair b, .one e]
  | .tarm _ a b e => [.one a, .pair b, .one e]
  | .tdisarm _ _ a => [.one a]
  | .wbld _ a b e => [.pair a, .one b, .one e]
  | .mml _ _ a b => [.quad a, .pair b]
  | .mmlg _ _ a b t => [.quad a, .pair b, .one t]
  | .accz _ a | .cpy _ a | .cpym _ a | .cpyx _ a => [.one a]
  | .accrd _ n d a => [.run d (2 ^ n.toNat), .one a]
  | .accst _ _ _ _ a b e => [.one a, .one b, .one e]
  | .coll _ d a => [.pair d, .pair a]
  | .collq _ d a => [.quad d, .pair a]
  | .vpjinit _ a b e | .vpjmrg _ a b e => [.one a, .one b, .one e]
  | .vpjfin _ a b => [.one a, .one b]
  | .vpj _ a | .vsamp _ a | .vpjbwd _ a | .vtopk _ a | .vsmax _ a => [.one a]
  | .trapReg _ a | .tmaskReg _ a => [.one a]
  | .ctlrdReg _ d b | .ctlwrReg _ d b => [.one d, .one b]
  | .ctlrdImm _ d sl | .ctlwrImm _ d sl => [.sized (selWide sl) d]
  | .tlbiPage _ a => [.pair a]
  | .evrec _ a b => [.one a, .one b]
  | _ => []

/-- The named-barrier index of an instruction (R186). -/
def Instr.nbIndex : Instr → Option Reg
  | .nbinit _ n | .nbarv _ n _ | .nbsync _ n _ => some n
  | _ => none

/-- The byte-barrier index of an instruction (R186). -/
def Instr.bbIndex : Instr → Option Reg
  | .bbinit _ n _ | .bbexp _ n _ | .bbarv _ n _ | .bbwait _ n | .bbtest _ _ n => some n
  | _ => none

/-- An immediate of a packed VEC form is reserved (R140). -/
def FTy.srcOk (ty : FTy) : Src → Bool
  | .reg _ => true
  | .imm _ => ty == .f32 || ty == .f64

/-- The arithmetic set A of R120. -/
def IntTy.inA (ty : IntTy) : Bool := ty != .b32
/-- The shift set S of R120. -/
def IntTy.inS (ty : IntTy) : Bool := ty == .b32 || ty == .n64 || ty == .n16x2 || ty == .i8x4
/-- The bitwise set of R120. -/
def IntTy.inB (ty : IntTy) : Bool := ty == .b32 || ty == .n64
/-- The scalar integer set of R120. -/
def IntTy.inI (ty : IntTy) : Bool := ty == .i32 || ty == .n32 || ty == .i64 || ty == .n64

/-- An F1 immediate below a bound; a register always passes. -/
def Src.immBelow (n : Nat) : Src → Bool
  | .reg _ => true
  | .imm v => decide (v.toNat < n)

/-- LDE and STE: a format of 1 to 9 in .s and .p, none in .g; I4X needs count 128 (R166). -/
def elemOk (sp : Space) (cn : BitVec 3) (fmt : BitVec 4) : Bool :=
  match sp with
  | .g => fmt == 0
  | .l => false
  | _ => decide (1 ≤ fmt.toNat) && decide (fmt.toNat ≤ 9) && (fmt != 9 || cn == 7)

/-- The field values that R120 to R266 allow: step 11 of R96, read off the abstract instruction. -/
def Instr.fieldsOk : Instr → Bool
  | .mov _ ty _ _ | .sel _ ty _ _ _ _ | .not _ ty _ _ | .bfi _ ty _ _ _ _ | .popc _ ty _ _ | .clz _ ty _ _
  | .ctz _ ty _ _ | .brev _ ty _ _ => ty.inB
  | .movi _ ty _ _ => ty == .b32 || ty == .i64
  | .movhi _ _ _ b | .prmb _ _ _ b => b.immBelow 0x10000
  | .iadd _ ty _ _ _ _ | .isub _ ty _ _ _ _ | .imul _ ty _ _ _ _ | .imulh _ ty _ _ _ | .imad _ ty _ _ _ _ _
  | .imin _ ty _ _ _ | .imax _ ty _ _ _ => ty.inA
  | .imadw _ ty _ _ _ _ | .lea _ ty _ _ _ _ => ty == .i32 || ty == .n32
  | .idiv _ ty _ _ _ _ | .irem _ ty _ _ _ _ | .isetp _ ty _ _ _ _ => ty.inI
  | .iabs _ ty _ _ _ | .ineg _ ty _ _ _ => ty == .i32 || ty == .i64 || ty == .i16x2 || ty == .i8x4
  | .ishl _ ty _ _ b | .ishr _ ty _ _ b | .isar _ ty _ _ b | .irot _ ty _ _ b => ty.inS && b.immBelow 256
  | .and _ ty _ _ _ | .or _ ty _ _ _ | .xor _ ty _ _ _ | .andn _ ty _ _ _ => ty.inB
  | .bfx _ ty _ _ b => ty.inI && b.immBelow 0x10000
  | .fadd _ ty _ _ _ _ b | .fsub _ ty _ _ _ _ b | .fmul _ ty _ _ _ _ b | .fmin _ ty _ _ b | .fmax _ ty _ _ b =>
    ty.srcOk b
  | .fsetp _ ty _ _ _ b => (ty == .f32 || ty == .f64) && ty.srcOk b
  | .fcvt _ dst src _ _ _ _ => dst != src
  | .icvt _ _ flt _ _ _ _ => flt != .e4m3 && flt != .e5m2
  | .shfl _ _ _ _ _ b => b.immBelow 64
  | .vote _ mode d _ => mode == .ballot || decide (d.toNat < 8)
  | .gred _ ty op rm _ _ | .gscan _ ty op rm _ _ =>
    (op == .add || op == .min || op == .max || !ty.isFloat) && (rm == .rne || (op == .add && ty.isFloat))
  | .stOff _ _ sz _ _ _ | .stIdx _ _ sz _ _ _ _ | .prefOff _ sz _ _ | .prefIdx _ sz _ _ | .cmntOff _ sz _ _ _
  | .cmntIdx _ sz _ _ _ => sz.unsigned
  | .ldeIdx _ sp cn fmt _ _ _ | .steIdx _ sp cn fmt _ _ _ => elemOk sp cn fmt
  | .atom _ sp ty op _ _ _ _ => sp.notL && (!(op == .and || op == .or || op == .xor) || ty.isInt)
  | .red _ sp ty op key _ _ _ _ =>
    sp.notL && (!(op == .and || op == .or || op == .xor) || ty.isInt) && op != .exch && op != .cas && (!key || sp == .g)
  | .accrd _ n _ _ => n != 7
  | .tmaskImm _ imm => decide (imm.toNat < 2)
  | .ctlrdImm _ _ sl => selKnown sl
  | .ctlwrImm _ _ sl => selKnown sl && !selRO sl
  | _ => true

/-- A field that the word must leave 0, and RBEG's status register, which must not be g0 (R177; step 12 of R96). -/
def Instr.unusedOk : Instr → Bool
  | .fcvt _ dst src _ _ _ b => (src.wideFmt && !dst.wideFmt) || b == 0
  | .red _ _ _ _ key _ _ _ b => key || b == 0
  | .rbeg _ d _ => d != 0
  | _ => true

/-- The scheduling fields of an instruction word; an event has none. -/
def Instr.ctl : Instr → Option Ctl
  | .nop c | .mov c _ _ _ | .movi c _ _ _ | .movhi c _ _ _ | .sel c _ _ _ _ _ | .iadd c _ _ _ _ _ | .isub c _ _ _ _ _
  | .imul c _ _ _ _ _ | .imulh c _ _ _ _ | .imad c _ _ _ _ _ _ | .imadw c _ _ _ _ _ | .idiv c _ _ _ _ _
  | .irem c _ _ _ _ _ | .iabs c _ _ _ _ | .ineg c _ _ _ _ | .imin c _ _ _ _ | .imax c _ _ _ _ | .ishl c _ _ _ _
  | .ishr c _ _ _ _ | .isar c _ _ _ _ | .irot c _ _ _ _ | .and c _ _ _ _ | .or c _ _ _ _ | .xor c _ _ _ _
  | .not c _ _ _ | .andn c _ _ _ _ | .bfx c _ _ _ _ | .bfi c _ _ _ _ _ | .popc c _ _ _ | .clz c _ _ _ | .ctz c _ _ _
  | .brev c _ _ _ | .prmb c _ _ _ | .lea c _ _ _ _ _ | .isetp c _ _ _ _ _ | .plop c _ _ _ _ | .p2g c _ | .g2p c _ _
  | .sread c _ _ | .bra c _ | .brx c _ | .call c _ _ | .ret c _ | .exit c | .yield c | .chkd c _ _ _
  | .fadd c _ _ _ _ _ _ | .fsub c _ _ _ _ _ _ | .fmul c _ _ _ _ _ _ | .ffma c _ _ _ _ _ _ _ | .fmin c _ _ _ _
  | .fmax c _ _ _ _ | .fsetp c _ _ _ _ _ | .fclass c _ _ _ | .frnd c _ _ _ _ _ | .fcvt c _ _ _ _ _ _
  | .icvt c _ _ _ _ _ _ | .fscale c _ _ _ _ _ | .shfl c _ _ _ _ _ | .vote c _ _ _ | .gred c _ _ _ _ _
  | .gscan c _ _ _ _ _ | .rand c _ _ _ _ | .frcp c _ _ _ | .frsq c _ _ _ | .fsqrt c _ _ _ | .fdiv c _ _ _ _
  | .fexp2 c _ _ _ | .flog2 c _ _ _ | .fsinpi c _ _ _ | .fcospi c _ _ _ | .ftanh c _ _ _ | .ldOff c _ _ _ _ _ _
  | .ldIdx c _ _ _ _ _ _ | .stOff c _ _ _ _ _ | .stIdx c _ _ _ _ _ _ | .ldeOff c _ _ _ _ | .ldeIdx c _ _ _ _ _ _
  | .steOff c _ _ _ _ | .steIdx c _ _ _ _ _ _ | .atom c _ _ _ _ _ _ _ | .red c _ _ _ _ _ _ _ _ | .fence c _ _
  | .waitm c _ _ _ _ _ | .prefOff c _ _ _ | .prefIdx c _ _ _ | .cmntOff c _ _ _ _ | .cmntIdx c _ _ _ _ | .rbeg c _ _
  | .rcmt c | .rabt c | .nbinit c _ | .nbarv c _ _ | .nbsync c _ _ | .bbinit c _ _ | .bbexp c _ _ | .bbarv c _ _
  | .bbwait c _ | .bbtest c _ _ | .tkreq c _ _ _ _ | .tktry c _ _ | .tkwait c _ | .tkgive c _ _ | .tkswap c _ _ _
  | .tkaban c _ | .tkrel c _ | .tkinfo c _ _ | .honew c _ _ | .hodel c _ | .tspawn c _ _ _ _ _ | .tdec c _
  | .tarm c _ _ _ | .tdisarm c _ _ | .certw c _ _ | .wbld c _ _ _ | .mml c _ _ _ | .mmlg c _ _ _ _ | .accz c _
  | .accrd c _ _ _ | .accst c _ _ _ _ _ _ | .cpy c _ | .cpym c _ | .cpyx c _ | .coll c _ _ | .collq c _ _
  | .vpjinit c _ _ _ | .vpj c _ | .vpjmrg c _ _ _ | .vpjfin c _ _ | .vsamp c _ | .vpjbwd c _ | .vtopk c _ | .vsmax c _
  | .trapReg c _ | .trapImm c _ | .rtt c | .tmaskReg c _ | .tmaskImm c _ | .ctlrdReg c _ _ | .ctlrdImm c _ _
  | .ctlwrReg c _ _ | .ctlwrImm c _ _ | .tlbiPage c _ | .tlbiAll c | .bkpt c _ | .evrec c _ _ => some c
  | _ => none

/-- Step 13 of R96: PRED = 0 with PNEG = 1 is reserved. -/
def Ctl.guardOk (c : Ctl) : Bool := !(c.pred == 0 && c.pneg)

/-- A well-formed instruction: every static check of R96 passes in a thread of 512 registers whose team declares every
barrier. Events pass. -/
def Instr.wf (i : Instr) : Bool :=
  match i.ctl with
  | none => true
  | some c =>
    i.fieldsOk && i.unusedOk && c.guardOk && i.opnds.all (fun o => o.inRange 512) && i.opnds.all Opnd.aligned &&
      (match i.nbIndex with
        | some n => decide (n.toNat < 48)
        | none => true) &&
      (match i.bbIndex with
        | some n => decide (n.toNat < 32)
        | none => true)

/-- An instruction word, rather than an event of the machine. -/
def Instr.isWord (i : Instr) : Bool := i.ctl.isSome

end Sys2Proof
end

