-- ==== Sys2Proof/Decode.lean ====
section
/-! DEFINITION. Decoding of a 64-bit instruction word (R81 to R88, R95, R96), the encoder written from the same tables,
and the clause header of R77. Decoding is total: a word is an instruction, or it is refused with the trap and the reason
of R96. -/

namespace Sys2Proof

/-- A refused word: CLAUSE or ILLEGAL, and tx.info[7:0] (R96). -/
structure DecTrap where
  clause : Bool
  reason : Nat
  deriving DecidableEq, Repr

/-- What decoding needs from around the word: the clause's class, whether the word is its last, the thread's allocation
and the team's declared barrier counts (R96). -/
structure DecCtx where
  ecls : BitVec 4
  last : Bool
  regs : Nat
  nbc : Nat
  bbc : Nat
  deriving DecidableEq, Repr

/-- The fields of an instruction word (R81). -/
structure Fields where
  ver : BitVec 2
  sw : Bool
  keep : BitVec 2
  pneg : Bool
  pred : BitVec 3
  opc : BitVec 10
  d : Reg
  a : Reg
  b : Reg
  s : Reg
  m : Reg
  deriving DecidableEq, Repr

/-- The word that holds the fields (R81). -/
def Fields.pack (f : Fields) : DWord :=
  f.ver ++ BitVec.ofBool f.sw ++ f.keep ++ BitVec.ofBool f.pneg ++ f.pred ++ f.opc ++ f.d ++ f.a ++ f.b ++ f.s ++ f.m

/-- The fields that a word holds (R81). -/
def Fields.unpack (w : DWord) : Fields where
  ver := w.extractLsb' 62 2
  sw := w.getLsbD 61
  keep := w.extractLsb' 59 2
  pneg := w.getLsbD 58
  pred := w.extractLsb' 55 3
  opc := w.extractLsb' 45 10
  d := w.extractLsb' 36 9
  a := w.extractLsb' 27 9
  b := w.extractLsb' 18 9
  s := w.extractLsb' 9 9
  m := w.extractLsb' 0 9

/-- MOD[8], the immediate select (R85). -/
def Fields.i (f : Fields) : Bool := f.m.getLsbD 8
/-- MOD[7:5]. -/
def Fields.m7 (f : Fields) : BitVec 3 := f.m.extractLsb' 5 3
/-- MOD[4:3]. -/
def Fields.m4 (f : Fields) : BitVec 2 := f.m.extractLsb' 3 2
/-- MOD[2:0]. -/
def Fields.m2 (f : Fields) : BitVec 3 := f.m.extractLsb' 0 3
/-- MOD[7:6] of class 3 (R87). -/
def Fields.m6 (f : Fields) : BitVec 2 := f.m.extractLsb' 6 2
/-- MOD[5:3] of class 3 (R87). -/
def Fields.m5 (f : Fields) : BitVec 3 := f.m.extractLsb' 3 3
/-- IMM18 and OFF18 (R85). -/
def Fields.imm18 (f : Fields) : BitVec 18 := f.b ++ f.s
/-- IMM27 (R85). -/
def Fields.imm27 (f : Fields) : BitVec 27 := f.a ++ f.b ++ f.s

/-- MOD from its parts (R86). -/
def modw (i : Bool) (t : BitVec 3) (r : BitVec 2) (l : BitVec 3) : Reg := BitVec.ofBool i ++ t ++ r ++ l
/-- MOD of a class 3 word from its parts (R87). -/
def modm (i : Bool) (sp : BitVec 2) (z : BitVec 3) (l : BitVec 3) : Reg := BitVec.ofBool i ++ sp ++ z ++ l

/-- Source B by the I bit (R85). -/
def Fields.src (f : Fields) : Src := if f.i then .imm f.imm18 else .reg f.b
/-- SC is unused beside a register source B; an immediate takes both fields. -/
def Fields.srcZ (f : Fields) : Bool := f.i || f.s == 0
/-- A predicate field (R96: bits [8:3] must be 0). -/
def predF (r : Reg) : Bool := r.extractLsb' 3 6 == 0
/-- The predicate that a field names. -/
def predOf (r : Reg) : PredIx := r.extractLsb' 0 3
/-- The field of a predicate. -/
def predR (p : PredIx) : Reg := p.setWidth 9

/-! ### Code tables -/

def IntTy.ofCode (c : BitVec 3) : IntTy :=
  match c.toNat with
  | 0 => .i32 | 1 => .n32 | 2 => .i64 | 3 => .n64 | 4 => .i16x2 | 5 => .n16x2 | 6 => .i8x4 | _ => .b32

def IntTy.code : IntTy → BitVec 3
  | .i32 => 0 | .n32 => 1 | .i64 => 2 | .n64 => 3 | .i16x2 => 4 | .n16x2 => 5 | .i8x4 => 6 | .b32 => 7

def Rm.ofCode (c : BitVec 2) : Rm :=
  match c.toNat with
  | 0 => .rne | 1 => .rz | 2 => .ru | _ => .rd

def Rm.code : Rm → BitVec 2
  | .rne => 0 | .rz => 1 | .ru => 2 | .rd => 3

def ICmp.ofCode? (c : BitVec 3) : Option ICmp :=
  match c.toNat with
  | 0 => some .eq | 1 => some .ne | 2 => some .lt | 3 => some .le | 4 => some .gt | 5 => some .ge | _ => none

def ICmp.code : ICmp → BitVec 3
  | .eq => 0 | .ne => 1 | .lt => 2 | .le => 3 | .gt => 4 | .ge => 5

def FTy.ofCode? (c : BitVec 3) : Option FTy :=
  match c.toNat with
  | 0 => some .f32 | 1 => some .f16x2 | 2 => some .bf16x2 | 3 => some .f64 | _ => none

def FTy.code : FTy → BitVec 3
  | .f32 => 0 | .f16x2 => 1 | .bf16x2 => 2 | .f64 => 3

def FSat.ofCode? (c : BitVec 3) : Option FSat :=
  match c.toNat with
  | 0 => some .none | 1 => some .satf | 2 => some .sat01 | _ => Option.none

def FSat.code : FSat → BitVec 3
  | .none => 0 | .satf => 1 | .sat01 => 2

def FCmp.ofCode (c : BitVec 3) : FCmp :=
  match c.toNat with
  | 0 => .eq | 1 => .ne | 2 => .lt | 3 => .le | 4 => .gt | 5 => .ge | 6 => .num | _ => .nan

def FCmp.code : FCmp → BitVec 3
  | .eq => 0 | .ne => 1 | .lt => 2 | .le => 3 | .gt => 4 | .ge => 5 | .num => 6 | .nan => 7

def FFmt.ofCode? (c : BitVec 3) : Option FFmt :=
  match c.toNat with
  | 0 => some .f32 | 1 => some .f16 | 2 => some .bf16 | 3 => some .f64 | 4 => some .e4m3 | 5 => some .e5m2 | _ => none

def FFmt.code : FFmt → BitVec 3
  | .f32 => 0 | .f16 => 1 | .bf16 => 2 | .f64 => 3 | .e4m3 => 4 | .e5m2 => 5

def CvtInt.ofCode (c : BitVec 2) : CvtInt :=
  match c.toNat with
  | 0 => .i32 | 1 => .n32 | 2 => .i64 | _ => .n64

def CvtInt.code : CvtInt → BitVec 2
  | .i32 => 0 | .n32 => 1 | .i64 => 2 | .n64 => 3

def ShflMode.ofCode? (c : BitVec 3) : Option ShflMode :=
  match c.toNat with
  | 0 => some .idx | 1 => some .up | 2 => some .down | 3 => some .xor | _ => none

def ShflMode.code : ShflMode → BitVec 3
  | .idx => 0 | .up => 1 | .down => 2 | .xor => 3

def VoteMode.ofCode? (c : BitVec 3) : Option VoteMode :=
  match c.toNat with
  | 0 => some .ballot | 1 => some .all | 2 => some .any | _ => none

def VoteMode.code : VoteMode → BitVec 3
  | .ballot => 0 | .all => 1 | .any => 2

def RTy.ofCode (c : BitVec 3) : RTy :=
  match c.toNat with
  | 0 => .f32 | 1 => .f16x2 | 2 => .bf16x2 | 3 => .f64 | 4 => .i32 | 5 => .n32 | 6 => .i64 | _ => .n64

def RTy.code : RTy → BitVec 3
  | .f32 => 0 | .f16x2 => 1 | .bf16x2 => 2 | .f64 => 3 | .i32 => 4 | .n32 => 5 | .i64 => 6 | .n64 => 7

def ROp.ofCode? (c : BitVec 3) : Option ROp :=
  match c.toNat with
  | 0 => some .add | 1 => some .min | 2 => some .max | 3 => some .and | 4 => some .or | 5 => some .xor | _ => none

def ROp.code : ROp → BitVec 3
  | .add => 0 | .min => 1 | .max => 2 | .and => 3 | .or => 4 | .xor => 5

def Sv.ofCode? (c : BitVec 18) : Option Sv :=
  match c.toNat with
  | 0 => some .lane | 1 => some .group | 2 => some .team | 3 => some .core | 4 => some .die | 5 => some .pkg
  | 6 => some .cell | 7 => some .task | 8 => some .arg | 9 => some .clock | 10 => some .width | 11 => some .mirror
  | _ => none

def Sv.code : Sv → BitVec 18
  | .lane => 0 | .group => 1 | .team => 2 | .core => 3 | .die => 4 | .pkg => 5 | .cell => 6 | .task => 7 | .arg => 8
  | .clock => 9 | .width => 10 | .mirror => 11

def Space.ofCode (c : BitVec 2) : Space :=
  match c.toNat with
  | 0 => .g | 1 => .s | 2 => .p | _ => .l

def Space.code : Space → BitVec 2
  | .g => 0 | .s => 1 | .p => 2 | .l => 3

def Size.ofCode? (c : BitVec 3) : Option Size :=
  match c.toNat with
  | 0 => some .n8 | 1 => some .i8 | 2 => some .n16 | 3 => some .i16 | 4 => some .b32 | 5 => some .b64 | 6 => some .b128
  | _ => none

def Size.code : Size → BitVec 3
  | .n8 => 0 | .i8 => 1 | .n16 => 2 | .i16 => 3 | .b32 => 4 | .b64 => 5 | .b128 => 6

def Scope.ofCode? (c : BitVec 3) : Option Scope :=
  match c.toNat with
  | 1 => some .grp | 2 => some .team | 3 => some .pkg | 4 => some .cell | 5 => some .space | _ => none

def Scope.code : Scope → BitVec 3
  | .grp => 1 | .team => 2 | .pkg => 3 | .cell => 4 | .space => 5

def LdOrd.ofCode? (o sc : BitVec 3) : Option LdOrd :=
  match o.toNat with
  | 0 => if sc = 0 then some .plain else none
  | 1 => (Scope.ofCode? sc).map .acq
  | 4 => if sc = 0 then some .spec else none
  | _ => none

def LdOrd.code : LdOrd → BitVec 3 × BitVec 3
  | .plain => (0, 0) | .acq s => (1, s.code) | .spec => (4, 0)

/-- The release of a store: order 0 with no scope, or order 2 with one (R87). -/
def relOfCode? (o sc : BitVec 3) : Option (Option Scope) :=
  match o.toNat with
  | 0 => if sc = 0 then some none else none
  | 2 => (Scope.ofCode? sc).map some
  | _ => none

def relCode : Option Scope → BitVec 3 × BitVec 3
  | none => (0, 0) | some s => (2, s.code)

def AtOrd.ofCode? (o sc : BitVec 3) : Option AtOrd :=
  match o.toNat with
  | 0 => if sc = 0 then some .plain else none
  | 1 => (Scope.ofCode? sc).map .acq
  | 2 => (Scope.ofCode? sc).map .rel
  | 3 => (Scope.ofCode? sc).map .acqRel
  | _ => none

def AtOrd.code : AtOrd → BitVec 3 × BitVec 3
  | .plain => (0, 0) | .acq s => (1, s.code) | .rel s => (2, s.code) | .acqRel s => (3, s.code)

def AtTy.ofCode (c : BitVec 3) : AtTy :=
  match c.toNat with
  | 0 => .i32 | 1 => .n32 | 2 => .i64 | 3 => .n64 | 4 => .f32 | 5 => .f64 | 6 => .f16x2 | _ => .bf16x2

def AtTy.code : AtTy → BitVec 3
  | .i32 => 0 | .n32 => 1 | .i64 => 2 | .n64 => 3 | .f32 => 4 | .f64 => 5 | .f16x2 => 6 | .bf16x2 => 7

def AtOp.ofCode? (c : BitVec 5) : Option AtOp :=
  match c.toNat with
  | 0 => some .add | 1 => some .min | 2 => some .max | 3 => some .and | 4 => some .or | 5 => some .xor
  | 6 => some .exch | 7 => some .cas | _ => none

def AtOp.code : AtOp → BitVec 5
  | .add => 0 | .min => 1 | .max => 2 | .and => 3 | .or => 4 | .xor => 5 | .exch => 6 | .cas => 7

def FenceKind.ofCode? (c : BitVec 3) : Option FenceKind :=
  match c.toNat with
  | 0 => some .ld | 1 => some .st | 2 => some .all | _ => none

def FenceKind.code : FenceKind → BitVec 3
  | .ld => 0 | .st => 1 | .all => 2

def CmntOp.ofCode? (c : Reg) : Option CmntOp :=
  match c.toNat with
  | 0 => some .inv | 1 => some .wb | 2 => some .evict | _ => none

def CmntOp.code : CmntOp → Reg
  | .inv => 0 | .wb => 1 | .evict => 2

/-- The A format with the space bit (R207): .g takes format 0, .s one of 2 to 6. -/
def AFmt.ofCode? (c : BitVec 4) (g : Bool) : Option AFmt :=
  match c.toNat with
  | 0 => if g then some .page else none
  | 2 => if g then none else some .f16
  | 3 => if g then none else some .bf16
  | 4 => if g then none else some .e4m3
  | 5 => if g then none else some .e5m2
  | 6 => if g then none else some .i8
  | _ => none

def AFmt.code : AFmt → BitVec 4 × Bool
  | .page => (0, true) | .f16 => (2, false) | .bf16 => (3, false) | .e4m3 => (4, false) | .e5m2 => (5, false)
  | .i8 => (6, false)

def StFmt.ofCode? (c : BitVec 4) : Option StFmt :=
  match c.toNat with
  | 1 => some .f32 | 2 => some .f16 | 3 => some .bf16 | 4 => some .e4m3 | 5 => some .e5m2 | 6 => some .i8
  | 7 => some .i32 | _ => none

def StFmt.code : StFmt → BitVec 4
  | .f32 => 1 | .f16 => 2 | .bf16 => 3 | .e4m3 => 4 | .e5m2 => 5 | .i8 => 6 | .i32 => 7

/-! ### The opcode map (R95) -/

/-- How many indexes a class has. -/
def classSize (cls : BitVec 3) : Nat :=
  match cls.toNat with
  | 0 => 46 | 1 => 17 | 2 => 9 | 3 => 13 | 4 => 23 | 5 => 19 | 6 => 8 | _ => 0

/-- Whether an opcode has an immediate form, and whether it has no other (R95). -/
inductive ImmForm
  | no | may | only
  deriving DecidableEq, Repr

def immForm (cls : BitVec 3) (ix : BitVec 7) : ImmForm :=
  match cls.toNat, ix.toNat with
  | 0, 2 | 0, 38 | 0, 39 | 0, 41 | 0, 45 => .only
  | 0, 3 | 0, 5 | 0, 6 | 0, 7 | 0, 8 | 0, 15 | 0, 16 | 0, 17 | 0, 18 | 0, 19 | 0, 20 | 0, 21 | 0, 22 | 0, 23 | 0, 25
  | 0, 26 | 0, 32 | 0, 33 | 0, 34 => .may
  | 1, 0 | 1, 1 | 1, 2 | 1, 4 | 1, 5 | 1, 6 | 1, 12 => .may
  | 3, 0 | 3, 1 | 3, 2 | 3, 3 | 3, 8 | 3, 9 => .may
  | 4, 1 | 4, 2 | 4, 4 | 4, 5 => .may
  | 6, 0 | 6, 2 | 6, 3 | 6, 4 => .may
  | _, _ => .no

/-- The instructions that must stand last in their clause (R79). -/
def mustBeLast (cls : BitVec 3) (ix : BitVec 7) : Bool :=
  match cls.toNat, ix.toNat with
  | 0, 39 | 0, 40 | 0, 41 | 0, 42 | 0, 43 | 0, 45 | 6, 1 => true
  | _, _ => false

/-- The result of reading a word's fields as one opcode: `none` where a value is reserved (step 11 of R96), else the
instruction and whether every unused field is 0 (step 12). -/
abbrev Parsed := Option (Instr × Bool)

/-- An instruction whose MOD[7:0] holds nothing outside `mask`, and whose unused fields are `z`. -/
def Fields.ret (f : Fields) (mask : Reg) (i : Instr) (z : Bool) : Parsed :=
  if f.m &&& 0xFF &&& (~~~ mask) = 0 then some (i, z) else none

def parseInt (ix : Nat) (c : Ctl) (f : Fields) : Parsed :=
  let t := IntTy.ofCode f.m7
  let sat := f.m.getLsbD 0
  match ix with
  | 0 => f.ret 0 (.nop c) (f.d == 0 && f.a == 0 && f.b == 0 && f.s == 0)
  | 1 => f.ret 0xE0 (.mov c t f.d f.a) (f.b == 0 && f.s == 0)
  | 2 => f.ret 0xE0 (.movi c t f.d f.imm27) true
  | 3 => f.ret 0 (.movhi c f.d f.a f.src) f.srcZ
  | 4 => if predF f.s then f.ret 0xE0 (.sel c t f.d f.a f.b (predOf f.s)) true else none
  | 5 => f.ret 0xE1 (.iadd c t sat f.d f.a f.src) f.srcZ
  | 6 => f.ret 0xE1 (.isub c t sat f.d f.a f.src) f.srcZ
  | 7 => f.ret 0xE1 (.imul c t sat f.d f.a f.src) f.srcZ
  | 8 => f.ret 0xE0 (.imulh c t f.d f.a f.src) f.srcZ
  | 9 => f.ret 0xE1 (.imad c t sat f.d f.a f.b f.s) true
  | 10 => f.ret 0xE0 (.imadw c t f.d f.a f.b f.s) true
  | 11 => f.ret 0xF8 (.idiv c t (Rm.ofCode f.m4) f.d f.a f.b) (f.s == 0)
  | 12 => f.ret 0xF8 (.irem c t (Rm.ofCode f.m4) f.d f.a f.b) (f.s == 0)
  | 13 => f.ret 0xE1 (.iabs c t sat f.d f.a) (f.b == 0 && f.s == 0)
  | 14 => f.ret 0xE1 (.ineg c t sat f.d f.a) (f.b == 0 && f.s == 0)
  | 15 => f.ret 0xE0 (.imin c t f.d f.a f.src) f.srcZ
  | 16 => f.ret 0xE0 (.imax c t f.d f.a f.src) f.srcZ
  | 17 => f.ret 0xE0 (.ishl c t f.d f.a f.src) f.srcZ
  | 18 => f.ret 0xE0 (.ishr c t f.d f.a f.src) f.srcZ
  | 19 => f.ret 0xE0 (.isar c t f.d f.a f.src) f.srcZ
  | 20 => f.ret 0xE0 (.irot c t f.d f.a f.src) f.srcZ
  | 21 => f.ret 0xE0 (.and c t f.d f.a f.src) f.srcZ
  | 22 => f.ret 0xE0 (.or c t f.d f.a f.src) f.srcZ
  | 23 => f.ret 0xE0 (.xor c t f.d f.a f.src) f.srcZ
  | 24 => f.ret 0xE0 (.not c t f.d f.a) (f.b == 0 && f.s == 0)
  | 25 => f.ret 0xE0 (.andn c t f.d f.a f.src) f.srcZ
  | 26 => f.ret 0xE0 (.bfx c t f.d f.a f.src) f.srcZ
  | 27 => f.ret 0xE0 (.bfi c t f.d f.a f.b f.s) true
  | 28 => f.ret 0xE0 (.popc c t f.d f.a) (f.b == 0 && f.s == 0)
  | 29 => f.ret 0xE0 (.clz c t f.d f.a) (f.b == 0 && f.s == 0)
  | 30 => f.ret 0xE0 (.ctz c t f.d f.a) (f.b == 0 && f.s == 0)
  | 31 => f.ret 0xE0 (.brev c t f.d f.a) (f.b == 0 && f.s == 0)
  | 32 => f.ret 0 (.prmb c f.d f.a f.src) f.srcZ
  | 33 => f.ret 0xE7 (.lea c t f.m2 f.d f.a f.src) f.srcZ
  | 34 =>
    if predF f.d then
      match ICmp.ofCode? f.m2 with
      | some cc => f.ret 0xE7 (.isetp c t cc (predOf f.d) f.a f.src) f.srcZ
      | none => none
    else none
  | 35 =>
    if predF f.d && predF f.b && (f.m.getLsbD 4 || predF f.a) then
      f.ret 0x1F (.plop c (f.m.extractLsb' 0 4) (predOf f.d)
        (if f.m.getLsbD 4 then .reg f.a else .pred (predOf f.a)) (predOf f.b)) (f.s == 0)
    else none
  | 36 => f.ret 0 (.p2g c f.d) (f.a == 0 && f.b == 0 && f.s == 0)
  | 37 => f.ret 0xFE (.g2p c (f.m.extractLsb' 1 7) f.d) (f.a == 0 && f.b == 0 && f.s == 0)
  | 38 =>
    match Sv.ofCode? f.imm18 with
    | some v => f.ret 0 (.sread c f.d v) (f.a == 0)
    | none => none
  | 39 => f.ret 0 (.bra c f.imm27) (f.d == 0)
  | 40 => f.ret 0 (.brx c f.d) (f.a == 0 && f.b == 0 && f.s == 0)
  | 41 => f.ret 0 (.call c f.d f.imm27) true
  | 42 => f.ret 0 (.ret c f.d) (f.a == 0 && f.b == 0 && f.s == 0)
  | 43 => f.ret 0 (.exit c) (f.d == 0 && f.a == 0 && f.b == 0 && f.s == 0)
  | 44 => f.ret 0 (.yield c) (f.d == 0 && f.a == 0 && f.b == 0 && f.s == 0)
  | _ => f.ret 1 (.chkd c sat f.d f.imm18) (f.a == 0)

/-- The three-operand arithmetic of R142. -/
def parseArith (k : FTy → Rm → FSat → Instr) (f : Fields) (z : Bool) : Parsed :=
  match FTy.ofCode? f.m7, FSat.ofCode? f.m2 with
  | some t, some s => some (k t (Rm.ofCode f.m4) s, z)
  | _, _ => none

/-- An opcode of R142 whose MOD[4:0] holds nothing outside `mask`. -/
def parseF (k : FTy → Instr) (f : Fields) (mask : Reg) (z : Bool) : Parsed :=
  match FTy.ofCode? f.m7 with
  | some t => f.ret (0xE0 ||| mask) (k t) z
  | none => none

def parseVec (ix : Nat) (c : Ctl) (f : Fields) : Parsed :=
  let rm := Rm.ofCode f.m4
  match ix with
  | 0 => parseArith (fun t r s => .fadd c t r s f.d f.a f.src) f f.srcZ
  | 1 => parseArith (fun t r s => .fsub c t r s f.d f.a f.src) f f.srcZ
  | 2 => parseArith (fun t r s => .fmul c t r s f.d f.a f.src) f f.srcZ
  | 3 => parseArith (fun t r s => .ffma c t r s f.d f.a f.b f.s) f true
  | 4 => parseF (fun t => .fmin c t f.d f.a f.src) f 0 f.srcZ
  | 5 => parseF (fun t => .fmax c t f.d f.a f.src) f 0 f.srcZ
  | 6 =>
    if predF f.d then parseF (fun t => .fsetp c t (FCmp.ofCode f.m2) (predOf f.d) f.a f.src) f 7 f.srcZ else none
  | 7 => parseF (fun t => .fclass c t f.d f.a) f 0 (f.b == 0 && f.s == 0)
  | 8 => parseF (fun t => .frnd c t rm (f.m.getLsbD 0) f.d f.a) f 0x19 (f.b == 0 && f.s == 0)
  | 9 =>
    match FFmt.ofCode? f.m7, FFmt.ofCode? f.m2 with
    | some dst, some src => some (.fcvt c dst src rm f.d f.a f.b, f.s == 0)
    | _, _ => none
  | 10 =>
    match FFmt.ofCode? f.m7 with
    | some flt => some (.icvt c (f.m.getLsbD 2) flt (CvtInt.ofCode (f.m.extractLsb' 0 2)) rm f.d f.a, f.b == 0 && f.s == 0)
    | none => none
  | 11 => parseF (fun t => .fscale c t rm f.d f.a f.b) f 0x18 (f.s == 0)
  | 12 =>
    match ShflMode.ofCode? f.m2, f.m7.toNat with
    | some md, 0 => f.ret 0xE7 (.shfl c false md f.d f.a f.src) f.srcZ
    | some md, 3 => f.ret 0xE7 (.shfl c true md f.d f.a f.src) f.srcZ
    | _, _ => none
  | 13 =>
    match VoteMode.ofCode? f.m2 with
    | some md =>
      if predF f.a then f.ret 7 (.vote c md f.d (predOf f.a)) (f.b == 0 && f.s == 0) else none
    | none => none
  | 14 =>
    match ROp.ofCode? f.m2 with
    | some op => some (.gred c (RTy.ofCode f.m7) op rm f.d f.a, f.b == 0 && f.s == 0)
    | none => none
  | 15 =>
    match ROp.ofCode? f.m2 with
    | some op => some (.gscan c (RTy.ofCode f.m7) op rm f.d f.a, f.b == 0 && f.s == 0)
    | none => none
  | _ => some (.rand c (f.m.extractLsb' 0 8) f.d f.a f.b, f.s == 0)

def parseSfu (ix : Nat) (c : Ctl) (f : Fields) : Parsed :=
  let rm := Rm.ofCode f.m4
  let z := f.b == 0 && f.s == 0
  match ix with
  | 0 => f.ret 0x18 (.frcp c rm f.d f.a) z
  | 1 => f.ret 0x18 (.frsq c rm f.d f.a) z
  | 2 => f.ret 0x18 (.fsqrt c rm f.d f.a) z
  | 3 => f.ret 0x18 (.fdiv c rm f.d f.a f.b) (f.s == 0)
  | 4 => f.ret 0x18 (.fexp2 c rm f.d f.a) z
  | 5 => f.ret 0x18 (.flog2 c rm f.d f.a) z
  | 6 => f.ret 0x18 (.fsinpi c rm f.d f.a) z
  | 7 => f.ret 0x18 (.fcospi c rm f.d f.a) z
  | _ => f.ret 0x18 (.ftanh c rm f.d f.a) z

/-- MOD2 of the register-index form that carries nothing but a scope (R87). -/
def Fields.scopeOnly (f : Fields) : Bool := f.s.extractLsb' 3 6 == 0
/-- The scope code of MOD2 (R87). -/
def Fields.sc2 (f : Fields) : BitVec 3 := f.s.extractLsb' 0 3

def parseMem (ix : Nat) (c : Ctl) (f : Fields) : Parsed :=
  let sp := Space.ofCode f.m6
  match ix with
  | 0 =>
    match Size.ofCode? f.m5 with
    | none => none
    | some sz =>
      if f.i then
        match LdOrd.ofCode? f.m2 0 with
        | some .plain => some (.ldOff c sp sz false f.d f.a f.imm18, true)
        | some .spec => some (.ldOff c sp sz true f.d f.a f.imm18, true)
        | _ => none
      else
        match f.scopeOnly, LdOrd.ofCode? f.m2 f.sc2 with
        | true, some o => some (.ldIdx c sp sz o f.d f.a f.b, true)
        | _, _ => none
  | 1 =>
    match Size.ofCode? f.m5 with
    | none => none
    | some sz =>
      if f.i then (if f.m2 = 0 then some (.stOff c sp sz f.d f.a f.imm18, true) else none)
      else
        match f.scopeOnly, relOfCode? f.m2 f.sc2 with
        | true, some r => some (.stIdx c sp sz r f.d f.a f.b, true)
        | _, _ => none
  | 2 =>
    if f.m2 ≠ 0 then none
    else if f.i then (if sp = .g then some (.ldeOff c f.m5 f.d f.a f.imm18, true) else none)
    else if f.s &&& 0x187 = 0 then some (.ldeIdx c sp f.m5 (f.s.extractLsb' 3 4) f.d f.a f.b, true) else none
  | 3 =>
    if f.m2 ≠ 0 then none
    else if f.i then (if sp = .g then some (.steOff c f.m5 f.d f.a f.imm18, true) else none)
    else if f.s &&& 0x187 = 0 then some (.steIdx c sp f.m5 (f.s.extractLsb' 3 4) f.d f.a f.b, true) else none
  | 4 =>
    match AtOp.ofCode? (f.s.extractLsb' 3 5), AtOrd.ofCode? f.m2 f.sc2, f.s.getLsbD 8 with
    | some op, some o, false => some (.atom c sp (AtTy.ofCode f.m5) op o f.d f.a f.b, true)
    | _, _, _ => none
  | 5 =>
    match AtOp.ofCode? (f.s.extractLsb' 3 5), relOfCode? f.m2 f.sc2 with
    | some op, some o => some (.red c sp (AtTy.ofCode f.m5) op (f.s.getLsbD 8) o f.d f.a f.b, true)
    | _, _ => none
  | 6 =>
    match FenceKind.ofCode? f.m5, Scope.ofCode? f.sc2, f.scopeOnly with
    | some k, some s, true => f.ret 0x38 (.fence c k s) (f.d == 0 && f.a == 0 && f.b == 0)
    | _, _, _ => none
  | 7 =>
    match Scope.ofCode? f.m2 with
    | some s => f.ret 7 (.waitm c s f.d f.a f.b f.s) true
    | none => none
  | 8 =>
    match Size.ofCode? f.m5 with
    | none => none
    | some sz =>
      if f.i then f.ret 0x38 (.prefOff c sz f.a f.imm18) (f.d == 0)
      else if f.s = 0 then f.ret 0x38 (.prefIdx c sz f.a f.b) (f.d == 0) else none
  | 9 =>
    match Size.ofCode? f.m5, CmntOp.ofCode? f.d with
    | some sz, some op =>
      if f.i then f.ret 0x38 (.cmntOff c sz op f.a f.imm18) true
      else if f.s = 0 then f.ret 0x38 (.cmntIdx c sz op f.a f.b) true else none
    | _, _ => none
  | 10 => f.ret 0 (.rbeg c f.d f.a) (f.b == 0 && f.s == 0)
  | 11 => f.ret 0 (.rcmt c) (f.d == 0 && f.a == 0 && f.b == 0 && f.s == 0)
  | _ => f.ret 0 (.rabt c) (f.d == 0 && f.a == 0 && f.b == 0 && f.s == 0)

def parseSyn (ix : Nat) (c : Ctl) (f : Fields) : Parsed :=
  match ix with
  | 0 => f.ret 0 (.nbinit c f.a) (f.d == 0 && f.b == 0 && f.s == 0)
  | 1 => f.ret 0 (.nbarv c f.a f.src) (f.d == 0 && f.srcZ)
  | 2 => f.ret 0 (.nbsync c f.a f.src) (f.d == 0 && f.srcZ)
  | 3 => f.ret 0 (.bbinit c f.a f.b) (f.d == 0 && f.s == 0)
  | 4 => f.ret 0 (.bbexp c f.a f.src) (f.d == 0 && f.srcZ)
  | 5 => f.ret 0 (.bbarv c f.a f.src) (f.d == 0 && f.srcZ)
  | 6 => f.ret 0 (.bbwait c f.a) (f.d == 0 && f.b == 0 && f.s == 0)
  | 7 => if predF f.d then f.ret 0 (.bbtest c (predOf f.d) f.a) (f.b == 0 && f.s == 0) else none
  | 8 => if predF f.s then f.ret 1 (.tkreq c (f.m.getLsbD 0) f.d f.a (predOf f.s)) (f.b == 0) else none
  | 9 => if predF f.d then f.ret 0 (.tktry c (predOf f.d) f.a) (f.b == 0 && f.s == 0) else none
  | 10 => f.ret 0 (.tkwait c f.a) (f.d == 0 && f.b == 0 && f.s == 0)
  | 11 => f.ret 0 (.tkgive c f.a f.b) (f.d == 0 && f.s == 0)
  | 12 => if predF f.d then f.ret 0 (.tkswap c (predOf f.d) f.a f.b) (f.s == 0) else none
  | 13 => f.ret 0 (.tkaban c f.a) (f.d == 0 && f.b == 0 && f.s == 0)
  | 14 => f.ret 0 (.tkrel c f.a) (f.d == 0 && f.b == 0 && f.s == 0)
  | 15 => f.ret 0 (.tkinfo c f.d f.a) (f.b == 0 && f.s == 0)
  | 16 => f.ret 0 (.honew c f.d f.a) (f.b == 0 && f.s == 0)
  | 17 => f.ret 0 (.hodel c f.a) (f.d == 0 && f.b == 0 && f.s == 0)
  | 18 => f.ret 0x3F (.tspawn c (f.m.extractLsb' 0 6) f.d f.a f.b f.s) true
  | 19 => f.ret 0 (.tdec c f.a) (f.d == 0 && f.b == 0 && f.s == 0)
  | 20 => f.ret 0 (.tarm c f.a f.b f.s) (f.d == 0)
  | 21 => if predF f.d then f.ret 0 (.tdisarm c (predOf f.d) f.a) (f.b == 0 && f.s == 0) else none
  | _ => if predF f.d then f.ret 0 (.certw c (predOf f.d) f.a) (f.b == 0 && f.s == 0) else none

/-- A class 5 opcode with no third source: SC is MOD2, which must be 0 (R86, R207; step 11). -/
def Fields.eng (f : Fields) (mask : Reg) (i : Instr) (z : Bool) : Parsed :=
  if f.s = 0 then f.ret mask i z else none

def parseEng (ix : Nat) (c : Ctl) (f : Fields) : Parsed :=
  let dz := f.d == 0
  let one := f.d == 0 && f.b == 0
  match ix with
  | 0 => f.ret 0 (.wbld c f.a f.b f.s) dz
  | 1 =>
    match AFmt.ofCode? (f.m.extractLsb' 4 4) (f.m.getLsbD 3) with
    | some af => f.eng 0xF8 (.mml c af f.a f.b) dz
    | none => none
  | 2 =>
    match AFmt.ofCode? (f.m.extractLsb' 4 4) (f.m.getLsbD 3) with
    | some af => f.ret 0xF8 (.mmlg c af f.a f.b f.s) dz
    | none => none
  | 3 => f.eng 0 (.accz c f.a) one
  | 4 => f.eng 7 (.accrd c f.m2 f.d f.a) (f.b == 0)
  | 5 =>
    match StFmt.ofCode? (f.m.extractLsb' 4 4) with
    | some k => f.ret 0xFE (.accst c k (Rm.ofCode (f.m.extractLsb' 2 2)) (f.m.getLsbD 1) f.a f.b f.s) dz
    | none => none
  | 6 => f.eng 0 (.cpy c f.a) one
  | 7 => f.eng 0 (.cpym c f.a) one
  | 8 => f.eng 0 (.cpyx c f.a) one
  | 9 => f.eng 0 (.coll c f.d f.a) (f.b == 0)
  | 10 => f.eng 0 (.collq c f.d f.a) (f.b == 0)
  | 11 => f.ret 0 (.vpjinit c f.a f.b f.s) dz
  | 12 => f.eng 0 (.vpj c f.a) one
  | 13 => f.ret 0 (.vpjmrg c f.a f.b f.s) dz
  | 14 => f.eng 0 (.vpjfin c f.a f.b) dz
  | 15 => f.eng 0 (.vsamp c f.a) one
  | 16 => f.eng 0 (.vpjbwd c f.a) one
  | 17 => f.eng 0 (.vtopk c f.a) one
  | _ => f.eng 0 (.vsmax c f.a) one

def parseSys (ix : Nat) (c : Ctl) (f : Fields) : Parsed :=
  let bs := f.b == 0 && f.s == 0
  match ix with
  | 0 => if f.i then f.ret 0 (.trapImm c f.imm18) (f.d == 0 && f.a == 0)
    else f.ret 0 (.trapReg c f.a) (f.d == 0 && bs)
  | 1 => f.ret 0 (.rtt c) (f.d == 0 && f.a == 0 && bs)
  | 2 => if f.i then f.ret 0 (.tmaskImm c f.imm18) (f.d == 0 && f.a == 0)
    else f.ret 0 (.tmaskReg c f.a) (f.d == 0 && bs)
  | 3 => if f.i then f.ret 0 (.ctlrdImm c f.d f.imm18) (f.a == 0)
    else f.ret 0 (.ctlrdReg c f.d f.b) (f.a == 0 && f.s == 0)
  | 4 => if f.i then f.ret 0 (.ctlwrImm c f.d f.imm18) (f.a == 0)
    else f.ret 0 (.ctlwrReg c f.d f.b) (f.a == 0 && f.s == 0)
  | 5 =>
    match (f.m.extractLsb' 0 8).toNat with
    | 0 => some (.tlbiPage c f.a, f.d == 0 && bs)
    | 1 => some (.tlbiAll c, f.d == 0 && f.a == 0 && bs)
    | _ => none
  | 6 => some (.bkpt c (f.m.extractLsb' 0 8), f.d == 0 && f.a == 0 && bs)
  | _ => f.ret 0 (.evrec c f.a f.b) (f.d == 0 && f.s == 0)

/-- The opcode's class, OPC[9:7]. -/
def Fields.cls (f : Fields) : BitVec 3 := f.opc.extractLsb' 7 3
/-- The opcode's index, OPC[6:0]. -/
def Fields.ix (f : Fields) : BitVec 7 := f.opc.extractLsb' 0 7

/-- The scheduling fields (R81 to R83). -/
def Fields.ctl (f : Fields) : Ctl := ⟨f.ver == 0, f.sw, f.keep, f.pneg, f.pred⟩

/-- The effective switch marker: a conservative word reads as SW = 1 (R82). -/
def Ctl.park (c : Ctl) : Bool := c.ver0 || c.sw

/-- The word's fields read as its opcode (steps 11 and 12 of R96). -/
def Fields.parse (f : Fields) : Parsed :=
  match f.cls.toNat with
  | 0 => parseInt f.ix.toNat f.ctl f
  | 1 => parseVec f.ix.toNat f.ctl f
  | 2 => parseSfu f.ix.toNat f.ctl f
  | 3 => parseMem f.ix.toNat f.ctl f
  | 4 => parseSyn f.ix.toNat f.ctl f
  | 5 => parseEng f.ix.toNat f.ctl f
  | 6 => parseSys f.ix.toNat f.ctl f
  | _ => none

/-- Steps 12 to 16 of R96 on an instruction whose values are all listed. -/
def checkRest (k : DecCtx) (i : Instr) (z : Bool) (c : Ctl) : Except DecTrap Instr :=
  if !(z && i.unusedOk) then .error ⟨false, 4⟩
  else if !c.guardOk then .error ⟨false, 6⟩
  else if !(i.opnds.all (fun o => o.inRange k.regs)) then .error ⟨false, 7⟩
  else if !(i.opnds.all Opnd.aligned) then .error ⟨false, 8⟩
  else
    match i.nbIndex, i.bbIndex with
    | some n, _ => if n.toNat < k.nbc then .ok i else .error ⟨false, 9⟩
    | none, some n => if n.toNat < k.bbc then .ok i else .error ⟨false, 9⟩
    | none, none => .ok i

/-- Steps 5 to 16 of R96 on the fields of a word. -/
def Fields.decode (k : DecCtx) (f : Fields) : Except DecTrap Instr :=
  if f.ver = 3 then .error ⟨true, 7⟩
  else if f.ver = 2 then .error ⟨false, 1⟩
  else if classSize f.cls ≤ f.ix.toNat then .error ⟨false, 2⟩
  else if f.cls ≠ 0 ∧ f.cls.setWidth 4 ≠ k.ecls then .error ⟨true, 5⟩
  else if mustBeLast f.cls f.ix && !k.last then .error ⟨true, 6⟩
  else if (f.i && immForm f.cls f.ix == .no) || (!f.i && immForm f.cls f.ix == .only) then .error ⟨false, 5⟩
  else
    match f.parse with
    | none => .error ⟨false, 3⟩
    | some (i, z) => if i.fieldsOk then checkRest k i z f.ctl else .error ⟨false, 3⟩

/-- The decoder: an instruction word in its clause (R96, steps 5 to 16). -/
def decode (k : DecCtx) (w : DWord) : Except DecTrap Instr := (Fields.unpack w).decode k

/-! ### The encoder -/

/-- The fields with the scheduling part of `c` and opcode `opc`. -/
def Ctl.word (c : Ctl) (opc : BitVec 10) (d a b s m : Reg) : Fields :=
  ⟨if c.ver0 then 0 else 1, c.sw, c.keep, c.pneg, c.pred, opc, d, a, b, s, m⟩

/-- SB and SC of a source B (R85). -/
def Src.enc : Src → Reg × Reg
  | .reg r => (r, 0)
  | .imm v => (v.extractLsb' 9 9, v.extractLsb' 0 9)

/-- MOD[8] of a source B. -/
def Src.isImm : Src → Bool
  | .reg _ => false
  | .imm _ => true

def hi9 (v : BitVec 18) : Reg := v.extractLsb' 9 9
def lo9 (v : BitVec 18) : Reg := v.extractLsb' 0 9

/-- A word of the class 0 or 1 shape d, a, b or immediate. -/
def Ctl.f1 (c : Ctl) (opc : BitVec 10) (d a : Reg) (b : Src) (t : BitVec 3) (r : BitVec 2) (l : BitVec 3) : Fields :=
  c.word opc d a b.enc.1 b.enc.2 (modw b.isImm t r l)

/-- A word whose F2 immediate takes SA, SB and SC. -/
def Ctl.f2 (c : Ctl) (opc : BitVec 10) (d : Reg) (v : BitVec 27) (t : BitVec 3) : Fields :=
  c.word opc d (v.extractLsb' 18 9) (v.extractLsb' 9 9) (v.extractLsb' 0 9) (modw true t 0 0)

/-- A class 3 word in the offset form. -/
def Ctl.off (c : Ctl) (opc : BitVec 10) (d a : Reg) (v : BitVec 18) (sp : BitVec 2) (z l : BitVec 3) : Fields :=
  c.word opc d a (hi9 v) (lo9 v) (modm true sp z l)

def bit1 (b : Bool) : BitVec 3 := if b then 1 else 0

/-- The fields of an instruction's word; an event of the machine has no word, and answers the all-zero fields. -/
def Instr.fields : Instr → Fields
  | .nop c => c.word 0x000 0 0 0 0 0
  | .mov c t d a => c.word 0x001 d a 0 0 (modw false t.code 0 0)
  | .movi c t d v => c.f2 0x002 d v t.code
  | .movhi c d a b => c.f1 0x003 d a b 0 0 0
  | .sel c t d a b p => c.word 0x004 d a b (predR p) (modw false t.code 0 0)
  | .iadd c t s d a b => c.f1 0x005 d a b t.code 0 (bit1 s)
  | .isub c t s d a b => c.f1 0x006 d a b t.code 0 (bit1 s)
  | .imul c t s d a b => c.f1 0x007 d a b t.code 0 (bit1 s)
  | .imulh c t d a b => c.f1 0x008 d a b t.code 0 0
  | .imad c t s d a b e => c.word 0x009 d a b e (modw false t.code 0 (bit1 s))
  | .imadw c t d a b e => c.word 0x00A d a b e (modw false t.code 0 0)
  | .idiv c t rm d a b => c.word 0x00B d a b 0 (modw false t.code rm.code 0)
  | .irem c t rm d a b => c.word 0x00C d a b 0 (modw false t.code rm.code 0)
  | .iabs c t s d a => c.word 0x00D d a 0 0 (modw false t.code 0 (bit1 s))
  | .ineg c t s d a => c.word 0x00E d a 0 0 (modw false t.code 0 (bit1 s))
  | .imin c t d a b => c.f1 0x00F d a b t.code 0 0
  | .imax c t d a b => c.f1 0x010 d a b t.code 0 0
  | .ishl c t d a b => c.f1 0x011 d a b t.code 0 0
  | .ishr c t d a b => c.f1 0x012 d a b t.code 0 0
  | .isar c t d a b => c.f1 0x013 d a b t.code 0 0
  | .irot c t d a b => c.f1 0x014 d a b t.code 0 0
  | .and c t d a b => c.f1 0x015 d a b t.code 0 0
  | .or c t d a b => c.f1 0x016 d a b t.code 0 0
  | .xor c t d a b => c.f1 0x017 d a b t.code 0 0
  | .not c t d a => c.word 0x018 d a 0 0 (modw false t.code 0 0)
  | .andn c t d a b => c.f1 0x019 d a b t.code 0 0
  | .bfx c t d a b => c.f1 0x01A d a b t.code 0 0
  | .bfi c t d a b e => c.word 0x01B d a b e (modw false t.code 0 0)
  | .popc c t d a => c.word 0x01C d a 0 0 (modw false t.code 0 0)
  | .clz c t d a => c.word 0x01D d a 0 0 (modw false t.code 0 0)
  | .ctz c t d a => c.word 0x01E d a 0 0 (modw false t.code 0 0)
  | .brev c t d a => c.word 0x01F d a 0 0 (modw false t.code 0 0)
  | .prmb c d a b => c.f1 0x020 d a b 0 0 0
  | .lea c t n d a b => c.f1 0x021 d a b t.code 0 n
  | .isetp c t cc p a b => c.f1 0x022 (predR p) a b t.code 0 cc.code
  | .plop c tt p a b =>
    match a with
    | .pred q => c.word 0x023 (predR p) (predR q) (predR b) 0 ((0 : BitVec 5) ++ tt)
    | .reg g => c.word 0x023 (predR p) g (predR b) 0 ((1 : BitVec 5) ++ tt)
  | .p2g c d => c.word 0x024 d 0 0 0 0
  | .g2p c m g => c.word 0x025 g 0 0 0 ((0 : BitVec 1) ++ m ++ (0 : BitVec 1))
  | .sread c d v => c.word 0x026 d 0 (hi9 v.code) (lo9 v.code) (modw true 0 0 0)
  | .bra c v => c.f2 0x027 0 v 0
  | .brx c g => c.word 0x028 g 0 0 0 0
  | .call c g v => c.f2 0x029 g v 0
  | .ret c g => c.word 0x02A g 0 0 0 0
  | .exit c => c.word 0x02B 0 0 0 0 0
  | .yield c => c.word 0x02C 0 0 0 0 0
  | .chkd c p g v => c.word 0x02D g 0 (hi9 v) (lo9 v) (modw true 0 0 (bit1 p))
  | .fadd c t rm s d a b => c.f1 0x080 d a b t.code rm.code s.code
  | .fsub c t rm s d a b => c.f1 0x081 d a b t.code rm.code s.code
  | .fmul c t rm s d a b => c.f1 0x082 d a b t.code rm.code s.code
  | .ffma c t rm s d a b e => c.word 0x083 d a b e (modw false t.code rm.code s.code)
  | .fmin c t d a b => c.f1 0x084 d a b t.code 0 0
  | .fmax c t d a b => c.f1 0x085 d a b t.code 0 0
  | .fsetp c t cc p a b => c.f1 0x086 (predR p) a b t.code 0 cc.code
  | .fclass c t d a => c.word 0x087 d a 0 0 (modw false t.code 0 0)
  | .frnd c t rm x d a => c.word 0x088 d a 0 0 (modw false t.code rm.code (bit1 x))
  | .fcvt c dst src rm d a b => c.word 0x089 d a b 0 (modw false dst.code rm.code src.code)
  | .icvt c f2i flt int rm d a =>
    c.word 0x08A d a 0 0 (modw false flt.code rm.code (BitVec.ofBool f2i ++ int.code))
  | .fscale c t rm d a b => c.word 0x08B d a b 0 (modw false t.code rm.code 0)
  | .shfl c w md d a b => c.f1 0x08C d a b (if w then 3 else 0) 0 md.code
  | .vote c md d p => c.word 0x08D d (predR p) 0 0 (modw false 0 0 md.code)
  | .gred c t op rm d a => c.word 0x08E d a 0 0 (modw false t.code rm.code op.code)
  | .gscan c t op rm d a => c.word 0x08F d a 0 0 (modw false t.code rm.code op.code)
  | .rand c n d a b => c.word 0x090 d a b 0 ((0 : BitVec 1) ++ n)
  | .frcp c rm d a => c.word 0x100 d a 0 0 (modw false 0 rm.code 0)
  | .frsq c rm d a => c.word 0x101 d a 0 0 (modw false 0 rm.code 0)
  | .fsqrt c rm d a => c.word 0x102 d a 0 0 (modw false 0 rm.code 0)
  | .fdiv c rm d a b => c.word 0x103 d a b 0 (modw false 0 rm.code 0)
  | .fexp2 c rm d a => c.word 0x104 d a 0 0 (modw false 0 rm.code 0)
  | .flog2 c rm d a => c.word 0x105 d a 0 0 (modw false 0 rm.code 0)
  | .fsinpi c rm d a => c.word 0x106 d a 0 0 (modw false 0 rm.code 0)
  | .fcospi c rm d a => c.word 0x107 d a 0 0 (modw false 0 rm.code 0)
  | .ftanh c rm d a => c.word 0x108 d a 0 0 (modw false 0 rm.code 0)
  | .ldOff c sp sz spec d a v => c.off 0x180 d a v sp.code sz.code (if spec then 4 else 0)
  | .ldIdx c sp sz o d a b => c.word 0x180 d a b (o.code.2.setWidth 9) (modm false sp.code sz.code o.code.1)
  | .stOff c sp sz d a v => c.off 0x181 d a v sp.code sz.code 0
  | .stIdx c sp sz r d a b => c.word 0x181 d a b ((relCode r).2.setWidth 9) (modm false sp.code sz.code (relCode r).1)
  | .ldeOff c cn d a v => c.off 0x182 d a v 0 cn 0
  | .ldeIdx c sp cn fmt d a b => c.word 0x182 d a b ((0 : BitVec 2) ++ fmt ++ (0 : BitVec 3)) (modm false sp.code cn 0)
  | .steOff c cn d a v => c.off 0x183 d a v 0 cn 0
  | .steIdx c sp cn fmt d a b => c.word 0x183 d a b ((0 : BitVec 2) ++ fmt ++ (0 : BitVec 3)) (modm false sp.code cn 0)
  | .atom c sp t op o d a b =>
    c.word 0x184 d a b ((0 : BitVec 1) ++ op.code ++ o.code.2) (modm false sp.code t.code o.code.1)
  | .red c sp t op k r d a b =>
    c.word 0x185 d a b (BitVec.ofBool k ++ op.code ++ (relCode r).2) (modm false sp.code t.code (relCode r).1)
  | .fence c k s => c.word 0x186 0 0 0 (s.code.setWidth 9) (modm false 0 k.code 0)
  | .waitm c s d a b t => c.word 0x187 d a b t (modm false 0 0 s.code)
  | .prefOff c sz a v => c.off 0x188 0 a v 0 sz.code 0
  | .prefIdx c sz a b => c.word 0x188 0 a b 0 (modm false 0 sz.code 0)
  | .cmntOff c sz op a v => c.off 0x189 op.code a v 0 sz.code 0
  | .cmntIdx c sz op a b => c.word 0x189 op.code a b 0 (modm false 0 sz.code 0)
  | .rbeg c d a => c.word 0x18A d a 0 0 0
  | .rcmt c => c.word 0x18B 0 0 0 0 0
  | .rabt c => c.word 0x18C 0 0 0 0 0
  | .nbinit c n => c.word 0x200 0 n 0 0 0
  | .nbarv c n b => c.f1 0x201 0 n b 0 0 0
  | .nbsync c n b => c.f1 0x202 0 n b 0 0 0
  | .bbinit c n b => c.word 0x203 0 n b 0 0
  | .bbexp c n b => c.f1 0x204 0 n b 0 0 0
  | .bbarv c n b => c.f1 0x205 0 n b 0 0 0
  | .bbwait c n => c.word 0x206 0 n 0 0 0
  | .bbtest c p n => c.word 0x207 (predR p) n 0 0 0
  | .tkreq c y d a p => c.word 0x208 d a 0 (predR p) (modw false 0 0 (bit1 y))
  | .tktry c p a => c.word 0x209 (predR p) a 0 0 0
  | .tkwait c a => c.word 0x20A 0 a 0 0 0
  | .tkgive c a b => c.word 0x20B 0 a b 0 0
  | .tkswap c p a b => c.word 0x20C (predR p) a b 0 0
  | .tkaban c a => c.word 0x20D 0 a 0 0 0
  | .tkrel c a => c.word 0x20E 0 a 0 0 0
  | .tkinfo c d a => c.word 0x20F d a 0 0 0
  | .honew c d a => c.word 0x210 d a 0 0 0
  | .hodel c a => c.word 0x211 0 a 0 0 0
  | .tspawn c n d a b e => c.word 0x212 d a b e ((0 : BitVec 3) ++ n)
  | .tdec c a => c.word 0x213 0 a 0 0 0
  | .tarm c a b e => c.word 0x214 0 a b e 0
  | .tdisarm c p a => c.word 0x215 (predR p) a 0 0 0
  | .certw c p a => c.word 0x216 (predR p) a 0 0 0
  | .wbld c a b e => c.word 0x280 0 a b e 0
  | .mml c af a b => c.word 0x281 0 a b 0 ((0 : BitVec 1) ++ af.code.1 ++ BitVec.ofBool af.code.2 ++ (0 : BitVec 3))
  | .mmlg c af a b t => c.word 0x282 0 a b t ((0 : BitVec 1) ++ af.code.1 ++ BitVec.ofBool af.code.2 ++ (0 : BitVec 3))
  | .accz c a => c.word 0x283 0 a 0 0 0
  | .accrd c n d a => c.word 0x284 d a 0 0 (modw false 0 0 n)
  | .accst c k rm int a b e =>
    c.word 0x285 0 a b e ((0 : BitVec 1) ++ k.code ++ rm.code ++ BitVec.ofBool int ++ (0 : BitVec 1))
  | .cpy c a => c.word 0x286 0 a 0 0 0
  | .cpym c a => c.word 0x287 0 a 0 0 0
  | .cpyx c a => c.word 0x288 0 a 0 0 0
  | .coll c d a => c.word 0x289 d a 0 0 0
  | .collq c d a => c.word 0x28A d a 0 0 0
  | .vpjinit c a b e => c.word 0x28B 0 a b e 0
  | .vpj c a => c.word 0x28C 0 a 0 0 0
  | .vpjmrg c a b e => c.word 0x28D 0 a b e 0
  | .vpjfin c a b => c.word 0x28E 0 a b 0 0
  | .vsamp c a => c.word 0x28F 0 a 0 0 0
  | .vpjbwd c a => c.word 0x290 0 a 0 0 0
  | .vtopk c a => c.word 0x291 0 a 0 0 0
  | .vsmax c a => c.word 0x292 0 a 0 0 0
  | .trapReg c a => c.word 0x300 0 a 0 0 0
  | .trapImm c v => c.word 0x300 0 0 (hi9 v) (lo9 v) (modw true 0 0 0)
  | .rtt c => c.word 0x301 0 0 0 0 0
  | .tmaskReg c a => c.word 0x302 0 a 0 0 0
  | .tmaskImm c v => c.word 0x302 0 0 (hi9 v) (lo9 v) (modw true 0 0 0)
  | .ctlrdReg c d b => c.word 0x303 d 0 b 0 0
  | .ctlrdImm c d v => c.word 0x303 d 0 (hi9 v) (lo9 v) (modw true 0 0 0)
  | .ctlwrReg c d b => c.word 0x304 d 0 b 0 0
  | .ctlwrImm c d v => c.word 0x304 d 0 (hi9 v) (lo9 v) (modw true 0 0 0)
  | .tlbiPage c a => c.word 0x305 0 a 0 0 0
  | .tlbiAll c => c.word 0x305 0 0 0 0 1
  | .bkpt c n => c.word 0x306 0 0 0 0 ((0 : BitVec 1) ++ n)
  | .evrec c a b => c.word 0x307 0 a b 0 0
  | _ => ⟨0, false, 0, false, 0, 0, 0, 0, 0, 0, 0⟩

/-- The word of an instruction (R81). -/
def encode (i : Instr) : DWord := i.fields.pack

/-- The context in which every well-formed instruction decodes, for a word of class `ecls`. -/
def wideCtx (ecls : BitVec 4) : DecCtx := ⟨ecls, true, 512, 48, 32⟩

/-- The instruction of an instruction's word, in a clause of its own class. -/
def decodeWord (w : DWord) : Except DecTrap Instr :=
  decode (wideCtx ((Fields.unpack w).cls.setWidth 4)) w

/-- The decoder on a word as the opcode table numbers its bits: one 64-bit word, bit 0 the least significant. -/
def decodeTableWord (_nbits w : Nat) : Option Instr :=
  match decodeWord (BitVec.ofNat 64 w) with
  | .ok i => some i
  | .error _ => none

/-! ### The clause header (R77) -/

/-- A clause header. -/
structure Header where
  cnt : BitVec 4
  ecls : BitVec 4
  prio : BitVec 8
  wbe : Bool
  wbb : BitVec 5
  wrs : Bool
  deriving DecidableEq, Repr

/-- The fields of a header word (R77). -/
def Header.ofWord (w : DWord) : Header where
  cnt := w.extractLsb' 58 4
  ecls := w.extractLsb' 54 4
  prio := w.extractLsb' 46 8
  wbe := w.getLsbD 45
  wbb := w.extractLsb' 40 5
  wrs := w.getLsbD 39

/-- The word of a header. -/
def Header.word (h : Header) : DWord :=
  (3 : BitVec 2) ++ h.cnt ++ h.ecls ++ h.prio ++ BitVec.ofBool h.wbe ++ h.wbb ++ BitVec.ofBool h.wrs ++ (0 : BitVec 39)

/-- A word with HDR = 0b11. -/
def isHeader (w : DWord) : Bool := w.extractLsb' 62 2 == 3

/-- Steps 1 to 4 of R96 on the word where a header is due. -/
def decodeHeader (bbc : Nat) (w : DWord) : Except DecTrap Header :=
  let h := Header.ofWord w
  if !isHeader w then .error ⟨true, 1⟩
  else if 7 ≤ h.ecls.toNat then .error ⟨true, 2⟩
  else if w.extractLsb' 0 39 ≠ 0 ∨ (!h.wbe ∧ h.wbb ≠ 0) then .error ⟨true, 3⟩
  else if h.wbe ∧ bbc ≤ h.wbb.toNat then .error ⟨true, 4⟩
  else .ok h

end Sys2Proof
end

