-- ==== Sys2Proof/Config.lean ====
section
/-! DEFINITION. What the spec leaves to the implementation: opaque constants without a body, of which no proof can see a
value (R55). -/

namespace Sys2Proof

/-- The free values, one for each number that the counter `State.free` has taken (R55; log entry 3). -/
opaque Config.freeNat : Nat → Nat

/-- Bytes of installed memory of a package; an access at or beyond it raises SPACE (R60). The spec installs 1,280 GiB. -/
def Config.installed : Nat := 1280 * 2 ^ 30

/-- The successor block pool of a package (R277, R282), of which the spec gives neither the place nor the size: its address within the
package's memory in blocks of 64 bytes, and how many blocks it has beyond its first. -/
opaque Config.succBase : Nat → Nat
opaque Config.succMore : Nat → Nat
/-- The space address of block `b` of package `p`'s pool. -/
def Config.succBlock (p b : Nat) : Nat := p * 2 ^ 44 + 64 * (Config.succBase p + b)
/-- The blocks of the pool. -/
def Config.succBlocks (p : Nat) : Nat := Config.succMore p + 1

/-- SM3 digests of a package (R358): of its firmware images at the measurement indices 1 to 8, and of its certificate chain at 0. -/
opaque Config.digest : Nat → Nat → List Byte

/-- The certificate chain of slot 0 of a package (R358). -/
opaque Config.certificate : Nat → List Byte

/-- The security processor's SM2 signature over a transcript (R358). -/
opaque Config.signature : Nat → List Byte → List Byte

/-- The security processor's random nonce, by the counter of free values (R358). -/
opaque Config.nonce : Nat → List Byte

end Sys2Proof
end

