-- ==== Sys2Proof/Machine/Table.lean ====
section
/-! DEFINITION. Keyed tables and byte memories. A `Table` is a list of key and value pairs, looked up by first match; a
`Mem` is a list of (address, byte) cells in one canonical form: addresses strictly rising and no cell that holds 0, the
byte that an unlisted address reads as (log entry 1). -/

namespace Sys2Proof

/-- A table from numbers to values. -/
abbrev Table (β : Type) : Type := List (Nat × β)

/-- The value at a key, or the default of an absent key. -/
def tget {β : Type} (d : β) : Table β → Nat → β
  | [], _ => d
  | (j, v) :: t, k => if j = k then v else tget d t k

/-- The value at a key, if there is one. -/
def tfind {β : Type} : Table β → Nat → Option β
  | [], _ => none
  | (j, v) :: t, k => if j = k then some v else tfind t k

/-- The table with a key set. -/
def tput {β : Type} : Table β → Nat → β → Table β
  | [], k, v => [(k, v)]
  | (j, w) :: t, k, v => if j = k then (k, v) :: t else if k < j then (k, v) :: (j, w) :: t else (j, w) :: tput t k v

/-- The table without a key. -/
def tdel {β : Type} (t : Table β) (k : Nat) : Table β := t.filter (fun e => e.1 != k)

/-- Every value changed. -/
def tmap {β γ : Type} (f : Nat → β → γ) (t : Table β) : Table γ := t.map (fun e => (e.1, f e.1 e.2))

/-- The least key from `k` upward that the table does not hold, within `fuel` tries. -/
def tfree {β : Type} (t : Table β) : Nat → Nat → Nat
  | 0, k => k
  | fuel + 1, k => if (tfind t k).isSome then tfree t fuel (k + 1) else k

/-- A byte memory. -/
abbrev Mem : Type := List Host.Cell

/-- The byte at an address; an unlisted address reads 0 (log entry 1). -/
def Mem.byte : Mem → Nat → Byte
  | [], _ => 0
  | (a, v) :: t, k => if a = k then v else if k < a then 0 else Mem.byte t k

/-- The memory with one byte written, in canonical form. -/
def Mem.set : Mem → Nat → Byte → Mem
  | [], k, v => if v = 0 then [] else [(k, v)]
  | (a, w) :: t, k, v =>
    if a = k then (if v = 0 then t else (k, v) :: t)
    else if k < a then (if v = 0 then (a, w) :: t else (k, v) :: (a, w) :: t)
    else (a, w) :: Mem.set t k v

/-- `n` bytes from an address, lowest address first. -/
def Mem.bytes (m : Mem) (a : Nat) : Nat → List Byte
  | 0 => []
  | n + 1 => m.byte a :: Mem.bytes m (a + 1) n

/-- Bytes written from an address upward. -/
def Mem.put (m : Mem) (a : Nat) : List Byte → Mem
  | [] => m
  | b :: bs => Mem.put (m.set a b) (a + 1) bs

/-- The number that bytes hold, little-endian (R164). -/
def leNat : List Byte → Nat
  | [] => 0
  | b :: bs => b.toNat + 256 * leNat bs

/-- The low `n` bytes of a number, little-endian. -/
def leBytes : Nat → Nat → List Byte
  | 0, _ => []
  | n + 1, v => BitVec.ofNat 8 v :: leBytes n (v / 256)

/-- The little-endian number in `n` bytes. -/
def Mem.le (m : Mem) (a n : Nat) : Nat := leNat (m.bytes a n)

/-- Every address of the form is above `lo`, the addresses rise strictly, and no cell holds 0. -/
def Mem.above : Nat → Mem → Bool
  | _, [] => true
  | lo, (a, v) :: t => decide (lo ≤ a) && v != 0 && Mem.above (a + 1) t

/-- The canonical form of a memory. -/
def Mem.wf (m : Mem) : Bool := Mem.above 0 m

/-- The cells from `lo` to `lo + n - 1`. -/
def Mem.slice (m : Mem) (lo n : Nat) : Mem := m.filter (fun c => decide (lo ≤ c.1) && decide (c.1 < lo + n))

end Sys2Proof
end

