-- ==== Sys2Proof/Machine/State.lean ====
section
/-! DEFINITION. The machine's state as plain data: every piece of state that the spec names (INVENTORY.md lists each with
its rule), the faults and refusals, and the state after reset. A team's state is kept under its Booth context slot, so
that it is one piece of data wherever the team runs, resident or pre-empted (R300, R305). -/

namespace Sys2Proof.Machine

/-- What stops the machine itself. -/
inductive Fault
  /-- A port is to issue on a package outside 0 to 255, or on one whose power is gone or whose clocks a freeze has stopped (R2, R357,
  R359; log entry 89). Raised by `step`. Safe: nothing of the package runs on. -/
  | stopped (p : Nat)
  deriving DecidableEq, Repr

/-- Instructions without a meaning. -/
inductive Refusal
  /-- No meaning is modelled for the mnemonic. Raised by an arm of `exec`. Safe: the run stops. -/
  | notModelled (mnemonic : String)
  deriving DecidableEq, Repr

/-! ### Threads (R9, R76) -/

/-- A trap that an instruction raises (R260, R268). Where its entry states no tx.addr or tx.info, that is `none`, and delivery
takes a free value (log entry 4). -/
structure Trap where
  code : Nat
  pc : DWord
  addr : Option DWord
  info : Option DWord
  deriving DecidableEq, Repr

/-- A thread parked in WAITM (R73, R174): the line monitored, the word's address, and when the timeout expires. -/
structure Monitor where
  line : Nat
  ea : DWord
  deadline : Option Nat
  deriving DecidableEq, Repr

/-- The states of a thread (R17, R303). -/
inductive TSt
  | runnable
  /-- Parked on a page: the address, and KIND of R293. -/
  | page (va : DWord) (kind : BitVec 8)
  | nbar (n : Nat)
  /-- Parked on a byte barrier; `hdr` marks a header's wait (R80). -/
  | bbar (n : Nat) (hdr : Bool)
  | ticket (h : DWord)
  | monitor (m : Monitor)
  | exited
  | halted
  /-- A halted lane whose halt has ended, parked on a page that its continuation needs (R260, R263): the address, and KIND. -/
  | cont (va : DWord) (kind : BitVec 8)
  deriving DecidableEq, Repr

/-- What a fault of a pending result's instruction brings back (R92, R178): the registers, deferred-fault bits and predicates as they
stood when it issued, and the region's undo log then. -/
structure Undo where
  regs : Table Word
  dfb : Table Bool
  preds : BitVec 8
  log : List (Nat × Word × Bool)
  deriving DecidableEq, Repr

/-- A pending deferred result (R90, R303): its destination, its values with deferred-fault bits, whether it has returned,
the flags it raises at its park, the instruction that produced it, whether its value is known, and, in an open region, what its
instruction's fault brings back. The two results of TKREQ are one of these (log entry 91). -/
structure Pend where
  dst : Nat
  isPred : Bool
  n : Nat
  vals : List (Word × Bool)
  ready : Bool
  flags : BitVec 5
  pc : Pc
  known : Bool
  undo : Option Undo
  /-- TKREQ's predicate, written with its pair; the last of `vals` is its value. -/
  pk : Option Nat := none
  deriving DecidableEq, Repr

/-- An open remote region (R177, R178): the recovery target, the status register, the predicates that RBEG saved, the undo
log (oldest first), the operations so far, and the earliest-issued failure so far (its order, cause, reason, pc, address). -/
structure Region where
  target : DWord
  status : Reg
  preds : BitVec 8
  log : List (Nat × Word × Bool)
  ops : Nat
  fails : List (Nat × Nat × Nat × Pc × DWord)
  deriving DecidableEq, Repr

/-- A thread (R76). -/
structure Thread where
  /-- g1 to g511 that have been written; the others hold 0 (R15). -/
  regs : Table Word := []
  /-- The deferred-fault bits that are set. -/
  dfb : Table Bool := []
  /-- p1 to p7 in bits 1 to 7; bit 0 is not used, p0 reads true. -/
  preds : BitVec 8 := 0
  pc : Pc := 0
  st : TSt := .runnable
  pend : List Pend := []
  /-- The deferred count (R91). -/
  defCount : Nat := 0
  /-- A park is due before the thread issues again (R90). -/
  parkDue : Bool := false
  /-- The thread has executed a YIELD in its clause (R136). -/
  yielded : Bool := false
  /-- The request whose answer the thread's next issue waits for (R92, R203). -/
  wait : Option Nat := none
  fsr : BitVec 5 := 0
  txCode : Word := 0
  txPc : DWord := 0
  txAddr : DWord := 0
  txInfo : DWord := 0
  /-- tx.mask.M and PM (R259). -/
  m : Bool := false
  pm : Bool := false
  /-- In its handler (R303, INH). -/
  inh : Bool := false
  region : Option Region := none
  /-- The remote read of an LD.spec has failed (R93). -/
  specFail : Bool := false
  /-- The .l window (R59). -/
  lmem : Mem := []
  deriving DecidableEq, Repr

/-- What a remote read gives its lanes once its line is there, where their team has left its core meanwhile (R298): the registers of a
load or an element load, the word of an ATOM on its operands' registers, the end of a WAITM, or an answer of the Ringmaster. -/
inductive LateOp
  | ld (sz : Size) (spec : Bool) (d : Reg)
  | lde (fmt n : Nat) (d : Reg)
  | atom (ty : AtTy) (op : AtOp) (d b : Reg)
  | waitm (d : Reg)
  | answer
  deriving DecidableEq, Repr

/-- A result redirected to its context's Booth slot (R298, R305): its group, its lane and the lanes that share it, the instruction and
its address, what it is, the pieces of its access, what has come for each (its bytes), and how it has failed (trap code, tx.info). -/
structure Late where
  group : Nat
  lane : Nat
  lanes : List Nat
  pc : Pc
  ea : DWord
  op : LateOp
  parts : List (Nat × Nat)
  got : List (Option (List Byte))
  vals : List (Word × Bool) := []
  fail : Option (Nat × Option DWord) := none
  deriving DecidableEq, Repr

/-! ### Groups and teams -/

/-- The clause that holds a program counter inside it: the header's address, the last word's address, PRIO and ECLS. -/
structure Clause where
  hdr : Pc
  last : Pc
  prio : Nat
  ecls : Nat
  deriving DecidableEq, Repr

/-- What the frontier keeps for an entry beside its lanes (R20, R24, R136): the wait stamp, the YIELD mark, and the clause
when the entry is inside one (MID, R302). -/
structure Ent where
  stamp : Nat
  yield : Bool
  clause : Option Clause
  deriving DecidableEq, Repr

/-- What an issue port runs (R22): the next word and its clause. -/
structure Port where
  pc : Pc
  clause : Clause
  deriving DecidableEq, Repr

/-- A failed remote write held against its thread (R185, R305): lane, program counter, address, cause, its order of issue,
and whether it belongs to an open region. -/
structure WFail where
  lane : Nat
  pc : Pc
  addr : Nat
  cause : Nat
  order : Nat
  deriving DecidableEq, Repr

/-- A group (R9, R20 to R24). -/
structure Group where
  threads : Table Thread := []
  ents : Table Ent := []
  /-- The progress count (R24). -/
  prog : Nat := 0
  portA : Option Port := none
  portB : Option Port := none
  /-- The entry that port A has taken, and that begins when port B's clause of its ECLS ends (R23). -/
  pickA : Option Pc := none
  /-- Port B has become free while port A runs a clause, and may pick alone (R23). -/
  bFree : Bool := false
  /-- Wait parities (R191). -/
  gwp : BitVec 32 := 0
  /-- The group waits for a vocabulary command's retirement (R237, R302). -/
  vwait : Bool := false
  retired : Bool := false
  /-- Outstanding remote writes (R72). -/
  rwCount : Nat := 0
  fails : List WFail := []
  deriving DecidableEq, Repr

/-- A named barrier (R188). -/
structure NBar where
  phase : Bool := false
  cnt : Nat := 0
  arr : Nat := 0
  deriving DecidableEq, Repr

/-- A byte barrier (R191). -/
structure BBar where
  phase : Bool := false
  arr : Nat := 0
  init : Nat := 0
  bytes : Int := 0
  deriving DecidableEq, Repr

/-- A region of a template (R110). -/
structure TRegion where
  argoff : Nat
  width : Nat
  height : Nat
  pitch : Nat
  mode : Nat
  deriving DecidableEq, Repr

/-- A template record (R110). -/
structure Tmpl where
  mirror : Bool := false
  pair : Bool := false
  width : Nat := 16
  groups : Nat := 1
  regs : Nat := 32
  nbc : Nat := 0
  bbc : Nat := 0
  scratch : Nat := 0
  entry : DWord := 0
  handler : DWord := 0
  prio : Nat := 0
  lmem : Nat := 0
  regions : List TRegion := []
  deriving DecidableEq, Repr

/-- A page translation (R307): the virtual base, its size, the space base, FMT, GEOM, the permissions X, W, RD, and the
space address of the leaf entry. -/
structure PageTr where
  va : Nat
  size : Nat
  pa : Nat
  fmt : Nat
  geom : Nat
  x : Bool
  w : Bool
  rd : Bool
  leaf : Nat
  deriving DecidableEq, Repr

/-- A held translation of a die's TLBs, tagged with its partition (R310). -/
structure TlbEnt where
  part : Nat
  tr : PageTr
  deriving DecidableEq, Repr

/-- The weight buffer and accumulator of a team's matrix claim (R211 to R213): bytes, the tag (FMT, GEOM, VALID) of each
16-byte unit, and the 65,536 accumulator entries. -/
structure Matrix where
  wb : Mem := []
  tags : Table (Nat × Nat × Bool) := []
  acc : Table Word := []
  deriving DecidableEq, Repr

/-- A command of the matrix queue (R212, R237, R304): program counter, opcode (bits [6:0] of OPC, class 5), MOD, its group, the operand
values read at issue, the block copied at issue, the pages translated and locked at issue with the die that counts the locks,
units of 32 rows or elements completed (R256), the place within a unit after which HEAPSPILL stopped it, whether it has
started and whether it is suspended (R246), the rows that failed the start check (R239), the first failure of a global access
(R383: trap code and address), and its private results so far. -/
structure MCmd where
  pc : Pc
  op : Nat
  mod : Nat
  group : Nat
  ops : List Word
  block : List Byte := []
  pages : List PageTr := []
  die : Nat := 0
  prog : Nat := 0
  sub : Nat := 0
  started : Bool := false
  suspended : Bool := false
  bad : Nat := 0
  fail : Option (Nat × DWord) := none
  /-- The t of the current unit (VPJ) or the elements read so far (VTOPK, VSMAX). -/
  vals : List (Option Word) := []
  /-- The 16-byte headers of the blocks that it names, as it has read or written them last (R239). -/
  ro : List (List Byte) := []
  /-- Malformed I4X blocks that it has reported (R242). -/
  reported : List Nat := []
  deriving DecidableEq, Repr

/-- A core's weight buffer, accumulator memory and matrix queue as a team holds them: the claim, its memories, and its commands. -/
structure MEng where
  claim : Bool := false
  mat : Matrix := {}
  mq : List MCmd := []
  deriving DecidableEq, Repr

/-- The engines' copy commands: CPY, CPYM, CPYX. -/
inductive CopyKind
  | cpy | cpym | cpyx
  deriving DecidableEq, Repr

/-- A destination of CPYM (R225): its core, the context and the instance of the team that its slot held at issue, whether that team's
groups on the odd core of its pair are meant, and whether it is skipped. -/
structure CDest where
  core : Nat
  ctx : Nat
  inst : BitVec 40
  odd : Bool
  skip : Bool
  deriving DecidableEq, Repr

/-- A copy command (R220 to R226): a number that names it within its team, kind, program counter, group and core, the operand and the
descriptor copied at issue, whether it has entered a copy engine, whether it has started, bytes moved, the units moved (intervals of unit
numbers, ascending), source units read ahead and blocks encoded, the formats of its sides once known (0 in byte mode), bytes written and credited, whether a credit would have passed −2^31 (R222), CPYM's destinations, the
first failure (STATUS, FADDR, INFO), lines of a CPYX not yet acknowledged, the page it waits on, and whether only its
completion record is left. -/
structure Copy where
  id : Nat
  kind : CopyKind
  pc : Pc
  group : Nat
  core : Nat
  off : Word
  desc : List Byte
  entered : Bool := true
  started : Bool := false
  pos : Nat := 0
  moved : List (Nat × Nat) := []
  read : Table (List Byte) := []
  sfmt : Option Nat := none
  dfmt : Option Nat := none
  written : Nat := 0
  credited : Nat := 0
  noCredit : Bool := false
  dests : List CDest := []
  fail : Option (Nat × DWord × Word) := none
  lines : Nat := 0
  page : Option DWord := none
  ending : Bool := false
  deriving DecidableEq, Repr

/-- Why a team was stopped (R35, R261). -/
inductive Stop
  /-- By an undeliverable trap or CHECK: the task failed. -/
  | failed
  /-- By MIRROR: the task is dispatched again. -/
  | mirror
  deriving DecidableEq, Repr

/-- A team (R9, R15, R300). -/
structure Team where
  inst : BitVec 40
  template : DWord
  arg : DWord
  part : Nat
  prio : Nat
  stream : Nat
  /-- Driver work (R384). -/
  driver : Bool
  mirror : Bool
  tmpl : Tmpl
  /-- The core and the team slot, or none while pre-empted. -/
  place : Option (Nat × Nat)
  groups : Table Group := []
  scrE : Mem := []
  scrO : Mem := []
  nb : Table NBar := []
  bb : Table BBar := []
  /-- The matrix engine of its core, and of the odd core of a pair (R211, R212). -/
  engE : MEng := {}
  engO : MEng := {}
  copies : List Copy := []
  stop : Option Stop := none
  /-- The code words that the team has fetched at each address (R381). -/
  icache : Table (List DWord) := []
  /-- CPYMs of other teams that still write into this team (R225). -/
  cpymHold : Nat := 0
  /-- The core that it ran on last, even core of a pair, which records about it name while it is pre-empted (R380). -/
  last : Nat := 0
  /-- Results that its Booth slot holds until it resumes (R298). -/
  late : List Late := []
  /-- sv.clock at its last pre-emption (SWCLK, R300). -/
  switchedAt : Nat := 0
  /-- Its context record is complete (DONE, R299), and FLAGS[4] (R306). -/
  recDone : Bool := false
  early : Bool := false
  /-- The address of its context record, once it has one. -/
  recAddr : Nat := 0
  deriving DecidableEq, Repr

/-! ### Cores and dies -/

/-- A core. -/
structure Core where
  /-- L1 read copies: line number to the cells of the line when it was filled (R64). -/
  l1 : Table Mem := []
  /-- The contexts in the inactive bank, and whether a fill has overwritten it (R296, R299, R306). -/
  inactive : List Nat := []
  overwritten : Bool := false
  horizon : Nat := 0
  /-- The Big Wheel holds the core: sv.clock and the fabric time at which step 2 began (R353). -/
  scanning : Option (Nat × Nat) := none
  /-- Its window has begun, and its pre-emption waits (R299, R353). -/
  windowLate : Bool := false
  outOfDispatch : Bool := false
  /-- When the last sink event occurred, in nanoseconds (R355). -/
  lastSink : Nat := 0
  /-- When the resident time slice ends, in nanoseconds (R295). -/
  sliceEnd : Option Nat := none
  /-- A pre-emption has been asked for (R295). -/
  preempt : Bool := false
  hangs : Nat := 0
  mirr : Nat := 0
  scans : Nat := 0
  corr : Nat := 0
  deriving DecidableEq, Repr

/-- A place in an object's queue (R196). -/
structure Place where
  seq : BitVec 24
  waiting : Bool
  holder : Bool
  abandoned : Bool
  yieldable : Bool
  ctx : Nat
  thr : Nat
  deriving DecidableEq, Repr

/-- A held object (R195), with its places in queue order. LEN is the number of places. -/
structure Obj where
  gen : BitVec 16
  nextSeq : BitVec 24
  skipping : Bool
  live : Bool
  part : Nat
  places : List Place
  deriving DecidableEq, Repr

/-- A pending page fault (R293). -/
structure PFault where
  part : Nat
  va : DWord
  kind : BitVec 8
  nthr : Nat
  inst : BitVec 40
  fpc : DWord
  written : Bool
  deriving DecidableEq, Repr

/-- A compute die: its Booth, its TLBs, its pending faults and its lock counts (R195, R293, R309, R310). -/
structure Die where
  objs : Table Obj := []
  tlb : List TlbEnt := []
  faults : List PFault := []
  /-- Lock count of each locked leaf, keyed by the leaf entry's space address. -/
  locks : Table Nat := []
  /-- Where in fabric time the rotations of the die's wheel begin, in nanoseconds modulo a rotation; the wheels are not aligned, and the
  first window of a die shows it (R353; log entry 96). -/
  wheel : Option Nat := none
  deriving DecidableEq, Repr

/-! ### The Ringmaster (R276 to R291) -/

/-- The states of a task record (R278). -/
inductive RecSt
  | free | waiting | ready | running | done | failed
  deriving DecidableEq, Repr

/-- A task record (R277), with the region intervals read at the launch (R280: lo, hi, mode) and where it runs. -/
structure TRec where
  inst : BitVec 40
  template : DWord
  arg : DWord
  deps : Nat
  prio : Nat
  st : RecSt
  /-- 0 pending, 1 passed, 2 failed, 3 not yet run. -/
  cert : Nat
  stream : Nat
  succ : List (BitVec 40)
  fcode : Nat := 0
  flane : Nat := 0
  fcore : Nat := 0
  fpc : DWord := 0
  fcount : Nat := 0
  fgroup : Nat := 0
  cores : List Nat := []
  tdone : Nat := 0
  parent : BitVec 40 := 0
  part : Nat
  driver : Bool
  tmpl : Tmpl
  regions : List (Nat × Nat × Nat) := []
  cookie : DWord := 0
  /-- The core its failed MIRROR attempt ran on. -/
  mirrorCore : Option Nat := none
  /-- The context slot of the team that runs it, or of a pre-empted team. -/
  ctx : Option Nat := none
  /-- Its successor blocks in list order, as numbers of the package's pool (R277). -/
  blocks : List Nat := []
  deriving DecidableEq, Repr

/-- An armed launch slot (R204): tag space, tag, template, priority, which messages it admits, and the partition its task runs
in. -/
structure Slot where
  space : Nat
  tag : Word
  template : DWord
  prio : Nat
  host : Bool
  fabric : Bool
  part : Nat
  driver : Bool
  deriving DecidableEq, Repr

/-- Who waits for an answer of the Ringmaster: a group's lane on this package, or a request of another package. -/
inductive Asker
  | lane (ctx group lane : Nat) (inst : BitVec 40)
  | remote (pkg : Nat) (id : Nat)
  deriving DecidableEq, Repr

/-- A CERTW that waits (R205). -/
structure CertWait where
  inst : BitVec 40
  asker : Asker
  deriving DecidableEq, Repr

/-- A launch that waits for the window or for a record (R282): the fields of the record to be, the RESULT address if it is to
be written, and the TSPAWN that waits for the instance. -/
structure Launch where
  template : DWord
  arg : DWord
  prio : Nat
  stream : Nat
  ndep : Nat
  part : Nat
  driver : Bool
  tmpl : Tmpl
  regions : List (Nat × Nat × Nat)
  parent : BitVec 40
  cookie : DWord
  result : Option DWord
  page : Nat
  asker : Option Asker
  deriving DecidableEq, Repr

/-! ### Host rings (R293, R351) -/

/-- An event record (R351), without SEQ, which the ring assigns. -/
structure Rec where
  type : Nat
  part : Nat
  code : Word
  inst : BitVec 40
  pc : DWord
  core : Nat
  lane : Nat
  /-- Bytes 32 to 63. -/
  data : List Byte
  deriving DecidableEq, Repr

/-- A ring: BASE, SIZE, HEAD, TAIL and LOST, the records pending, the count of records written, and the entries written by
index (in host memory, R349). HEAD and TAIL count entries without wrapping (log entry 12). -/
structure Ring where
  base : DWord := 0
  size : Nat := 0
  head : Nat := 0
  tail : Nat := 0
  lost : Nat := 0
  pend : List (List Byte) := []
  count : Nat := 0
  out : Table (List Byte) := []
  deriving DecidableEq, Repr

/-! ### Coherence (R312 to R330) -/

/-- The directory states (R314). -/
inductive DirSt
  | i | s | e | m | o | p | l
  deriving DecidableEq, Repr

/-- A directory entry (R315). -/
structure DirEnt where
  cells : BitVec 64
  ownc : Nat
  ownp : Nat
  st : DirSt
  dies : BitVec 6
  deriving DecidableEq, Repr

/-- A line that this package holds from another home (R314): read copy, exclusive or dirty, and its 128 bytes. -/
structure LineCopy where
  excl : Bool
  dirty : Bool
  data : List Byte
  deriving DecidableEq, Repr

/-- The kinds of remote request (R316). -/
inductive ReqOp
  | gets | getm | wrh | red | wb | eve
  deriving DecidableEq, Repr

/-- What a RSP carries (R334). -/
inductive RspOp
  | data | ack | refused | poison | hold
  deriving DecidableEq, Repr

/-- Recalls and invalidations to the members of a cell (R316, R318). -/
inductive SnpOp
  /-- For a GETS: the owner gives its data; a dirty owner keeps the line dirty, a clean one keeps a read copy. -/
  | recall
  /-- For a home read, or a Turnstile that takes WMASK away: the owner gives its data and keeps a read copy. -/
  | clean
  /-- Every copy is dropped, a dirty owner giving its data; no write comes with it. -/
  | inval
  /-- The same, for a WRH or RED that is then performed. -/
  | invalW
  deriving DecidableEq, Repr

/-- The body of a flit (R334). The layouts of SNP, SNPR, COLL and MSG bodies are not in the spec; these fields are what
their rules say they carry (log entry 20). -/
inductive Body
  | none
  /-- REQ: operation, space address, ARG (operation and type of R169), byte mask, KEY, operands, DATA. -/
  | req (op : ReqOp) (addr : Nat) (arg : Nat) (mask : BitVec 128) (key : DWord) (keyed : Bool) (vals : DWord × DWord)
      (data : List Byte)
  /-- RSP to the request with end-to-end number `re`: operation, the state that a DATA grants (0 S, 1 E, 2 M), DATA. -/
  | rsp (op : RspOp) (re : Nat) (addr : Nat) (grant : Nat) (data : List Byte)
  | snp (op : SnpOp) (addr : Nat)
  /-- SNPR: whether the answering package held the line dirty, and its data. -/
  | snpr (addr : Nat) (held : Bool) (dirty : Bool) (data : List Byte)
  /-- A contribution: collective group, collective number of the group, KEYBASE, step, source rank, chunk, data, and the
  parameter fields that must match (R229, R232). -/
  | coll (g n : Nat) (keybase : DWord) (step src chunk : Nat) (par : List Byte) (data : List Byte)
  /-- The parameter fields of the first exchange, to a member that a contribution may not reach (R229). -/
  | hello (g n : Nat) (src : Nat) (par : List Byte)
  /-- An abort token: group, collective number, aborting rank, cause, steps the sender had completed (R234). -/
  | abort (g n : Nat) (rank cause steps : Nat)
  | heartbeat
  | death (cell : Nat)
  | retire (inst : BitVec 40)
  /-- A tagged launch message, 64 bytes (R288). -/
  | launch (bytes : List Byte)
  | tdec (inst : BitVec 40) (part : Nat) (id : Nat)
  | certw (inst : BitVec 40) (part : Nat) (id : Nat)
  /-- The answer to a TDEC or CERTW: the request, and 0 false, 1 true, 2 unknown (R203, R205). -/
  | answer (id : Nat) (v : Nat)
  /-- A body with a TYPE or OP that is reserved (R335). -/
  | reserved
  deriving DecidableEq, Repr

/-- A flit (R333). -/
structure Flit where
  type : Nat
  ch : Nat
  hop : Nat
  dst : Nat
  src : Nat
  lseq : Nat := 0
  lack : Nat := 0
  eseq : Nat := 0
  crch : Nat := 0
  crinc : Nat := 0
  blen : Nat := 0
  body : Body
  fcrc : BitVec 16 := 0
  /-- The feeds over whose wavelengths it was striped (R332). -/
  feeds : BitVec 4 := 0xF
  deriving DecidableEq, Repr

/-- What an outstanding request of the package is for. -/
inductive ReqKind
  /-- A line to read: LD, LDE and WAITM. -/
  | load
  /-- A line to read for an LD.spec, which no failure traps (R93). -/
  | spec
  /-- A line to own: ATOM (R172). -/
  | own
  /-- ST, STE and RED. -/
  | write
  /-- A line of the CPYX command with this number. -/
  | cpyx (k : Nat)
  /-- A prefetch. -/
  | pref
  | tdec
  | certw
  deriving DecidableEq, Repr

/-- An outstanding request (R322 to R324): the group it is for, its lanes with the address that each reports, its program counter,
the space address, the destination package and end-to-end number, when its clock runs out and how long it runs, whether a hold
notice has stopped it, and whether it belongs to an open region; `silent` after a rollback, when its failure is reported nowhere
(R180). Its order of issue is its key. -/
structure Req where
  ctx : Nat
  group : Nat
  lanes : List (Nat × DWord)
  pc : Pc
  addr : Nat
  dst : Nat
  eseq : Nat
  kind : ReqKind
  deadline : Nat
  tmo : Nat
  held : Bool := false
  region : Bool := false
  silent : Bool := false
  /-- Its flit has left the package (R322). -/
  left : Bool := false
  /-- The remote writes that an ATOM's request stands for in its group's count (R72). -/
  cnt : Nat := 0
  /-- What a read's answer gives its lanes (R298), and the pieces of each visible lane's access. -/
  op : Option LateOp := none
  parts : Table (List (Nat × Nat)) := []
  /-- A park follows its instruction. -/
  park : Bool := false
  deriving DecidableEq, Repr

/-- What a line's recalls are for (R316 to R318, R321, R328). -/
inductive TxnFor
  /-- A request, performed once they are answered. -/
  | req (f : Flit)
  /-- An access of a die of the home package, which may write. -/
  | home (write : Bool) (die : Nat)
  /-- A Turnstile change: the cells that lose every copy, and whether the owner keeps a read copy at most. -/
  | revoke (lost : BitVec 64) (down : Bool)
  /-- Copies of a line in L or P go; its state stays. -/
  | clear
  deriving DecidableEq, Repr

/-- A home transaction on a line that waits for answers to recalls (R316 to R318): what it is for, the members still to answer, and
the data of a dirty owner. -/
structure Txn where
  what : TxnFor
  waiting : List Nat
  data : Option (List Byte)
  deriving DecidableEq, Repr

/-- An access by the machine that a line is not ready for (R74, R317, R328), the model's own and never kept between steps: its space
address, whether it writes, and its die (log entry 23). -/
structure Want where
  addr : Nat
  write : Bool
  die : Nat
  deriving DecidableEq, Repr

/-- A migration of a 64 KiB page (R74, R311): old and new space addresses, whether the switch has been made, the writes held at the home in
order of arrival, and whether its command still locks lines. -/
structure Migr where
  old : Nat
  new : Nat
  switched : Bool
  cookie : DWord
  held : List Flit
  locking : Bool
  deriving DecidableEq, Repr

/-- End-to-end state toward and from one peer (R325): the next number to send, the number below which every flit of the peer
has arrived and the numbers above it that have, the responses held, and the flits that arrived before an earlier one about the same
line (R344). `sent` is the model's own: the flits sent to the peer that have not arrived there yet, oldest first, with the line that
each is about. -/
structure E2E where
  next : Nat := 0
  low : Nat := 0
  done : List Nat := []
  held : List Flit := []
  early : List Flit := []
  sent : List (Nat × Option Nat) := []
  deriving DecidableEq, Repr

/-! ### Collectives (R227 to R235) -/

/-- The states of a collective's handle (R235). -/
inductive CollSt
  | queued | running | complete | aborted
  deriving DecidableEq, Repr

/-- A collective at one member (R228 to R234): its handle, its number on its group (R229), the task, the block and the members as read at
issue; the steps it has completed, whether the contributions of the next one have been sent, the contributions that it holds (step,
source rank, chunk, data; its own part under its own rank), the bytes it has written to RECV, the page it waits on, and how it aborted. -/
structure Coll where
  handle : DWord
  n : Nat
  ctx : Nat
  inst : BitVec 40
  part : Nat
  driver : Bool
  pc : Pc
  group : Nat
  core : Nat
  block : List Byte
  members : List Nat
  rank : Nat
  st : CollSt := .queued
  steps : Nat := 0
  sent : Nat := 0
  got : List (Nat × Nat × Nat × List Byte) := []
  wrote : Nat := 0
  page : Option DWord := none
  cause : Nat := 0
  abortRank : Nat := 0
  faddr : DWord := 0
  ended : Bool := false
  /-- An access of this member has met a poisoned line (R329). -/
  poison : Bool := false
  /-- The ranks whose parameters have been found to match (R229). -/
  heard : List Nat := []
  deriving DecidableEq, Repr

/-- A collective group, as its 512-byte entry reads (R227). -/
structure CGroup where
  valid : Bool
  members : List Nat
  deriving DecidableEq, Repr

/-! ### The fabric (R331 to R347) -/

/-- A link (R336 to R347). -/
structure Link where
  tlive : BitVec 4 := 0xF
  rlive : BitVec 4 := 0xF
  peer : Nat := 0
  mism : Bool := false
  conn : Bool := false
  /-- Feeds in use for striping by the current connection, each direction. -/
  tuse : BitVec 4 := 0xF
  ruse : BitVec 4 := 0xF
  /-- Credits held for channels 0 to 6, and freed slots to return (R336). -/
  credits : Table Nat := []
  owed : Table Nat := []
  lastCr : Nat := 6
  /-- The next LSEQ to send and the one expected (R337). -/
  txSeq : Nat := 0
  rxSeq : Nat := 0
  /-- Flits of the replay buffer, oldest first; how many of them are to be sent again, and when LACK last advanced. -/
  replay : List Flit := []
  resend : Nat := 0
  ackAt : Nat := 0
  /-- The receiver drops sequenced flits until the expected LSEQ arrives (R338). -/
  dropping : Bool := false
  /-- The first flit of the connection has been checked (R341). -/
  checked : Bool := false
  /-- Only IDLE until the guard (R341). -/
  idleOnly : Bool := false
  /-- The feeds lost since the last re-striping, each with the feeds left after it. -/
  lost : List (Nat × BitVec 4) := []
  /-- The replay that a re-striping began, until it ends: the feed lost, the feeds left after the event, and the flits re-sent so far
  (R369, R375). -/
  lightLog : Option (Nat × BitVec 4 × Nat) := none
  /-- Control flits due: IDLE or REPLAY. -/
  dueIdle : Bool := false
  dueReplay : Bool := false
  /-- Flits on their way to this link's receiver. -/
  wire : List Flit := []
  light : Nat := 0
  crcf : Nat := 0
  rply : Nat := 0
  deriving DecidableEq, Repr

/-- The phases of a slot (R339). -/
inductive SlotPhase
  | closed | open_ | drain | guard
  deriving DecidableEq, Repr

/-- The state of the SPDM responder (R358). -/
structure Spdm where
  version : Bool := false
  caps : Bool := false
  algs : Bool := false
  /-- The messages so far, which a signature covers. -/
  transcript : List Byte := []
  /-- The last response. -/
  response : List Byte := []
  deriving DecidableEq, Repr

/-- A register pool: base and size (R349). -/
structure Pool where
  base : Nat := 0
  size : Nat := 0
  deriving DecidableEq, Repr

/-- A package. -/
structure Package where
  sdReady : BitVec 32 := 0
  sdFail : BitVec 32 := 0
  /-- Functions whose self-test has ended, as bits of SD.READY (R357). -/
  sdTested : BitVec 32 := 0
  frozen : Bool := false
  poweredOff : Bool := false
  /-- When a thermal freeze began, in nanoseconds (R359). -/
  freezeAt : Option Nat := none
  clockMHz : Nat := 1300
  /-- FRZ.CTL.DBGH (R357). -/
  dbgh : BitVec 8 := 0
  barkInt : BitVec 32 := 100000
  recPool : Pool := {}
  ctxPool : Pool := {}
  keyPool : Pool := {}
  lmemPool : Pool := {}
  rtmo : Table Nat := []
  ptroot : Table DWord := []
  /-- The root that walks use (R265), once one has been set. -/
  ptrootWalk : Table DWord := []
  slice : Table Nat := []
  /-- The operator policy of a partition forces mirror mode (R33). -/
  mirrorPolicy : BitVec 8 := 0
  /-- The partition that a core serves; a core not listed serves every partition (R284; log entry 13). -/
  corePart : Table Nat := []
  cores : Table Core := []
  teams : Table Team := []
  dies : Table Die := []
  records : Table TRec := []
  seq : Nat := 0
  fifos : Table (List Nat) := []
  starve : Table Nat := []
  skip : Table Nat := []
  waitLaunch : List Launch := []
  slots : List Slot := []
  certWaits : List CertWait := []
  mbox : Table (List (List Byte)) := []
  mboxOvf : BitVec 9 := 0
  cmdFifo : List (List Byte) := []
  cmdOvf : Bool := false
  evr : Table Ring := []
  flt : Table Ring := []
  cellTab : Table Byte := []
  turn : Table (BitVec 128) := []
  revoking : List Nat := []
  dir : Table DirEnt := []
  /-- DIES of the lines without a directory entry, as their home L2 slices keep them (R315). -/
  tagDies : Table (BitVec 6) := []
  copies : Table LineCopy := []
  txns : Table Txn := []
  lineq : Table (List Flit) := []
  /-- Requests that wait for a directory entry, in order of arrival (R315). -/
  dirWait : List Flit := []
  keys : List (DWord × BitVec 40) := []
  /-- Keyed reductions that wait for room in the key table, in order of arrival (R326). -/
  keyWait : List Flit := []
  migr : List Migr := []
  reqs : Table Req := []
  nextReq : Nat := 0
  e2e : Table E2E := []
  /-- When the last flit from each peer arrived, and when the last sequenced flit left for it, in nanoseconds. -/
  heard : Table Nat := []
  sentAt : Table Nat := []
  /-- Lines that the Safety Net still has to walk, by dead cell (R328). -/
  walks : List (Nat × Nat) := []
  /-- The collective group table, by byte offset (R227, R349). -/
  cgTab : Table Byte := []
  colls : List Coll := []
  /-- Contributions and abort tokens of collectives that this package has not issued yet. -/
  collEarly : List Body := []
  collCount : Nat := 0
  /-- COLLs issued on each collective group (R229). -/
  collOn : Table Nat := []
  sched : Option SchedImage := none
  /-- Valid images that wait for their EPOCH, the earliest first (R340). -/
  schedNext : List SchedImage := []
  /-- The slot of fabric time that the links are in, counted from 0, and its phase (R339). -/
  slotNo : Nat := 0
  phase : SlotPhase := .closed
  links : Table Link := []
  sendq : Table (List Flit) := []
  /-- The destination the round robin of a link served last (R342). -/
  rr : Table Nat := []
  /-- Flits given to an intermediate, which are sent again when its cell dies (R343). -/
  relayed : Table (List Flit) := []
  spdm : Spdm := {}
  /-- The bytes that the host's last read of BAR0 or BAR2 returned (R349). -/
  hostRead : List Byte := []
  /-- log2 of BAR2's size, which the host sets by Resizable BAR (R348; log entry 93). -/
  bar2 : Nat := 41
  /-- Signals of each MSI-X vector so far (R349). -/
  msix : Table Nat := []
  /-- The global count of cycles at the last reset of SD, and this package's own cycles since (R130; log entry 2). -/
  clock0 : Nat := 0
  issued : Nat := 0
  deriving DecidableEq, Repr

/-- An error of a register, of a class 0 result or of an address (R354). -/
inductive Upset
  /-- One bit of a register that an instruction reads is wrong. -/
  | single
  /-- Two bits are, or a residue disagrees. -/
  | double
  | residue
  deriving DecidableEq, Repr

/-- One step of some agent (R22, R317; log entry 2). -/
inductive Move
  /-- An issue port of a group issues alone in a cycle: port B when `b`. -/
  | issue (w : Where) (b : Bool)
  /-- Both ports of a group issue in one cycle (R23). -/
  | cycle (w : Where)
  /-- An event of the machine or of the outside. -/
  | event (i : Instr)
  /-- Time passes: core cycles and nanoseconds of fabric time. -/
  | tick (cycles ns : Nat)
  /-- A started copy command reads a 16-byte unit of its source, which it writes later (R62, R71). -/
  | readAhead (p ctx k unit : Nat)
  /-- Package `p` evicts a line that it holds from another home (R314). -/
  | evict (p line : Nat)
  /-- A port issues with an error at a lane (R354). -/
  | upset (w : Where) (b : Bool) (lane : Nat) (e : Upset)
  /-- An error that cannot be corrected strikes a line of a package's memory (R356). -/
  | memError (p line : Nat)
  /-- The host reads `n` bytes of BAR0 (R349), or sets BAR2's size (R348). -/
  | hostRead (p off n : Nat)
  | resizeBar (p n : Nat)
  /-- The driver arms the pre-armed launch entries of an image that it loads for a partition, or for its own work (R111). -/
  | armImage (p : Nat) (space part : Nat) (entries : List (List Byte))
  deriving DecidableEq, Repr

/-- The whole space. -/
structure State where
  pkgs : Table Package := []
  /-- Memory of every package, by space address. -/
  mem : Mem := []
  /-- Core cycles that have passed in the whole space (R130). -/
  clock : Nat := 0
  /-- Fabric time in nanoseconds (R339). -/
  time : Nat := 0
  /-- The moves still to come, the model's own: which agent acts next is data (log entry 2). -/
  agenda : List Move := []
  /-- The group and the port that issue next, the model's own (log entry 2). -/
  cur : Where := ⟨0, 0, 0⟩
  curB : Bool := false
  /-- How many free values have been taken, the model's own (log entry 3). -/
  free : Nat := 0
  /-- The threads of the group before the cycle in which its other port has issued, the model's own, held inside one step (R31). -/
  prior : Option (Table Thread) := none
  /-- Accesses of this step that their lines are not ready for, the model's own, held inside one step. -/
  wants : List Want := []
  /-- The error that this step's instruction meets, the model's own, held inside one step (R354). -/
  upset : Option (Nat × Upset) := none
  deriving DecidableEq, Repr

/-- The machine right after reset: no register is set, no team is resident, memory lists nothing; every package holds the
reset values of its registers (`Package`'s field values). -/
def State.reset : State := {}

end Sys2Proof.Machine
end

