-- ==== Sys2Proof/Machine/Access.lean ====
section
/-! DEFINITION. Reading and writing the parts of the state: packages, teams, groups, threads, and a thread's registers and
predicates, through which every special case of theirs goes (g0, p0, deferred-fault bits, the undo log of a region). -/

namespace Sys2Proof.Machine

/-- A telemetry counter of `w` bits goes up by 1, and saturates (R371). -/
def sat (w n : Nat) : Nat := min (n + 1) (2 ^ w - 1)

/-! ### Packages, cores and dies -/

/-- sv.clock of a package, whose cycles count from its reset of SD (R130), when the whole space has seen `n`. -/
def Package.cycles (k : Package) (n : Nat) : Nat := n - k.clock0 + k.issued

def State.pkg (s : State) (p : Nat) : Package := tget {} s.pkgs p
def State.setPkg (s : State) (p : Nat) (k : Package) : State := { s with pkgs := tput s.pkgs p k }
def State.modPkg (s : State) (p : Nat) (f : Package → Package) : State := s.setPkg p (f (s.pkg p))

def Package.core (k : Package) (c : Nat) : Core := tget {} k.cores c
def Package.setCore (k : Package) (c : Nat) (x : Core) : Package := { k with cores := tput k.cores c x }
def State.core (s : State) (p c : Nat) : Core := (s.pkg p).core c
def State.modCore (s : State) (p c : Nat) (f : Core → Core) : State :=
  s.modPkg p (fun k => k.setCore c (f (k.core c)))

def Package.die (k : Package) (d : Nat) : Die := tget {} k.dies d
def Package.setDie (k : Package) (d : Nat) (x : Die) : Package := { k with dies := tput k.dies d x }
def State.die (s : State) (p d : Nat) : Die := (s.pkg p).die d
def State.modDie (s : State) (p d : Nat) (f : Die → Die) : State := s.modPkg p (fun k => k.setDie d (f (k.die d)))

/-- Functions that have tested themselves and are usable (R357): the fabric dies, the Ringmaster, the management controller. -/
def Package.fabReady (k : Package) : Bool := k.sdReady.getLsbD 24
def Package.ringReady (k : Package) : Bool := k.sdReady.getLsbD 25
def Package.mgmtReady (k : Package) : Bool := k.sdReady.getLsbD 26

/-- The compute die of a core (R130). -/
def dieOf (core : Nat) : Nat := core / 64

/-! ### Teams, groups and threads -/

def State.team? (s : State) (p c : Nat) : Option Team := tfind (s.pkg p).teams c
def State.setTeam (s : State) (p c : Nat) (t : Team) : State :=
  s.modPkg p (fun k => { k with teams := tput k.teams c t })
def State.modTeam (s : State) (p c : Nat) (f : Team → Team) : State :=
  match s.team? p c with
  | some t => s.setTeam p c (f t)
  | none => s

def Team.group (t : Team) (g : Nat) : Group := tget {} t.groups g
def Team.setGroup (t : Team) (g : Nat) (x : Group) : Team := { t with groups := tput t.groups g x }
def Team.modGroup (t : Team) (g : Nat) (f : Group → Group) : Team := t.setGroup g (f (t.group g))
def State.modGroup (s : State) (p c g : Nat) (f : Group → Group) : State := s.modTeam p c (fun t => t.modGroup g f)

def Group.thread (g : Group) (l : Nat) : Thread := tget {} g.threads l
def Group.setThread (g : Group) (l : Nat) (x : Thread) : Group := { g with threads := tput g.threads l x }
def Group.modThread (g : Group) (l : Nat) (f : Thread → Thread) : Group := g.setThread l (f (g.thread l))

def Team.thread (t : Team) (g l : Nat) : Thread := (t.group g).thread l
def State.modThread (s : State) (p c g l : Nat) (f : Thread → Thread) : State :=
  s.modGroup p c g (fun x => x.modThread l f)
def State.setThread (s : State) (p c g l : Nat) (x : Thread) : State := s.modThread p c g l (fun _ => x)
def State.thread (s : State) (p c g l : Nat) : Thread :=
  match s.team? p c with
  | some t => t.thread g l
  | none => {}

/-- The launched width (R9). -/
def Team.width (t : Team) : Nat := t.tmpl.width
/-- The visible width (R33). -/
def Team.vis (t : Team) : Nat := if t.mirror then t.width / 2 else t.width
/-- The lanes of a group, ascending. -/
def Team.lanes (t : Team) : List Nat := List.range t.width
/-- The visible lanes, ascending. -/
def Team.visLanes (t : Team) : List Nat := List.range t.vis
/-- The visible lane of a lane (R33). -/
def Team.visLane (t : Team) (l : Nat) : Nat := if t.vis ≤ l then l - t.vis else l
/-- A lane outside the visible half. -/
def Team.shadow (t : Team) (l : Nat) : Bool := decide (t.vis ≤ l)

/-- The other lane of a mirrored pair, in mirror mode (R33). -/
def Team.partner (t : Team) (l : Nat) : Option Nat :=
  if t.mirror then some (if t.shadow l then l - t.vis else l + t.vis) else none

/-- Groups on the even core of a pair, all groups otherwise (R11). -/
def Team.evenGroups (t : Team) : Nat := if t.tmpl.pair then (t.tmpl.groups + 1) / 2 else t.tmpl.groups
/-- A group runs on the odd core of its team's pair (R11). -/
def Team.onOdd (t : Team) (g : Nat) : Bool := t.tmpl.pair && decide (t.evenGroups ≤ g)
/-- The core that a group runs on; while its team is pre-empted, the one that it ran on last. -/
def Team.coreOf (t : Team) (g : Nat) : Nat :=
  let c := match t.place with
    | some (c, _) => c
    | none => t.last
  if t.onOdd g then c + 1 else c

/-- The matrix engine of a team on the core that a group runs on. -/
def Team.eng (t : Team) (odd : Bool) : MEng := if odd then t.engO else t.engE
def Team.setEng (t : Team) (odd : Bool) (e : MEng) : Team := if odd then { t with engO := e } else { t with engE := e }
/-- Its matrix and vocabulary commands. -/
def Team.mqs (t : Team) : List MCmd := t.engE.mq ++ t.engO.mq
/-- The suspended command of a group (R246). -/
def Team.suspended (t : Team) (g : Nat) : Option MCmd := (t.eng (t.onOdd g)).mq.find? (fun m => m.suspended && m.group == g)

/-- A named barrier and a byte barrier of a team. -/
def Team.nbar (t : Team) (n : Nat) : NBar := tget {} t.nb n
def Team.bbar (t : Team) (n : Nat) : BBar := tget {} t.bb n

/-! ### Registers and predicates of a thread -/

/-- A register; g0 reads 0 (R76). -/
def Thread.reg (t : Thread) (r : Reg) : Word := if r = 0 then 0 else tget 0 t.regs r.toNat
/-- The even–odd pair at `r`; g0 reads 0 at every width (R84). -/
def Thread.pair (t : Thread) (r : Reg) : DWord := if r = 0 then 0 else t.reg (r + 1) ++ t.reg r
/-- A register or a pair, as 64 bits. -/
def Thread.val (t : Thread) (wide : Bool) (r : Reg) : DWord := if wide then t.pair r else (t.reg r).setWidth 64
/-- Register `k` of a run that starts at `r`. -/
def Thread.at (t : Thread) (r : Reg) (k : Nat) : Word := if r = 0 then 0 else tget 0 t.regs (r.toNat + k)

/-- A deferred-fault bit; g0 has none. -/
def Thread.flag (t : Thread) (r : Reg) : Bool := if r = 0 then false else tget false t.dfb r.toNat
/-- Whether a register of an operand is flagged (R94). -/
def Thread.flagN (t : Thread) (r : Reg) : Nat → Bool
  | 0 => false
  | n + 1 => (if r = 0 then false else tget false t.dfb (r.toNat + n)) || t.flagN r n
/-- Whether a register of some operand is flagged. -/
def Thread.flags (t : Thread) (os : List Opnd) : Bool := os.any (fun o => t.flagN o.r o.n)

/-- A predicate; p0 reads true (R76). -/
def Thread.pred (t : Thread) (p : PredIx) : Bool := if p = 0 then true else t.preds.getLsbD p.toNat
/-- A predicate written; a write to p0 is discarded (R76). -/
def Thread.setPred (t : Thread) (p : PredIx) (b : Bool) : Thread :=
  if p = 0 then t
  else { t with preds := if b then t.preds ||| ((1 : BitVec 8) <<< p.toNat) else t.preds &&& ~~~ ((1 : BitVec 8) <<< p.toNat) }

/-- The guard of a thread (R83). -/
def Thread.guard (t : Thread) (c : Ctl) : Bool := t.pred c.pred != c.pneg

/-- The register enters the undo log of an open region at its first write; none when the log is full (R178). -/
def Thread.logReg (t : Thread) (k : Nat) : Option Thread :=
  match t.region with
  | none => some t
  | some r =>
    if k = r.status.toNat || r.log.any (fun e => e.1 == k) then some t
    else if 32 ≤ r.log.length then none
    else some { t with region := some { r with log := r.log ++ [(k, tget 0 t.regs k, tget false t.dfb k)] } }

/-- Register number `k` written with its deferred-fault bit; none where R178 stops the write. -/
def Thread.put (t : Thread) (k : Nat) (v : Word × Bool) : Option Thread :=
  match t.logReg k with
  | none => none
  | some t => some { t with regs := tput t.regs k v.1, dfb := tput t.dfb k v.2 }

/-- Registers written from number `k` upward. -/
def Thread.putFrom (t : Thread) (k : Nat) : List (Word × Bool) → Option Thread
  | [] => some t
  | v :: vs =>
    match t.put k v with
    | none => none
    | some t => t.putFrom (k + 1) vs

/-- A run written at a register field; a write to g0 is discarded at every width (R84); none where R178 stops it. -/
def Thread.putRun (t : Thread) (r : Reg) (vs : List (Word × Bool)) : Option Thread :=
  if r = 0 then some t else t.putFrom r.toNat vs

/-- A 64-bit value as the two registers of a pair. -/
def words2 (v : DWord) : List Word := [v.extractLsb' 0 32, v.extractLsb' 32 32]
/-- A value as a register or a pair. -/
def wordsOf (wide : Bool) (v : DWord) : List Word := if wide then words2 v else [v.extractLsb' 0 32]

/-- What a deferred-result instruction that issues now brings back if it faults at its park, which only a region's log can make it do
(R92, R178). -/
def Thread.undo (t : Thread) : Option Undo := t.region.map (fun r => ⟨t.regs, t.dfb, t.preds, r.log⟩)

/-- Flags raised (R42). -/
def Thread.raise (t : Thread) (f : BitVec 5) : Thread := { t with fsr := t.fsr ||| f }

/-- A thread that has not exited. -/
def Thread.live (t : Thread) : Bool := t.st != .exited
/-- A runnable thread (R17). -/
def Thread.runs (t : Thread) : Bool := t.st == .runnable

/-! ### Entries of the frontier (R20) -/

/-- The non-exited lanes at a program counter: an entry of the frontier. -/
def Team.entLanes (t : Team) (g : Nat) (pc : Pc) : List Nat :=
  t.lanes.filter (fun l => (t.thread g l).live && (t.thread g l).pc == pc)
/-- Its runnable lanes. -/
def Team.runLanes (t : Team) (g : Nat) (pc : Pc) : List Nat :=
  t.lanes.filter (fun l => (t.thread g l).runs && (t.thread g l).pc == pc)

/-- What the frontier keeps for an entry; an entry that keeps nothing starts a clause. -/
def Group.ent (g : Group) (pc : Pc) : Ent := tget ⟨0, false, none⟩ g.ents pc.toNat

/-- The issue ports (R22). -/
def Group.port (g : Group) (b : Bool) : Option Port := if b then g.portB else g.portA
def Group.setPort (g : Group) (b : Bool) (x : Option Port) : Group :=
  if b then { g with portB := x } else { g with portA := x }
/-- A port has no entry any more; port B may then pick alone while port A has one (R23). -/
def Group.freePort (g : Group) (b : Bool) : Group :=
  if b then { g with portB := none, bFree := g.portA.isSome || g.pickA.isSome } else { g with portA := none }
/-- Neither port has or has taken an entry. -/
def Group.idlePorts (g : Group) : Group := { g with portA := none, portB := none, pickA := none, bFree := false }

/-- Lanes arrive at a program counter with a stamp: the entry there keeps the earlier stamp, its own mark, and its clause if it is in one
(R20). -/
def Group.arrive (g : Group) (pc : Pc) (stamp : Nat) (yield : Bool) (cl : Option Clause) : Group :=
  match tfind g.ents pc.toNat with
  | some e => { g with ents := tput g.ents pc.toNat { e with stamp := min e.stamp stamp, yield := e.yield || yield, clause := e.clause.or cl } }
  | none => { g with ents := tput g.ents pc.toNat ⟨stamp, yield, cl⟩ }

/-- Entries without a lane are removed (R20). -/
def Team.sweepEnts (t : Team) (g : Nat) : Team :=
  t.modGroup g (fun x => { x with ents := x.ents.filter (fun e => t.lanes.any (fun l =>
    (t.thread g l).live && (t.thread g l).pc.toNat == e.1)) })

end Sys2Proof.Machine
end

