-- ==== Sys2Proof/Machine/Flits.lean ====
section
/-! DEFINITION. A flit as it stands on the fibres: its body, its header and FCRC (R333, R334), and the pieces into which it is cut, one for
each live wavelength (R331, R332). -/

namespace Sys2Proof

/-! ### FCRC (R333) -/

/-- One bit of a byte, the most significant first, enters the remainder of x^16 + x^12 + x^5 + 1. -/
def crcBit (c : Nat) (b : Bool) : Nat :=
  let top := decide (2 ^ 15 ≤ c) != b
  Nat.xor (c * 2 % 2 ^ 16) (if top then 0x1021 else 0)
def crcByte (c : Nat) (b : Byte) : Nat :=
  [7, 6, 5, 4, 3, 2, 1, 0].foldl (fun c j => crcBit c (b.getLsbD j)) c
/-- CRC-16 with initial value 0xFFFF, no reflection and no final XOR. -/
def crc16 (bs : List Byte) : Nat := bs.foldl crcByte 0xFFFF

/-! ### Wavelengths (R331, R332) -/

/-- The wavelengths of the feeds in a mask, in ascending order of w = 4f + λ. -/
def waves (feeds : BitVec 4) : List Nat := (List.range 16).filter (fun w => feeds.getLsbD (w / 4))

/-- A list cut into `n` pieces of `k`. -/
def cut {α : Type} (k : Nat) : Nat → List α → List (List α)
  | 0, _ => []
  | n + 1, xs => xs.take k :: cut k n (xs.drop k)

/-- Bytes as bits, bit 0 of each byte first. -/
def bitsOf (bs : List Byte) : List Bool := bs.flatMap (fun b => (List.range 8).map (fun j => b.getLsbD j))
/-- Bits as bytes. -/
def bytesOfBits (bits : List Bool) : List Byte :=
  (cut 8 (bits.length / 8) bits).map (fun x => BitVec.ofNat 8 (x.foldr (fun b n => (if b then 1 else 0) + 2 * n) 0))

/-- A flit's bits on the live wavelengths: piece j on the j-th. -/
def stripe (feeds : BitVec 4) (bits : List Bool) : Table (List Bool) :=
  let ws := waves feeds
  ws.zip (cut (1536 / ws.length) ws.length bits)
/-- What a receiver puts together from the wavelengths that it takes to be live. -/
def unstripe (feeds : BitVec 4) (t : Table (List Bool)) : List Bool := (waves feeds).flatMap (tget [] t)

end Sys2Proof

namespace Sys2Proof.Machine

/-- Bytes cut or filled with 0 to `n`. -/
def padTo : Nat → List Byte → List Byte
  | 0, _ => []
  | n + 1, [] => 0 :: padTo n []
  | n + 1, b :: bs => b :: padTo n bs

/-! ### Bodies (R334) -/

/-- OP codes of REQ and RSP (R334). -/
def ReqOp.code : ReqOp → Nat
  | .gets => 0
  | .getm => 1
  | .wrh => 2
  | .red => 3
  | .wb => 4
  | .eve => 5
def RspOp.code : RspOp → Nat
  | .data => 0
  | .ack => 1
  | .refused => 2
  | .poison => 3
  | .hold => 4
/-- The model's codes of SNP (log entry 20). -/
def SnpOp.code : SnpOp → Nat
  | .recall => 0
  | .clean => 1
  | .inval => 2
  | .invalW => 3

/-- ADDR: the space address and OP. -/
def addrWord (addr op : Nat) : List Byte := leBytes 8 (addr % 2 ^ 52 + 2 ^ 52 * op)

/-- The valid bytes of a body. REQ and RSP stand as R334 lays them out, a RED's operand in the low bytes of DATA; the places of a RSP's
granted state and of the request that it answers, and every other body's layout, are the model's (log entry 20). -/
def Body.bytes : Body → List Byte
  | .none | .heartbeat => []
  | .req op addr arg mask key _ vals data =>
    addrWord addr op.code ++ leBytes 8 arg ++ leBytes 16 mask.toNat ++ leBytes 8 key.toNat ++ leBytes 8 vals.2.toNat ++
      padTo 128 (if op = .red then leBytes 8 vals.1.toNat else data)
  | .rsp op re addr grant data =>
    addrWord addr op.code ++ leBytes 8 grant ++ leBytes 16 0 ++ leBytes 8 re ++ leBytes 8 0 ++ padTo 128 data
  | .snp op addr => addrWord addr op.code
  | .snpr addr held dirty data =>
    addrWord addr 0 ++ leBytes 8 ((if held then 1 else 0) + (if dirty then 2 else 0)) ++ padTo 128 data
  | .coll g n key step src chunk par data =>
    leBytes 1 0 ++ leBytes 1 g ++ leBytes 1 src ++ leBytes 1 0 ++ leBytes 4 chunk ++ leBytes 8 n ++ leBytes 8 key.toNat ++ leBytes 8 step ++
      leBytes 8 (crc16 par) ++ padTo 128 data
  | .hello g n src par => leBytes 1 1 ++ leBytes 1 g ++ leBytes 1 src ++ leBytes 5 0 ++ leBytes 8 n ++ leBytes 8 (crc16 par)
  | .abort g n rank cause steps =>
    leBytes 1 2 ++ leBytes 1 g ++ leBytes 1 rank ++ leBytes 1 cause ++ leBytes 4 0 ++ leBytes 8 n ++ leBytes 8 steps
  | .death cell => leBytes 8 1 ++ leBytes 8 cell
  | .retire inst => leBytes 8 2 ++ leBytes 8 inst.toNat
  | .launch bytes => leBytes 8 3 ++ padTo 64 bytes
  | .tdec inst part id => leBytes 8 4 ++ leBytes 8 inst.toNat ++ leBytes 8 part ++ leBytes 8 id
  | .certw inst part id => leBytes 8 5 ++ leBytes 8 inst.toNat ++ leBytes 8 part ++ leBytes 8 id
  | .answer id v => leBytes 8 6 ++ leBytes 8 id ++ leBytes 8 v
  | .reserved => []

/-! ### Flits (R333) -/

/-- The 16 bytes of a flit's header with an FCRC. -/
def Flit.header (f : Flit) (fcrc : Nat) : List Byte :=
  leBytes 16 (fcrc + 2 ^ 30 * f.blen + 2 ^ 38 * f.crinc + 2 ^ 44 * f.crch + 2 ^ 47 * f.eseq + 2 ^ 79 * f.lack + 2 ^ 91 * f.lseq +
    2 ^ 103 * f.src + 2 ^ 111 * f.dst + 2 ^ 119 * f.hop + 2 ^ 121 * f.ch + 2 ^ 124 * f.type)
/-- The 192 bytes of a flit. -/
def Flit.bytes (f : Flit) : List Byte := f.header f.fcrc.toNat ++ padTo 176 f.body.bytes
/-- A flit sealed for the fibres: FCRC covers bytes 2 to 191. -/
def Flit.seal (f : Flit) (feeds : BitVec 4) : Flit := { f with fcrc := BitVec.ofNat 16 (crc16 (f.bytes.drop 2)), feeds := feeds }
/-- FCRC agrees with the bytes that a receiver puts together from the feeds it takes to be live (R332, R335). -/
def Flit.intact (f : Flit) (feeds : BitVec 4) : Bool :=
  let bs := bytesOfBits (unstripe feeds (stripe f.feeds (bitsOf f.bytes)))
  decide (bs.length = 192) && leNat (bs.take 2) == crc16 (bs.drop 2)

end Sys2Proof.Machine
end

