-- ==== Sys2Proof/Machine/Notify.lean ====
section
/-! DEFINITION. What the machine tells others: event records (R351, R352, R380), fault records (R293), and flits put into the
send queues (R333, R342). Also the free values (R55). -/

namespace Sys2Proof.Machine

/-- A free choice among `n` values, and the state that has taken it (log entry 3). -/
def State.choose (s : State) (n : Nat) : Nat × State := (Config.freeNat s.free % n, { s with free := s.free + 1 })

/-! ### Rings -/

/-- Bytes of an event record's DATA: each field at its offset from byte 32, in ascending order. -/
def dataAt (fields : List (Nat × List Byte)) : List Byte :=
  fields.foldl (fun acc f => padTo (f.1 - 32) acc ++ f.2) []

/-- The 64 bytes of an event record (R351). -/
def Rec.bytes (r : Rec) (seq : Nat) : List Byte :=
  leBytes 2 r.type ++ leBytes 1 r.part ++ [0] ++ leBytes 4 r.code.toNat ++ leBytes 8 r.inst.toNat ++ leBytes 8 r.pc.toNat ++
    leBytes 2 r.core ++ leBytes 1 r.lane ++ [0] ++ leBytes 4 seq ++ padTo 32 r.data

/-- A ring with `entry` bytes of a record ready takes what fits (R351: the record, then HEAD). -/
def Ring.flush : Nat → Ring → Ring
  | 0, g => g
  | fuel + 1, g =>
    match g.pend with
    | [] => g
    | b :: bs =>
      if g.head - g.tail < g.size then
        Ring.flush fuel { g with pend := bs, out := tput g.out (g.head % g.size) b, head := g.head + 1 }
      else g

/-- A ring takes a record; past 4,096 pending records it is lost (R351). -/
def Ring.post (g : Ring) (b : List Byte) : Ring :=
  if 4096 ≤ g.pend.length then { g with lost := g.lost + 1 }
  else Ring.flush (g.pend.length + 1) { g with pend := g.pend ++ [b], count := g.count + 1 }

/-- A ring can take a USER record at once: nothing pends and an entry is free (R267). -/
def Ring.room (g : Ring) : Bool := g.pend.isEmpty && decide (g.head - g.tail < g.size)

def Package.ring (k : Package) (page : Nat) : Ring := tget {} k.evr page
/-- A page's fault ring. -/
def Package.fltRing (k : Package) (page : Nat) : Ring := tget {} k.flt page

/-- MSI-X vector `v` signals where HEAD has advanced (R349). -/
def Package.signal (k : Package) (v : Nat) (on : Bool) : Package := if on then { k with msix := tput k.msix v (tget 0 k.msix v + 1) } else k
/-- A page's event ring changes; vector 2p signals it. -/
def Package.setRing (k : Package) (page : Nat) (g : Ring) : Package :=
  ({ k with evr := tput k.evr page g }).signal (2 * page) (g.head != (k.ring page).head)
/-- A page's fault ring changes; vector 2p + 1 signals it. -/
def Package.setFltRing (k : Package) (page : Nat) (g : Ring) : Package :=
  ({ k with flt := tput k.flt page g }).signal (2 * page + 1) (g.head != (k.fltRing page).head)

def Package.postRec (k : Package) (page : Nat) (r : Rec) : Package :=
  k.setRing page ((k.ring page).post (r.bytes (k.ring page).count))

/-- An event record goes to a ring of a package. -/
def State.event (s : State) (p page : Nat) (r : Rec) : State := s.modPkg p (fun k => k.postRec page r)

/-- The ring of a task (R351, R384). -/
def ringOf (part : Nat) (driver : Bool) : Nat := if driver then 8 else part

/-- A record about the package, for the driver ring. -/
def pkgRec (type code : Nat) (data : List Byte) : Rec :=
  ⟨type, 0xFF, BitVec.ofNat 32 code, 0, 0, 0xFFFF, 0xFF, data⟩

/-- A record about a team's task. -/
def Team.evRec (t : Team) (g : Nat) (type code : Nat) (pc : DWord) (lane : Nat) (data : List Byte) : Rec :=
  ⟨type, t.part, BitVec.ofNat 32 code, t.inst, pc, t.coreOf g, lane, data⟩

/-- The 32 bytes of a fault record (R293). -/
def PFault.bytes (f : PFault) : List Byte :=
  leBytes 8 f.va.toNat ++ leBytes 1 f.part ++ [f.kind] ++ leBytes 2 (min f.nthr 0xFFFF) ++ leBytes 4 0 ++
    leBytes 8 f.inst.toNat ++ leBytes 8 f.fpc.toNat

/-- A fault record goes to the partition's fault ring. -/
def Package.postFault (k : Package) (f : PFault) : Package :=
  k.setFltRing f.part ((k.fltRing f.part).post f.bytes)

/-! ### Send queues -/

/-- TYPE and CH of a body (R334); `cpyx` puts a request on channel 5. -/
def Body.typeCh (cpyx : Bool) : Body → Nat × Nat
  | .none => (0, 7)
  | .req .. => (1, if cpyx then 5 else 0)
  | .rsp .. => (2, 1)
  | .snp .. => (3, 2)
  | .snpr .. => (4, 3)
  | .coll .. | .hello .. | .abort .. => (5, 4)
  | .heartbeat | .death .. | .retire .. | .launch .. | .tdec .. | .certw .. | .answer .. => (6, 6)
  | .reserved => (8, 0)

/-- A flit from `p` to `dst` with an end-to-end number. -/
def mkFlit (p dst eseq : Nat) (cpyx : Bool) (b : Body) : Flit :=
  { type := (b.typeCh cpyx).1, ch := (b.typeCh cpyx).2, hop := 0, dst := dst, src := p, eseq := eseq, body := b,
    blen := b.bytes.length }

/-- The key of the send queue of a destination and channel (R342). -/
def sqKey (dst ch : Nat) : Nat := dst * 8 + ch

def Package.e2e? (k : Package) (q : Nat) : E2E := tget {} k.e2e q

/-- The line that a flit is about. -/
def Body.line? : Body → Option Nat
  | .req _ a .. | .rsp _ _ a .. | .snp _ a | .snpr a .. => some (a / 128)
  | _ => Option.none

/-- A body enters the send queue for a destination, and takes the pair's next end-to-end number (R325). -/
def Package.sendAs (k : Package) (p dst : Nat) (cpyx : Bool) (b : Body) : Package :=
  let e := k.e2e? dst
  let f := mkFlit p dst e.next cpyx b
  { k with
    e2e := tput k.e2e dst { e with next := (e.next + 1) % 2 ^ 32, sent := e.sent ++ [(e.next, b.line?)] },
    sendq := tput k.sendq (sqKey dst f.ch) (tget [] k.sendq (sqKey dst f.ch) ++ [f]) }

def Package.send (k : Package) (p dst : Nat) (b : Body) : Package := k.sendAs p dst false b
def State.send (s : State) (p dst : Nat) (b : Body) : State := s.modPkg p (fun k => k.send p dst b)

/-! ### The cell table (R312) -/

def Package.cellByte (k : Package) (q : Nat) : Byte := tget 0 k.cellTab q
/-- Package `q` is a member of the space, as `k`'s table says. -/
def Package.member (k : Package) (q : Nat) : Bool := (k.cellByte q).getLsbD 7
/-- Package `q`'s cell has been declared dead. -/
def Package.dead (k : Package) (q : Nat) : Bool := (k.cellByte q).getLsbD 6
/-- Package `q`'s cell. -/
def Package.cell (k : Package) (q : Nat) : Nat := ((k.cellByte q).extractLsb' 0 6).toNat
/-- The members of the space but `p`, ascending. -/
def Package.others (k : Package) (p : Nat) : List Nat := (List.range 256).filter (fun q => q != p && k.member q)
/-- The members of a cell, ascending. -/
def Package.cellMembers (k : Package) (c : Nat) : List Nat :=
  (List.range 256).filter (fun q => k.member q && k.cell q == c)

/-- A body goes to every other member. -/
def Package.sendAll (k : Package) (p : Nat) (b : Body) : Package := (k.others p).foldl (fun k q => k.send p q b) k

end Sys2Proof.Machine
end

