-- ==== Sys2Proof/Machine/Ops.lean ====
section
/-! DEFINITION. The shared operations of instructions: the park that writes deferred results (R90), taking a trap (R260, R261,
R292) with the Booth steps and the abort of collectives that a stop entails (R199, R200, R234), a lane's move between
entries (R20), and the issue of one instruction by an entry (R22, R83, R91, R94, R96). -/

namespace Sys2Proof.Machine

/-! ### The Booth's queue steps (R199, R200) -/

/-- The head of a queue once abandoned places have been skipped, at most `n` of them (R199). -/
def skipAbandoned : Nat → List Place → List Place
  | 0, q => q
  | _, [] => []
  | n + 1, x :: q => if x.abandoned then skipAbandoned n q else x :: q

/-- The first place is granted. -/
def grantHead : List Place → List Place
  | [] => []
  | x :: q => { x with waiting := false, holder := true } :: q

/-- A background step, and the part of a release after its unlinking (R199). -/
def Obj.advance (o : Obj) : Obj :=
  let q := skipAbandoned 32 o.places
  match q with
  | [] => { o with places := [], skipping := false }
  | x :: _ => if x.abandoned then { o with places := q, skipping := true }
    else { o with places := grantHead q, skipping := false }

/-- The place with a sequence number leaves the queue. -/
def Obj.unlink (o : Obj) (seq : BitVec 24) : Obj := { o with places := o.places.filter (fun x => x.seq != seq) }

/-- A release of the place with a sequence number (R199). -/
def Obj.release (o : Obj) (seq : BitVec 24) : Obj := (o.unlink seq).advance

/-- A waiting place abandoned (R198). -/
def Obj.abandon (o : Obj) (seq : BitVec 24) : Obj :=
  { o with places := o.places.map (fun x => if x.seq == seq then
      { x with waiting := false, abandoned := true, ctx := 0, thr := 0 } else x) }

/-- The handle of an object, or of a place of it (R194). -/
def handleOf (die obj : Nat) (seq : BitVec 24) (gen : BitVec 16) : DWord :=
  BitVec.ofNat 3 die ++ BitVec.ofNat 21 obj ++ seq ++ gen

/-- A HELD_RELEASED record (R380). -/
def heldReleased (part code : Nat) (inst : BitVec 40) (core lane : Nat) (die obj : Nat) (gen : BitVec 16)
    (seq : BitVec 24) : Rec :=
  ⟨0x06, part, BitVec.ofNat 32 code, inst, 0, core, lane,
    dataAt [(32, leBytes 8 (handleOf die obj 0 gen).toNat), (40, leBytes 4 seq.toNat)]⟩

/-- A grant wakes the owner's parked TKWAIT, which then finds its place holding (R199); an owner that is pre-empted finds it on
resumption. -/
def State.grantWake (s : State) (p die obj : Nat) : State :=
  match tfind (s.die p die).objs obj with
  | none => s
  | some o =>
    match o.places with
    | [] => s
    | x :: _ =>
      if !x.holder then s
      else
        let h := handleOf die obj x.seq o.gen
        let wake (t : Thread) : Thread := if t.st == .ticket h then { t with st := .runnable } else t
        s.modTeam p x.ctx (fun t => if t.place.isNone then t else
          let g := x.thr / 64
          let l := x.thr % 64
          let t := t.modGroup g (fun y => y.modThread l wake)
          if t.mirror then t.modGroup g (fun y => y.modThread (l + t.vis) wake) else t)

/-- An object's queue changes in one Booth step, and a grant wakes its owner. -/
def State.setObj (s : State) (p die obj : Nat) (o : Obj) : State :=
  (s.modDie p die (fun d => { d with objs := tput d.objs obj o })).grantWake p die obj

/-- The Booth disposes of one place of an exiting thread or a stopped team (R200), as the place stands at that step: a waiting one is
abandoned, a holder released and reported. -/
def State.disposePlace (s : State) (p die obj : Nat) (seq : BitVec 24) (tm : Team) : State :=
  match tfind (s.die p die).objs obj with
  | none => s
  | some o =>
    match o.places.find? (fun x => x.seq == seq) with
    | none => s
    | some x =>
    if x.holder then
      (s.setObj p die obj (o.release x.seq)).event p (ringOf tm.part tm.driver)
        (heldReleased tm.part 0 tm.inst (tm.coreOf (x.thr / 64)) (x.thr % 64) die obj o.gen x.seq)
    else s.setObj p die obj (o.abandon x.seq)

/-- Every place of a context that `own` selects is disposed of, one Booth step each (R200). -/
def State.disposePlaces (s : State) (p ctx : Nat) (tm : Team) (own : Place → Bool) : State :=
  (s.pkg p).dies.foldl (fun s d =>
    d.2.objs.foldl (fun s o =>
      (o.2.places.filter (fun x => !x.abandoned && x.ctx == ctx && own x)).foldl
        (fun s x => s.disposePlace p d.1 o.1 x.seq tm) s) s) s

/-! ### Task records -/

/-- The index of the live record of an instance. -/
def Package.findRec (k : Package) (i : BitVec 40) : Option Nat :=
  (k.records.find? (fun e => e.2.inst == i && e.2.st != .free)).map (·.1)
def Package.rec? (k : Package) (i : BitVec 40) : Option TRec :=
  (k.records.find? (fun e => e.2.inst == i && e.2.st != .free)).map (·.2)

/-- STATE of R278. -/
def RecSt.code : RecSt → Nat
  | .free => 0
  | .waiting => 1
  | .ready => 2
  | .running => 3
  | .done => 4
  | .failed => 5

/-- The package that launched an instance (R276). -/
def pkgOf (i : BitVec 40) : Nat := i.toNat / 2 ^ 32

/-- The 128 bytes of a task record (R277). Where the pool of its successor blocks lies is the implementation's (log entry 22). -/
def TRec.bytes (r : TRec) : List Byte :=
  leBytes 8 r.inst.toNat ++ leBytes 8 r.template.toNat ++ leBytes 8 r.arg.toNat ++ leBytes 4 r.deps ++ leBytes 1 r.prio ++
    leBytes 1 r.st.code ++ leBytes 1 r.cert ++ leBytes 1 r.stream ++
    leBytes 8 (match r.blocks with
      | [] => 0
      | b :: _ => Config.succBlock (pkgOf r.inst) b) ++ leBytes 4 r.succ.length ++ leBytes 1 r.fcode ++
    leBytes 1 r.flane ++ leBytes 2 r.fcore ++ leBytes 8 r.fpc.toNat ++ leBytes 4 r.fcount ++ leBytes 1 r.fgroup ++
    leBytes 3 0 ++ leBytes 48 (r.cores.foldl (fun n c => Nat.lor n (2 ^ c)) 0) ++ leBytes 8 r.tdone ++ leBytes 8 r.parent.toNat

/-- The Ringmaster writes a record: its entry, and its bytes in the pool that the driver gives the package (R277). -/
def State.putRec (s : State) (p ix : Nat) (r : TRec) : State :=
  let s := s.modPkg p (fun k => { k with records := tput k.records ix r })
  { s with mem := s.mem.put ((s.pkg p).recPool.base + 128 * ix) r.bytes }

/-- The 64 bytes of a successor block (R277): seven instances, and the next block. -/
def succBytes (p : Nat) (is : List (BitVec 40)) (next : Option Nat) : List Byte :=
  (List.range 7).flatMap (fun j => leBytes 8 (is.getD j 0).toNat) ++ leBytes 8 (match next with
    | some b => Config.succBlock p b
    | none => 0)

/-- The successor blocks of a record, as they stand in memory. -/
def putBlocks (p : Nat) : List Nat → List (BitVec 40) → Mem → Mem
  | [], _, m => m
  | b :: bs, is, m => putBlocks p bs (is.drop 7) (m.put (Config.succBlock p b) (succBytes p (is.take 7) bs.head?))

/-- Blocks of the pool that live records use. -/
def Package.usedBlocks (k : Package) : List Nat := (k.records.filter (fun e => e.2.st != .free)).flatMap (fun e => e.2.blocks)
/-- The lowest block that no record uses. -/
def Package.freeBlock (k : Package) : Nat := ((List.range (k.usedBlocks.length + 1)).find? (fun b => !k.usedBlocks.contains b)).getD 0

/-- A record's next successor needs a block of its own. -/
def TRec.blockNeed (r : TRec) : Nat := if r.succ.length % 7 = 0 then 1 else 0

/-- A successor edge is recorded (R277, R281). -/
def State.addSucc (s : State) (p ix : Nat) (r : TRec) (i : BitVec 40) : State :=
  let bs := if r.blockNeed = 1 then r.blocks ++ [(s.pkg p).freeBlock] else r.blocks
  let r : TRec := { r with succ := r.succ ++ [i], blocks := bs }
  { (s.putRec p ix r) with mem := putBlocks p bs r.succ (s.putRec p ix r).mem }

/-- The live record of an instance is changed. -/
def State.modRec (s : State) (p : Nat) (i : BitVec 40) (f : TRec → TRec) : State :=
  match (s.pkg p).records.find? (fun e => e.2.inst == i && e.2.st != .free) with
  | some (ix, r) => s.putRec p ix (f r)
  | none => s

/-- A fault enters a record's fault log (R277). -/
def TRec.logFault (r : TRec) (code lane core : Nat) (pc : DWord) (group : Nat) : TRec :=
  if r.fcount = 0 then
    { r with fcode := code, flane := lane, fcore := core, fpc := pc, fgroup := group, fcount := 1 }
  else { r with fcount := min (r.fcount + 1) 0xFFFFFFFF }

/-! ### Collectives abort -/

/-- A collective of this member aborts: it stops (R234). -/
def Coll.abort (c : Coll) (rank cause : Nat) : Coll :=
  if c.st = .complete || c.st = .aborted then c else { c with st := .aborted, abortRank := rank, cause := cause, page := none }

/-- Byte `k` of a block. -/
def blkByte (b : List Byte) (k : Nat) : Nat := (b.getD k 0).toNat
/-- A little-endian field of a block. -/
def blkLe (b : List Byte) (k n : Nat) : Nat := leNat ((b.drop k).take n)

/-- The collective's group index (R228). -/
def Coll.cgroup (c : Coll) : Nat := blkLe c.block 8 2

/-- A running collective that `sel` selects aborts on this member, and its members are sent abort tokens that name the aborting rank
(R234). -/
def Package.abortColls (k : Package) (p : Nat) (cause : Nat) (rank : Coll → Nat) (sel : Coll → Bool) : Package :=
  let hit := k.colls.filter (fun c => sel c && c.st != .complete && c.st != .aborted)
  let k' := { k with colls := k.colls.map (fun c => if sel c then c.abort (rank c) cause else c) }
  hit.foldl (fun k c => c.members.foldl (fun k q =>
    if q = p then k else k.send p q (.abort c.cgroup c.n (rank c) cause c.steps)) k) k'

/-- A sink event on a core: store retirement, barrier arrival, TKREL or message retirement (R355). -/
def State.sink (s : State) (p core : Nat) : State := s.modCore p core (fun x => { x with lastSink := s.time })

/-! ### The park (R90) -/

/-- One pending result written (R90): a predicate, or a run with its deferred-fault bits and TKREQ's predicate; none where R178 stops
it. -/
def Thread.land (t : Thread) (r : Pend) : Option Thread :=
  if r.isPred then some ((t.setPred (BitVec.ofNat 3 r.dst) ((r.vals.getD 0 (0, false)).1 != 0)).raise r.flags)
  else match r.pk with
    | none => (t.putRun (BitVec.ofNat 9 r.dst) r.vals).map (fun t => t.raise r.flags)
    | some k => (t.putRun (BitVec.ofNat 9 r.dst) r.vals.dropLast).map (fun t =>
        (t.setPred (BitVec.ofNat 3 k) ((r.vals.getLastD (0, false)).1 != 0)).raise r.flags)

/-- Pending results written in program order; where the undo log has no room, the result that stops it (R178). -/
def Thread.landAll (t : Thread) : List Pend → Thread × Option Pend
  | [] => (t, none)
  | r :: rs =>
    match t.land r with
    | some t => t.landAll rs
    | none => (t, some r)

/-- A thread parked in WAITM that takes a trap ends its wait with SPURIOUS (R73). -/
def Thread.unwatch (t : Thread) : Thread :=
  match t.st with
  | .monitor _ => { t with pend := t.pend.map (fun r => if r.pc == t.pc && !r.known then
      { r with vals := [(3, false)], known := true } else r) }
  | _ => t

/-- The pending results that are written before the one that R178 stops. -/
def Thread.older (t : Thread) : List Pend → List Pend
  | [] => []
  | r :: rs => match t.land r with
    | some t => r :: t.older rs
    | none => []

/-- The registers, predicates and undo log return to what they were when a result's instruction issued: younger fixed-latency writes are
undone (R92, R178). -/
def Thread.revert (t : Thread) (r : Pend) : Thread :=
  match r.undo with
  | none => t
  | some x => { t with regs := x.regs, dfb := x.dfb, preds := x.preds, region := t.region.map (fun g => { g with log := x.log }) }

/-- Nothing is pending any more. -/
def Thread.cleared (t : Thread) : Thread := { t with pend := [], defCount := 0, parkDue := false }

/-- A park performed: the results are written in order, and the deferred count returns to 0 (R90). Where the undo log stops one, its
instruction has faulted: the older ones are written, and it, the younger ones and the younger fixed-latency writes are not (R92, R178). -/
def Thread.parkNow (t : Thread) : Thread × Option Pend :=
  match t.landAll t.pend with
  | (u, none) => (u.cleared, none)
  | (_, some r) => (((t.revert r).landAll (t.older t.pend)).1.cleared, some r)

/-- Every pending result of the thread has returned. -/
def Thread.settled (t : Thread) : Bool := t.wait.isNone && t.pend.all (fun r => r.known)

/-- The REGION trap of a deferred write that the undo log cannot hold (R178). -/
def regionFull (pc : Pc) : Trap := ⟨0x16, pc.setWidth 64, none, some 2⟩

/-! ### Lanes between entries -/

/-- A lane goes to a program counter, with the stamp it carries (R20). -/
def State.moveLane (s : State) (p c g l : Nat) (pc : Pc) (cl : Option Clause) : State :=
  s.modGroup p c g (fun x =>
    let st := (x.ent (x.thread l).pc).stamp
    (x.modThread l (fun t => { t with pc := pc })).arrive pc st false cl)

/-! ### Taking a trap (R260, R261, R292) -/

/-- The destination teams of copies that are dropped no longer wait for them (R225). -/
def State.dropHolds (s : State) (p : Nat) (xs : List Copy) : State :=
  xs.foldl (fun s (x : Copy) => (x.dests.filter (fun (d : CDest) => !d.skip)).foldl (fun s (d : CDest) =>
    s.modTeam p d.ctx (fun t => if t.inst = d.inst then { t with cpymHold := t.cpymHold - 1 } else t)) s) s

/-- A task leaves its FIFO; a new head's skip count starts at 0. -/
def Package.dequeue (k : Package) (prio ix : Nat) : Package :=
  let q := tget [] k.fifos prio
  { k with fifos := tput k.fifos prio (q.filter (fun x => x != ix)),
           skip := if q.head? = some ix then tput k.skip prio 0 else k.skip }

/-! ### Answers of the Ringmaster -/

/-- The value of a thread's outstanding result has come, with its flags: its wait ends. -/
def Thread.received (t : Thread) (vs : List (Word × Bool)) (flags : BitVec 5) : Thread :=
  { t with wait := none, pend := t.pend.map (fun (r : Pend) => if r.known then r else
      { r with vals := vs, n := vs.length, flags := flags, known := true, ready := true }) }
/-- A thread's outstanding result fails: its wait ends. -/
def Thread.unanswered (t : Thread) : Thread := { t with wait := none, pend := t.pend.filter (fun r => r.known) }

/-- The lanes that share a lane's access: itself, and its shadow or visible lane. -/
def Team.both (t : Team) (l : Nat) : List Nat :=
  match t.partner l with
  | some m => [l, m]
  | none => [l]

/-- What an answer gives lanes of a team that is away is held in its slot. -/
def Team.hold (t : Team) (g l : Nat) (ls : List Nat) (pc : Pc) (ea : DWord) (vs : List (Word × Bool)) (fail : Option (Nat × Option DWord)) :
    Team := { t with late := t.late ++ [⟨g, l, ls, pc, ea, .answer, [], [], vs, fail⟩] }

/-- A lane's wait for an answer ends with the value of its pending result, which its shadow shares. -/
def State.endWait (s : State) (p c g l : Nat) (vs : List (Word × Bool)) : State :=
  match s.team? p c with
  | none => s
  | some tm =>
    if tm.place.isNone then s.modTeam p c (fun t => t.hold g l (t.both l) 0 0 vs none)
    else (tm.both l).foldl (fun s j => s.modThread p c g j (fun t => t.received vs 0)) s

/-- The lane that asked the Ringmaster receives the answer: an instance (R202), or a verdict (R205). -/
def State.tellLane (s : State) (p : Nat) (a : Option Asker) (vs : List (Word × Bool)) : State :=
  match a with
  | some (.lane c g l inst) => match s.team? p c with
    | some t => if t.inst = inst ∧ t.stop.isNone then s.endWait p c g l vs else s
    | none => s
  | _ => s

/-- A CERTW that waits is answered (R205). -/
def State.answerCert (s : State) (p : Nat) (w : CertWait) (b : Bool) : State :=
  let s := s.modPkg p (fun k => { k with certWaits := k.certWaits.filter (fun x => x != w) })
  match w.asker with
  | .lane .. => s.tellLane p (some w.asker) [(if b then 1 else 0, false)]
  | .remote q id => s.send p q (.answer id (if b then 1 else 0))

/-- Every CERTW that waits for an instance that has become FAILED returns false (R205). -/
def State.failCerts (s : State) (p : Nat) (i : BitVec 40) : State :=
  ((s.pkg p).certWaits.filter (fun w => w.inst == i)).foldl (fun s w => s.answerCert p w false) s

/-- The team is stopped (R261, and R35 for MIRROR): every group stops, its Booth places are disposed of, its collectives
abort, the record and the host learn of it, and copies not started are discarded. Its queued matrix commands start no more, and leave
the queue when the team is freed. -/
def State.stopTeam (s : State) (p c g l : Nat) (tr : Trap) (addr info : DWord) : State :=
  match s.team? p c with
  | none => s
  | some tm =>
    let mirror := tr.code == 0x10
    let stopped : Team := { tm with
      stop := some (if mirror then .mirror else .failed),
      groups := tmap (fun _ x => x.idlePorts) tm.groups,
      copies := tm.copies.filter (fun x => x.started) }
    let s := (s.setTeam p c stopped).dropHolds p (tm.copies.filter (fun x => !x.started))
    let s := s.disposePlaces p c tm (fun _ => true)
    let s := s.modPkg p (fun k => k.abortColls p tr.code Coll.rank (fun x => x.ctx == c && x.inst == tm.inst))
    let core := tm.coreOf g
    let lane := tm.visLane l
    let s := s.modRec p tm.inst (fun r =>
      let r := r.logFault tr.code lane core tr.pc g
      if mirror then { r with mirrorCore := some core } else { r with st := .failed })
    let s := if mirror then s else s.failCerts p tm.inst
    let s := if mirror then s.modCore p core (fun x => { x with mirr := sat 64 x.mirr }) else s
    -- a pre-empted team waits for no core any more
    let s := match tm.place, (s.pkg p).findRec tm.inst with
      | none, some ix => s.modPkg p (fun k => k.dequeue tm.prio ix)
      | _, _ => s
    s.event p (ringOf tm.part tm.driver)
      (if mirror then tm.evRec g 0x03 0x10 tr.pc lane (leBytes 1 g)
       else tm.evRec g 0x02 tr.code tr.pc lane
         (dataAt [(32, leBytes 1 g), (40, leBytes 8 addr.toNat), (48, leBytes 8 info.toNat)]))

/-- tx.addr and tx.info of a trap; a free value where the trap's entry states none (log entry 4). -/
def State.trapDetail (s : State) (x : Option DWord) : DWord × State :=
  match x with
  | some v => (v, s)
  | none => (BitVec.ofNat 64 (Config.freeNat s.free), { s with free := s.free + 1 })

/-- A delivered trap's thread: tx.* set, traps masked, in its handler (R260, R292). -/
def Thread.enter (t : Thread) (code : Nat) (pc addr info : DWord) : Thread :=
  { t with txCode := BitVec.ofNat 32 code, txPc := pc, txAddr := addr, txInfo := info, pm := t.m, m := true, inh := true,
           pend := [], defCount := 0, parkDue := false, wait := none, st := .runnable, yielded := false }

/-- A trap is disposed of in the first row of R260 that applies: a machine check or a masked or unhandled trap stops the team,
any other is delivered, and the lane leaves its entry for the handler's entry clause (R25). -/
def State.dispose (s : State) (p c g l : Nat) (tr : Trap) : State :=
  match s.team? p c with
  | none => s
  | some tm =>
    let t := tm.thread g l
    let (addr, s) := s.trapDetail tr.addr
    let (info, s) := s.trapDetail tr.info
    if tr.code == 0x10 || tr.code == 0x14 || t.m || tm.tmpl.handler == 0 then s.stopTeam p c g l tr addr info
    else
      (s.moveLane p c g l (tm.tmpl.handler.setWidth 57) none).modThread p c g l
        (fun t => t.enter tr.code tr.pc addr info)

/-- TAKING A TRAP: older deferred results are written first (R92), where the undo log of a region may stop them and raise
REGION in place of the trap (R178); then the trap is disposed of by R260. -/
def State.trap (s : State) (p c g l : Nat) (tr : Trap) : State :=
  let (t, x) := (s.thread p c g l).unwatch.parkNow
  let s := s.setThread p c g l t
  s.dispose p c g l (match x with
    | some r => regionFull r.pc
    | none => tr)

/-- A lane's park, performed at once when every result has returned; due otherwise (R90). -/
def State.parkLane (s : State) (p c g l : Nat) : State :=
  let t := s.thread p c g l
  if t.settled then
    match t.parkNow with
    | (t, none) => s.setThread p c g l t
    | (t, some r) => (s.setThread p c g l t).dispose p c g l (regionFull r.pc)
  else s.setThread p c g l { t with parkDue := true }

/-- RETURNING FROM A TRAP (R264), once the checks have passed: M := PM, and the lane continues at a program counter. -/
def State.returnLane (s : State) (p c g l : Nat) (pc : Pc) (cl : Option Clause) : State :=
  (s.moveLane p c g l pc cl).modThread p c g l (fun t => { t with m := t.pm, inh := false })

/-! ### The issue of one instruction -/

/-- The entry that issues: where it is, its port, and its runnable lanes in ascending order (R22). -/
structure Iss where
  pkg : Nat
  ctx : Nat
  group : Nat
  pc : Pc
  clause : Clause
  lanes : List Nat
  deriving DecidableEq, Repr

/-- What the port that issues next holds; none when the group is not there, its team is stopped or not resident, or its port
is idle. -/
def State.iss? (s : State) : Option Iss :=
  match s.team? s.cur.pkg s.cur.ctx with
  | none => none
  | some t =>
    if t.stop.isSome || t.place.isNone then none
    else
      match (if s.curB then (t.group s.cur.group).portB else (t.group s.cur.group).portA) with
      | none => none
      | some pt => some ⟨s.cur.pkg, s.cur.ctx, s.cur.group, pt.pc, pt.clause, t.runLanes s.cur.group pt.pc⟩

/-- How a lane leaves an instruction. -/
inductive LaneEnd
  /-- It continues at the next word. -/
  | done
  /-- It transfers to a clause header. -/
  | go (pc : Pc)
  | trap (t : Trap)
  /-- It is parked, and replays the instruction (R17). -/
  | parked
  /-- It is parked in the instruction, and completes it when the wait ends (R17). -/
  | waiting
  /-- It has left its entry, and its state is as the instruction has set it. -/
  | left
  deriving DecidableEq, Repr

/-- What is checked at a lane before an instruction's own entry (R96): the operands whose width the thread decides (R378), the
operands of which a flagged one raises DEFERRED, and whether the instruction counts toward HAZARD. -/
structure Pre where
  counts : Bool := false
  reads : List Opnd := []
  /-- A park follows whatever SW holds (R163, R258). -/
  force : Bool := false
  regs : Iss → Thread → List Opnd := fun _ _ => []

def Iss.thread (u : Iss) (s : State) (l : Nat) : Thread := s.thread u.pkg u.ctx u.group l
def Iss.setThread (u : Iss) (s : State) (l : Nat) (t : Thread) : State := s.setThread u.pkg u.ctx u.group l t
def Iss.team (u : Iss) (s : State) : Option Team := s.team? u.pkg u.ctx

/-- The issuing team's partition. -/
def Iss.part (u : Iss) (s : State) : Nat :=
  match u.team s with
  | some t => t.part
  | none => 0

/-- The address of the instruction as tx.pc holds it. -/
def Iss.pc64 (u : Iss) : DWord := u.pc.setWidth 64
/-- A trap at the instruction. -/
def Iss.trap (u : Iss) (code info : Nat) (addr : Option DWord) : Trap := ⟨code, u.pc64, addr, some (BitVec.ofNat 64 info)⟩
/-- A trap whose entry states no tx.info (log entry 4). -/
def Iss.bare (u : Iss) (code : Nat) (addr : Option DWord) : Trap := ⟨code, u.pc64, addr, none⟩
/-- The next word (R78). -/
def Iss.next (u : Iss) : Pc := u.pc + 8
/-- The instruction stands last in its clause. -/
def Iss.isLast (u : Iss) : Bool := u.pc == u.clause.last
/-- What the frontier keeps of the clause at the next word. -/
def Iss.nextClause (u : Iss) : Option Clause := if u.isLast then none else some u.clause

/-- The team of the entry still runs. -/
def Iss.alive (u : Iss) (s : State) : Bool :=
  match u.team s with
  | some t => t.stop.isNone
  | none => false

/-- The outcome of an instruction at a lane takes effect. -/
def Iss.finish (u : Iss) (park : Bool) (l : Nat) (e : LaneEnd) (s : State) : State :=
  match e with
  | .done =>
    let s := s.moveLane u.pkg u.ctx u.group l u.next u.nextClause
    if park then s.parkLane u.pkg u.ctx u.group l else s
  | .go pc =>
    let s := s.moveLane u.pkg u.ctx u.group l pc none
    if park then s.parkLane u.pkg u.ctx u.group l else s
  | .trap t => if u.alive s then s.trap u.pkg u.ctx u.group l t else s
  | .waiting => if park then s.modThread u.pkg u.ctx u.group l (fun t => { t with parkDue := true }) else s
  | .parked | .left => s

/-- Registers that the team's threads have (R84). -/
def Iss.nregs (u : Iss) (s : State) : Nat :=
  match u.team s with
  | some t => t.tmpl.regs
  | none => 512

/-- The register check at execution (R378): the reason of the ILLEGAL that it raises. -/
def regCheck (nregs : Nat) (os : List Opnd) : Option Nat :=
  if !os.all (fun o => o.inRange nregs) then some 7 else if !os.all Opnd.aligned then some 8 else none

/-- What stops a lane before the instruction's own entry (R91, R94, R378): the register check at execution, then DEFERRED for a
flagged operand, then HAZARD for a seventeenth deferred result. -/
def Iss.before (u : Iss) (k : Pre) (s : State) (t : Thread) : Option Trap :=
  match regCheck (u.nregs s) (k.regs u t) with
  | some r => some (u.trap 0x01 r (some u.pc64))
  | none =>
    if t.flags k.reads then some ⟨0x11, u.pc64, none, none⟩
    else if k.counts && decide (16 ≤ t.defCount) then some ⟨0x03, u.pc64, none, none⟩
    else none

/-- One lane of the entry executes: a false guard passes it by (R83). A stopped team executes nothing more. -/
def Iss.lane (u : Iss) (c : Ctl) (k : Pre) (body : Iss → Nat → State → State × LaneEnd) (s : State) (l : Nat) : State :=
  if u.alive s then
    let t := u.thread s l
    if !(t.guard c) then u.finish (c.park || k.force) l .done s
    else
      match u.before k s t with
      | some tr => u.finish (c.park || k.force) l (.trap tr) s
      | none =>
        match body u l s with
        | (s, e) => u.finish (c.park || k.force) l e s
  else s

/-- A lane of the entry goes on at the next word of the clause. -/
def Iss.goesOn (u : Iss) (t : Team) : Bool :=
  !u.isLast && ((t.group u.group).ent u.next).clause.isSome &&
    u.lanes.any (fun l => (t.thread u.group l).runs && (t.thread u.group l).pc == u.next)

/-- A port after its instruction: idle after the last word of the clause, or when no lane of its entry goes on (R22). -/
def Iss.portNext (u : Iss) (s : State) : State :=
  match u.team s with
  | none => s
  | some t => s.setTeam u.pkg u.ctx ((t.modGroup u.group (fun g =>
      if u.goesOn t then g.setPort s.curB (some ⟨u.next, u.clause⟩) else g.freePort s.curB)).sweepEnts u.group)

/-- At the end of a clause, the entries that hold a lane that executed YIELD are marked (R136). A lane that still stands at the clause's
last word, parked or waiting there, has not ended the clause. -/
def Team.markYields (t : Team) (g : Nat) (last : Pc) (lanes : List Nat) : Team :=
  lanes.foldl (fun t l =>
    if (t.thread g l).yielded && (t.thread g l).pc != last then
      t.modGroup g (fun x =>
        let pc := (x.thread l).pc
        let x := x.modThread l (fun h => { h with yielded := false })
        { x with ents := tput x.ents pc.toNat { x.ent pc with yield := true } })
    else t) t

/-- The entry's stamp becomes the cycle in which it issues (R24). -/
def Iss.stamp (u : Iss) (s : State) : State :=
  s.modGroup u.pkg u.ctx u.group (fun x => { x with ents := tput x.ents u.pc.toNat { x.ent u.pc with stamp := (s.pkg u.pkg).cycles s.clock } })

/-- The number of a die that a core's faults and translations belong to. -/
def Iss.die (u : Iss) (s : State) : Nat :=
  match u.team s with
  | some t => dieOf (t.coreOf u.group)
  | none => 0

/-- The records of the faults that the last instruction made pending are written (R293). -/
def State.flushFaults (s : State) (p die : Nat) : State :=
  let new := (s.die p die).faults.filter (fun f => !f.written)
  if new.isEmpty then s
  else
    let s := s.modPkg p (fun k => new.foldl (fun k f => k.postFault f) k)
    s.modDie p die (fun d => { d with faults := d.faults.map (fun f => { f with written := true }) })

/-- An entry issues one instruction: its lanes execute in ascending order, and its port moves on. -/
def Iss.run (u : Iss) (c : Ctl) (k : Pre) (body : Iss → Nat → State → State × LaneEnd) (s : State) : State :=
  let s := u.stamp s
  let s := u.lanes.foldl (fun s l => u.lane c k body s l) s
  let s := if u.isLast then s.modTeam u.pkg u.ctx (fun t => t.markYields u.group u.pc u.lanes) else s
  (u.portNext s).flushFaults u.pkg (u.die s)

/-- The issuing lanes whose guard is true. -/
def Iss.active (u : Iss) (c : Ctl) (s : State) : List Nat := u.lanes.filter (fun l => (u.thread s l).guard c)

/-- A lane of the entry still waits for an answer or for a park, so the entry does not issue (R90, R92). -/
def Iss.blocked (u : Iss) (s : State) : Bool :=
  u.lanes.any (fun l => (u.thread s l).wait.isSome || (u.thread s l).parkDue)

/-- The meaning of an instruction word: the entry that issues next executes it. Where no entry issues, or a lane of it still
waits for an answer, nothing happens. `hold` is a wait at issue: the entry stays at the instruction, in the state it gives. -/
def State.issueHold (s : State) (c : Ctl) (k : Pre) (hold : Iss → State → Option State)
    (body : Iss → Nat → State → State × LaneEnd) : Host.Outcome State Fault Refusal :=
  match s.iss? with
  | none => .next s
  | some u =>
    if u.blocked s then .next s
    else
      match hold u s with
      | some s => .next s
      | none => .next (u.run c k body s)

/-- The meaning of an instruction word that never waits at issue. -/
def State.issue (s : State) (c : Ctl) (k : Pre) (body : Iss → Nat → State → State × LaneEnd) :
    Host.Outcome State Fault Refusal :=
  s.issueHold c k (fun _ _ => none) body

/-! ### Results -/

/-- A fixed-latency result written at once (R89); none in the undo log raises REGION, reason 2 (R178). -/
def Iss.write (u : Iss) (l : Nat) (d : Reg) (vs : List (Word × Bool)) (flags : BitVec 5) (s : State) : State × LaneEnd :=
  match ((u.thread s l).raise flags).putRun d vs with
  | some t => (u.setThread s l t, .done)
  | none => (s, .trap (regionFull u.pc))

/-- A deferred result whose value is known waits for its park (R90), and the thread's count rises (R91). -/
def Thread.defer (t : Thread) (pc : Pc) (d : Nat) (isPred : Bool) (vs : List (Word × Bool)) (flags : BitVec 5) : Thread :=
  { t with pend := t.pend ++ [⟨d, isPred, vs.length, vs, false, flags, pc, true, t.undo, none⟩], defCount := t.defCount + 1 }

def Iss.defer (u : Iss) (l : Nat) (d : Reg) (vs : List (Word × Bool)) (flags : BitVec 5) (s : State) : State × LaneEnd :=
  (u.setThread s l ((u.thread s l).defer u.pc d.toNat false vs flags), .done)

/-- A deferred predicate result. -/
def Iss.deferPred (u : Iss) (l : Nat) (p : PredIx) (b : Bool) (s : State) : State × LaneEnd :=
  (u.setThread s l ((u.thread s l).defer u.pc p.toNat true [(if b then 1 else 0, false)] 0), .done)

/-- The meaning of a fixed-latency instruction with a register result computed from the thread alone: the result takes the
deferred-fault bits of its sources (R94, R119, R141). -/
def State.fixed (s : State) (c : Ctl) (d : Reg) (srcs : List Opnd) (f : Thread → List Word × BitVec 5) :
    Host.Outcome State Fault Refusal :=
  s.issue c {} (fun u l s =>
    let t := u.thread s l
    u.write l d ((f t).1.map (fun w => (w, t.flags srcs))) (f t).2 s)

/-- The meaning of a deferred-result instruction computed from the thread alone (R89, R94). -/
def State.deferred (s : State) (c : Ctl) (d : Reg) (srcs : List Opnd) (f : Thread → List Word × BitVec 5) :
    Host.Outcome State Fault Refusal :=
  s.issue c { counts := true } (fun u l s =>
    let t := u.thread s l
    u.defer l d ((f t).1.map (fun w => (w, t.flags srcs))) (f t).2 s)

/-- The meaning of a fixed-latency instruction with a predicate result: a flagged source raises DEFERRED (R94). -/
def State.fixedPred (s : State) (c : Ctl) (pd : PredIx) (srcs : List Opnd) (f : Thread → Bool × BitVec 5) :
    Host.Outcome State Fault Refusal :=
  s.issue c { reads := srcs } (fun u l s =>
    let t := u.thread s l
    (u.setThread s l ((t.setPred pd (f t).1).raise (f t).2), .done))

end Sys2Proof.Machine
end

