-- ==== Sys2Proof/Machine/Operands.lean ====
section
/-! DEFINITION. Operand forms: source B as a register or an immediate at its type's width (R85, R117, R140), the lanes of packed
values (R37), and the sources of an instruction as the deferred-fault rule reads them (R94). -/

namespace Sys2Proof

/-- Lane width (R117). -/
def IntTy.w : IntTy → Nat
  | .i32 | .n32 | .b32 => 32
  | .i64 | .n64 => 64
  | .i16x2 | .n16x2 => 16
  | .i8x4 => 8

/-- How many lanes (R117). -/
def IntTy.n : IntTy → Nat
  | .i16x2 | .n16x2 => 2
  | .i8x4 => 4
  | _ => 1

/-- Lanes read as signed (R117). -/
def IntTy.signed : IntTy → Bool
  | .i32 | .i64 | .i16x2 | .i8x4 => true
  | _ => false

/-- The low `w` bits of a number read as two's complement or as plain binary. -/
def toInt (w : Nat) (signed : Bool) (v : Nat) : Int :=
  let u := v % 2 ^ w
  if signed && decide (2 ^ (w - 1) ≤ u) then (u : Int) - 2 ^ w else u

/-- An exact result taken modulo 2^w (R118). -/
def wrap (w : Nat) (x : Int) : Nat := (x % (2 ^ w : Int)).toNat

def typeMin (w : Nat) (signed : Bool) : Int := if signed then -(2 ^ (w - 1) : Int) else 0
def typeMax (w : Nat) (signed : Bool) : Int := if signed then 2 ^ (w - 1) - 1 else 2 ^ w - 1

/-- An exact result clamped to the type's range (R118). -/
def clamp (w : Nat) (signed : Bool) (x : Int) : Int := max (typeMin w signed) (min (typeMax w signed) x)

/-- Lane `k` of a value with lanes of `w` bits. -/
def laneOf (w k v : Nat) : Nat := v / 2 ^ (w * k) % 2 ^ w

/-- A function of the lanes, lane by lane (R37). -/
def mapLanes (w : Nat) (f : Nat → Nat) : Nat → Nat
  | 0 => 0
  | n + 1 => mapLanes w f n + f n % 2 ^ w * 2 ^ (w * n)

/-- SignExtend(IMM18) (R85). -/
def sext18 (v : BitVec 18) : Int := v.toInt

end Sys2Proof

namespace Sys2Proof.Machine

/-- Source B of an integer type: a register or a pair, or the immediate in every lane (R117). -/
def Thread.srcInt (t : Thread) (ty : IntTy) : Src → Nat
  | .reg r => (t.val ty.wide r).toNat
  | .imm v => mapLanes ty.w (fun _ => wrap ty.w (sext18 v)) ty.n

/-- Source B as one 32-bit value. -/
def Thread.src32 (t : Thread) : Src → Word
  | .reg r => t.reg r
  | .imm v => v.signExtend 32

/-- A register operand of an integer type. -/
def Thread.int (t : Thread) (ty : IntTy) (r : Reg) : Nat := (t.val ty.wide r).toNat

/-- A result of an integer type as the registers it is written to. -/
def resInt (ty : IntTy) (v : Nat) : List Word × BitVec 5 := (wordsOf ty.wide (BitVec.ofNat 64 v), 0)

/-- The source operands of the shape a, b|imm. -/
def srcs2 (ty : IntTy) (a : Reg) (b : Src) : List Opnd := .sized ty.wide a :: b.opnd ty.wide

end Sys2Proof.Machine
end

