-- ==== Sys2Proof/Machine/Flags.lean ====
section
/-! DEFINITION. The sticky flags (R42), the floating-point formats (R36), and the one rounding that raises flags (R38, R39,
R43). -/

namespace Sys2Proof

/-! ### The flags (R42) -/

def flagNX : BitVec 5 := 1
def flagUF : BitVec 5 := 2
def flagOF : BitVec 5 := 4
def flagDZ : BitVec 5 := 8
def flagIV : BitVec 5 := 16

/-- A flag raised under a condition. -/
def flagIf (b : Bool) (f : BitVec 5) : BitVec 5 := if b then f else 0

/-! ### Formats (R36) -/

/-- A floating-point format: its bits, exponent bits and fraction bits, and whether it is E4M3, which has no infinity. -/
structure Fmt where
  bits : Nat
  exp : Nat
  frac : Nat
  e4m3 : Bool
  deriving DecidableEq, Repr

def fp64 : Fmt := ⟨64, 11, 52, false⟩
def fp32 : Fmt := ⟨32, 8, 23, false⟩
def fp16 : Fmt := ⟨16, 5, 10, false⟩
def fpBF16 : Fmt := ⟨16, 8, 7, false⟩
def fpE4M3 : Fmt := ⟨8, 4, 3, true⟩
def fpE5M2 : Fmt := ⟨8, 5, 2, false⟩

def Fmt.bias (f : Fmt) : Int := 2 ^ (f.exp - 1) - 1
/-- The exponent of the least significant bit of a subnormal. -/
def Fmt.qmin (f : Fmt) : Int := 1 - f.bias - f.frac
/-- The code of +∞, which E4M3 has not. -/
def Fmt.infCode (f : Fmt) : Nat := (2 ^ f.exp - 1) * 2 ^ f.frac
/-- The code of the largest finite value. -/
def Fmt.maxCode (f : Fmt) : Nat := if f.e4m3 then 0x7E else f.infCode - 1
/-- The canonical NaN (R36, R40). -/
def Fmt.nan (f : Fmt) : Nat := if f.e4m3 then 0x7F else f.infCode + 2 ^ (f.frac - 1)
/-- The sign bit of a code. -/
def Fmt.sign (f : Fmt) (neg : Bool) : Nat := if neg then 2 ^ (f.bits - 1) else 0
def Fmt.inf (f : Fmt) (neg : Bool) : Nat := f.sign neg + f.infCode
def Fmt.largest (f : Fmt) (neg : Bool) : Nat := f.sign neg + f.maxCode
def Fmt.zero (f : Fmt) (neg : Bool) : Nat := f.sign neg
/-- 1.0. -/
def Fmt.one (f : Fmt) : Nat := (2 ^ (f.exp - 1) - 1) * 2 ^ f.frac

/-- The value of a code: a NaN (signalling or quiet), an infinity, or ±m × 2^e. -/
inductive FVal
  | nan (snan : Bool)
  | inf (neg : Bool)
  | fin (neg : Bool) (m : Nat) (e : Int)
  deriving DecidableEq, Repr

/-- The value that a code holds (R36). -/
def Fmt.val (f : Fmt) (v : Nat) : FVal :=
  let neg := v / 2 ^ (f.bits - 1) % 2 == 1
  let e := v / 2 ^ f.frac % 2 ^ f.exp
  let m := v % 2 ^ f.frac
  if f.e4m3 then
    if e = 15 ∧ m = 7 then .nan false
    else if e = 0 then .fin neg m f.qmin else .fin neg (m + 2 ^ f.frac) (f.qmin + e - 1)
  else if e = 2 ^ f.exp - 1 then
    if m = 0 then .inf neg else .nan (m / 2 ^ (f.frac - 1) == 0)
  else if e = 0 then .fin neg m f.qmin else .fin neg (m + 2 ^ f.frac) (f.qmin + e - 1)

def FVal.isNan : FVal → Bool
  | .nan _ => true
  | _ => false
def FVal.isSnan : FVal → Bool
  | .nan s => s
  | _ => false
/-- The value is ±0. -/
def FVal.isZero : FVal → Bool
  | .fin _ m _ => m == 0
  | _ => false
def FVal.isFin : FVal → Bool
  | .fin .. => true
  | _ => false
def FVal.neg : FVal → Bool
  | .nan _ => false
  | .inf n => n
  | .fin n _ _ => n
/-- The value with the other sign. -/
def FVal.negate : FVal → FVal
  | .nan s => .nan s
  | .inf n => .inf (!n)
  | .fin n m e => .fin (!n) m e

/-! ### Rounding (R39) -/

/-- Whether the magnitude k + r/d (0 ≤ r < d) is rounded up in a mode. -/
def roundsUp (rm : Rm) (neg : Bool) (k r d : Nat) : Bool :=
  match rm with
  | .rne => decide (d < 2 * r) || (2 * r == d && k % 2 == 1)
  | .rz => false
  | .ru => !neg && r != 0
  | .rd => neg && r != 0

/-- The magnitude m × 2^e as a multiple of 2^q, rounded; and whether it was inexact. -/
def roundAt (rm : Rm) (neg : Bool) (m : Nat) (e q : Int) : Nat × Bool :=
  if q ≤ e then (m * 2 ^ (e - q).toNat, false)
  else
    let d := 2 ^ (q - e).toNat
    let k := m / d
    let r := m % d
    (if roundsUp rm neg k r d then k + 1 else k, r != 0)

/-- ±m × 2^e rounded once into a format, with its flags: a result past the largest finite value overflows by R39 (E4M3: R43),
and tininess is detected after rounding. m = 0 gives the zero of the sign. -/
def Fmt.round (f : Fmt) (rm : Rm) (neg : Bool) (m : Nat) (e : Int) : Nat × BitVec 5 :=
  if m = 0 then (f.zero neg, 0)
  else
    let free := e + (Nat.log2 m : Int) - f.frac
    let q := max free f.qmin
    let (k, nx) := roundAt rm neg m e q
    let code := (q - f.qmin).toNat * 2 ^ f.frac + k
    if f.maxCode < code then
      if f.e4m3 then (f.largest neg, flagOF ||| flagNX)
      else
        let toInf := match rm with
          | .rne => true
          | .rz => false
          | .ru => !neg
          | .rd => neg
        (if toInf then f.inf neg else f.largest neg, flagOF ||| flagNX)
    else
      let k' := (roundAt rm neg m e free).1
      let tiny := decide (free < f.qmin) && decide (k' < 2 ^ (f.frac + (f.qmin - free).toNat))
      (f.sign neg + code, flagIf nx flagNX ||| flagIf (tiny && nx) flagUF)

/-- A value converted into a format (R43): the rounding of a finite value, the infinity or the canonical NaN of the format, and
IV for a signalling NaN, and for an infinity into E4M3. -/
def Fmt.ofVal (f : Fmt) (rm : Rm) : FVal → Nat × BitVec 5
  | .nan s => (f.nan, flagIf s flagIV)
  | .inf neg => if f.e4m3 then (f.nan, flagIV) else (f.inf neg, 0)
  | .fin neg m e => f.round rm neg m e

/-- ±m × 2^e rounded to an integer magnitude, and whether that was inexact. -/
def roundIntegral (rm : Rm) (neg : Bool) (m : Nat) (e : Int) : Nat × Bool := roundAt rm neg m e 0

/-- Float to integer (R43): saturation and NaN raise IV only. -/
def FVal.toInteger (rm : Rm) (w : Nat) (signed : Bool) : FVal → Int × BitVec 5
  | .nan _ => (0, flagIV)
  | .inf neg => (if neg then typeMin w signed else typeMax w signed, flagIV)
  | .fin neg m e =>
    let (k, nx) := roundIntegral rm neg m e
    let x : Int := if neg then -(k : Int) else k
    if x < typeMin w signed then (typeMin w signed, flagIV)
    else if typeMax w signed < x then (typeMax w signed, flagIV)
    else (x, flagIf nx flagNX)

/-- Integer to float (R43). -/
def Fmt.ofInt (f : Fmt) (rm : Rm) (x : Int) : Nat × BitVec 5 := f.round rm (decide (x < 0)) x.natAbs 0

end Sys2Proof
end

