-- ==== Sys2Proof/Machine/Float.lean ====
section
/-! DEFINITION. Exact arithmetic on floating-point values, each result rounded once with its flags (R39 to R43, R141 to R149); the
I4X block format (R44 to R47); and the sums of the matrix engines (R52). -/

namespace Sys2Proof

/-! ### Arithmetic (R143) -/

/-- A signed magnitude as an integer. -/
def sgn (neg : Bool) (m : Nat) : Int := if neg then -(m : Int) else m

/-- An integer that an exact value holds. -/
def FVal.int : FVal → Int
  | .fin neg m _ => sgn neg m
  | _ => 0

/-- The sum x + y of exact values rounded once (R39, R41). -/
def Fmt.addVal (f : Fmt) (rm : Rm) (x y : FVal) : Nat × BitVec 5 :=
  match x, y with
  | .nan s, v => (f.nan, flagIf (s || v.isSnan) flagIV)
  | .inf _, .nan s => (f.nan, flagIf s flagIV)
  | .inf a, .inf b => if a = b then (f.inf a, 0) else (f.nan, flagIV)
  | .inf a, .fin .. => (f.inf a, 0)
  | .fin .., .nan s => (f.nan, flagIf s flagIV)
  | .fin .., .inf b => (f.inf b, 0)
  | .fin a m e, .fin b n g =>
    if m = 0 ∧ n = 0 then (f.zero (if a = b then a else rm == .rd), 0)
    else
      let q := min e g
      let v := sgn a (m * 2 ^ (e - q).toNat) + sgn b (n * 2 ^ (g - q).toNat)
      if v = 0 then (f.zero (rm == .rd), 0) else f.round rm (decide (v < 0)) v.natAbs q

/-- An exact product: NaN for 0 × ∞ or a NaN operand. -/
def FVal.mul : FVal → FVal → FVal
  | .nan _, _ => .nan false
  | _, .nan _ => .nan false
  | .inf a, .inf b => .inf (a != b)
  | .inf a, .fin b n _ => if n = 0 then .nan false else .inf (a != b)
  | .fin a m _, .inf b => if m = 0 then .nan false else .inf (a != b)
  | .fin a m e, .fin b n g => .fin (a != b) (m * n) (e + g)

/-- IV of a product: a signalling operand, or 0 × ∞. -/
def mulIV (x y : FVal) : Bool := x.isSnan || y.isSnan || ((x.mul y).isNan && !x.isNan && !y.isNan)

def Fmt.mulVal (f : Fmt) (rm : Rm) (x y : FVal) : Nat × BitVec 5 :=
  if (x.mul y).isNan then (f.nan, flagIf (mulIV x y) flagIV) else f.ofVal rm (x.mul y)

/-- x × y + z with one rounding; IV for 0 × ∞ even when z is a NaN (R143). -/
def Fmt.fmaVal (f : Fmt) (rm : Rm) (x y z : FVal) : Nat × BitVec 5 :=
  if (x.mul y).isNan then (f.nan, flagIf (mulIV x y || z.isSnan) flagIV) else f.addVal rm (x.mul y) z

/-- Saturation after rounding (R143). -/
def Fmt.saturate (f : Fmt) : FSat → Nat × BitVec 5 → Nat × BitVec 5
  | .none, r => r
  | .satf, (v, fl) =>
    match f.val v with
    | .inf neg => (f.largest neg, fl)
    | _ => (v, fl)
  | .sat01, (v, fl) =>
    match f.val v with
    | .nan _ => (0, fl)
    | .inf neg => (if neg then 0 else f.one, fl)
    | .fin neg m _ => if neg || m == 0 then (0, fl) else if f.one < v then (f.one, fl) else (v, fl)

/-! ### Comparison (R144, R145) -/

/-- The order of two values that are not NaN, −0 equal to +0. -/
def FVal.cmp (x y : FVal) : Ordering :=
  match x, y with
  | .inf a, .inf b => compare (if a then (-1 : Int) else 1) (if b then -1 else 1)
  | .inf a, _ => if a then .lt else .gt
  | _, .inf b => if b then .gt else .lt
  | .fin a m e, .fin b n g =>
    compare (sgn a (m * 2 ^ (e - min e g).toNat)) (sgn b (n * 2 ^ (g - min e g).toNat))
  | _, _ => .eq

/-- The lesser, or the greater, of two codes: −0 below +0, a NaN beside a number gives the number (R144). -/
def Fmt.minMax (f : Fmt) (least : Bool) (a b : Nat) : Nat × BitVec 5 :=
  let x := f.val a
  let y := f.val b
  let fl := flagIf (x.isSnan || y.isSnan) flagIV
  if x.isNan then (if y.isNan then f.nan else b, fl)
  else if y.isNan then (a, fl)
  else
    let lower := match x.cmp y with
      | .lt => true
      | .gt => false
      | .eq => x.neg
    (if lower = least then a else b, fl)

/-- The outcome of a comparison and whether it raises IV (R145). -/
def FCmp.holds (cc : FCmp) (x y : FVal) : Bool × BitVec 5 :=
  let un := x.isNan || y.isNan
  let sig := flagIf (x.isSnan || y.isSnan) flagIV
  let any := flagIf un flagIV
  let o := x.cmp y
  match cc with
  | .eq => (!un && o == .eq, sig)
  | .ne => (un || o != .eq, sig)
  | .lt => (!un && o == .lt, any)
  | .le => (!un && o != .gt, any)
  | .gt => (!un && o == .gt, any)
  | .ge => (!un && o != .lt, any)
  | .num => (!un, sig)
  | .nan => (un, sig)

/-- The bit of FCLASS (R146). -/
def Fmt.classBit (f : Fmt) (v : Nat) : Nat :=
  match f.val v with
  | .nan s => if s then 8 else 9
  | .inf neg => if neg then 0 else 7
  | .fin neg m _ =>
    if m = 0 then (if neg then 3 else 4)
    else if m < 2 ^ f.frac then (if neg then 2 else 5) else (if neg then 1 else 6)

/-! ### FRND and FSCALE (R147) -/

def Fmt.rnd (f : Fmt) (rm : Rm) (exact : Bool) (v : Nat) : Nat × BitVec 5 :=
  match f.val v with
  | .nan s => (f.nan, flagIf s flagIV)
  | .inf neg => (f.inf neg, 0)
  | .fin neg m e =>
    let (k, nx) := roundIntegral rm neg m e
    ((f.round rm neg k 0).1, flagIf (exact && nx) flagNX)

/-- A power of two beyond ±5000 rounds every value of every format as ±5000 does. -/
def Fmt.scale (f : Fmt) (rm : Rm) (v : Nat) (n : Int) : Nat × BitVec 5 :=
  match f.val v with
  | .fin neg m e => f.round rm neg m (e + max (-5000) (min 5000 n))
  | x => f.ofVal rm x

/-! ### I4X (R44 to R47) -/

/-- Nibble n of a block (R44). -/
def i4xNib (b : List Byte) (n : Nat) : Nat :=
  let y := (b.getD (2 + n / 2) 0).toNat
  if n % 2 = 0 then y % 16 else y / 16

/-- A value scaled by a power of two, exactly. -/
def FVal.pow2 (k : Int) : FVal → FVal
  | .fin neg m e => .fin neg m (e + k)
  | x => x

/-- A nibble's value; q = 0 gives +0. -/
def i4xSmall (c : Nat) (k : Int) : FVal := if c < 8 then .fin false c k else .fin true (16 - c) k

/-- The elements of a block from nibble `n` on, `esc` escapes having been met (R45); none is FORMAT. -/
def i4xElems (b : List Byte) : Nat → Nat → Nat → Option (List FVal × Nat × Nat)
  | 0, n, esc => some ([], n, esc)
  | left + 1, n, esc =>
    let k : Int := (b.getD 0 0).toNat - 127
    if i4xNib b n = 8 then
      if (b.getD 1 0).toNat < esc + 1 then none
      else
        match i4xElems b left (n + 3) (esc + 1) with
        | none => none
        | some (vs, r) => some ((fpE4M3.val (i4xNib b (n + 1) + 16 * i4xNib b (n + 2))).pow2 k :: vs, r)
    else
      match i4xElems b left (n + 1) esc with
      | none => none
      | some (vs, r) => some (i4xSmall (i4xNib b n) k :: vs, r)

/-- Every nibble from `n` to 155 is 0. -/
def i4xZeros (b : List Byte) (n : Nat) : Bool := (List.range 156).all (fun m => decide (m < n) || i4xNib b m == 0)

/-- Decoding a block of 80 bytes (R45); none is FORMAT. -/
def i4xDecode (b : List Byte) : Option (List FVal) :=
  if (b.getD 0 0) = 255 then some (List.replicate 128 (.nan false))
  else if 14 < (b.getD 1 0).toNat then none
  else
    match i4xElems b 128 0 0 with
    | none => none
    | some (vs, n, esc) => if esc = (b.getD 1 0).toNat ∧ i4xZeros b n then some vs else none

/-- The magnitude of a finite FP32 value in units of 2^−149. -/
def mag149 : FVal → Nat
  | .fin _ m e => m * 2 ^ (e + 149).toNat
  | _ => 0

/-- The least E from `e` on with `t` ≤ c × 2^(E − 127), t in units of 2^−149 (R47). -/
def leastE (c t : Nat) : Nat → Nat → Nat
  | 0, e => e
  | fuel + 1, e => if t ≤ c * 2 ^ (e + 22) then e else leastE c t fuel (e + 1)

/-- The `k`th largest of a list, counted from 0: insertion into a descending list. -/
def insertDesc (x : Nat) : List Nat → List Nat
  | [] => [x]
  | y :: ys => if y ≤ x then x :: y :: ys else y :: insertDesc x ys
def nthLargest (k : Nat) (xs : List Nat) : Nat := (xs.foldl (fun acc x => insertDesc x acc) []).getD k 0

/-- The nibbles of one value under a scale, whether it is an escape, and its flags (R47). -/
def i4xEncode1 (e : Nat) (v : FVal) : List Nat × Bool × BitVec 5 :=
  match v with
  | .fin neg m x =>
    let ux : Int := x + 127 - (e : Int)
    let (q, nx) := roundIntegral .rne neg m ux
    if q ≤ 7 then
      ([if neg then (16 - q) % 16 else q], false, flagIf nx flagNX ||| flagIf (q == 0 && m != 0) flagUF)
    else
      let (y, fl) := fpE4M3.round .rne neg m ux
      ([8, y % 16, y / 16], true, fl &&& flagNX)
  | _ => ([0], false, 0)

/-- Nibbles packed into 78 bytes. -/
def nibBytes (ns : List Nat) : List Byte :=
  (List.range 78).map (fun k => BitVec.ofNat 8 (ns.getD (2 * k) 0 + 16 * ns.getD (2 * k + 1) 0))

/-- Encoding 128 FP32 values (R47). -/
def i4xEncode (vs : List FVal) : List Byte × BitVec 5 :=
  if vs.any (fun v => !v.isFin) then (255 :: List.replicate 79 0, flagIV)
  else
    let ms := vs.map mag149
    let e := max (leastE 7 (nthLargest 14 ms) 254 0) (leastE 448 (nthLargest 0 ms) 254 0)
    let rs := vs.map (i4xEncode1 e)
    (BitVec.ofNat 8 e :: BitVec.ofNat 8 (rs.filter (fun r => r.2.1)).length :: nibBytes (rs.flatMap (fun r => r.1)),
      rs.foldl (fun fl r => fl ||| r.2.2) 0)

/-! ### Sums of the matrix engines (R52) -/

/-- The exact sum of a chunk of products, as one value: NaN where a product is NaN or infinities differ; a zero sum is +0 unless
every product is −0. -/
def exactSum (ps : List FVal) : FVal :=
  let infs := ps.filter (fun p => match p with
    | .inf _ => true
    | _ => false)
  if ps.any FVal.isNan then .nan false
  else match infs with
    | x :: xs => if xs.all (fun y => y.neg == x.neg) then x else .nan false
    | [] =>
      let q := ps.foldl (fun q p => match p with
        | .fin _ _ e => min q e
        | _ => q) 0
      let v := ps.foldl (fun v p => match p with
        | .fin neg m e => v + sgn neg (m * 2 ^ (e - q).toNat)
        | _ => v) (0 : Int)
      if v = 0 then .fin (!ps.isEmpty && ps.all (fun p => p.neg && p.isZero)) 0 0
      else .fin (decide (v < 0)) v.natAbs q

/-- One value cut into chunks of `n`. -/
def chunksOf {α : Type} (n : Nat) : Nat → List α → List (List α)
  | 0, _ => []
  | fuel + 1, xs => if xs.isEmpty then [] else xs.take n :: chunksOf n fuel (xs.drop n)

/-- One output element: chunks of 32 products, each rounded to FP32 and then added (R52). -/
def matrixSum (acc : Nat) (ps : List FVal) : Nat :=
  (chunksOf 32 ps.length ps).foldl (fun acc c =>
    (fp32.addVal .rne (fp32.val acc) (fp32.val (fp32.ofVal .rne (exactSum c)).1)).1) acc

end Sys2Proof
end

