-- ==== Sys2Proof/Machine/Vector.lean ====
section
/-! DEFINITION. Class 1 but the lane operations: floating-point arithmetic, comparison and conversion, and RAND (R139 to R149,
R157). -/

namespace Sys2Proof

/-- The lane format of a type (R139). -/
def FTy.fmt : FTy → Fmt
  | .f32 => fp32
  | .f16x2 => fp16
  | .bf16x2 => fpBF16
  | .f64 => fp64
/-- Its lanes (R139). -/
def FTy.n : FTy → Nat
  | .f16x2 | .bf16x2 => 2
  | _ => 1
/-- The format of a code of FCVT. -/
def FFmt.fmt : FFmt → Fmt
  | .f32 => fp32
  | .f16 => fp16
  | .bf16 => fpBF16
  | .f64 => fp64
  | .e4m3 => fpE4M3
  | .e5m2 => fpE5M2
def CvtInt.w : CvtInt → Nat
  | .i32 | .n32 => 32
  | _ => 64
def CvtInt.signed : CvtInt → Bool
  | .i32 | .i64 => true
  | _ => false

/-- A function of the lanes, with the OR of their flags (R141). -/
def mapLanesF (w : Nat) (f : Nat → Nat × BitVec 5) : Nat → Nat × BitVec 5
  | 0 => (0, 0)
  | n + 1 => ((mapLanesF w f n).1 + (f n).1 % 2 ^ w * 2 ^ (w * n), (mapLanesF w f n).2 ||| (f n).2)

/-- A lane operation of a type on lane codes. -/
def FTy.map1 (ty : FTy) (f : Nat → Nat × BitVec 5) (a : Nat) : Nat × BitVec 5 :=
  mapLanesF ty.fmt.bits (fun k => f (laneOf ty.fmt.bits k a)) ty.n
def FTy.map2 (ty : FTy) (f : Nat → Nat → Nat × BitVec 5) (a b : Nat) : Nat × BitVec 5 :=
  mapLanesF ty.fmt.bits (fun k => f (laneOf ty.fmt.bits k a) (laneOf ty.fmt.bits k b)) ty.n
def FTy.map3 (ty : FTy) (f : Nat → Nat → Nat → Nat × BitVec 5) (a b e : Nat) : Nat × BitVec 5 :=
  mapLanesF ty.fmt.bits (fun k =>
    f (laneOf ty.fmt.bits k a) (laneOf ty.fmt.bits k b) (laneOf ty.fmt.bits k e)) ty.n

/-- FADD, FSUB, FMUL and FFMA of lane codes (R143). -/
def fadd1 (f : Fmt) (rm : Rm) (sat : FSat) (a b : Nat) : Nat × BitVec 5 := f.saturate sat (f.addVal rm (f.val a) (f.val b))
def fsub1 (f : Fmt) (rm : Rm) (sat : FSat) (a b : Nat) : Nat × BitVec 5 :=
  f.saturate sat (f.addVal rm (f.val a) (f.val b).negate)
def fmul1 (f : Fmt) (rm : Rm) (sat : FSat) (a b : Nat) : Nat × BitVec 5 := f.saturate sat (f.mulVal rm (f.val a) (f.val b))
def ffma1 (f : Fmt) (rm : Rm) (sat : FSat) (a b e : Nat) : Nat × BitVec 5 :=
  f.saturate sat (f.fmaVal rm (f.val a) (f.val b) (f.val e))

/-- FCVT of one element (R43, R148). -/
def fcvt1 (dst src : FFmt) (rm : Rm) (v : Nat) : Nat × BitVec 5 := dst.fmt.ofVal rm (src.fmt.val v)

/-- Philox4x32: one round of a counter under a key (R157). -/
def philoxRound (k0 k1 : Word) (c : Word × Word × Word × Word) : Word × Word × Word × Word :=
  let p0 : DWord := 0xD2511F53 * c.1.setWidth 64
  let p1 : DWord := 0xCD9E8D57 * c.2.2.1.setWidth 64
  (p1.extractLsb' 32 32 ^^^ c.2.1 ^^^ k0, p1.extractLsb' 0 32, p0.extractLsb' 32 32 ^^^ c.2.2.2 ^^^ k1, p0.extractLsb' 0 32)
def philox : Nat → Word → Word → Word × Word × Word × Word → Word × Word × Word × Word
  | 0, _, _, c => c
  | n + 1, k0, k1, c => philox n (k0 + 0x9E3779B9) (k1 + 0xBB67AE85) (philoxRound k0 k1 c)

end Sys2Proof

namespace Sys2Proof.Machine

/-- Source B of a floating-point type (R140). -/
def Thread.srcF (t : Thread) (ty : FTy) : Src → Nat
  | .reg r => (t.val ty.wide r).toNat
  | .imm v => if ty.wide then v.toNat * 2 ^ 46 else v.toNat * 2 ^ 14
/-- A register operand of a floating-point type. -/
def Thread.flt (t : Thread) (ty : FTy) (r : Reg) : Nat := (t.val ty.wide r).toNat
/-- A result of a floating-point type. -/
def resF (ty : FTy) (r : Nat × BitVec 5) : List Word × BitVec 5 := (wordsOf ty.wide (BitVec.ofNat 64 r.1), r.2)

/-- The meaning of an operation of two sources. -/
def execF2 (c : Ctl) (ty : FTy) (f : Nat → Nat → Nat × BitVec 5) (d a : Reg) (b : Src) (s : State) :
    Host.Outcome State Fault Refusal :=
  s.fixed c d (.sized ty.wide a :: b.opnd ty.wide) (fun t => resF ty (ty.map2 f (t.flt ty a) (t.srcF ty b)))

def execFadd (c : Ctl) (ty : FTy) (rm : Rm) (sat : FSat) (d a : Reg) (b : Src) (s : State) :
    Host.Outcome State Fault Refusal := execF2 c ty (fadd1 ty.fmt rm sat) d a b s
def execFsub (c : Ctl) (ty : FTy) (rm : Rm) (sat : FSat) (d a : Reg) (b : Src) (s : State) :
    Host.Outcome State Fault Refusal := execF2 c ty (fsub1 ty.fmt rm sat) d a b s
def execFmul (c : Ctl) (ty : FTy) (rm : Rm) (sat : FSat) (d a : Reg) (b : Src) (s : State) :
    Host.Outcome State Fault Refusal := execF2 c ty (fmul1 ty.fmt rm sat) d a b s
def execFfma (c : Ctl) (ty : FTy) (rm : Rm) (sat : FSat) (d a b e : Reg) (s : State) :
    Host.Outcome State Fault Refusal :=
  s.fixed c d [.sized ty.wide a, .sized ty.wide b, .sized ty.wide e] (fun t =>
    resF ty (ty.map3 (ffma1 ty.fmt rm sat) (t.flt ty a) (t.flt ty b) (t.flt ty e)))
def execFmin (c : Ctl) (ty : FTy) (d a : Reg) (b : Src) (s : State) : Host.Outcome State Fault Refusal :=
  execF2 c ty (ty.fmt.minMax true) d a b s
def execFmax (c : Ctl) (ty : FTy) (d a : Reg) (b : Src) (s : State) : Host.Outcome State Fault Refusal :=
  execF2 c ty (ty.fmt.minMax false) d a b s

def execFsetp (c : Ctl) (ty : FTy) (cc : FCmp) (pd : PredIx) (a : Reg) (b : Src) (s : State) :
    Host.Outcome State Fault Refusal :=
  s.fixedPred c pd (.sized ty.wide a :: b.opnd ty.wide) (fun t =>
    cc.holds (ty.fmt.val (t.flt ty a)) (ty.fmt.val (t.srcF ty b)))

/-- The masks of the lanes, 16 bits apart (R146). -/
def fclass (ty : FTy) (a : Nat) : Word :=
  BitVec.ofNat 32 (mapLanes 16 (fun k => 2 ^ ty.fmt.classBit (laneOf ty.fmt.bits k a)) ty.n)
def execFclass (c : Ctl) (ty : FTy) (d a : Reg) (s : State) : Host.Outcome State Fault Refusal :=
  s.fixed c d [.sized ty.wide a] (fun t => ([fclass ty (t.flt ty a)], 0))

def execFrnd (c : Ctl) (ty : FTy) (rm : Rm) (x : Bool) (d a : Reg) (s : State) : Host.Outcome State Fault Refusal :=
  s.fixed c d [.sized ty.wide a] (fun t => resF ty (ty.map1 (ty.fmt.rnd rm x) (t.flt ty a)))

def execFscale (c : Ctl) (ty : FTy) (rm : Rm) (d a b : Reg) (s : State) : Host.Outcome State Fault Refusal :=
  s.fixed c d [.sized ty.wide a, .one b] (fun t =>
    resF ty (ty.map1 (fun v => ty.fmt.scale rm v (t.reg b).toInt) (t.flt ty a)))

/-- FCVT of an instruction's sources, as the registers written (R148). -/
def fcvtRegs (dst src : FFmt) (rm : Rm) (a b : DWord) : List Word × BitVec 5 :=
  let ws := src.fmt.bits
  let wd := dst.fmt.bits
  let x0 := if src.wideFmt then a.toNat else laneOf ws 0 a.toNat
  let x1 := if src.wideFmt then b.toNat else laneOf ws 1 a.toNat
  let r0 := fcvt1 dst src rm x0
  let r1 := fcvt1 dst src rm x1
  if src.wideFmt && dst.wideFmt then (wordsOf (dst == .f64) (BitVec.ofNat 64 r0.1), r0.2)
  else if dst.wideFmt then
    (wordsOf (dst == .f64) (BitVec.ofNat 64 r0.1) ++ wordsOf (dst == .f64) (BitVec.ofNat 64 r1.1), r0.2 ||| r1.2)
  else ([BitVec.ofNat 32 (r0.1 + r1.1 * 2 ^ wd)], r0.2 ||| r1.2)

/-- The sources of FCVT (R148). -/
def fcvtSrcs (dst src : FFmt) (a b : Reg) : List Opnd :=
  .sized (src == .f64) a :: (if src.wideFmt && !dst.wideFmt then [.sized (src == .f64) b] else [])
def execFcvt (c : Ctl) (dst src : FFmt) (rm : Rm) (d a b : Reg) (s : State) : Host.Outcome State Fault Refusal :=
  s.fixed c d (fcvtSrcs dst src a b) (fun t => fcvtRegs dst src rm (t.val (src == .f64) a) (t.val (src == .f64) b))

/-- The value of an integer operand of ICVT. -/
def Thread.cvtInt (t : Thread) (int : CvtInt) (a : Reg) : Int := toInt int.w int.signed (t.val int.wide a).toNat
def execIcvt (c : Ctl) (f2i : Bool) (flt : FFmt) (int : CvtInt) (rm : Rm) (d a : Reg) (s : State) :
    Host.Outcome State Fault Refusal :=
  s.fixed c d [.sized (if f2i then flt == .f64 else int.wide) a] (fun t =>
    if f2i then
      let r := (flt.fmt.val (laneOf flt.fmt.bits 0 (t.val (flt == .f64) a).toNat)).toInteger rm int.w int.signed
      (wordsOf int.wide (BitVec.ofInt 64 r.1), r.2)
    else
      let r := flt.fmt.ofInt rm (t.cvtInt int a)
      (wordsOf (flt == .f64) (BitVec.ofNat 64 r.1), r.2))

/-- RAND at a thread: key pair, counter pair, visible lane and stream (R157). -/
def rand (stream : BitVec 8) (lane : Nat) (key ctr : DWord) : List Word :=
  let c := philox 10 (key.extractLsb' 0 32) (key.extractLsb' 32 32)
    (ctr.extractLsb' 0 32, ctr.extractLsb' 32 32, BitVec.ofNat 32 lane, stream.setWidth 32)
  [c.1, c.2.1, c.2.2.1, c.2.2.2]
def execRand (c : Ctl) (stream : BitVec 8) (d a b : Reg) (s : State) : Host.Outcome State Fault Refusal :=
  s.issue c {} (fun u l s =>
    match u.team s with
    | none => (s, .left)
    | some tm =>
      let t := u.thread s l
      u.write l d ((rand stream (tm.visLane l) (t.pair a) (t.pair b)).map (fun w => (w, t.flags [.pair a, .pair b]))) 0 s)

end Sys2Proof.Machine
end

