-- ==== Sys2Proof/Machine/Atomic.lean ====
section
/-! DEFINITION. The one indivisible step of ATOM and RED on a value (R169, R170), and element conversion of LDE and STE (R167). -/

namespace Sys2Proof

/-- A type of ATOM and RED as a floating-point type, if it is one. -/
def AtTy.float? : AtTy → Option FTy
  | .f32 => some .f32
  | .f64 => some .f64
  | .f16x2 => some .f16x2
  | .bf16x2 => some .bf16x2
  | _ => none
def AtTy.signed : AtTy → Bool
  | .i32 | .i64 => true
  | _ => false
/-- The data width in bits. -/
def AtTy.w (ty : AtTy) : Nat := if ty.wide then 64 else 32

/-- The new value, or none where a .cas fails (R170); `e` is the expected value of .cas. -/
def atomNew (ty : AtTy) (op : AtOp) (old v e : Nat) : Option Nat :=
  match op with
  | .exch => some v
  | .cas => if old = e then some v else none
  | .and => some (Nat.land old v)
  | .or => some (Nat.lor old v)
  | .xor => some (Nat.xor old v)
  | .add =>
    match ty.float? with
    | some f => some (f.map2 (fun x y => f.fmt.addVal .rne (f.fmt.val x) (f.fmt.val y)) old v).1
    | none => some ((old + v) % 2 ^ ty.w)
  | .min =>
    match ty.float? with
    | some f => some (f.map2 (f.fmt.minMax true) old v).1
    | none => some (if toInt ty.w ty.signed v < toInt ty.w ty.signed old then v else old)
  | .max =>
    match ty.float? with
    | some f => some (f.map2 (f.fmt.minMax false) old v).1
    | none => some (if toInt ty.w ty.signed old < toInt ty.w ty.signed v then v else old)

/-- ARG of a RED request: the type in bits [5:3] and the operation in bits [12:8] (R169, R334; log entry 20). -/
def atomArg (ty : AtTy) (op : AtOp) : Nat :=
  (match op with
    | .add => 0 | .min => 1 | .max => 2 | .and => 3 | .or => 4 | .xor => 5 | .exch => 6 | .cas => 7) * 8 +
  (match ty with
    | .i32 => 0 | .n32 => 1 | .i64 => 2 | .n64 => 3 | .f32 => 4 | .f64 => 5 | .f16x2 => 6 | .bf16x2 => 7)
def argTy (n : Nat) : AtTy :=
  match n % 8 with
  | 0 => .i32 | 1 => .n32 | 2 => .i64 | 3 => .n64 | 4 => .f32 | 5 => .f64 | 6 => .f16x2 | _ => .bf16x2
def argOp (n : Nat) : AtOp :=
  match n / 8 % 8 with
  | 0 => .add | 1 => .min | 2 => .max | 3 => .and | 4 => .or | 5 => .xor | 6 => .exch | _ => .cas

/-! ### Elements (R48, R167) -/

/-- The size of an element in memory; for I4X, of a block of 128 (R48). -/
def elemSize : Nat → Nat
  | 1 | 7 => 4
  | 2 | 3 => 2
  | 8 => 8
  | 9 => 80
  | _ => 1
/-- The bytes of `n` elements; I4X is one block. -/
def elemBytes (fmt n : Nat) : Nat := if fmt = 9 then 80 else n * elemSize fmt
/-- The floating-point format of an element code, if it is one. -/
def elemFmt? : Nat → Option Fmt
  | 1 => some fp32
  | 2 => some fp16
  | 3 => some fpBF16
  | 4 => some fpE4M3
  | 5 => some fpE5M2
  | 8 => some fp64
  | _ => none
/-- Format and geometry agree (R49): no RAW or reserved format, no reserved geometry, and blocks only for I4X. -/
def elemFmtOk (fmt geom : Nat) : Bool := decide (1 ≤ fmt) && decide (fmt ≤ 9) && (geom == 0 || (geom == 1 && fmt == 9))

/-- The exact value of an element that is not in a block; integers are exact too. -/
def elemVal (fmt v : Nat) : FVal :=
  match elemFmt? fmt with
  | some f => f.val v
  | none =>
    let x := toInt (8 * elemSize fmt) true v
    .fin (decide (x < 0)) x.natAbs 0

/-- One element as the registers that LDE writes (R167); FP64 moves its bits (log entry 15). -/
def elemLoad (fmt v : Nat) : Nat × BitVec 5 :=
  match fmt with
  | 6 => (wrap 32 (toInt 8 true v), 0)
  | 7 | 8 => (v, 0)
  | _ => fp32.ofVal .rne (elemVal fmt v)

/-- The elements of a run of bytes, as values of registers or pairs; none for a malformed I4X block. -/
def elemsLoad (fmt n : Nat) (bs : List Byte) : Option (List Nat × BitVec 5) :=
  if fmt = 9 then
    (i4xDecode bs).map (fun vs =>
      (vs.map (fun v => (fp32.ofVal .rne v).1), vs.foldl (fun f v => f ||| (fp32.ofVal .rne v).2) 0))
  else
    let z := elemSize fmt
    let rs := (List.range n).map (fun j => elemLoad fmt (leNat ((bs.drop (j * z)).take z)))
    some (rs.map (·.1), rs.foldl (fun f r => f ||| r.2) 0)

/-- One register value as the element that STE writes (R167). -/
def elemStore (fmt v : Nat) : Nat × BitVec 5 :=
  match fmt with
  | 6 => (wrap 8 (clamp 8 true (toInt 32 true v)), 0)
  | 7 | 8 => (v, 0)
  | _ =>
    match elemFmt? fmt with
    | some f => f.ofVal .rne (fp32.val v)
    | none => (v, 0)

/-- Register values as bytes in memory. -/
def elemsStore (fmt : Nat) (vs : List Nat) : List Byte × BitVec 5 :=
  if fmt = 9 then i4xEncode (vs.map fp32.val)
  else
    (vs.flatMap (fun v => leBytes (elemSize fmt) (elemStore fmt v).1), vs.foldl (fun f v => f ||| (elemStore fmt v).2) 0)

/-- The value of a size as the registers of a destination (R164). -/
def Size.load (sz : Size) (bs : List Byte) : List Word :=
  let v := leNat bs
  match sz with
  | .n8 | .n16 | .b32 => [BitVec.ofNat 32 v]
  | .i8 => [(BitVec.ofNat 8 v).signExtend 32]
  | .i16 => [(BitVec.ofNat 16 v).signExtend 32]
  | .b64 => [BitVec.ofNat 32 v, BitVec.ofNat 32 (v / 2 ^ 32)]
  | .b128 => [BitVec.ofNat 32 v, BitVec.ofNat 32 (v / 2 ^ 32), BitVec.ofNat 32 (v / 2 ^ 64), BitVec.ofNat 32 (v / 2 ^ 96)]

end Sys2Proof
end

