-- ==== Sys2Proof/Machine/Memory.lean ====
section
/-! DEFINITION. Memory beneath the instructions: space addresses and lines (R61, the glossary of 00), the coherent read and write
at a line's home with what they do to remote copies and monitors (R73, R316), page walks and TLBs (R307 to R310), page
faults (R293), and the fetch of code words (R134, R381). -/

namespace Sys2Proof.Machine

/-! ### Space addresses -/

/-- Bits [51:44] of a space address: the home. -/
def homeOf (a : Nat) : Nat := a / 2 ^ 44 % 256
/-- Bits [43:0]: the local address. -/
def localOf (a : Nat) : Nat := a % 2 ^ 44
/-- The line of a space address (R61). -/
def lineOf (a : Nat) : Nat := a / 128
/-- The line of a local address, the key of the directory (R315, LTAG). -/
def llineOf (a : Nat) : Nat := localOf a / 128

/-- A line's directory entry; a line without one is in I, with the DIES bits of its home L2 slice (R315). -/
def Package.dirAt (k : Package) (ll : Nat) : DirEnt :=
  match tfind k.dir ll with
  | some e => e
  | none => ⟨0, 0, 0, .i, tget 0 k.tagDies ll⟩
def State.dirOf (s : State) (a : Nat) : DirEnt := (s.pkg (homeOf a)).dirAt (llineOf a)
/-- The DIES bits of a line without an entry. -/
def Package.setTag (k : Package) (ll : Nat) (d : BitVec 6) : Package :=
  { k with tagDies := if d = 0 then tdel k.tagDies ll else tput k.tagDies ll d }
def Package.setDir (k : Package) (ll : Nat) (e : DirEnt) : Package :=
  if e.st = .i ∧ e.cells = 0 then { k with dir := tdel k.dir ll }.setTag ll e.dies
  else { k with dir := tput k.dir ll e }.setTag ll 0
def State.setDir (s : State) (a : Nat) (e : DirEnt) : State := s.modPkg (homeOf a) (fun k => k.setDir (llineOf a) e)

/-- The package that a cell number and an index in the cell name (R312, R315). -/
def Package.memberAt (k : Package) (cell ix : Nat) : Nat := (k.cellMembers cell).getD ix 256
/-- The index of a package within its cell (R312). -/
def Package.indexOf (k : Package) (q : Nat) : Nat := ((k.cellMembers (k.cell q)).idxOf q)

/-- A die of the home package holds a copy of the line from now on (R314, R316). -/
def Package.addDie (k : Package) (ll die : Nat) : Package :=
  let e := k.dirAt ll
  if e.dies.getLsbD die then k else k.setDir ll { e with dies := e.dies ||| ((1 : BitVec 6) <<< die) }
/-- No die of the home package holds a copy of the line. -/
def Package.dropDies (k : Package) (ll : Nat) : Package :=
  let e := k.dirAt ll
  if e.dies = 0 then k else k.setDir ll { e with dies := 0 }
def State.addDie (s : State) (a die : Nat) : State := s.modPkg (homeOf a) (fun k => k.addDie (llineOf a) die)
def State.dropDies (s : State) (a : Nat) : State := s.modPkg (homeOf a) (fun k => k.dropDies (llineOf a))

/-- The states in which some package owns the line. -/
def DirSt.owned : DirSt → Bool
  | .e | .m | .o => true
  | _ => false

/-- The copy of a line that its owner holds. -/
def State.ownerCopy (s : State) (a : Nat) : Option LineCopy :=
  let e := s.dirOf a
  if e.st.owned then tfind (s.pkg ((s.pkg (homeOf a)).memberAt e.ownc e.ownp)).copies (lineOf a) else none

/-- The byte that the home's order gives a location now: a dirty owner's, else memory's (R316). -/
def State.peek (s : State) (a : Nat) : Byte :=
  match (s.pkg (homeOf a)).dir with
  | [] => s.mem.byte a
  | _ =>
    match s.ownerCopy a with
    | some c => if c.dirty then c.data.getD (a % 128) 0 else s.mem.byte a
    | none => s.mem.byte a
def State.peekN (s : State) (a : Nat) : Nat → List Byte
  | 0 => []
  | n + 1 => s.peek a :: s.peekN (a + 1) n
def State.peekLe (s : State) (a n : Nat) : Nat := leNat (s.peekN a n)

/-- A line is poisoned (R329). -/
def State.poisoned (s : State) (a : Nat) : Bool := (s.dirOf a).st == .p
/-- A line is locked for migration (R74). -/
def State.locked (s : State) (a : Nat) : Bool := (s.dirOf a).st == .l

/-! ### Monitors (R73) -/

/-- The word at a program counter is the last of its clause. -/
def clauseEnds (cl : Option Clause) (pc : Pc) : Bool :=
  match cl with
  | some k => k.last == pc
  | none => true

/-- The instruction that a thread is parked in completes: the thread goes on at the next word, and parks where a park follows
it (R17, R90); the park of a team that is away waits for its resumption. -/
def State.completeLane (s : State) (p c g l : Nat) : State :=
  match s.team? p c with
  | none => s
  | some t =>
    let x := t.group g
    let pc := (x.thread l).pc
    let cl := (x.ent pc).clause
    let last := clauseEnds cl pc
    let due := (x.thread l).parkDue
    let s := s.modThread p c g l (fun t => { t with st := .runnable, parkDue := false })
    let s := s.moveLane p c g l (pc + 8) (if last then none else cl)
    let s := if last then s.modTeam p c (fun t => t.markYields g pc [l]) else s
    let s := s.modTeam p c (fun t => t.sweepEnts g)
    if !due then s
    else if t.place.isNone then s.modThread p c g l (fun t => { t with parkDue := true })
    else s.parkLane p c g l

/-- The values of a pending result become known (R90). -/
def Thread.answer (t : Thread) (pc : Pc) (vs : List (Word × Bool)) (flags : BitVec 5) : Thread :=
  { t with pend := t.pend.map (fun r => if r.pc == pc && !r.known then
      { r with vals := vs, n := vs.length, known := true, ready := true, flags := flags } else r) }

/-- A thread parked in WAITM wakes with a reason (R73). -/
def State.wakeMonitor (s : State) (p c g l : Nat) (reason : Nat) : State :=
  let s := s.modThread p c g l (fun t => t.answer t.pc [(BitVec.ofNat 32 reason, false)] 0)
  s.completeLane p c g l

/-- The threads of resident teams parked on a line's monitor: package, context, group, lane. -/
def State.watchers (s : State) (line : Nat) : List (Nat × Nat × Nat × Nat) :=
  s.pkgs.flatMap (fun pk => (pk.2.teams.filter (fun tm => tm.2.place.isSome)).flatMap (fun tm => tm.2.groups.flatMap (fun gr =>
    (gr.2.threads.filter (fun th => match th.2.st with
      | .monitor m => m.line == line
      | _ => false)).map (fun th => (pk.1, tm.1, gr.1, th.1)))))

/-- Every thread parked on a line wakes (R73). -/
def State.wakeLine (s : State) (line reason : Nat) : State :=
  (s.watchers line).foldl (fun s w => s.wakeMonitor w.1 w.2.1 w.2.2.1 w.2.2.2 reason) s

/-! ### Writes at the home -/

/-- A line of a home is ready for an access made there (R74, R316, R317): no request's recalls are outstanding, no step of a Safety Net
walk is owed, and no copy stands in the way: an owner's for a read, any for a write. A locked line is ready for reads. -/
def Package.avail (k : Package) (ll : Nat) (write : Bool) : Bool :=
  match k.dir, k.txns with
  | [], [] => true
  | _, _ =>
    let e := k.dirAt ll
    (tfind k.txns ll).isNone && !k.walks.any (fun w => w.1 == ll) && (match e.st with
      | .p => true
      | .l => !write
      | _ => !e.st.owned && (!write || e.cells == 0))

/-- An access by the machine at a line's home. Where the line is not ready for it, the step that makes it has no effect but to begin
the recalls (`State.settle`). -/
def State.need (s : State) (a : Nat) (write : Bool) (die : Nat) : State :=
  if (s.pkg (homeOf a)).avail (llineOf a) write then s else { s with wants := s.wants ++ [⟨a, write, die⟩] }

/-- Bytes of one line written at its home, in the home's order: the line has no remote copy, no die keeps one, and the monitors of the
line wake (R73, R316). -/
def State.writeLine (s : State) (a : Nat) (bs : List Byte) : State :=
  let s := (s.need a true 0).dropDies a
  ({ s with mem := s.mem.put a bs }).wakeLine (lineOf a) 0

/-- Bytes written at their homes, line by line. -/
def State.pokeFuel : Nat → State → Nat → List Byte → State
  | 0, s, _, _ => s
  | fuel + 1, s, a, bs =>
    let k := 128 - a % 128
    if bs.isEmpty then s
    else State.pokeFuel fuel (s.writeLine a (bs.take k)) (a + k) (bs.drop k)
def State.poke (s : State) (a : Nat) (bs : List Byte) : State := State.pokeFuel (bs.length / 128 + 2) s a bs

/-- Where an access to an old page goes once its migration has switched (R311). -/
def State.forward (s : State) (a : Nat) : Nat :=
  match (s.pkg (homeOf a)).migr.find? (fun m => m.switched && m.old / 65536 == a / 65536) with
  | some m => m.new / 65536 * 65536 + a % 65536
  | none => a

/-! ### Page tables (R307, R308) -/

/-- The kinds of access that a page's permissions tell apart (R308). -/
inductive Access
  | read | write | atom | fetch
  deriving DecidableEq, Repr

/-- The outcome of a walk or of a translation. -/
inductive Xl
  | ok (tr : PageTr)
  | page
  | poison
  /-- PERM with 0x31: malformed, at a level. -/
  | malformed (level : Nat)
  /-- PERM with 0x20. -/
  | perm
  | space
  /-- The access itself fails at its home: a trap code, and tx.info[7:0] of TIMEOUT (R320, R327). -/
  | fault (code info : Nat)
  deriving DecidableEq, Repr

/-- A page-table entry's ADDR field as an address (R307). -/
def pteAddr (w : Nat) : Nat := w / 2 ^ 8 % 2 ^ 44 * 2 ^ 8
/-- The size of the page or of the region that an entry of a level covers. -/
def levelSize : Nat → Nat
  | 0 => 2 ^ 16
  | 1 => 2 ^ 21
  | 2 => 2 ^ 30
  | 3 => 2 ^ 39
  | _ => 2 ^ 48
/-- The index of a virtual address at a level (R307). -/
def levelIndex (level va : Nat) : Nat := va / levelSize level % (if level = 0 then 32 else 512)
/-- The alignment of the table that an entry of a level names. -/
def nextTableAlign (level : Nat) : Nat := if level = 1 then 256 else 4096

/-- An entry that is valid but malformed (R308). -/
def pteMalformed (p level w : Nat) : Bool :=
  let leaf := bitOf' w 1
  let addr := pteAddr w
  (leaf && decide (3 ≤ level)) || (!leaf && level == 0) || w / 2 ^ 52 % 32 != 0 || bitOf' w 7 ||
    (!leaf && w / 2 ^ 57 % 64 != 0) ||
    (if leaf then addr % levelSize level != 0 else addr % nextTableAlign level != 0 || homeOf addr != p)
where
  bitOf' (w j : Nat) : Bool := w / 2 ^ j % 2 == 1

/-- A leaf's translation. -/
def leafTr (level va w entry : Nat) : PageTr where
  va := va / levelSize level * levelSize level
  size := levelSize level
  pa := pteAddr w
  fmt := w / 2 ^ 59 % 16
  geom := w / 2 ^ 57 % 4
  x := w / 2 ^ 4 % 2 == 1
  w := w / 2 ^ 3 % 2 == 1
  rd := w / 2 ^ 2 % 2 == 1
  leaf := entry

/-- What the entry at `e`, of a level, gives an address: the end of its walk, or the next table (R308). -/
def State.pte (s : State) (p va level e : Nat) : Sum Xl Nat :=
  if s.poisoned (s.forward e) then .inl .poison
  else
    let w := s.peekLe (s.forward e) 8
    if w % 2 = 0 then .inl .page
    else if pteMalformed p level w then .inl (.malformed level)
    else if w / 2 % 2 = 1 then .inl (.ok (leafTr level va w e))
    else .inr (pteAddr w)

/-- A walk from the table at `base` of a level (R308), with the entries it has read, the last first; an entry in a page that has migrated is
read at its new place (R311). -/
def State.walkFrom (s : State) (p va : Nat) : Nat → Nat → List Nat → Xl × List Nat
  | 0, base, seen =>
    let e := base + 8 * levelIndex 0 va
    match s.pte p va 0 e with
    | .inl x => (x, e :: seen)
    | .inr _ => (.malformed 0, e :: seen)
  | level + 1, base, seen =>
    let e := base + 8 * levelIndex (level + 1) va
    match s.pte p va (level + 1) e with
    | .inl x => (x, e :: seen)
    | .inr next => s.walkFrom p va level next (e :: seen)

/-- The root that a partition's walks use (R265). -/
def Package.walkRoot (k : Package) (part : Nat) : Nat :=
  (match tfind k.ptrootWalk part with
    | some r => r
    | none => tget 0 k.ptroot part).toNat

/-- A walk of a partition's table (R308). -/
def State.walk (s : State) (p part va : Nat) : Xl × List Nat :=
  let root := (s.pkg p).walkRoot part
  if homeOf root ≠ p then (.malformed 4, []) else s.walkFrom p va 4 root []

/-- A bit of an entry set by an indivisible update (R307). -/
def State.setPteBit (s : State) (e bit : Nat) : State :=
  let e := s.forward e
  if s.peekLe e 8 / 2 ^ bit % 2 = 1 then s else s.poke (e + bit / 8) [s.peek (e + bit / 8) ||| BitVec.ofNat 8 (2 ^ (bit % 8))]

/-- The permissions that an access needs (R308). -/
def PageTr.allows (t : PageTr) : Access → Bool
  | .read => t.rd
  | .write => t.w
  | .atom => t.rd && t.w
  | .fetch => t.x

/-- A space address lies in the space: its package is a member, the package itself always, and its memory is installed (R60). -/
def Package.inSpace (k : Package) (p a : Nat) : Bool :=
  (homeOf a == p || k.member (homeOf a)) && decide (localOf a < Config.installed)

/-- The space address of a virtual address in a page. -/
def PageTr.at (t : PageTr) (va : Nat) : Nat := t.pa + (va - t.va)
def PageTr.covers (t : PageTr) (va : Nat) : Bool := decide (t.va ≤ va) && decide (va < t.va + t.size)

/-- A translation checked for an access (R308). -/
def Package.checkTr (k : Package) (p va : Nat) (acc : Access) (t : PageTr) : Xl :=
  if !t.allows acc then .perm
  else if !k.inSpace p (t.at va) then .space
  else .ok t

/-- A translation used by an access: the permissions, then the space (R308); the first write sets D (R307). -/
def State.useTr (s : State) (p va : Nat) (acc : Access) (t : PageTr) : Xl × State :=
  match (s.pkg p).checkTr p va acc t with
  | .ok t => (.ok t, if acc == .write || acc == .atom then s.setPteBit t.leaf 6 else s)
  | x => (x, s)

/-- A die holds a translation, in place of one of the same address (R310). -/
def State.holdTr (s : State) (p part die va : Nat) (t : PageTr) : State :=
  s.modDie p die (fun d => { d with tlb := ⟨part, t⟩ :: d.tlb.filter (fun e => !(e.part == part && e.tr.covers va)) })

/-- The entries that a walk reads are accesses at their homes (R317). -/
def State.needWalk (s : State) (die : Nat) (es : List Nat) : State := es.foldl (fun s e => s.need (s.forward e) false die) s

/-- A walk's outcome used by an access: the walk sets A in the entries it passed (R307, R308). -/
def State.useWalk (s : State) (p part die va : Nat) (acc : Access) (w : Xl × List Nat) : Xl × State :=
  let s := s.needWalk die w.2
  match w.1 with
  | .ok t => ((w.2.foldl (fun s e => s.setPteBit e 5) s).holdTr p part die va t).useTr p va acc t
  | x => (x, s)

/-- A translation, through the TLBs of the die. A held translation that the tables no longer give may be used or not, by a free
choice, until a TLBI covers it (R310). -/
def State.translate (s : State) (p part die va : Nat) (acc : Access) : Xl × State :=
  let w := s.walk p part va
  match (s.die p die).tlb.find? (fun e => e.part == part && e.tr.covers va) with
  | none => s.useWalk p part die va acc w
  | some e =>
    if w.1 = Xl.ok e.tr then s.useTr p va acc e.tr
    else if (s.choose 2).1 = 0 then (s.choose 2).2.useTr p va acc e.tr
    else (s.choose 2).2.useWalk p part die va acc w

/-! ### What a home refuses (R320, R323, R327, R329) -/

/-- The Turnstile admits a request of a cell (R320). -/
def Package.admits (k : Package) (a c : Nat) (op : ReqOp) : Bool :=
  let e := tget (0 : BitVec 128) k.turn (localOf a / 2 ^ 21)
  match op with
  | .gets => e.getLsbD c
  | .getm => e.getLsbD c && e.getLsbD (64 + c)
  | .wrh | .red => e.getLsbD (64 + c)
  | _ => true

/-- Why an access of package `p` to bytes of one line fails at its home: POISON, REFUSED, or TIMEOUT for a dead cell (R320, R323,
R327, R329). -/
def State.homeFault (s : State) (p a : Nat) (write : Bool) : Option (Nat × Nat) :=
  let h := homeOf a
  if h = p then (if s.poisoned a then some (0x08, 0) else none)
  else if (s.pkg p).dead h then some (0x0A, 1)
  else if !(s.pkg h).admits a ((s.pkg h).cell p) (if write then .wrh else .gets) then some (0x09, 0)
  else if s.poisoned a then some (0x08, 0)
  else none

/-! ### Page faults (R293) -/

/-- A fault on a page is pending: it is new, or the faulting party joins the pending one (R293). -/
def Die.addFault (d : Die) (f : PFault) : Die :=
  if d.faults.any (fun x => x.part == f.part && x.va == f.va) then
    { d with faults := d.faults.map (fun x => if x.part == f.part && x.va == f.va && !x.written then
        { x with kind := x.kind ||| f.kind, nthr := x.nthr + f.nthr } else x) }
  else { d with faults := d.faults ++ [f] }

/-- A page fault of a team, at an instruction. -/
def pfault (t : Team) (va : DWord) (kind : BitVec 8) (threads : Nat) (pc : Pc) : PFault :=
  ⟨t.part, va &&& ~~~ 0xFFFF, kind, threads, t.inst, pc.setWidth 64, false⟩

/-- A lane parks on a page, and replays its instruction (R17, R293). -/
def Iss.parkPage (u : Iss) (l : Nat) (va : DWord) (kind : BitVec 8) (s : State) : State × LaneEnd :=
  match u.team s with
  | none => (s, .left)
  | some t =>
    let die := dieOf (t.coreOf u.group)
    let s := s.modDie u.pkg die (fun d => d.addFault (pfault t va kind 1 u.pc))
    (s.modThread u.pkg u.ctx u.group l (fun t => { t with st := .page va kind }), .parked)

/-- A PAGE_MALFORMED record (R308, R352). -/
def State.pageMalformed (s : State) (p : Nat) (t : Team) (g : Nat) (pc : DWord) (lane : Nat) (va level : Nat) : State :=
  s.event p (ringOf t.part t.driver)
    (t.evRec g 0x0B 0x06 pc lane (dataAt [(32, leBytes 8 va), (40, leBytes 1 level), (41, leBytes 1 t.part)]))

/-- KIND of R293. -/
def Access.kind : Access → BitVec 8
  | .read => 1
  | .write => 2
  | .atom => 3
  | .fetch => 4

/-- The trap of a failed translation of a lane's access (R308), or its park on the page. -/
def Iss.badXl (u : Iss) (l : Nat) (va : DWord) (kind : BitVec 8) (x : Xl) (s : State) : State × LaneEnd :=
  match x with
  | .page => u.parkPage l va kind s
  | .poison => (s, .trap (u.bare 0x08 (some va)))
  | .malformed level =>
    match u.team s with
    | some t => (s.pageMalformed u.pkg t u.group u.pc64 (t.visLane l) va.toNat level, .trap (u.trap 0x06 0x31 (some va)))
    | none => (s, .trap (u.trap 0x06 0x31 (some va)))
  | .perm => (s, .trap (u.trap 0x06 0x20 (some va)))
  | .fault code info => (s, .trap ⟨code, u.pc64, some va, if code = 0x0A then some (BitVec.ofNat 64 info) else none⟩)
  | .space | .ok _ => (s, .trap (u.bare 0x15 (some va)))

/-! ### Fetch (R134, R381) -/

/-- The code words that a team may fetch at an address: those it has fetched, and the one that stands there now (R381). -/
def wordChoices (kept : List DWord) (now : DWord) : List DWord := if kept.contains now then kept else kept ++ [now]

/-- A code word fetched by a team, as a plain load of its core (R381): a poisoned line, a home in a dead cell and a Turnstile that
refuses give their faults. Where words that the team has fetched there before differ from the present one, which of them it fetches is a
free choice at every fetch. -/
def State.fetch (s : State) (p c die : Nat) (va : Nat) : Xl × DWord × State :=
  match s.team? p c with
  | none => (.page, 0, s)
  | some t =>
    match s.translate p t.part die va .fetch with
    | (.ok tr, s) =>
      let a := s.forward (tr.at va)
      let s := s.need a false die
      match s.homeFault p a false with
      | some (code, info) => (.fault code info, 0, s)
      | none =>
        let ws := wordChoices (tget [] t.icache va) (BitVec.ofNat 64 (s.peekLe a 8))
        let (k, s) := if ws.length = 1 then (0, s) else s.choose ws.length
        let w := ws.getD k 0
        (.ok tr, w, s.modTeam p c (fun t => { t with icache :=
          (let kept := tget [] t.icache va
           if kept.contains w then t.icache else tput t.icache va (kept ++ [w])) }))
    | (x, s) => (x, 0, s)

end Sys2Proof.Machine
end

