-- ==== Sys2Proof/Machine/Control.lean ====
section
/-! DEFINITION. Control transfers, EXIT and YIELD (R132 to R137), with the checks of a transfer's target (R97, R134) and the
comparison of branches in mirror mode (R34). -/

namespace Sys2Proof.Machine

/-- A MIRROR machine check at the instruction (R35). -/
def Iss.mirrorTrap (u : Iss) : Trap := ⟨0x10, u.pc64, some 0, some 0⟩

/-- In mirror mode, whether the other lane of the pair agrees: it stands at the same word, its guard is true, and what `f` reads
of it is equal (R34). Outside mirror mode, true. -/
def Iss.pairAgrees {β : Type} [DecidableEq β] (u : Iss) (c : Ctl) (l : Nat) (f : Thread → β) (s : State) : Bool :=
  match u.team s with
  | none => true
  | some t =>
    match t.partner l with
    | none => true
    | some m =>
      let x := t.thread u.group l
      let y := t.thread u.group m
      y.guard c && decide (f x = f y)

/-- A transfer to a target: its checks, then the lane goes there (R97, R134). -/
def Iss.transfer (u : Iss) (l : Nat) (target : DWord) (s : State) : State × LaneEnd :=
  if 2 ^ 57 ≤ target.toNat then (s, .trap (u.trap 0x02 1 (some target)))
  else if target.toNat % 8 ≠ 0 then (s, .trap (u.trap 0x02 8 (some target)))
  else
    match s.fetch u.pkg u.ctx (u.die s) target.toNat with
    | (.ok _, w, s) =>
      if isHeader w then (s, .go (target.setWidth 57)) else (s, .trap (u.trap 0x02 1 (some target)))
    | (x, _, s) => u.badXl l target Access.fetch.kind x s

/-- ClauseHeaderAddress + SignExtend(imm) × 8 (R85). -/
def Iss.label (u : Iss) (imm : Int) : DWord := u.clause.hdr.setWidth 64 + BitVec.ofInt 64 (imm * 8)

/-- The header after the clause of the instruction (R133). -/
def Iss.link (u : Iss) : DWord := u.clause.last.setWidth 64 + 8

/-- A transfer that the pair's lanes make alike (R34). -/
def Iss.branch {β : Type} [DecidableEq β] (u : Iss) (c : Ctl) (l : Nat) (same : Thread → β) (target : DWord) (s : State) :
    State × LaneEnd :=
  if u.pairAgrees c l same s then u.transfer l target s else (s, .trap u.mirrorTrap)

def execBra (c : Ctl) (imm : BitVec 27) (s : State) : Host.Outcome State Fault Refusal :=
  s.issue c {} (fun u l s => u.branch c l (fun _ => ()) (u.label imm.toInt) s)

def execBrx (c : Ctl) (g : Reg) (s : State) : Host.Outcome State Fault Refusal :=
  s.issue c { reads := [.pair g] } (fun u l s =>
    u.branch c l (fun t => t.pair g) ((u.thread s l).pair g) s)

/-- RET has the effect of BRX (R133). -/
def execRet (c : Ctl) (g : Reg) (s : State) : Host.Outcome State Fault Refusal :=
  s.issue c { reads := [.pair g] } (fun u l s =>
    u.branch c l (fun t => t.pair g) ((u.thread s l).pair g) s)

/-- CALL writes its link only when the transfer takes effect (R133, R134). -/
def execCall (c : Ctl) (g : Reg) (imm : BitVec 27) (s : State) : Host.Outcome State Fault Refusal :=
  s.issue c {} (fun u l s =>
    match u.branch c l (fun _ => ()) (u.label imm.toInt) s with
    | (s, .go pc) =>
      match u.write l g ((words2 u.link).map (fun w => (w, false))) 0 s with
      | (s, .done) => (s, .go pc)
      | r => r
    | r => r)

/-- The deferred-fault bit that CHKD tests (R137). -/
def chkdBit (pair : Bool) (g : Reg) (t : Thread) : Bool := t.flagN g (if pair then 2 else 1)

/-- CHKD transfers a lane whose tested bit is set; every other lane falls through (R137). -/
def execChkd (c : Ctl) (pair : Bool) (g : Reg) (imm : BitVec 18) (s : State) : Host.Outcome State Fault Refusal :=
  s.issue c {} (fun u l s =>
    if !u.pairAgrees c l (chkdBit pair g) s then (s, .trap u.mirrorTrap)
    else if chkdBit pair g (u.thread s l) then u.transfer l (u.label imm.toInt) s
    else (s, .done))

/-- YIELD marks the thread; its entry is marked at the end of the clause (R136). -/
def execYield (c : Ctl) (s : State) : Host.Outcome State Fault Refusal :=
  s.issue c {} (fun u l s => (u.setThread s l { u.thread s l with yielded := true }, .done))

/-! ### EXIT (R135) -/

/-- A failed remote write whose thread is gone enters the task's fault log and is reported (R324). -/
def State.reportWFail (s : State) (p c g : Nat) (f : WFail) : State :=
  match s.team? p c with
  | none => s
  | some t =>
    let s := s.modRec p t.inst (fun r => r.logFault 0x0B f.lane (t.coreOf g) (f.pc.setWidth 64) g)
    s.event p (ringOf t.part t.driver) (t.evRec g 0x04 f.cause (f.pc.setWidth 64) f.lane (leBytes 8 f.addr))

/-- The failures that a thread holds are reported as it exits (R185, R324). -/
def State.reportHeld (s : State) (p c g l : Nat) : State :=
  match s.team? p c with
  | none => s
  | some t =>
    let mine := (t.group g).fails.filter (fun f => f.lane == l)
    let s := s.modGroup p c g (fun x => { x with fails := x.fails.filter (fun f => f.lane != l) })
    mine.foldl (fun s f => s.reportWFail p c g f) s

/-- A thread exits: it parks, becomes exited, and the Booth disposes of its places (R135, R200). -/
def State.exitLane (s : State) (p c g l : Nat) : State :=
  match s.team? p c with
  | none => s
  | some t =>
    let s := s.modThread p c g l (fun x => { x.parkNow.1 with st := .exited, parkDue := false })
    if t.shadow l then s
    else (s.reportHeld p c g l).disposePlaces p c t (fun x => x.thr == g * 64 + t.visLane l)

def execExit (c : Ctl) (s : State) : Host.Outcome State Fault Refusal :=
  s.issue c {} (fun u l s =>
    if (u.thread s l).region.isSome then (s, .trap ⟨0x16, u.pc64, none, some 6⟩)
    else (s.exitLane u.pkg u.ctx u.group l, .left))

end Sys2Proof.Machine
end

