-- ==== Sys2Proof/Machine/Coherence.lean ====
section
/-! DEFINITION. The coherence protocol between packages (R312 to R330): a requester's copies and requests, the home's service of a
line one request at a time, recalls, the Turnstile, exactly-once delivery, failures of requests, rollback of a remote region
(R180), and the walk of a dead cell. -/

namespace Sys2Proof.Machine

/-! ### A requester's copies -/

/-- Every L1 of a package drops a line. -/
def Package.dropL1Line (k : Package) (line : Nat) : Package :=
  { k with cores := tmap (fun _ x => { x with l1 := tdel x.l1 line }) k.cores }

/-- The monitors of a package on a line wake with a reason (R73). -/
def State.wakeAt (s : State) (p line reason : Nat) : State :=
  ((s.watchers line).filter (fun w => w.1 == p)).foldl (fun s w => s.wakeMonitor w.1 w.2.1 w.2.2.1 w.2.2.2 reason) s

/-- A package's caches evict a line: a dirty copy of another home's line is written back (WB), an exclusive one given up (EVE), a
read copy dropped (R314, R316); the dies' copies of a line of its own go, and with them their DIES bits (R315). A monitor on the line
wakes with EVICT (R73). -/
def State.evict (s : State) (p line : Nat) : State :=
  let a := line * 128
  let m := s.modPkg p (fun k => k.dropL1Line line)
  match tfind (s.pkg p).copies line with
  | none => if homeOf a = p then (m.dropDies a).wakeAt p line 1 else m
  | some x =>
    let m := m.modPkg p (fun k => { k with copies := tdel k.copies line })
    let m := if x.dirty then m.send p (homeOf a) (.req .wb a 0 (BitVec.allOnes 128) 0 false (0, 0) x.data)
      else if x.excl then m.send p (homeOf a) (.req .eve a 0 0 0 false (0, 0) [])
      else m
    m.wakeAt p line 1

/-- The 128 bytes of a line as a package sees it: the home's order for a line of its own, its copy for another's. -/
def State.lineSeen (s : State) (p a : Nat) : List Byte :=
  if homeOf a = p then s.peekN (a / 128 * 128) 128
  else match tfind (s.pkg p).copies (lineOf a) with
    | some c => c.data
    | none => []

/-- Bytes that a package sees at an address, within one line. -/
def State.seen (s : State) (p a n : Nat) : List Byte :=
  if homeOf a = p then s.peekN a n
  else match tfind (s.pkg p).copies (lineOf a) with
    | some c => (c.data.drop (a % 128)).take n
    | none => List.replicate n 0

/-- Bytes written into a copy that a package owns; it is dirty from then on. -/
def State.writeCopy (s : State) (p a : Nat) (bs : List Byte) : State :=
  match tfind (s.pkg p).copies (lineOf a) with
  | none => s
  | some c =>
    let off := a % 128
    let data := c.data.take off ++ bs ++ c.data.drop (off + bs.length)
    (s.modPkg p (fun k => { k with copies := tput k.copies (lineOf a) { c with dirty := true, data := data } })).wakeLine
      (lineOf a) 0

/-! ### Requests -/

/-- The timeout of a partition's remote accesses, in nanoseconds (R265, R322): ctl.rtmo, 400 µs from reset. -/
def Package.tmo (k : Package) (part : Nat) : Nat := 1000 * tget 400 k.rtmo part

/-- A request is sent and recorded (R322, R324). -/
def State.request (s : State) (p : Nat) (t : Team) (r : Req) (b : Body) : State :=
  let cpyx := match r.kind with
    | .cpyx _ => true
    | _ => false
  s.modPkg p (fun k =>
    let r := { r with eseq := (k.e2e? r.dst).next, deadline := s.time + k.tmo t.part, tmo := k.tmo t.part }
    { k.sendAs p r.dst cpyx b with reqs := tput k.reqs k.nextReq r, nextReq := k.nextReq + 1 })

/-- A request answered: its key and itself. -/
def Package.findReq (k : Package) (src re : Nat) : Option (Nat × Req) :=
  k.reqs.find? (fun e => e.2.dst == src && e.2.eseq == re)
/-- A request has ended; the remote writes that it stands for leave its group's count (R72). -/
def State.dropReq (s : State) (p r : Nat) : State :=
  let n : Option (Nat × Nat × Nat) := match tfind (s.pkg p).reqs r with
    | some q => if q.cnt = 0 then none else some (q.ctx, q.group, q.cnt)
    | none => none
  let s := s.modPkg p (fun k => { k with reqs := tdel k.reqs r })
  match n with
  | some (c, g, n) => s.modGroup p c g (fun x => { x with rwCount := x.rwCount - n })
  | none => s

/-! ### Rollback of a remote region (R180) -/

/-- The registers of a region's log return to their first values, and its predicates to those of RBEG. -/
def Thread.unroll (t : Thread) (r : Region) : Thread :=
  { t with
    regs := r.log.foldl (fun x e => tput x e.1 e.2.1) t.regs,
    dfb := r.log.foldl (fun x e => tput x e.1 e.2.2) t.dfb,
    preds := r.preds, pend := [], defCount := 0, parkDue := false, region := none }

/-- The status register of a region takes a value; it is never logged (R177). -/
def Thread.setStatus (t : Thread) (r : Region) (v : Word) : Thread :=
  { t with regs := tput t.regs r.status.toNat v, dfb := tput t.dfb r.status.toNat false }

/-- A rollback (R180): with `tx`, tx.* take the cause, the failing instruction, its address and its reason. The thread continues at
the target; where the target's page is absent it parks there. -/
def State.rollback (s : State) (p c g l : Nat) (cause : Nat) (tx : Option (DWord × DWord × DWord)) (failing : DWord) : State :=
  match s.team? p c with
  | none => s
  | some tm =>
    let t := tm.thread g l
    match t.region with
    | none => s
    | some r =>
      let t := (t.unroll r).setStatus r (BitVec.ofNat 32 cause)
      let t := match tx with
        | some (pc, addr, info) => { t with txCode := BitVec.ofNat 32 cause, txPc := pc, txAddr := addr, txInfo := info }
        | none => t
      let s := s.setThread p c g l t
      -- operations still in flight are reported nowhere else
      let s := s.modPkg p (fun k => { k with reqs := tmap (fun _ q =>
        if q.ctx == c && q.group == g && q.region && q.lanes.any (fun x => x.1 == l) then
          { q with region := false, silent := true } else q) k.reqs })
      let die := dieOf (tm.coreOf g)
      let go (s : State) : State := s.moveLane p c g l (r.target.setWidth 57) none
      match s.fetch p c die r.target.toNat with
      | (.ok _, w, s) =>
        if isHeader w then go s else s.trap p c g l ⟨0x02, failing, some r.target, some 1⟩
      | (.page, _, s) =>
        let s := s.modDie p die (fun d => d.addFault (pfault tm r.target Access.fetch.kind 1 (r.target.setWidth 57)))
        (go (s.modThread p c g l (fun t => { t with st := .page r.target Access.fetch.kind }))).flushFaults p die
      | (.poison, _, s) => s.trap p c g l ⟨0x08, failing, some r.target, none⟩
      | (.malformed level, _, s) =>
        (s.pageMalformed p tm g failing (tm.visLane l) r.target.toNat level).trap p c g l
          ⟨0x06, failing, some r.target, some 0x31⟩
      | (.perm, _, s) => s.trap p c g l ⟨0x06, failing, some r.target, some 0x20⟩
      | (.space, _, s) => s.trap p c g l ⟨0x15, failing, some r.target, none⟩
      | (.fault code info, _, s) => s.trap p c g l ⟨code, failing, some r.target,
          if code = 0x0A then some (BitVec.ofNat 64 info) else none⟩

/-! ### Mirrored pairs (R34) -/

/-- What a visible lane has taken of an operation made once for its pair is given to its shadow at once: the pending results that it
has gained since `s0`, and a wait. -/
def Iss.pairUp (u : Iss) (park : Bool) (v : Nat) (s0 : State) (e : LaneEnd) (s : State) : State :=
  match u.team s with
  | none => s
  | some tm =>
    match tm.partner v with
    | none => s
    | some m =>
      let t0 := u.thread s0 v
      let t := u.thread s v
      let gained := t.pend.drop t0.pend.length
      s.modThread u.pkg u.ctx u.group m (fun x =>
        let x : Thread := if gained.isEmpty then x else
          { x with pend := x.pend ++ gained, defCount := x.defCount + 1, region := t.region, specFail := false, wait := t.wait }
        if t.runs then x else { x with st := t.st, parkDue := x.parkDue || (park && e == .waiting) })

/-- How a shadow lane leaves an operation that its visible lane has made: with it, by the same trap, or by the same rollback. -/
def Iss.mimic (u : Iss) (l v : Nat) (s : State) : State × LaneEnd :=
  let x := u.thread s l
  let t := u.thread s v
  if x.pc != u.pc then (s, .left)
  else if !x.runs then (s, .parked)
  else if x.region.isSome && t.region.isNone then
    (s.rollback u.pkg u.ctx u.group l t.txCode.toNat (some (t.txPc, t.txAddr, t.txInfo)) u.pc64, .left)
  -- a delivered trap has set M of the visible lane
  else if t.m && !x.m then (s, .trap ⟨t.txCode.toNat, t.txPc, some t.txAddr, some t.txInfo⟩)
  else (s, .done)

/-- An operation made once for a mirrored pair: by the visible lane, whose result and end the shadow shares. -/
def Iss.once (u : Iss) (park : Bool) (l : Nat) (f : State → State × LaneEnd) (s : State) : State × LaneEnd :=
  match u.team s with
  | none => (s, .left)
  | some tm =>
    let v := tm.visLane l
    if v = l then
      match f s with
      | (s', e) => (u.pairUp park l s e s', e)
    else u.mimic l v s

/-! ### Failures (R165, R172, R179, R184, R323) -/

/-- A remote read or ATOM of a lane has failed: it rolls an open region back, or traps (R165, R179); an LD.spec is marked (R93). -/
def State.failRead (s : State) (p c g l : Nat) (pc : Pc) (ea : DWord) (spec : Bool) (code : Nat) (info : Option DWord) : State :=
  match s.team? p c with
  | none => s
  | some tm =>
    let t := tm.thread g l
    if tm.stop.isSome || tm.place.isNone || t.pc != pc || !t.runs || t.wait.isSome then s
    else if spec then s.modThread p c g l (fun t => { t with specFail := true })
    else
      (if t.region.isSome then
        s.rollback p c g l code (some (pc.setWidth 64, ea, 0)) (pc.setWidth 64)
      else s.trap p c g l ⟨code, pc.setWidth 64, some ea, info⟩).modTeam p c (fun t => t.sweepEnts g)

/-- A failed remote write of a lane (R184, R185, R324): it fails the open region it belongs to, is held against its thread, or is
reported when the thread has exited. The group's count falls by one. -/
def State.failWrite (s : State) (p : Nat) (key : Nat) (r : Req) (cause : Nat) : State :=
  let s := (s.dropReq p key).modGroup p r.ctx r.group (fun x => { x with rwCount := x.rwCount - 1 })
  match s.team? p r.ctx with
  | none => s
  | some tm =>
    r.lanes.foldl (fun s (l, _) =>
      if r.silent then s
      else if r.region then
        s.modThread p r.ctx r.group l (fun t => { t with region := t.region.map (fun x =>
          { x with fails := x.fails ++ [(key, 0x0B, cause, r.pc, BitVec.ofNat 64 r.addr)] }) })
      else
        let f : WFail := ⟨tm.visLane l, r.pc, r.addr, cause, key⟩
        if (tm.thread r.group l).live then s.modGroup p r.ctx r.group (fun x => { x with fails := x.fails ++ [f] })
        else s.reportWFail p r.ctx r.group f) s

/-- A copy command has failed: the first failure is kept, and it moves nothing more (R223, R226). -/
def Copy.failWith (x : Copy) (status : Nat) (addr : DWord) (info : Word) : Copy :=
  { x with pos := 2 ^ 64, fail := x.fail.or (some (status, addr, info)) }

/-- A copy command of a team is changed. -/
def Team.modCopy (t : Team) (id : Nat) (f : Copy → Copy) : Team :=
  { t with copies := t.copies.map (fun x => if x.id = id then f x else x) }

/-- A CPYX line has failed: STATUS 0x08 for a poisoned line (R329), 0x09 for a refusal, else 0x0B with its cause (R184, R226). Its request names the line's bytes and
its address. -/
def State.failLine (s : State) (p : Nat) (key : Nat) (r : Req) (id : Nat) (code : Nat) : State :=
  let a := match r.lanes with
    | (_, va) :: _ => va
    | [] => 0
  let st : Nat × Word := if code = 0x08 ∨ code = 0x09 then (code, 0) else (0x0B, 1)
  (s.dropReq p key).modTeam p r.ctx (fun t => t.modCopy id (fun x =>
    Copy.failWith { x with lines := x.lines - 1 } st.1 a st.2))

/-! ### The Booth slot (R298, R305, R306) -/

/-- The operand of an ATOM, and the expected value of .cas. -/
def Thread.atomArgs (t : Thread) (ty : AtTy) (op : AtOp) (b : Reg) : Nat × Nat :=
  let one (r : Nat) : Nat := if ty.wide then (t.at b r).toNat + 2 ^ 32 * (t.at b (r + 1)).toNat else (t.at b r).toNat
  if op = .cas then (one (if ty.wide then 2 else 1), one 0) else (one 0, 0)

/-- Everything that a redirected access waits for has come, or it has failed. -/
def Late.ended (x : Late) : Bool := x.fail.isSome || x.got.all (fun b => b.isSome)

/-- The result of a redirected access: its values and flags, or the trap code with which it ends. -/
def Late.result (x : Late) : Except Nat (List (Word × Bool) × BitVec 5) :=
  let bs := x.got.flatMap (fun b => b.getD [])
  let clean (ws : List Word) : List (Word × Bool) := ws.map (fun w => (w, false))
  match x.op with
  | .ld sz _ _ => .ok (clean (sz.load bs), 0)
  | .lde f n _ => match elemsLoad f n bs with
    | none => .error 0x07
    | some (vs, fl) => .ok (clean (vs.flatMap (fun v => wordsOf (f == 8) (BitVec.ofNat 64 v))), fl)
  | .atom ty _ _ _ => .ok (clean (wordsOf ty.wide (BitVec.ofNat 64 (leNat bs))), 0)
  | .waitm _ | .answer => .ok (x.vals, 0)

/-- A redirected result reaches its resident lanes: its value is merged into their pending results, a failure ends them as it would have
ended them at their instruction (R92, R93, R179). -/
def State.finishLate (s : State) (p c : Nat) (x : Late) : State :=
  let give (vs : List (Word × Bool)) (fl : BitVec 5) (s : State) : State :=
    x.lanes.foldl (fun s l => s.modThread p c x.group l (fun t => t.received vs fl)) s
  let stop (code : Nat) (info : Option DWord) (s : State) : State := x.lanes.foldl (fun s l =>
    match s.team? p c with
    | none => s
    | some tm =>
      if tm.stop.isSome then s
      else
        let s := s.modThread p c x.group l Thread.unanswered
        (if (tm.thread x.group l).region.isSome && code != 0x07 && code != 0x17 then
          s.rollback p c x.group l code (some (x.pc.setWidth 64, x.ea, 0)) (x.pc.setWidth 64)
        else s.trap p c x.group l ⟨code, x.pc.setWidth 64, some x.ea, info⟩).modTeam p c (fun t => t.sweepEnts x.group)) s
  match x.fail, x.op with
  | some _, .ld sz true _ => give (List.replicate sz.regs (0, true)) 0 s
  | some (code, info), _ => stop code info s
  | none, _ => match x.result with
    | .ok (vs, fl) => give vs fl s
    | .error code => stop code none s

/-- The slot of a resident team gives up what has ended (R306). -/
def State.mergeLate (s : State) (p c : Nat) : State :=
  match s.team? p c with
  | none => s
  | some t =>
    if t.place.isNone || t.stop.isSome then s
    else
      (t.late.filter Late.ended).foldl (fun s x => s.finishLate p c x)
        (s.modTeam p c (fun t => { t with late := t.late.filter (fun x => !x.ended) }))

/-- A line has come for a package: the redirected accesses that wait for it take their bytes; an ATOM is made in the copy that has been
granted, once (R298). -/
def State.lateLine (s : State) (p c a : Nat) : State :=
  match s.team? p c with
  | none => s
  | some t =>
    let r := t.late.foldl (fun (r : List Late × State) x =>
      let (got, s) := (x.parts.zip x.got).foldl (fun (y : List (Option (List Byte)) × State) e =>
        let ((b, n), g) := e
        if g.isSome || lineOf b != lineOf a then (y.1 ++ [g], y.2)
        else
          let old := y.2.seen p b n
          match x.op with
          | .atom ty op _ br =>
            if !(tfind (y.2.pkg p).copies (lineOf a)).any (fun k => k.excl) then (y.1 ++ [g], y.2) else
            let (v, e) := (t.thread x.group x.lane).atomArgs ty op br
            let s := match atomNew ty op (leNat old) v e with
              | some w => y.2.writeCopy p b (leBytes n w)
              | none => y.2
            (y.1 ++ [some old], s)
          | _ => (y.1 ++ [some old], y.2)) ([], r.2)
      (r.1 ++ [{ x with got := got }], s)) ([], s)
    (r.2.modTeam p c (fun t => { t with late := r.1 })).mergeLate p c

/-- An access that has been redirected fails. -/
def State.lateFail (s : State) (p c g : Nat) (pc : Pc) (a code : Nat) (info : Option DWord) : State :=
  (s.modTeam p c (fun t => { t with late := t.late.map (fun x =>
    if x.group == g && x.pc == pc && x.parts.any (fun y => lineOf y.1 == lineOf a) then { x with fail := x.fail.or (some (code, info)) } else x) })).mergeLate p c

/-- A lane's TDEC or CERTW of an unknown instance: ENGINE, reason 0x42, at that instruction (R206). -/
def State.failWait (s : State) (p c g l : Nat) (pc : Pc) (v : DWord) : State :=
  match s.team? p c with
  | none => s
  | some tm =>
    if tm.place.isNone then s.modTeam p c (fun t => t.hold g l [l] pc v [] (some (0x17, some 0x42)))
    else ((s.modThread p c g l Thread.unanswered).trap p c g l ⟨0x17, pc.setWidth 64, some v, some 0x42⟩).modTeam p c (fun t => t.sweepEnts g)

/-! ### Answers of a Ringmaster (R203, R205) -/

/-- The answer to a TDEC or CERTW sent to another package: 0 false, 1 true or applied, 2 unknown. -/
def State.answerReq (s : State) (p key : Nat) (r : Req) (v : Nat) : State :=
  let s := s.dropReq p key
  match s.team? p r.ctx with
  | none => s
  | some tm =>
    if v = 2 then r.lanes.foldl (fun s x => match s.team? p r.ctx with
      | some t => if t.stop.isSome then s else s.failWait p r.ctx r.group x.1 r.pc x.2
      | none => s) s
    else
      (r.lanes.foldl (fun s x => s.endWait p r.ctx r.group x.1 [(BitVec.ofNat 32 v, false)]) s).sink p (tm.coreOf r.group)

/-- A request that ends in failure: `code` is 0x08 POISON, 0x09 REFUSED or 0x0A TIMEOUT, `info` that of R323 for the last. -/
def State.failReq (s : State) (p key : Nat) (r : Req) (code info : Nat) : State :=
  match r.kind with
  | .load | .spec | .own =>
    let info := if code = 0x0A then some (BitVec.ofNat 64 info) else none
    (r.lanes.foldl (fun s x => s.failRead p r.ctx r.group x.1 r.pc x.2 (r.kind == .spec) code info) (s.dropReq p key)).lateFail p r.ctx
      r.group r.pc r.addr code info
  | .write => s.failWrite p key r (if code = 0x0A then 1 else if code = 0x09 then 2 else 3)
  | .cpyx k => s.failLine p key r k code
  | .pref => s.dropReq p key
  | .tdec | .certw => s.answerReq p key r 2

/-! ### The home's directory -/

def cellBit (c : Nat) : BitVec 64 := (1 : BitVec 64) <<< c
def cellsOf (m : BitVec 64) : List Nat := (List.range 64).filter (fun c => m.getLsbD c)

/-- The members that a recall or invalidation of cells goes to: the home waits for each that is not dead (R318). -/
def Package.snooped (k : Package) (h : Nat) (cells : List Nat) : List Nat :=
  (cells.flatMap (fun c => k.cellMembers c)).filter (fun q => q != h && !k.dead q)

/-- A transaction on a line begins: recalls go out, each with its operation, and it waits for the answers (R317, R318). -/
def State.openTxn (s : State) (h ll : Nat) (what : TxnFor) (asks : List (Nat × SnpOp)) : State :=
  let a := h * 2 ^ 44 + ll * 128
  let s := s.modPkg h (fun k => { k with txns := tput k.txns ll ⟨what, asks.map (·.1), none⟩ })
  asks.foldl (fun s q => s.send h q.1 (.snp q.2 a)) s
/-- The same recall to every member of some cells. -/
def Package.asks (k : Package) (h : Nat) (cells : List Nat) (op : SnpOp) : List (Nat × SnpOp) :=
  (k.snooped h cells).map (fun q => (q, op))

/-- A line's part in the walk of a dead cell (R328), as one directory step: what the dead cell owned goes to P, the remaining copies being
invalidated. A line whose recalls are outstanding is walked when they are in. -/
def State.walkEntry (s : State) (h ll cell : Nat) : State :=
  let k := s.pkg h
  if (tfind k.txns ll).isSome then s
  else
    let e := k.dirAt ll
    let cells := e.cells &&& ~~~ (cellBit cell)
    let dead := e.st.owned && e.ownc == cell
    let s := s.modPkg h (fun k =>
      { k.setDir ll (if dead then { e with st := .p, cells := 0 }
          else if e.st = .s ∧ cells = 0 then { e with st := .i, cells := 0 } else { e with cells := cells }) with
        walks := k.walks.filter (fun w => w != (ll, cell)) })
    let asks := if dead then k.asks h (cellsOf cells) .inval else []
    let s := if asks.isEmpty then s else s.openTxn h ll .clear asks
    s.wakeLine (lineOf (h * 2 ^ 44 + ll * 128)) 3

/-- The steps of R328 that a line still owes are applied before a request to it. -/
def State.walkLine (s : State) (h ll : Nat) : State :=
  ((s.pkg h).walks.filter (fun w => w.1 == ll)).foldl (fun s w => s.walkEntry h ll w.2) s

/-- The clock of a request stops when the home sends its hold notice, and restarts at zero when the request is performed (R322). -/
def State.setHeld (s : State) (q h re : Nat) (on : Bool) : State :=
  s.modPkg q (fun k => { k with reqs := tmap (fun _ r =>
    if r.dst == h && r.eseq == re && r.held != on then { r with held := on, deadline := s.time + r.tmo } else r) k.reqs })

/-- A response to a request, about a line, from the package that the request went to; it is held until its receipt is acknowledged
(R325). -/
def State.respondAt (s : State) (f : Flit) (op : RspOp) (a : Nat) (grant : Nat) (data : List Byte) : State :=
  let b := Body.rsp op f.eseq a grant data
  let s := s.modPkg f.dst (fun k =>
    let r := mkFlit f.dst f.src (k.e2e? f.src).next false b
    let k := k.send f.dst f.src b
    if op = .hold then k
    else { k with e2e := tput k.e2e f.src { (k.e2e? f.src) with held := (k.e2e? f.src).held ++ [r] } })
  s.setHeld f.src f.dst f.eseq (op == .hold)
def State.respond (s : State) (f : Flit) (op : RspOp) (grant : Nat) (data : List Byte) : State :=
  s.respondAt f op (match f.body with
    | .req _ a .. => a
    | _ => 0) grant data

/-- The line's bytes at its home's memory. -/
def State.homeLine (s : State) (a : Nat) : List Byte := s.mem.bytes (a / 128 * 128) 128

/-- The bytes of a line that a mask carries, written at the home (WRH, WB). -/
def State.writeMask (s : State) (a : Nat) (mask : BitVec 128) (data : List Byte) : State :=
  let base := a / 128 * 128
  { s with mem := (List.range 128).foldl (fun m j =>
      if mask.getLsbD j then m.set (base + j) (data.getD j 0) else m) s.mem }

/-- A reduction at the home (R170, R171). -/
def State.homeRed (s : State) (h a arg : Nat) (key : DWord) (keyed : Bool) (v : DWord) : State :=
  let ty := argTy arg
  let n := ty.w / 8
  let s := if keyed then s.modPkg h (fun k => { k with keys := (key, key.extractLsb' 24 40) :: k.keys }) else s
  match atomNew ty (argOp arg) (s.mem.le a n) (v.toNat % 2 ^ ty.w) 0 with
  | some x => { s with mem := s.mem.put a (leBytes n x) }
  | none => s

/-- The home holds the key of a keyed reduction, which is then not performed again (R171). -/
def Package.hasKey (k : Package) (key : DWord) : Bool := k.keys.any (fun x => x.1 == key)
/-- A keyed reduction whose key the table has no room for (R326). -/
def Package.keyFull (k : Package) (key : DWord) : Bool := !k.hasKey key && decide (k.keyPool.size / 8 ≤ k.keys.length)
/-- It is held under a hold notice until a key retires (R326). -/
def State.holdKey (s : State) (h : Nat) (f : Flit) : State :=
  (s.modPkg h (fun k => { k with keyWait := k.keyWait ++ [f] })).respond f .hold 0 []

/-- A dirty owner's data is written to the home's memory. -/
def State.writeBack (s : State) (a : Nat) (data : Option (List Byte)) : State :=
  match data with
  | some x => { s with mem := s.mem.put (a / 128 * 128) x }
  | none => s

/-- A request is performed at home `h`, its recalls having been answered: `data` is a dirty owner's (R316). A line in P answers POISON
(R329). -/
def State.homeFinish (s : State) (h : Nat) (f : Flit) (data : Option (List Byte)) : State :=
  match f.body with
  | .req op a arg mask key keyed vals d =>
    let k := s.pkg h
    let ll := llineOf a
    let e := k.dirAt ll
    let c := k.cell f.src
    let line := data.getD (s.homeLine a)
    -- the line has gone to P while the request waited (R329)
    if e.st = .p then s.respond f .poison 0 []
    -- a page that has migrated to the requester itself: it reads or writes at its own home then (R311)
    else if f.src = h ∧ (op = .gets ∨ op = .getm) then
      ((s.writeBack a data).modPkg h (fun k => k.setDir ll (if e.st = .l then e
        else if op = .getm then ⟨0, 0, 0, .i, e.dies⟩
        else if e.st.owned then ⟨e.cells, 0, 0, .s, e.dies⟩ else e))).respond f .data 0 line
    else match op with
    | .gets =>
      if e.st.owned then
        match data with
        | some _ => (s.modPkg h (fun k => k.setDir ll { e with st := .o, cells := e.cells ||| cellBit c })).respond f .data 0 line
        | none => (s.modPkg h (fun k => k.setDir ll { e with st := .s, cells := cellBit e.ownc ||| cellBit c })).respond f .data 0 line
      else if e.st = .i ∧ e.cells = 0 ∧ e.dies = 0 ∧ (tget 0 k.turn (localOf a / 2 ^ 21)).getLsbD (64 + c) then
        (s.modPkg h (fun k => k.setDir ll ⟨cellBit c, c, k.indexOf f.src, .e, 0⟩)).respond f .data 1 line
      else
        (s.modPkg h (fun k => k.setDir ll { e with st := if e.st = .l then .l else .s, cells := e.cells ||| cellBit c })).respond f
          .data 0 line
    | .getm =>
      -- the home's own dies are invalidated too, which carries no write (R73)
      ((s.modPkg h (fun k => (k.dropL1Line (lineOf a)).setDir ll ⟨cellBit c, c, k.indexOf f.src, .m, 0⟩)).wakeAt h (lineOf a) 1).respond f
        .data 2 line
    | .wrh =>
      let s := ((s.writeBack a data).modPkg h (fun k => k.setDir ll ⟨0, 0, 0, .i, 0⟩)).writeMask a mask d
      (s.wakeLine (lineOf a) 0).respond f .ack 0 []
    | .red =>
      if keyed && k.hasKey key then ((s.writeBack a data).modPkg h (fun k => k.setDir ll ⟨0, 0, 0, .i, e.dies⟩)).respond f .ack 0 []
      else if keyed && k.keyFull key then ((s.writeBack a data).modPkg h (fun k => k.setDir ll ⟨0, 0, 0, .i, e.dies⟩)).holdKey h f
      else
        let s := ((s.writeBack a data).modPkg h (fun k => k.setDir ll ⟨0, 0, 0, .i, 0⟩)).homeRed h a arg key keyed vals.1
        (s.wakeLine (lineOf a) 0).respond f .ack 0 []
    | _ => s
  | _ => s

/-- A request of a cell that has been declared dead is abandoned when its recalls are answered: they have had their effect, and nothing else
happens (R327). -/
def State.abandonReq (s : State) (h : Nat) (f : Flit) (data : Option (List Byte)) : State :=
  match f.body with
  | .req op a .. =>
    let ll := llineOf a
    let e := (s.pkg h).dirAt ll
    if e.st = .p ∨ e.st = .l then s
    else if op = .gets then
      if !e.st.owned then s
      else s.modPkg h (fun k => k.setDir ll (if data.isSome then { e with st := .o } else ⟨cellBit e.ownc, 0, 0, .s, e.dies⟩))
    else (s.writeBack a data).modPkg h (fun k => k.setDir ll ⟨0, 0, 0, .i, e.dies⟩)
  | _ => s

/-- The recalls for an access of the home package are answered: after a read the owner keeps a read copy at most, and the reading die's
DIES bit is set; after a write no remote copy is left (R316). A line in P keeps its state (R329). -/
def State.homeOwn (s : State) (h ll : Nat) (write : Bool) (die : Nat) (data : Option (List Byte)) : State :=
  let e := (s.pkg h).dirAt ll
  if e.st = .p then s
  else
    (s.writeBack (h * 2 ^ 44 + ll * 128) data).modPkg h (fun k => k.setDir ll (
      if write then ⟨0, 0, 0, .i, e.dies⟩
      else if e.st.owned then { e with st := .s, ownc := 0, ownp := 0, dies := e.dies ||| ((1 : BitVec 6) <<< die) }
      else e))

/-- A Turnstile change has taken effect on a line (R321): the cells in `lost` hold no copy; an owner that may write no longer has written
back, and holds a read copy at most. -/
def State.revoked (s : State) (h ll : Nat) (lost : BitVec 64) (down : Bool) (data : Option (List Byte)) : State :=
  let e := (s.pkg h).dirAt ll
  let cells := e.cells &&& ~~~ lost
  if e.st = .p then s
  else if e.st = .l then s.modPkg h (fun k => k.setDir ll { e with cells := cells })
  else
    let e : DirEnt := if e.st.owned && down then { e with st := .s, ownc := 0, ownp := 0, cells := cells } else { e with cells := cells }
    (s.writeBack (h * 2 ^ 44 + ll * 128) data).modPkg h (fun k => k.setDir ll (
      if e.st = .s ∧ e.cells = 0 then { e with st := .i } else e))

/-- The cells whose copies a request's service must recall, and how (R316). -/
def recallFor (e : DirEnt) (op : ReqOp) : Option (SnpOp × List Nat) :=
  match op with
  | .gets => if e.st.owned then some (.recall, [e.ownc]) else none
  | .getm => if e.cells = 0 ∧ !e.st.owned then none else some (.inval, cellsOf e.cells)
  | .wrh | .red => if e.cells = 0 ∧ !e.st.owned then none else some (.invalW, cellsOf e.cells)
  | _ => none

/-- An access of the home package begins the recalls that stand in its way: all copies before a write, the owner's before a read
(R316). -/
def State.openHome (s : State) (h ll die : Nat) (write : Bool) : State :=
  let k := s.pkg h
  let e := k.dirAt ll
  let asks := if write then k.asks h (cellsOf e.cells) .inval else k.asks h [e.ownc] .clean
  if asks.isEmpty then s.homeOwn h ll write die none else s.openTxn h ll (.home write die) asks

/-- A line is made ready for an access of the machine, which is made again later: what a Safety Net walk owes it is done, and the recalls
go out once (R316, R317, R328). -/
def State.openWant (s : State) (w : Want) : State :=
  let h := homeOf w.addr
  let ll := llineOf w.addr
  let s := s.walkLine h ll
  let e := (s.pkg h).dirAt ll
  if (tfind (s.pkg h).txns ll).isSome || (s.pkg h).avail ll w.write || e.st == .l then s else s.openHome h ll w.die w.write

/-- The end of a step from a state: where its accesses found a line that is not ready, it has had no effect but to make the line ready, and
is made again (R74, R317, R328). -/
def State.settle (s0 : State) (o : Host.Outcome State Fault Refusal) : Host.Outcome State Fault Refusal :=
  match o with
  | .next s => .next (if s.wants.isEmpty then s else s.wants.foldl (fun s w => s.openWant w) { s0 with wants := [] })
  | o => o

/-! ### The directory's places (R315) -/

/-- Entries of the directory. -/
def dirPlaces : Nat := 96 * 2 ^ 20

/-- A request needs an entry for a line that has none, and every place is in use. -/
def Package.dirFull (k : Package) (ll : Nat) : Bool := (tfind k.dir ll).isNone && decide (dirPlaces ≤ k.dir.length)

/-- An entry whose line may be recalled: which one is evicted is a free choice. -/
def State.dirVictim (s : State) (h : Nat) : Option Nat × State :=
  let k := s.pkg h
  let es := k.dir.filter (fun e => e.2.st != .p && e.2.st != .l && (tfind k.txns e.1).isNone)
  match es with
  | [] => (none, s)
  | e :: _ =>
    let (n, s) := s.choose es.length
    (some (es.getD n e).1, s)

/-- A write of any kind. -/
def ReqOp.writes : ReqOp → Bool
  | .getm | .wrh | .red => true
  | _ => false

/-- A request waits behind a line's recalls. -/
def Package.queueLine (k : Package) (ll : Nat) (f : Flit) : Package :=
  { k with lineq := tput k.lineq ll (tget [] k.lineq ll ++ [f]) }

/-- A WB or EVE, which are always accepted (R316, R320). -/
def State.homeBack (s : State) (h : Nat) (op : ReqOp) (a : Nat) (d : List Byte) : State :=
  let ll := llineOf a
  let e := (s.pkg h).dirAt ll
  match op with
  | .wb =>
    if e.st = .m ∨ e.st = .e then (s.writeBack a (some d)).modPkg h (fun k => k.setDir ll ⟨0, 0, 0, .i, e.dies⟩)
    else if e.st = .o then
      let cells := e.cells &&& ~~~ (cellBit e.ownc)
      (s.writeBack a (some d)).modPkg h (fun k => k.setDir ll
        (if cells = 0 then ⟨0, 0, 0, .i, e.dies⟩ else ⟨cells, 0, 0, .s, e.dies⟩))
    else s
  | .eve => if e.st = .e then s.modPkg h (fun k => k.setDir ll ⟨0, 0, 0, .i, e.dies⟩) else s
  | _ => s

/-- A request at home `h` for a line whose directory entry needs a place: it waits under a hold notice while a victim's line is recalled
(R315). -/
def State.homeNoPlace (s : State) (h : Nat) (f : Flit) : State :=
  let wait (s : State) : State := (s.modPkg h (fun k => { k with dirWait := k.dirWait ++ [f] })).respond f .hold 0 []
  match s.dirVictim h with
  | (none, s) => wait s
  | (some v, s) =>
    let s := (wait s).walkLine h v
    if (tfind (s.pkg h).txns v).isSome || ((s.pkg h).dirAt v).st == .p then s else s.openHome h v 0 true

/-- A request has its turn at its line at home `h` (R316, R317): to an address whose page has migrated it goes on to the new copy
(R311). -/
def State.homeServe : Nat → State → Nat → Flit → State
  | 0, s, _, _ => s
  | fuel + 1, s, h, f =>
    match f.body with
    | .req op a arg mask key keyed vals d =>
      let ll := llineOf a
      let b := s.forward a
      if b ≠ a then
        let f : Flit := { f with body := .req op b arg mask key keyed vals d }
        if (tfind (s.pkg (homeOf b)).txns (llineOf b)).isSome then s.modPkg (homeOf b) (fun k => k.queueLine (llineOf b) f)
        else State.homeServe fuel s (homeOf b) f
      else
        let s := s.walkLine h ll
        let k := s.pkg h
        let e := k.dirAt ll
        if (tfind k.txns ll).isSome then s.modPkg h (fun k => k.queueLine ll f)
        else if e.st = .p then s.respond f .poison 0 []
        else if e.st = .l ∧ op.writes then
          (s.modPkg h (fun k => { k with migr := k.migr.map (fun m =>
            if m.old / 65536 == a / 65536 then { m with held := m.held ++ [f] } else m) })).respond f .hold 0 []
        else if (op = .gets ∨ op = .getm) ∧ k.dirFull ll then s.homeNoPlace h f
        else if op = .red ∧ keyed ∧ k.hasKey key then s.respond f .ack 0 []
        else if op = .red ∧ keyed ∧ k.keyFull key then s.holdKey h f
        else
          match recallFor e op with
          | some (sop, cells) =>
            let asks := k.asks h cells sop
            if asks.isEmpty then s.homeFinish h f none else s.openTxn h ll (.req f) asks
          | none => s.homeFinish h f none
    | _ => s

/-- Requests that wait behind a transaction are served in their order of arrival, until one of them waits itself (R317). -/
def State.serveQueue : Nat → State → Nat → Nat → State
  | 0, s, _, _ => s
  | fuel + 1, s, h, ll =>
    if (tfind (s.pkg h).txns ll).isSome then s
    else
      match tget [] (s.pkg h).lineq ll with
      | [] => s
      | f :: fs =>
        -- a line that owes a step of a walk is cleared first, and the request keeps its place
        let s := s.walkLine h ll
        if (tfind (s.pkg h).txns ll).isSome then s
        else
          let rest (k : Package) : Package :=
            { k with lineq := if fs.isEmpty then tdel k.lineq ll else tput k.lineq ll fs }
          State.serveQueue fuel (State.homeServe 2 (s.modPkg h rest) h f) h ll

/-- A request takes its turn at its line, or waits behind an open transaction (R317). -/
def State.homeTurn (s : State) (h : Nat) (f : Flit) : State :=
  match f.body with
  | .req _ a .. =>
    if (tfind (s.pkg h).txns (llineOf a)).isSome then s.modPkg h (fun k => k.queueLine (llineOf a) f) else State.homeServe 2 s h f
  | _ => s

/-- A request arrives at its home (R317): the Turnstile judges it as it stands at this point (R320), but a WB or EVE is always
accepted. -/
def State.homeArrive (s : State) (h : Nat) (f : Flit) : State :=
  match f.body with
  | .req op a _ _ _ _ _ d =>
    if op = .wb ∨ op = .eve then s.homeBack h op a d
    else if !(s.pkg h).admits a ((s.pkg h).cell f.src) op then s.respond f .refused 0 []
    else s.homeTurn h f
  | _ => s

/-- A transaction ends when every answer is in: what it was for is done, and the queue moves on; then a request that waits for a directory
entry has its turn again. -/
def State.closeTxn (s : State) (h ll : Nat) : State :=
  match tfind (s.pkg h).txns ll with
  | none => s
  | some x =>
    if !x.waiting.isEmpty then s
    else
      let s := s.modPkg h (fun k => { k with txns := tdel k.txns ll })
      let s := match x.what with
        | .req f =>
          let s := s.walkLine h ll
          if (s.pkg h).dead f.src then s.abandonReq h f x.data
          -- copies of a line that has gone to P go first, and the request is the next
          else if (tfind (s.pkg h).txns ll).isSome then s.modPkg h (fun k => { k with lineq := tput k.lineq ll (f :: tget [] k.lineq ll) })
          else s.homeFinish h f x.data
        | .home w die => (s.walkLine h ll).homeOwn h ll w die x.data
        | .revoke lost down => (s.walkLine h ll).revoked h ll lost down x.data
        | .clear => s.modPkg h (fun k => k.setDir ll { k.dirAt ll with cells := 0 })
      let s := s.serveQueue ((tget [] (s.pkg h).lineq ll).length + 1) h ll
      match (s.pkg h).dirWait with
      | [] => s
      | f :: fs => (s.modPkg h (fun k => { k with dirWait := fs })).homeTurn h f

/-- A member answers a recall (R318). -/
def State.answerTxn (s : State) (h q a : Nat) (dirty : Bool) (data : List Byte) : State :=
  let ll := llineOf a
  (s.modPkg h (fun k => match tfind k.txns ll with
    | none => k
    | some x => { k with txns := tput k.txns ll { x with
        waiting := x.waiting.filter (fun m => m != q), data := if dirty then some data else x.data } })).closeTxn h ll

/-- A thread's access of the home package to a line of its own has to wait: its recalls go out once (R316, R317). None: it may go on. -/
def State.homeWait (s : State) (h die a : Nat) (write : Bool) : Option State :=
  if (s.pkg h).avail (llineOf a) write then none else some (s.openWant ⟨a, write, die⟩)

/-! ### Flits end to end (R325, R344) -/

/-- A flit that an ordered pair has delivered before; numbers count modulo 2^32 (R344). -/
def E2E.seen (e : E2E) (n : Nat) : Bool := decide (2 ^ 31 ≤ (n + 2 ^ 32 - e.low) % 2 ^ 32) || e.done.contains n
/-- The least number from `low` up that has not arrived. -/
def lowFrom (done : List Nat) : Nat → Nat → Nat
  | 0, n => n
  | fuel + 1, n => if done.contains n then lowFrom done fuel ((n + 1) % 2 ^ 32) else n
/-- A number has arrived. -/
def E2E.mark (e : E2E) (n : Nat) : E2E :=
  let done := n :: e.done
  let low := lowFrom done (done.length + 1) e.low
  { e with low := low, done := done.filter (fun x => decide ((x + 2 ^ 32 - low) % 2 ^ 32 < 2 ^ 31)) }

/-- A flit about a line that was sent before this one of the pair has not arrived yet, or waits itself (R344). `sent` is the sender's list. -/
def behind (sent : List (Nat × Option Nat)) (f : Flit) : Bool :=
  match f.body.line? with
  | none => false
  | some ln => (sent.takeWhile (fun x => x.1 != f.eseq)).any (fun x => x.2 == some ln)

/-- A flit of a pair has been performed, or is dropped for good. -/
def State.arrived (s : State) (src dst n : Nat) : State :=
  s.modPkg src (fun k => { k with e2e := tput k.e2e dst { (k.e2e? dst) with sent := (k.e2e? dst).sent.filter (fun x => x.1 != n) } })

/-- A recall reaches a member (R316, R318): it gives or drops its copy, and answers. -/
def State.snooped (s : State) (q h : Nat) (op : SnpOp) (a : Nat) : State :=
  let line := lineOf a
  match tfind (s.pkg q).copies line with
  | none =>
    let s := match op with
      | .inval => s.wakeAt q line 1
      | .invalW => s.wakeAt q line 0
      | _ => s
    s.send q h (.snpr a false false [])
  | some c =>
    let b := Body.snpr a true c.dirty (if c.dirty then c.data else [])
    match op with
    | .recall =>
      (s.modPkg q (fun k => { k with copies := tput k.copies line { c with excl := false } })).send q h b
    | .clean =>
      (s.modPkg q (fun k => { k with copies := tput k.copies line { c with excl := false, dirty := false } })).send q h b
    | .inval =>
      ((s.modPkg q (fun k => { k.dropL1Line line with copies := tdel k.copies line })).wakeAt q line 1).send q h b
    | .invalW =>
      ((s.modPkg q (fun k => { k.dropL1Line line with copies := tdel k.copies line })).wakeAt q line 0).send q h b

/-- A line that an expired grant has brought is given back: a WB of an M grant, an EVE of an E grant (R316, R323). -/
def State.giveBack (s : State) (p h a grant : Nat) (data : List Byte) : State :=
  if grant = 2 then s.send p h (.req .wb a 0 (BitVec.allOnes 128) 0 false (0, 0) data)
  else if grant = 1 then s.send p h (.req .eve a 0 0 0 false (0, 0) [])
  else s

/-- Flits that waited are performed, the oldest first, once every earlier one about their line has been (R344). -/
def State.performEarly (now : Flit → State → State) : Nat → State → Nat → Nat → State
  | 0, s, _, _ => s
  | fuel + 1, s, p, q =>
    match ((s.pkg p).e2e? q).early.find? (fun f => !behind ((s.pkg q).e2e? p).sent f) with
    | none => s
    | some f =>
      let s := s.modPkg p (fun k => { k with e2e := tput k.e2e q { (k.e2e? q) with
        early := (k.e2e? q).early.filter (fun x => x.eseq != f.eseq) } })
      State.performEarly now fuel ((now f s).arrived q p f.eseq) p q

/-- A flit of an end-to-end type has arrived at its destination: a second copy of a request has its held response sent again, any
other second copy is dropped (R325); a flit about a line waits for the earlier ones of its pair about that line (R344); `now` performs
it. -/
def State.deliver (s : State) (p : Nat) (f : Flit) (now : Flit → State → State) : State :=
  let k := s.pkg p
  let e := k.e2e? f.src
  if k.dead f.src then s.arrived f.src p f.eseq
  else if e.seen f.eseq then
    if f.type == 1 then
      match e.held.find? (fun r => match r.body with
        | .rsp _ re .. => re == f.eseq
        | _ => false) with
      | some r => s.modPkg p (fun k => { k with sendq := tput k.sendq (sqKey r.dst r.ch) (tget [] k.sendq (sqKey r.dst r.ch) ++ [r]) })
      | none => s
    else s
  else
    -- a response that has arrived at the source is acknowledged by what comes from there afterwards
    let there := (s.pkg f.src).e2e? p
    let e : E2E := { e.mark f.eseq with held := e.held.filter (fun r => !there.seen r.eseq) }
    if behind there.sent f then s.modPkg p (fun k => { k with e2e := tput k.e2e f.src { e with early := e.early ++ [f] } })
    else
      let s := s.modPkg p (fun k => { k with e2e := tput k.e2e f.src e })
      let s := (now f s).arrived f.src p f.eseq
      if f.body.line?.isSome then s.performEarly now (e.early.length + 1) p f.src else s

end Sys2Proof.Machine
end

