-- ==== Sys2Proof/Machine/Check.lean ====
section
/-! DEFINITION. Errors that strike the hardware, and what they are detected as (R354, R356): single-bit errors of registers are corrected, and
double-bit errors and residues that disagree raise CHECK; an error of memory that cannot be corrected poisons its line. When one strikes is
a move of the agenda (log entry 33). -/

namespace Sys2Proof

/-- The first register operand of an instruction is written, and not read. -/
def Instr.writesFirst : Instr → Bool
  | .mov .. | .movi .. | .movhi .. | .sel .. | .iadd .. | .isub .. | .imul .. | .imulh .. | .imin .. | .imax .. | .ishl .. | .ishr ..
  | .isar .. | .irot .. | .and .. | .or .. | .xor .. | .andn .. | .bfx .. | .imad .. | .imadw .. | .idiv .. | .irem .. | .iabs ..
  | .ineg .. | .not .. | .brev .. | .bfi .. | .popc .. | .clz .. | .ctz .. | .prmb .. | .lea .. | .p2g .. | .sread .. | .fadd .. | .fsub ..
  | .fmul .. | .fmin .. | .fmax .. | .ffma .. | .fclass .. | .frnd .. | .fcvt .. | .icvt .. | .fscale .. | .shfl .. | .vote .. | .gred ..
  | .gscan .. | .rand .. | .frcp .. | .frsq .. | .fsqrt .. | .fexp2 .. | .flog2 .. | .fsinpi .. | .fcospi .. | .ftanh .. | .fdiv ..
  | .ldOff .. | .ldIdx .. | .ldeOff .. | .ldeIdx .. | .atom .. | .waitm .. | .rbeg .. | .tkreq .. | .tkinfo .. | .honew .. | .tspawn ..
  | .accrd .. | .coll .. | .collq .. | .ctlrdReg .. | .ctlrdImm .. => true
  | _ => false

/-- An instruction reads a register. -/
def Instr.readsReg (i : Instr) : Bool := !(if i.writesFirst then i.opnds.tail else i.opnds).isEmpty

/-- A class 0 instruction that has a result. -/
def Instr.intResult : Instr → Bool
  | .nop _ | .bra .. | .brx .. | .ret .. | .exit _ | .yield _ | .chkd .. => false
  | _ => true

/-- An instruction whose address R162 forms. -/
def Instr.forms : Instr → Bool
  | .ldOff .. | .ldIdx .. | .stOff .. | .stIdx .. | .ldeOff .. | .ldeIdx .. | .steOff .. | .steIdx .. | .atom .. | .red .. | .waitm ..
  | .prefOff .. | .prefIdx .. | .cmntOff .. | .cmntIdx .. => true
  | _ => false

end Sys2Proof

namespace Sys2Proof.Machine

/-- An error can strike an instruction of a class: a register that it reads, or a residue of its result or of its address. -/
def Upset.strikes (e : Upset) (i : Instr) (cls : Nat) : Bool :=
  match e with
  | .single | .double => i.readsReg
  | .residue => (cls == 0 && i.intResult) || i.forms

/-- An instruction at which an error strikes a lane whose guard is true (R354): a single-bit error is corrected and counted, and the
instruction executes; any other raises CHECK at that lane, and nothing else of the instruction happens. -/
def Iss.struck (u : Iss) (i : Instr) (cls lane : Nat) (e : Upset) (s : State) (go : State → Host.Outcome State Fault Refusal) :
    Host.Outcome State Fault Refusal :=
  match u.team s, i.ctl with
  | some t, some c =>
    if !u.lanes.contains lane || !(u.thread s lane).guard c || !e.strikes i cls then go s
    else if e = .single then go (s.modCore u.pkg (t.coreOf u.group) (fun x => { x with corr := sat 64 x.corr }))
    else .next (s.trap u.pkg u.ctx u.group lane (u.bare 0x14 none))
  | _, _ => go s

/-- An error that cannot be corrected strikes a line of a package's memory: its next use finds it poisoned (R329, R356). A line that another
package holds, or whose recalls are outstanding, is not read from memory. -/
def State.memError (s : State) (p line : Nat) : State :=
  let a := line * 128
  if homeOf a ≠ p ∨ Config.installed ≤ localOf a ∨ s.poisoned a ∨ s.locked a ∨ !(s.pkg p).avail (llineOf a) true then s
  else (s.modPkg p (fun k => k.dropL1Line line)).setDir a ⟨0, 0, 0, .p, 0⟩

end Sys2Proof.Machine
end

