-- ==== Sys2Proof/Machine/Attest.lean ====
section
/-! DEFINITION. Attestation: the requests of DMTF SPDM 1.3 that the security processor answers (R358). The layouts and codes of its messages
are those of SPDM, which the spec names and does not repeat (log entry 40). -/

namespace Sys2Proof.Machine

/-- A request's bytes: version 1.3, its code, and the rest. -/
def SpdmReq.bytes (code : Byte) (r : SpdmReq) : List Byte := 0x13 :: code :: r.param1 :: r.param2 :: r.body
/-- A response: version, code, Param1, Param2 and the rest. -/
def spdmMsg (code p1 p2 : Nat) (rest : List Byte) : List Byte :=
  0x13 :: BitVec.ofNat 8 code :: BitVec.ofNat 8 p1 :: BitVec.ofNat 8 p2 :: rest
/-- ERROR: InvalidRequest 0x01, UnexpectedRequest 0x04, UnsupportedRequest 0x07. -/
def spdmError (e data : Nat) : List Byte := spdmMsg 0x7F e data []

/-- A response sent; one that is no ERROR joins the messages that a signature covers, with its request. -/
def Spdm.answer (x : Spdm) (code : Byte) (r : SpdmReq) (resp : List Byte) : Spdm :=
  { x with response := resp, transcript := if resp.getD 1 0 = 0x7F then x.transcript else x.transcript ++ SpdmReq.bytes code r ++ resp }

/-- A request met by the security processor, once it is ready (R357). -/
def State.attest (s : State) (p : Nat) (f : Spdm → State → Spdm × State) : State :=
  if !(s.pkg p).sdReady.getLsbD 27 then s
  else
    let (x, s) := f (s.pkg p).spdm s
    s.modPkg p (fun k => { k with spdm := x })

/-- A request answered from the state of the responder, without a free value. -/
def State.attest1 (s : State) (p : Nat) (code : Byte) (r : SpdmReq) (f : Spdm → Spdm × List Byte) : State :=
  s.attest p (fun x s =>
    let (y, resp) := f x
    (y.answer code r resp, s))

/-- GET_VERSION starts afresh; the one version is 1.3. -/
def execGetVersion (p : Nat) (r : SpdmReq) (s : State) : Host.Outcome State Fault Refusal :=
  .next (s.attest1 p 0x84 r (fun x => ({ response := x.response, version := true }, 0x10 :: 0x04 :: 0 :: 0 :: [0, 1, 0x00, 0x13])))

/-- GET_CAPABILITIES: CERT_CAP, CHAL_CAP and MEAS_CAP with signatures. The times and sizes that it states are free. -/
def execGetCapabilities (p : Nat) (r : SpdmReq) (s : State) : Host.Outcome State Fault Refusal :=
  .next (s.attest p (fun x s =>
    if !x.version then (x.answer 0xE1 r (spdmError 0x04 0), s)
    else
      let (ct, s) := s.choose 256
      let (dts, s) := s.choose (2 ^ 32)
      let (mx, s) := s.choose (2 ^ 32)
      (({ x with caps := true }).answer 0xE1 r
        (spdmMsg 0x61 0 0 ([0] ++ leBytes 1 ct ++ leBytes 2 0 ++ leBytes 4 0x16 ++ leBytes 4 dts ++ leBytes 4 mx)), s)))

/-- The request offers SM2 on P-256 and SM3-256. -/
def offersSm (b : List Byte) : Bool := (leNat ((b.drop 4).take 4)).testBit 9 && (leNat ((b.drop 8).take 4)).testBit 6

/-- NEGOTIATE_ALGORITHMS: SM2 and SM3 are selected; a request that does not offer them gets UnsupportedRequest. -/
def execNegotiateAlgorithms (p : Nat) (r : SpdmReq) (s : State) : Host.Outcome State Fault Refusal :=
  .next (s.attest1 p 0xE3 r (fun x =>
    if !x.caps then (x, spdmError 0x04 0)
    else if !offersSm r.body then (x, spdmError 0x07 0xE3)
    else ({ x with algs := true },
      spdmMsg 0x63 0 0 (leBytes 2 36 ++ [1, 0] ++ leBytes 4 0x80 ++ leBytes 4 0x200 ++ leBytes 4 0x40 ++ leBytes 12 0 ++ leBytes 4 0))))

/-- A request that needs the algorithms. -/
def Spdm.needs (x : Spdm) (f : Spdm → List Byte) : List Byte := if x.algs then f x else spdmError 0x04 0
/-- A request that names a certificate slot: only slot 0 is there. -/
def slot0 (slot : Nat) (resp : List Byte) : List Byte := if slot % 16 = 0 then resp else spdmError 0x01 0

/-- GET_DIGESTS: the digest of the chain of slot 0. -/
def execGetDigests (p : Nat) (r : SpdmReq) (s : State) : Host.Outcome State Fault Refusal :=
  .next (s.attest1 p 0x81 r (fun x => (x, x.needs (fun _ => spdmMsg 0x01 0 1 (Config.digest p 0)))))

/-- A part of the certificate chain: its length, what remains after it, and its bytes. -/
def certPart (chain : List Byte) (off len : Nat) : List Byte :=
  let part := (chain.drop off).take len
  leBytes 2 part.length ++ leBytes 2 (chain.length - off - part.length) ++ part

/-- GET_CERTIFICATE: offset in bytes 0–1 of the body, length in bytes 2–3. -/
def execGetCertificate (p : Nat) (r : SpdmReq) (s : State) : Host.Outcome State Fault Refusal :=
  .next (s.attest1 p 0x82 r (fun x => (x, x.needs (fun _ => slot0 r.param1.toNat (
    let off := leNat (r.body.take 2)
    let chain := Config.certificate p
    if chain.length ≤ off then spdmError 0x01 0
    else spdmMsg 0x02 0 0 (certPart chain off (leNat ((r.body.drop 2).take 2))))))))

/-- A nonce of 32 bytes, by the counter of free values. -/
def State.nonce (s : State) : List Byte × State := (Config.nonce s.free, { s with free := s.free + 1 })

/-- A message with the signature over the messages so far, this request and the message itself. -/
def Spdm.signed (x : Spdm) (p : Nat) (code : Byte) (r : SpdmReq) (m : List Byte) : List Byte :=
  m ++ Config.signature p (x.transcript ++ SpdmReq.bytes code r ++ m)

/-- CHALLENGE: the nonce in bytes 0–31 of the body, the requester's context in bytes 32–39. -/
def execChallenge (p : Nat) (r : SpdmReq) (s : State) : Host.Outcome State Fault Refusal :=
  .next (s.attest p (fun x s =>
    let (n, s) := s.nonce
    (x.answer 0x83 r (x.needs (fun x => slot0 r.param1.toNat
      (x.signed p 0x83 r (spdmMsg 0x03 0 1 (Config.digest p 0 ++ n ++ leBytes 2 0 ++ (r.body.drop 32).take 8))))), s)))

/-- A measurement block: its index, and the digest of a firmware image. -/
def measurement (p i : Nat) : List Byte := leBytes 1 i ++ [1] ++ leBytes 2 35 ++ [1] ++ leBytes 2 32 ++ Config.digest p i

/-- The blocks that Param2 asks for: none with 0, all with 0xFF, one with its index. -/
def measurements (p op : Nat) : Option (List Nat × List Byte) :=
  let some' (is : List Nat) : Option (List Nat × List Byte) := some (is, is.flatMap (measurement p))
  if op = 0 then some ([], [])
  else if op = 0xFF then some' [1, 2, 3, 4, 5, 6, 7, 8]
  else if op ≤ 8 then some' [op]
  else none

/-- GET_MEASUREMENTS: the blocks, a nonce, and a signature when Param1 asks for one. -/
def execGetMeasurements (p : Nat) (r : SpdmReq) (s : State) : Host.Outcome State Fault Refusal :=
  .next (s.attest p (fun x s =>
    let (n, s) := s.nonce
    let sign := r.param1.getLsbD 0
    let slot := if sign then (r.body.getD 32 0).toNat else 0
    let resp := x.needs (fun x => slot0 slot (match measurements p r.param2.toNat with
      | none => spdmError 0x01 0
      | some (is, bs) =>
        let m := spdmMsg 0x60 (if r.param2 = 0 then 8 else 0) 0 (leBytes 1 is.length ++ leBytes 3 bs.length ++ bs ++ n ++ leBytes 2 0 ++
          (if sign then (r.body.drop 33).take 8 else r.body.take 8))
        if sign then x.signed p 0xE0 r m else m))
    (x.answer 0xE0 r resp, s)))

/-- The codes of the requests that are supported. -/
def spdmCodes : List Byte := [0x84, 0xE1, 0xE3, 0x81, 0x82, 0x83, 0xE0]

/-- Any other request gets UnsupportedRequest. -/
def execSpdmUnsupported (p : Nat) (code : Byte) (r : SpdmReq) (s : State) : Host.Outcome State Fault Refusal :=
  .next (if spdmCodes.contains code then s else s.attest1 p code r (fun x => (x, spdmError 0x07 code.toNat)))

end Sys2Proof.Machine
end

