-- ==== Sys2Proof/Machine/Frontier.lean ====
section
/-! DEFINITION. The frontier's picks (R20 to R24, R27, R80, R136), the park event (R90) and the return of a deferred result. -/

namespace Sys2Proof.Machine

/-- The L1 of a core drops every line: an acquire at .team or wider (R64). -/
def State.dropL1 (s : State) (p core : Nat) : State := s.modCore p core (fun x => { x with l1 := [] })

/-- The program counters of a group's entries. -/
def Team.entPcs (t : Team) (g : Nat) : List Pc :=
  ((t.lanes.filter (fun l => (t.thread g l).live)).map (fun l => (t.thread g l).pc)).eraseDups

/-- A code word as the tables and memory give it now, if they do. -/
def State.peekCode (s : State) (p part va : Nat) : Option DWord :=
  match (s.walk p part va).1 with
  | .ok t => if s.poisoned (s.forward (t.at va)) then none else some (BitVec.ofNat 64 (s.peekLe (s.forward (t.at va)) 8))
  | _ => none

/-- The entry stands inside its clause (MID, R302). -/
def Ent.mid (e : Ent) (pc : Pc) : Option Clause :=
  match e.clause with
  | some k => if k.hdr = pc then none else some k
  | none => none

/-- The clause of a header word at an address. -/
def clauseOf (pc : Pc) (h : Header) : Clause :=
  ⟨pc, pc + BitVec.ofNat 57 (8 * (h.cnt.toNat + 1)), h.prio.toNat, h.ecls.toNat⟩

/-- What ranks an entry: its clause, and whether WRS makes it wait (R20, R80). A word that is no readable header ranks with
priority 0 and no class, so that its pick raises the trap (log entry 14). -/
def State.rankOf (s : State) (p : Nat) (t : Team) (g : Nat) (pc : Pc) : Nat × Option Nat × Bool :=
  match ((t.group g).ent pc).mid pc with
  | some k => (k.prio, some k.ecls, false)
  | none =>
    match s.peekCode p t.part pc.toNat with
    | some w => if isHeader w then
        ((Header.ofWord w).prio.toNat, some (Header.ofWord w).ecls.toNat, (Header.ofWord w).wrs) else (0, none, false)
    | none => (0, none, false)

/-- An entry as a pick sees it. -/
structure Cand where
  pc : Pc
  prio : Nat
  ecls : Option Nat
  stamp : Nat
  yield : Bool
  deriving DecidableEq, Repr

/-- An entry in an ECLS 5 clause may be picked (R27): no other entry holds a lane parked on a page, and every other entry with a
runnable lane lies in an ECLS 5 clause too. Only visible lanes count in mirror mode (R34). -/
def State.engOk (s : State) (p : Nat) (t : Team) (g : Nat) (pc : Pc) : Bool :=
  t.visLanes.all (fun l =>
    let x := t.thread g l
    x.pc == pc || (match x.st with
      | .page .. | .cont .. => false
      | .runnable => (s.rankOf p t g x.pc).2.1 == some 5
      | _ => true))

/-- The eligible entries of a group (R21). -/
def State.eligible (s : State) (p : Nat) (t : Team) (g : Nat) : List Cand :=
  (t.entPcs g).filterMap (fun pc =>
    let r := s.rankOf p t g pc
    let e := (t.group g).ent pc
    if (t.runLanes g pc).isEmpty || (r.2.2 && (t.group g).rwCount != 0) ||
        (r.2.1 == some 5 && !s.engOk p t g pc) then none
    else some ⟨pc, r.1, r.2.1, e.stamp, e.yield⟩)

/-- The rank order: unmarked before marked, higher priority, then lower program counter (R21, R136). -/
def Cand.before (x y : Cand) : Bool :=
  if x.yield != y.yield then !x.yield
  else if x.prio != y.prio then decide (y.prio < x.prio) else decide (x.pc.toNat < y.pc.toNat)
/-- The waiting order (R24). -/
def Cand.older (x y : Cand) : Bool :=
  if x.stamp != y.stamp then decide (x.stamp < y.stamp) else decide (x.pc.toNat < y.pc.toNat)
/-- The first candidate under an order. -/
def firstBy (f : Cand → Cand → Bool) : List Cand → Option Cand
  | [] => none
  | x :: xs => match firstBy f xs with
    | none => some x
    | some y => if f y x then some y else some x

/-- The other port runs a clause of an ECLS (R23). -/
def Group.clashes (g : Group) (b : Bool) (ecls : Nat) : Bool :=
  match g.port (!b) with
  | some o => o.clause.ecls == ecls
  | none => false

/-- A trap at every lane of a list, each with its own program counter as tx.pc. -/
def State.trapLanes (s : State) (p c g : Nat) (lanes : List Nat) (tr : Trap) : State :=
  lanes.foldl (fun s l => match s.team? p c with
    | some t => if t.stop.isSome then s else s.trap p c g l tr
    | none => s) s

/-- A picked entry whose clause has the ECLS of the other port's: port A keeps it, to begin when that clause ends; port B stays idle
(R23). -/
def State.holdPick (s : State) (p c g : Nat) (b : Bool) (pc : Pc) : State :=
  if b then s else s.modGroup p c g (fun x => { x with pickA := some pc })

/-- A picked entry starts: inside its clause it goes on; at a header the word is fetched and decoded, and its waits apply (R22,
R80, R96). What the fetched header says decides, where an earlier look at the word gave another. -/
def State.startEntry (s : State) (p c g : Nat) (b : Bool) (pc : Pc) : State :=
  match s.team? p c with
  | none => s
  | some t =>
    let lanes := t.runLanes g pc
    match ((t.group g).ent pc).mid pc with
    | some k => if (t.group g).clashes b k.ecls then s.holdPick p c g b pc
      else s.modGroup p c g (fun x => x.setPort b (some ⟨pc, k⟩))
    | none =>
      let u : Iss := ⟨p, c, g, pc, ⟨pc, pc, 0, 0⟩, lanes⟩
      match s.fetch p c (dieOf (t.coreOf g)) pc.toNat with
      | (.ok _, w, s) =>
        match decodeHeader t.tmpl.bbc w with
        | .error e => s.trapLanes p c g lanes (u.trap 0x02 e.reason (some u.pc64))
        | .ok h =>
          let k := clauseOf pc h
          let n := h.wbb.toNat
          let go (s : State) : State :=
            let s := lanes.foldl (fun s l => s.moveLane p c g l (pc + 8) (some k)) s
            s.modTeam p c (fun t => (t.modGroup g (fun x => x.setPort b (some ⟨pc + 8, k⟩))).sweepEnts g)
          if (t.group g).clashes b k.ecls then s.holdPick p c g b pc
          else if (h.wrs && (t.group g).rwCount != 0) || (k.ecls == 5 && !s.engOk p t g pc) then s
          else if h.wbe then
            if (t.bbar n).phase != (t.group g).gwp.getLsbD n then
              go ((s.modGroup p c g (fun x => { x with gwp := x.gwp ^^^ (1 <<< n) })).dropL1 p (t.coreOf g))
            else
              let s := lanes.foldl (fun s l => s.modThread p c g l (fun x => { x with st := .bbar n true })) s
              s.modGroup p c g (fun x => { x with ents := tput x.ents pc.toNat { x.ent pc with clause := some k } })
          else go s
      | (x, _, s) =>
        let s := lanes.foldl (fun s l =>
          match u.badXl l u.pc64 Access.fetch.kind x s with
          | (s, .trap tr) => s.trapLanes p c g [l] tr
          | (s, _) => s) s
        s.flushFaults p (dieOf (t.coreOf g))

/-- A pick counts toward the progress count, or resets it when it takes the oldest-waiting entry (R24), and ends every YIELD mark
(R136). -/
def Group.countPick (x : Group) (oldest : Option Cand) (k : Cand) : Group :=
  { x with prog := if oldest.map (·.pc) = some k.pc then 0 else min 64 (x.prog + 1),
           ents := tmap (fun _ e => { e with yield := false }) x.ents }

/-- Port B takes the top-ranked entry other than port A's, unless its clause has the ECLS of port A's; then it is idle until its next
pick (R23). `cs` are the eligible entries at the pick, `a` those of them that port A has. -/
def State.pickB (s : State) (p c g : Nat) (cs : List Cand) (a : List Pc) : State :=
  let s := s.modGroup p c g (fun x => { x with bFree := false })
  match s.team? p c with
  | none => s
  | some t =>
    match firstBy Cand.before (cs.filter (fun k => !a.contains k.pc)) with
    | none => s
    | some k =>
      if (match k.ecls with
          | some e => (t.group g).clashes true e
          | none => false) then s
      else (s.modGroup p c g (fun x => x.countPick (firstBy Cand.older cs) k)).startEntry p c g true k.pc

/-- The picks of a group's idle ports (R23, R24). Port A takes the top-ranked eligible entry, or the oldest-waiting one at a count of 64;
port B picks among the same entries in the same cycle, or alone once it has become free while port A runs a clause. An entry that port A
has taken begins when port B's clause of its ECLS has ended. -/
def State.pickPorts (s : State) (p c g : Nat) : State :=
  match s.team? p c with
  | none => s
  | some t =>
    let x := t.group g
    let cs := s.eligible p t g
    match x.pickA with
    | some pc => if x.portB.isSome then s
      else (s.modGroup p c g (fun x => { x with pickA := none })).startEntry p c g false pc
    | none =>
      match x.portA with
      | some o => if x.portB.isNone && x.bFree then s.pickB p c g cs [o.pc] else s
      | none =>
        let mine := cs.filter (fun k => some k.pc != x.portB.map (·.pc))
        match firstBy (if x.prog == 64 then Cand.older else Cand.before) mine with
        | none => s
        | some k =>
          let s := (s.modGroup p c g (fun x => x.countPick (firstBy Cand.older cs) k)).startEntry p c g false k.pc
          match s.team? p c with
          | none => s
          | some t =>
            match (t.group g).portA, (t.group g).portB with
            | some o, none => s.pickB p c g cs [k.pc, o.pc]
            | _, _ => s

/-- PORT_PICK: the idle ports of a group pick (R23). -/
def execPortPick (w : Where) (s : State) : Host.Outcome State Fault Refusal :=
  match s.team? w.pkg w.ctx with
  | none => .next s
  | some t =>
    if t.stop.isSome || t.place.isNone || (t.group w.group).vwait || decide (t.tmpl.groups ≤ w.group) then .next s
    else .next (s.pickPorts w.pkg w.ctx w.group)

/-- PARK: the lanes of an entry whose park is due, and whose results have returned, write them (R90). -/
def execPark (w : Where) (pc : Pc) (s : State) : Host.Outcome State Fault Refusal :=
  match s.team? w.pkg w.ctx with
  | none => .next s
  | some t =>
    let lanes := (if (t.group w.group).vwait || t.place.isNone then [] else t.runLanes w.group pc).filter (fun l => (t.thread w.group l).parkDue && (t.thread w.group l).settled)
    .next (lanes.foldl (fun s l => match s.team? w.pkg w.ctx with
      | some t => if t.stop.isSome then s else s.parkLane w.pkg w.ctx w.group l
      | none => s) s)

/-- DEFERRED_RESULT_RETURN: the value of a lane's pending result number k has returned, and waits for its park (R90). A value
still on its way from another package is not there to return. -/
def execDeferredResultReturn (w : Where) (lane k : Nat) (s : State) : Host.Outcome State Fault Refusal :=
  .next (match (s.thread w.pkg w.ctx w.group lane).pend[k]? with
    | none => s
    -- the results of a context that is away stay in its Booth slot (R298)
    | some r => if r.known && ((s.team? w.pkg w.ctx).bind (·.place)).isSome then
        s.modThread w.pkg w.ctx w.group lane (fun t => { t with pend := t.pend.set k { r with ready := true } })
      else s)

end Sys2Proof.Machine
end

