-- ==== Sys2Proof/Machine/Lanes.lean ====
section
/-! DEFINITION. The lane operations SHFL, VOTE, GRED and GSCAN, defined for partial masks (R29 to R32, R150 to R156). Each lane's
result is computed from the registers as they stood before the operation. -/

namespace Sys2Proof

/-- A reduction type as a floating-point type, if it is one. -/
def RTy.float? : RTy → Option FTy
  | .f32 => some .f32
  | .f16x2 => some .f16x2
  | .bf16x2 => some .bf16x2
  | .f64 => some .f64
  | _ => none
/-- A reduction type as an integer type. -/
def RTy.intTy : RTy → IntTy
  | .n32 => .n32
  | .i64 => .i64
  | .n64 => .n64
  | _ => .i32

/-- The selector's lane; none out of range (R152). -/
def shflLane (mode : ShflMode) (width i sl : Nat) : Option Nat :=
  match mode with
  | .idx => if sl < width then some sl else none
  | .up => if sl ≤ i then some (i - sl) else none
  | .down => if i + sl < width then some (i + sl) else none
  | .xor => if Nat.xor i sl < width then some (Nat.xor i sl) else none

/-- Op of two values of a type, with its flags (R151). -/
def RTy.op (ty : RTy) (op : ROp) (rm : Rm) (a b : Nat) : Nat × BitVec 5 :=
  match ty.float? with
  | some f =>
    match op with
    | .min => f.map2 (f.fmt.minMax true) a b
    | .max => f.map2 (f.fmt.minMax false) a b
    | _ => f.map2 (fun x y => f.fmt.addVal rm (f.fmt.val x) (f.fmt.val y)) a b
  | none =>
    let it := ty.intTy
    match op with
    | .add => ((a + b) % 2 ^ it.w, 0)
    | .min => (if toInt it.w it.signed b < toInt it.w it.signed a then b else a, 0)
    | .max => (if toInt it.w it.signed a < toInt it.w it.signed b then b else a, 0)
    | .and => (Nat.land a b, 0)
    | .or => (Nat.lor a b, 0)
    | .xor => (Nat.xor a b, 0)

/-- The identity of an operation, in every lane of the type (R30). -/
def RTy.ident (ty : RTy) (op : ROp) : Nat :=
  match ty.float? with
  | some f =>
    let v := match op with
      | .min => f.fmt.inf false
      | .max => f.fmt.inf true
      | _ => f.fmt.zero true
    mapLanes f.fmt.bits (fun _ => v) f.n
  | none =>
    let it := ty.intTy
    match op with
    | .min => wrap it.w (typeMax it.w it.signed)
    | .max => wrap it.w (typeMin it.w it.signed)
    | .and => 2 ^ it.w - 1
    | _ => 0

/-- node(k, h) of R154, with the flags of every node of its subtree. -/
def treeNode (op : Nat → Nat → Nat × BitVec 5) (leaf : Nat → Nat) : Nat → Nat → Nat × BitVec 5
  | 0, k => (leaf k, 0)
  | h + 1, k =>
    let x := treeNode op leaf h (2 * k)
    let y := treeNode op leaf h (2 * k + 1)
    ((op x.1 y.1).1, (op x.1 y.1).2 ||| x.2 ||| y.2)

/-- The aligned blocks of `n` lanes from lane `lo` on, largest first, folded from left to right (R155), with the folds' flags. -/
def scanFold (op : Nat → Nat → Nat × BitVec 5) (leaf : Nat → Nat) : Nat → Nat → Nat → Option Nat → BitVec 5 →
    Option Nat × BitVec 5
  | h, lo, n, acc, fl =>
    let here := decide (2 ^ h ≤ n)
    let v := (treeNode op leaf h (lo / 2 ^ h)).1
    let (acc, fl) : Option Nat × BitVec 5 :=
      if here then
        match acc with
        | none => (some v, fl)
        | some r => (some (op r v).1, fl ||| (op r v).2)
      else (acc, fl)
    match h with
    | 0 => (acc, fl)
    | h + 1 => if here then scanFold op leaf h (lo + 2 ^ (h + 1)) (n - 2 ^ (h + 1)) acc fl else scanFold op leaf h lo n acc fl

end Sys2Proof

namespace Sys2Proof.Machine

/-- The visible width, which lane operations run over (R33). -/
def Iss.vis (u : Iss) (s : State) : Nat :=
  match u.team s with
  | some t => t.vis
  | none => 0
/-- The visible index of a lane. -/
def Iss.visLane (u : Iss) (s : State) (l : Nat) : Nat :=
  match u.team s with
  | some t => t.visLane l
  | none => l
/-- The active visible lanes of a lane operation (R29, R34). -/
def Iss.laneSet (u : Iss) (c : Ctl) (s : State) : List Nat := (u.active c s).filter (fun l => decide (l < u.vis s))

/-- A lane's share of a lane operation: in mirror mode the operands are compared first, and the shadow lane takes the visible
lane's result (R34). `from` is the state before the operation. -/
def Iss.laneOp {β : Type} [DecidableEq β] (u : Iss) (c : Ctl) (l : Nat) (same : Thread → β) (before s : State)
    (f : Nat → State → State × LaneEnd) : State × LaneEnd :=
  if u.pairAgrees c l same before then f (u.visLane before l) s else (s, .trap u.mirrorTrap)

/-- The source lane of SHFL for a visible lane. -/
def Iss.shflFrom (u : Iss) (mode : ShflMode) (b : Src) (before : State) (i : Nat) : Nat :=
  (shflLane mode (u.vis before) i (match b with
    | .reg r => ((u.thread before i).reg r).toNat
    | .imm v => v.toNat)).getD i

/-- A lane whose register SHFL reads: an inactive one as it stood before the cycle, in which the other port may have issued (R31). -/
def Iss.before31 (u : Iss) (c : Ctl) (s : State) (j : Nat) : Thread :=
  match s.prior with
  | some ts => if (u.active c s).contains j then u.thread s j else tget {} ts j
  | none => u.thread s j

/-- SHFL (R152): the value and its deferred-fault bit travel together. -/
def execShfl (c : Ctl) (wide : Bool) (mode : ShflMode) (d a : Reg) (b : Src) (s : State) :
    Host.Outcome State Fault Refusal :=
  s.issue c {} (fun u l s' =>
    u.laneOp c l (fun t => (t.val wide a, t.src32 b)) s s' (fun i s' =>
      let x := u.before31 c s (u.shflFrom mode b s i)
      let fl := x.flags [.sized wide a] || (u.thread s i).flags (b.opnd false)
      u.write l d ((wordsOf wide (x.val wide a)).map (fun w => (w, fl))) 0 s'))

/-- The lanes of a ballot as a number. -/
def ballot (lanes : List Nat) : Nat := lanes.foldl (fun n l => n + 2 ^ l) 0

/-- VOTE (R153). -/
def execVote (c : Ctl) (mode : VoteMode) (d : Reg) (pa : PredIx) (s : State) : Host.Outcome State Fault Refusal :=
  s.issue c { regs := fun u _ => if mode = .ballot ∧ u.vis s = 64 then [.pair d] else [] } (fun u l s' =>
    u.laneOp c l (fun t => t.pred pa) s s' (fun _ s' =>
      let act := u.laneSet c s
      let yes := act.filter (fun j => (u.thread s j).pred pa)
      match mode with
      | .ballot =>
        u.write l d ((wordsOf (u.vis s == 64) (BitVec.ofNat 64 (ballot yes))).map (fun w => (w, false))) 0 s'
      | .all => (u.setThread s' l ((u.thread s' l).setPred (d.setWidth 3) (yes.length == act.length)), .done)
      | .any => (u.setThread s' l ((u.thread s' l).setPred (d.setWidth 3) (!yes.isEmpty)), .done)))

/-- A leaf of the tree: the lane's value, or the identity of an inactive lane (R154). -/
def Iss.leaf (u : Iss) (c : Ctl) (ty : RTy) (op : ROp) (a : Reg) (s : State) (i : Nat) : Nat :=
  if (u.laneSet c s).contains i then ((u.thread s i).val ty.wide a).toNat else ty.ident op

/-- GRED (R154, R156): every active lane receives the root; the destination is flagged where a source is. -/
def execGred (c : Ctl) (ty : RTy) (op : ROp) (rm : Rm) (d a : Reg) (s : State) : Host.Outcome State Fault Refusal :=
  s.issue c {} (fun u l s' =>
    u.laneOp c l (fun t => t.val ty.wide a) s s' (fun _ s' =>
      let r := treeNode (ty.op op rm) (u.leaf c ty op a s) (Nat.log2 (u.vis s)) 0
      let fl := (u.laneSet c s).any (fun j => (u.thread s j).flags [.sized ty.wide a])
      u.write l d ((wordsOf ty.wide (BitVec.ofNat 64 r.1)).map (fun w => (w, fl))) r.2 s'))

/-- The fold of GSCAN for a visible lane. -/
def Iss.scanOf (u : Iss) (c : Ctl) (ty : RTy) (op : ROp) (rm : Rm) (a : Reg) (s : State) (i : Nat) : Nat × BitVec 5 :=
  let r := scanFold (ty.op op rm) (u.leaf c ty op a s) (Nat.log2 (u.vis s)) 0 (i + 1) none 0
  (r.1.getD 0, r.2)

/-- GSCAN (R155, R156): a lane's destination is flagged where a source of its own fold is. -/
def execGscan (c : Ctl) (ty : RTy) (op : ROp) (rm : Rm) (d a : Reg) (s : State) : Host.Outcome State Fault Refusal :=
  s.issue c {} (fun u l s' =>
    u.laneOp c l (fun t => t.val ty.wide a) s s' (fun i s' =>
      let tree := (treeNode (ty.op op rm) (u.leaf c ty op a s) (Nat.log2 (u.vis s)) 0).2
      let fls := (u.laneSet c s).foldl (fun f j => f ||| (u.scanOf c ty op rm a s j).2) tree
      let fl := (u.laneSet c s).any (fun j => decide (j ≤ i) && (u.thread s j).flags [.sized ty.wide a])
      u.write l d ((wordsOf ty.wide (BitVec.ofNat 64 (u.scanOf c ty op rm a s i).1)).map (fun w => (w, fl))) fls s'))

end Sys2Proof.Machine
end

