-- ==== Sys2Proof/Machine/LoadStore.lean ====
section
/-! DEFINITION. Class 3: loads and stores, element loads and stores, atomics and reductions, fences, monitored waits, prefetch, cache
maintenance, and remote regions (R161 to R185, R382). -/

namespace Sys2Proof

/-- A scope that reaches other packages. -/
def Scope.wide : Scope → Bool
  | .cell | .space => true
  | _ => false
/-- A scope of .team or wider. -/
def Scope.teamUp : Scope → Bool
  | .grp => false
  | _ => true
/-- The scope of an order's acquire and of its release. -/
def AtOrd.acqScope : AtOrd → Option Scope
  | .acq sc | .acqRel sc => some sc
  | _ => none
def AtOrd.relScope : AtOrd → Option Scope
  | .rel sc | .acqRel sc => some sc
  | _ => none

end Sys2Proof

namespace Sys2Proof.Machine

/-! ### Addresses (R162) -/

/-- The offset form: a + SignExtend(OFF18). -/
def eaOff (a : Reg) (off : BitVec 18) (t : Thread) : DWord := t.pair a + off.signExtend 64
/-- The index form: a + SignExtend(b). -/
def eaIdx (a b : Reg) (t : Thread) : DWord := t.pair a + (t.reg b).signExtend 64

/-! ### Where an access goes (R58, R60, R62, R168, R382) -/

/-- How an access meets a line of another package (R316). -/
inductive Remote
  /-- It reads a copy. -/
  | read
  /-- It needs ownership. -/
  | own
  /-- It is sent to the home. -/
  | write
  /-- It makes no request. -/
  | none
  deriving DecidableEq, Repr

/-- What an access of a class 3 instruction needs: its space, address, alignment and bytes, its kind, how it meets a remote line,
whether it is a region operation (R178), and what its page decides (LDE and STE in .g): a trap, or its bytes. -/
structure MemReq where
  sp : Space
  ea : Thread → DWord
  align : Nat
  bytes : Nat
  acc : Access
  remote : Remote
  page : Iss → State → PageTr → DWord → Trap ⊕ Nat

/-- An access whose bytes the instruction fixes. -/
def MemReq.fixed (sp : Space) (ea : Thread → DWord) (align bytes : Nat) (acc : Access) (remote : Remote) : MemReq :=
  ⟨sp, ea, align, bytes, acc, remote, fun _ _ _ _ => .inr bytes⟩

/-- Where a lane's access goes. -/
inductive Loc
  | trap (t : Trap)
  | bad (va : DWord) (x : Xl)
  /-- Bytes in global memory, line by line: space address and length; with the page's format. -/
  | mem (ps : List (Nat × Nat)) (fmt : Nat)
  /-- Bytes of .s, .p or .l, from an offset. -/
  | own (k n : Nat)
  deriving DecidableEq, Repr

/-- A run of bytes cut into lines, each at the address that a switched migration gives (R311). -/
def State.pieces (s : State) : Nat → Nat → Nat → List (Nat × Nat)
  | 0, _, _ => []
  | fuel + 1, a, n =>
    let k := min n (128 - a % 128)
    if n = 0 then [] else (s.forward a, k) :: s.pieces fuel (a + k) (n - k)

/-- The size of a team's space of a lane (R58); .p needs a pair. -/
def Team.spaceSize (t : Team) : Space → Nat
  | .s => t.tmpl.scratch
  | .p => if t.tmpl.pair then t.tmpl.scratch else 0
  | .l => t.tmpl.lmem
  | .g => 0
/-- The bytes of a space as a lane of a group sees them (R11, R59). -/
def Team.spaceMem (t : Team) (g l : Nat) : Space → Mem
  | .s => if t.onOdd g then t.scrO else t.scrE
  | .p => if t.onOdd g then t.scrE else t.scrO
  | .l => (t.thread g (t.visLane l)).lmem
  | .g => []
def Team.setSpaceMem (t : Team) (g l : Nat) (m : Mem) : Space → Team
  | .s => if t.onOdd g then { t with scrO := m } else { t with scrE := m }
  | .p => if t.onOdd g then { t with scrE := m } else { t with scrO := m }
  | .l => t.modGroup g (fun x => x.modThread (t.visLane l) (fun h => { h with lmem := m }))
  | .g => t

/-- A trap of REGION with its reason (R178). -/
def Iss.regionTrap (u : Iss) (reason : Nat) (ea : Option DWord) : Trap := ⟨0x16, u.pc64, ea, some (BitVec.ofNat 64 reason)⟩

/-- Where a lane's access goes, in the order of R382. -/
def Iss.locate (u : Iss) (m : MemReq) (l : Nat) (s : State) : Loc × State :=
  match u.team s with
  | none => (.bad 0 .page, s)
  | some tm =>
    let t := u.thread s l
    let ea := m.ea t
    if ea.toNat % m.align ≠ 0 then (.trap (u.bare 0x04 (some ea)), s)
    else if m.sp = .g then
      if 2 ^ 57 ≤ ea.toNat then (.bad ea .space, s)
      else
        match s.translate u.pkg tm.part (u.die s) ea.toNat m.acc with
        | (.ok tr, s) =>
          match m.page u s tr ea with
          | .inl x => (.trap x, s)
          | .inr n =>
            let ps := s.pieces (n / 128 + 2) (tr.at ea.toNat) n
            let full : Bool := match t.region with
              | some r => decide (256 ≤ r.ops) && ps.any (fun x => homeOf x.1 != u.pkg) && m.remote != .none
              | none => false
            if full then (.trap (u.regionTrap 3 (some ea)), s) else (.mem ps tr.fmt, s)
        | (x, s) => (.bad ea x, s)
    else if tm.spaceSize m.sp < ea.toNat + m.bytes then (.trap (u.bare 0x06 (some ea)), s)
    else (.own ea.toNat m.bytes, s)

/-- The lanes that share an access: a visible lane and its shadow (R34). -/
def Team.sharers (t : Team) (l : Nat) : List Nat :=
  match t.partner l with
  | some m => [l, m]
  | none => [l]

/-- The group has an outstanding request of the instruction on a line. -/
def Iss.asked (u : Iss) (k : Package) (a : Nat) : Option (Nat × Req) :=
  k.reqs.find? (fun e => e.2.ctx == u.ctx && e.2.group == u.group && e.2.pc == u.pc && lineOf e.2.addr == lineOf a &&
    (match e.2.kind with
      | .load | .spec | .own => true
      | _ => false))

/-- A thread of the package has an outstanding write to a line. Reads of the line follow it, whoever makes them, so that none returns an
older value than one that the package's releases have ordered before it (R66, R67). -/
def Package.writing (k : Package) (a : Nat) : Bool :=
  k.reqs.any (fun e => e.2.kind == .write && lineOf e.2.addr == lineOf a)

/-- A read or an ATOM of a remote line waits until the package holds a copy that will do; the copy is asked for once (R316), with what its
answer gives the lanes if their team leaves its core meanwhile (R298): `ps` is the lane's access, `op` its instruction. An ATOM whose line
is asked for is an outstanding remote write of its group (R72). -/
def Iss.wantLine (u : Iss) (c : Ctl) (tm : Team) (m : MemReq) (spec : Bool) (op? : Option LateOp) (l : Nat) (ps : List (Nat × Nat)) (a : Nat)
    (s : State) : State × Bool :=
  let k := s.pkg u.pkg
  let t := u.thread s l
  let held : Bool := match tfind k.copies (lineOf a) with
    | some c => m.remote != .own || c.excl
    | none => false
  if k.dead (homeOf a) || (spec && t.specFail) then (s, false)
  else if ps.any (fun x => k.writing x.1) then (s, true)
  else if held then (s, false)
  else
    let own := m.remote == .own
    let who := ((tm.sharers l).filter (fun j => (u.thread s j).guard c)).map (fun j => (j, m.ea t))
    let n := if own then 1 else 0
    let count (s : State) : State := if own then s.modGroup u.pkg u.ctx u.group (fun x => { x with rwCount := x.rwCount + 1 }) else s
    let full := own && decide (4095 ≤ (tm.group u.group).rwCount)
    match u.asked k a with
    | some (key, r) =>
      if full || r.lanes.any (fun x => x.1 == l) then (s, true)
      else (count (s.modPkg u.pkg (fun k => { k with reqs := tput k.reqs key { r with
        lanes := r.lanes ++ who, cnt := r.cnt + n, parts := tput r.parts l ps } })), true)
    | none => if full then (s, true) else
      let kind : ReqKind := if m.remote = .own then .own else if spec then .spec else .load
      let r : Req := { ctx := u.ctx, group := u.group, lanes := who, pc := u.pc, addr := a, dst := homeOf a, eseq := 0,
                       kind := kind, deadline := 0, tmo := 0, region := t.region.isSome, cnt := n, op := op?, parts := [(l, ps)],
                       park := c.park }
      let op : ReqOp := if own then .getm else .gets
      (count (s.request u.pkg tm r (.req op (a / 128 * 128) 0 0 0 false (0, 0) [])), true)

/-- A lane's access waits at issue: behind recalls or a lock at its home, for a remote line, or never (R72, R74, R317). -/
def Iss.waitPiece (u : Iss) (c : Ctl) (m : MemReq) (spec : Bool) (op? : Option LateOp) (l : Nat) (ps : List (Nat × Nat)) (x : State × Bool)
    (pc : Nat × Nat) : State × Bool :=
  let (s, w) := x
  let a := pc.1
  if homeOf a = u.pkg then
    if m.remote = .none then (s, w)
    else
      match s.homeWait u.pkg (u.die s) a (m.acc == .write || m.acc == .atom) with
      | some s => (s, true)
      | none => (s, w)
  else
    match m.remote with
    | .read | .own =>
      match u.team s with
      | none => (s, w)
      | some tm =>
        let (s, v) := u.wantLine c tm m spec op? l ps a s
        (s, w || v)
    | _ => (s, w)

/-- Every wait of the entry's lanes, each begun once. -/
def Iss.waitAll (u : Iss) (c : Ctl) (m : MemReq) (spec : Bool) (op : Nat → Option LateOp) (locs : List (Nat × Loc)) (s : State) :
    State × Bool :=
  match u.team s with
  | none => (s, false)
  | some tm =>
    let r := locs.foldl (fun x lc => match lc.2 with
      | .mem ps fmt => ps.foldl (u.waitPiece c m spec (op fmt) lc.1 ps) x
      | _ => x) (s, false)
    let writes : Nat := locs.foldl (fun n lc => match lc.2 with
      | .mem ps _ => n + (ps.filter (fun x => homeOf x.1 != u.pkg)).length
      | _ => n) 0
    (r.1, r.2 || (m.remote == .write && decide (0 < writes) && decide (4095 < (tm.group u.group).rwCount + writes)))

/-- The lanes' places, found in ascending order. -/
def Iss.locateAll (u : Iss) (m : MemReq) : List Nat → State → List (Nat × Loc) × State
  | [], s => ([], s)
  | l :: ls, s =>
    let (x, s) := u.locate m l s
    let (xs, s) := u.locateAll m ls s
    ((l, x) :: xs, s)

/-! ### Reading and writing bytes -/

/-- The line of an address enters a core's L1; its die then holds a copy (R64, R314). -/
def State.fillL1 (s : State) (p core a : Nat) : State :=
  let line := a / 128 * 128
  let cells := if homeOf a = p ∧ (s.pkg p).dir = [] then s.mem.slice line 128 else Mem.put [] line (s.lineSeen p a)
  let s := s.modCore p core (fun x => { x with l1 := tput x.l1 (lineOf a) cells })
  if homeOf a = p then s.addDie a (dieOf core) else s

/-- Old and new bytes from an address, mixed by a free choice for each 16-byte unit in which they differ (R51, R62), and whether any unit
is new. -/
def State.mixUnits : Nat → Nat → List Byte → List Byte → State → (List Byte × Bool) × State
  | 0, _, _, now, s => ((now, true), s)
  | fuel + 1, a, old, now, s =>
    let k := 16 - a % 16
    if now.isEmpty then (([], false), s)
    else
      let (new, s) : Bool × State := if old.take k = now.take k then (false, s) else ((s.choose 2).1 != 0, (s.choose 2).2)
      let ((bs, any), s) := State.mixUnits fuel (a + k) (old.drop k) (now.drop k) s
      (((if new then now.take k else old.take k) ++ bs, new || any), s)

/-- Bytes that a core reads of one line, through its L1 (R64): where the L1 holds a copy that memory no longer agrees with, each 16-byte
unit is read there or anew, by a free choice (log entry 5). -/
def State.loadPiece (s : State) (p core a n : Nat) : List Byte × State :=
  let now := s.seen p a n
  match tfind (s.core p core).l1 (lineOf a) with
  | none => (now, s.fillL1 p core a)
  | some c =>
    let old := c.bytes a n
    if old = now then (now, s)
    else
      let ((bs, new), s) := State.mixUnits 9 a old now s
      (bs, if new then s.fillL1 p core a else s)

def State.loadPieces (s : State) (p core : Nat) : List (Nat × Nat) → List Byte × State
  | [] => ([], s)
  | (a, n) :: ps =>
    let (x, s) := s.loadPiece p core a n
    let (y, s) := s.loadPieces p core ps
    (x ++ y, s)

/-- The issuing core's L1 copy takes a store (R64). -/
def State.l1Store (s : State) (p core a : Nat) (bs : List Byte) : State :=
  s.modCore p core (fun x => match tfind x.l1 (lineOf a) with
    | some c => { x with l1 := tput x.l1 (lineOf a) (c.put a bs) }
    | none => x)
/-- The issuing core's L1 copy is invalidated (R64). -/
def State.l1Drop (s : State) (p core a : Nat) : State := s.modCore p core (fun x => { x with l1 := tdel x.l1 (lineOf a) })

/-- The byte mask of `n` bytes from an offset. -/
def maskOf (off n : Nat) : BitVec 128 := BitVec.ofNat 128 ((2 ^ n - 1) * 2 ^ off)

/-- A remote write is sent to its home and counted (R72, R324); where the home's cell is dead it fails at once (R327). -/
def Iss.sendWrite (u : Iss) (tm : Team) (l : Nat) (ea : DWord) (a : Nat) (b : Body) (s : State) : State :=
  let key := (s.pkg u.pkg).nextReq
  let r : Req := { ctx := u.ctx, group := u.group, lanes := [(l, ea)], pc := u.pc, addr := a, dst := homeOf a, eseq := 0,
                   kind := .write, deadline := 0, tmo := 0, region := (u.thread s l).region.isSome }
  let s := s.modGroup u.pkg u.ctx u.group (fun x => { x with rwCount := x.rwCount + 1 })
  if (s.pkg u.pkg).dead (homeOf a) then
    (s.modPkg u.pkg (fun k => { k with nextReq := k.nextReq + 1 })).failWrite u.pkg key r 1
  else s.request u.pkg tm r b

/-- Bytes stored line by line: at home, or in a WRH each (R316). -/
def Iss.storePieces (u : Iss) (tm : Team) (l : Nat) (ea : DWord) : List (Nat × Nat) → List Byte → State → State
  | [], _, s => s
  | (a, n) :: ps, bs, s =>
    let s := s.l1Store u.pkg (tm.coreOf u.group) a (bs.take n)
    let off := a % 128
    let s := if homeOf a = u.pkg then s.poke a (bs.take n)
      else u.sendWrite tm l ea a
        (.req .wrh (a / 128 * 128) 0 (maskOf off n) 0 false (0, 0) (padTo 128 (List.replicate off 0 ++ bs.take n))) s
    u.storePieces tm l ea ps (bs.drop n) s

/-- A region operation is counted at a lane (R178). -/
def Thread.countOp (t : Thread) : Thread := { t with region := t.region.map (fun r => { r with ops := r.ops + 1 }) }
def Iss.countOp (u : Iss) (l : Nat) (ps : List (Nat × Nat)) (s : State) : State :=
  if (u.thread s l).region.isSome && ps.any (fun x => homeOf x.1 != u.pkg) then s.modThread u.pkg u.ctx u.group l Thread.countOp else s

/-- A line of the package's own memory is poisoned (R329). -/
def State.badLine (s : State) (p : Nat) (ps : List (Nat × Nat)) : Bool := ps.any (fun x => homeOf x.1 == p && s.poisoned x.1)
/-- A home of the run lies in a dead cell (R327). -/
def Package.deadHome (k : Package) (p : Nat) (ps : List (Nat × Nat)) : Bool :=
  ps.any (fun x => homeOf x.1 != p && k.dead (homeOf x.1))

/-- A read or an ATOM that its home cannot serve fails: POISON at home, TIMEOUT for a dead cell's home (R323, R327, R329). None
where it can be served. -/
def Iss.unserved (u : Iss) (l : Nat) (ea : DWord) (ps : List (Nat × Nat)) (s : State) : Option (State × LaneEnd) :=
  if s.badLine u.pkg ps then some (s, .trap (u.bare 0x08 (some ea)))
  else if (s.pkg u.pkg).deadHome u.pkg ps then
    if (u.thread s l).region.isSome then
      some (s.rollback u.pkg u.ctx u.group l 0x0A (some (u.pc64, ea, 0)) u.pc64, .left)
    else some (s, .trap (u.trap 0x0A 1 (some ea)))
  else none

/-! ### The issue of a class 3 instruction -/

/-- A release waits for remote writes: .cell or .space, on .g (R65, R72). -/
def relWide (sp : Space) : Option Scope → Bool
  | some sc => sp == .g && sc.wide
  | none => false

/-- The failed writes held against a lane's thread, in order of issue (R185). -/
def Iss.heldFails (u : Iss) (s : State) (l : Nat) : List WFail :=
  match u.team s with
  | some t => (t.group u.group).fails.filter (fun f => f.lane == t.visLane l)
  | none => []
/-- The STOREFAULT that reports them (R185). -/
def Iss.storeFault (u : Iss) (fs : List WFail) : Option Trap :=
  match fs with
  | [] => none
  | f :: _ =>
    let first := fs.foldl (fun b x => if x.order < b.order then x else b) f
    some ⟨0x0B, u.pc64, some (BitVec.ofNat 64 first.addr), some (BitVec.ofNat 64 (first.cause + min fs.length 0xFFFF * 65536))⟩
/-- The report is made: the failures are held no longer. -/
def Iss.dropFails (u : Iss) (l : Nat) (s : State) : State :=
  s.modGroup u.pkg u.ctx u.group (fun x => { x with fails := x.fails.filter (fun f => f.lane != u.visLane s l) })

/-- What an instruction does with its lanes' places. -/
structure MemAct where
  /-- It is a release at .cell or .space. -/
  rel : Bool := false
  /-- An LD.spec (R93). -/
  spec : Bool := false
  /-- A store or an atomic: a mirrored pair compares before the access (R34); a load is made for the lanes that execute it. -/
  cmp : Bool := false
  /-- What the pair compares. -/
  same : Loc → Thread → List DWord := fun _ _ => []
  /-- A further wait at issue. -/
  wait : Iss → Nat → Loc → State → Bool := fun _ _ _ _ => false
  /-- A trap before the access (R178). -/
  first : Iss → Thread → Option Trap := fun _ _ => none
  /-- A lane whose access is not made, and how it ends: LD.spec with a flagged address, or a failure that LD.spec does not raise. -/
  soft : Iss → Nat → State → State × LaneEnd := fun _ _ s => (s, .done)
  /-- What an access gives its lane when it is answered, by the format of its page (R298). -/
  late : Nat → Option LateOp := fun _ => none
  /-- Failed translations that the instruction passes over (R176). -/
  mild : Xl → Bool := fun _ => false
  act : Iss → Nat → Loc → State → State × LaneEnd

/-- The lanes that make accesses: the visible active ones, and a shadow that executes without its visible lane (R34). -/
def Iss.performers (u : Iss) (c : Ctl) (s : State) : List Nat :=
  (u.active c s).filter (fun l => u.visLane s l == l || !(u.active c s).contains (u.visLane s l))
/-- A lane of a mirrored pair executes without the other. -/
def Iss.alone (u : Iss) (c : Ctl) (s : State) (l : Nat) : Bool :=
  match u.team s with
  | none => false
  | some t => match t.partner l with
    | none => false
    | some m => !(u.active c s).contains m

/-- One lane of a class 3 instruction, its place found: `s0` is the state before the instruction. -/
def MemAct.lane (x : MemAct) (c : Ctl) (m : MemReq) (locs : List (Nat × Loc)) (s0 : State) (u : Iss) (l : Nat) (s : State) :
    State × LaneEnd :=
  let v := if u.alone c s0 l then l else u.visLane s l
  match x.first u (u.thread s0 v) with
  | some tr => (s, .trap tr)
  | none =>
    match if x.rel then u.storeFault (u.heldFails s0 l) else none with
    | some tr => (u.dropFails l s, .trap tr)
    | none =>
      match tfind locs v with
      | none => x.soft u l s
      | some loc =>
        if x.cmp && !u.pairAgrees c l (x.same loc) s0 then (s, .trap u.mirrorTrap)
        else
          match loc with
          | .trap tr => if x.spec && tr.code != 0x16 then x.soft u l s else (s, .trap tr)
          | .bad va e => if x.spec || x.mild e then x.soft u l s else u.badXl l va m.acc.kind e s
          | loc => if u.alone c s0 l then x.act u l loc s else u.once c.park l (x.act u l loc) s

/-- The meaning of a class 3 instruction that accesses memory: the places of its lanes are found, its waits at issue begun, and, when
none is left, its lanes execute. -/
def State.issueMem (s : State) (c : Ctl) (k : Pre) (m : MemReq) (skip : Thread → Bool) (x : MemAct) :
    Host.Outcome State Fault Refusal :=
  match s.iss? with
  | none => .next s
  | some u =>
    if u.blocked s || (x.rel && (match u.team s with
      | some t => (t.group u.group).rwCount != 0
      | none => false)) then .next s
    else
      let go := (u.performers c s).filter (fun l => (u.before k s (u.thread s l)).isNone && !skip (u.thread s l) &&
        (x.first u (u.thread s l)).isNone)
      let (locs, s1) := u.locateAll m go s
      let (s2, wait) := u.waitAll c m x.spec x.late locs s1
      if wait || locs.any (fun e => x.wait u e.1 e.2 s2) then .next s2
      else .next (u.run c k (x.lane c m locs s) s2)

/-! ### LD and ST (R164, R165) -/

/-- The bytes that a size stores from the registers of a run. -/
def Thread.storeBytes (t : Thread) (sz : Size) (d : Reg) : List Byte :=
  ((List.range sz.regs).flatMap (fun k => leBytes 4 (t.at d k).toNat)).take sz.bytes

/-- An LD.spec that does not read: 0 with the deferred-fault bit, at its park (R93). -/
def Iss.softLoad (n : Nat) (d : Reg) (u : Iss) (l : Nat) (s : State) : State × LaneEnd :=
  (u.setThread s l { (u.thread s l).defer u.pc d.toNat false (List.replicate n (0, true)) 0 with specFail := false }, .done)

/-- The bytes that a lane reads at its place. -/
def Iss.readLoc (u : Iss) (sp : Space) (l : Nat) (loc : Loc) (s : State) : List Byte × State :=
  match u.team s with
  | none => ([], s)
  | some tm =>
    match loc with
    | .mem ps _ => s.loadPieces u.pkg (tm.coreOf u.group) ps
    | .own k n => ((tm.spaceMem u.group l sp).bytes k n, s)
    | _ => ([], s)
/-- Bytes written at a lane's place. -/
def Iss.writeLoc (u : Iss) (sp : Space) (l : Nat) (ea : DWord) (loc : Loc) (bs : List Byte) (s : State) : State :=
  match u.team s with
  | none => s
  | some tm =>
    let s := s.sink u.pkg (tm.coreOf u.group)
    match loc with
    | .mem ps _ => u.countOp l ps (u.storePieces tm l ea ps bs s)
    | .own k _ => s.modTeam u.pkg u.ctx (fun t => t.setSpaceMem u.group l ((t.spaceMem u.group l sp).put k bs) sp)
    | _ => s
/-- The pieces of a place in global memory. -/
def Loc.parts : Loc → List (Nat × Nat)
  | .mem ps _ => ps
  | _ => []

/-- An acquire at .team or wider empties the core's L1 (R64). -/
def Iss.acquire (u : Iss) (sc : Option Scope) (s : State) : State :=
  match u.team s, sc with
  | some t, some sc => if sc.teamUp then s.dropL1 u.pkg (t.coreOf u.group) else s
  | _, _ => s

/-- LD at a lane. -/
def actLoad (sp : Space) (sz : Size) (acq : Option Scope) (spec : Bool) (d : Reg) (ea : Thread → DWord) (u : Iss) (l : Nat)
    (loc : Loc) (s : State) : State × LaneEnd :=
  if spec && (u.thread s l).specFail then Iss.softLoad sz.regs d u l s
  else
    match u.unserved l (ea (u.thread s l)) loc.parts s with
    | some r => if spec then Iss.softLoad sz.regs d u l s else r
    | none =>
      let s := u.acquire acq s
      let (bs, s) := u.readLoc sp l loc s
      u.defer l d ((sz.load bs).map (fun w => (w, false))) 0 (u.countOp l loc.parts s)

/-- The meaning of LD. An LD.spec whose address is flagged makes no access (R93). -/
def execLoad (c : Ctl) (sp : Space) (sz : Size) (acq : Option Scope) (spec : Bool) (d : Reg) (ea : Thread → DWord)
    (addr : List Opnd) (s : State) : Host.Outcome State Fault Refusal :=
  s.issueMem c { counts := true, reads := if spec then [] else addr } (.fixed sp ea sz.bytes sz.bytes .read .read)
    (fun t => spec && t.flags addr)
    { spec := spec, soft := Iss.softLoad sz.regs d, late := fun _ => some (.ld sz spec d), act := actLoad sp sz acq spec d ea }

def execLdOff (c : Ctl) (sp : Space) (sz : Size) (spec : Bool) (d a : Reg) (off : BitVec 18) (s : State) :
    Host.Outcome State Fault Refusal :=
  execLoad c sp sz none spec d (eaOff a off) [.pair a] s
def execLdIdx (c : Ctl) (sp : Space) (sz : Size) (ord : LdOrd) (d a b : Reg) (s : State) :
    Host.Outcome State Fault Refusal :=
  execLoad c sp sz (match ord with
    | .acq sc => some sc
    | _ => none) (ord == .spec) d (eaIdx a b) [.pair a, .one b] s

/-- A store refused by a poisoned line of the package's own memory (R329). -/
def Iss.storePoison (u : Iss) (ea : DWord) (loc : Loc) (s : State) : Option Trap :=
  if s.badLine u.pkg loc.parts then some (u.bare 0x08 (some ea)) else none

/-- ST at a lane. -/
def actStore (sp : Space) (sz : Size) (d : Reg) (ea : Thread → DWord) (u : Iss) (l : Nat) (loc : Loc) (s : State) :
    State × LaneEnd :=
  let t := u.thread s l
  match u.storePoison (ea t) loc s with
  | some tr => (s, .trap tr)
  | none => (u.writeLoc sp l (ea t) loc (t.storeBytes sz d) s, .done)

/-- The meaning of ST. -/
def execStore (c : Ctl) (sp : Space) (sz : Size) (rel : Option Scope) (d : Reg) (ea : Thread → DWord) (addr : List Opnd)
    (s : State) : Host.Outcome State Fault Refusal :=
  s.issueMem c { reads := sz.opnd d :: addr } (.fixed sp ea sz.bytes sz.bytes .write .write) (fun _ => false)
    { rel := relWide sp rel, cmp := true,
      same := fun _ t => ea t :: (List.range sz.regs).map (fun k => (t.at d k).setWidth 64),
      act := actStore sp sz d ea }

def execStOff (c : Ctl) (sp : Space) (sz : Size) (d a : Reg) (off : BitVec 18) (s : State) :
    Host.Outcome State Fault Refusal :=
  execStore c sp sz none d (eaOff a off) [.pair a] s
def execStIdx (c : Ctl) (sp : Space) (sz : Size) (rel : Option Scope) (d a b : Reg) (s : State) :
    Host.Outcome State Fault Refusal :=
  execStore c sp sz rel d (eaIdx a b) [.pair a, .one b] s

/-! ### LDE and STE (R166 to R168) -/

/-- The registers of an element run. -/
def elemOpnd (fmt n : Nat) (d : Reg) : Opnd := .run d (if fmt = 8 then 2 * n else n)

/-- What the page decides in .g: FORMAT, then the register check, then ALIGN for the element or block, and for a run that crosses the
page (R168, R382). -/
def elemPage (n : Nat) (d : Reg) (u : Iss) (s : State) (tr : PageTr) (ea : DWord) : Trap ⊕ Nat :=
  let off := ea.toNat - tr.va
  let bytes := elemBytes tr.fmt n
  if !elemFmtOk tr.fmt tr.geom || (tr.fmt == 9 && n != 128) then .inl (u.bare 0x07 (some ea))
  else
    match regCheck (u.nregs s) [elemOpnd tr.fmt n d] with
    | some r => .inl (u.trap 0x01 r (some u.pc64))
    | none =>
      if off % elemSize tr.fmt ≠ 0 ∨ tr.size < off + bytes then .inl (u.bare 0x04 (some ea)) else .inr bytes

/-- The access of LDE and STE: in .g the page fixes its bytes; elsewhere the format of the instruction (R168: I4X at 16). -/
def elemReq (sp : Space) (n fmt : Nat) (d : Reg) (ea : Thread → DWord) (acc : Access) (remote : Remote) : MemReq :=
  if sp = .g then ⟨.g, ea, 1, 0, acc, remote, elemPage n d⟩
  else .fixed sp ea (if fmt = 9 then 16 else elemSize fmt) (elemBytes fmt n) acc remote

/-- The format of a place. -/
def Loc.fmt (fmt : Nat) : Loc → Nat
  | .mem _ f => f
  | _ => fmt

/-- LDE at a lane; a malformed block raises FORMAT at the block (R45). -/
def actLde (sp : Space) (n fmt : Nat) (d : Reg) (ea : Thread → DWord) (u : Iss) (l : Nat) (loc : Loc) (s : State) :
    State × LaneEnd :=
  match u.unserved l (ea (u.thread s l)) loc.parts s with
  | some r => r
  | none =>
    let f := loc.fmt fmt
    let (bs, s) := u.readLoc sp l loc s
    match elemsLoad f n bs with
    | none => (s, .trap (u.bare 0x07 (some (ea (u.thread s l)))))
    | some (vs, fl) =>
      u.defer l d ((vs.flatMap (fun v => wordsOf (f == 8) (BitVec.ofNat 64 v))).map (fun w => (w, false))) fl
        (u.countOp l loc.parts s)

def execLde (c : Ctl) (sp : Space) (cn : BitVec 3) (fmt : BitVec 4) (d : Reg) (ea : Thread → DWord) (addr : List Opnd)
    (s : State) : Host.Outcome State Fault Refusal :=
  s.issueMem c { counts := true, reads := addr } (elemReq sp (2 ^ cn.toNat) fmt.toNat d ea .read .read) (fun _ => false)
    { late := fun f => some (.lde f (2 ^ cn.toNat) d), act := actLde sp (2 ^ cn.toNat) fmt.toNat d ea }

def execLdeOff (c : Ctl) (cn : BitVec 3) (d a : Reg) (off : BitVec 18) (s : State) : Host.Outcome State Fault Refusal :=
  execLde c .g cn 0 d (eaOff a off) [.pair a] s
def execLdeIdx (c : Ctl) (sp : Space) (cn : BitVec 3) (fmt : BitVec 4) (d a b : Reg) (s : State) :
    Host.Outcome State Fault Refusal :=
  execLde c sp cn fmt d (eaIdx a b) [.pair a, .one b] s

/-- The data of STE at a lane. -/
def Thread.elems (t : Thread) (fmt n : Nat) (d : Reg) : List Nat :=
  (List.range n).map (fun j => if fmt = 8 then (t.at d (2 * j)).toNat + 2 ^ 32 * (t.at d (2 * j + 1)).toNat else (t.at d j).toNat)

/-- STE at a lane: its flags are raised when it is performed (R167). -/
def actSte (sp : Space) (n fmt : Nat) (d : Reg) (ea : Thread → DWord) (u : Iss) (l : Nat) (loc : Loc) (s : State) :
    State × LaneEnd :=
  let t := u.thread s l
  if t.flags [elemOpnd (loc.fmt fmt) n d] then (s, .trap ⟨0x11, u.pc64, none, none⟩)
  else
    match u.storePoison (ea t) loc s with
    | some tr => (s, .trap tr)
    | none =>
      let (bs, fl) := elemsStore (loc.fmt fmt) (t.elems (loc.fmt fmt) n d)
      let s := u.writeLoc sp l (ea t) loc bs s
      match u.team s with
      | none => (s, .done)
      | some tm => ((tm.sharers l).foldl (fun s j => s.modThread u.pkg u.ctx u.group j (fun t => t.raise fl)) s, .done)

def execSte (c : Ctl) (sp : Space) (cn : BitVec 3) (fmt : BitVec 4) (d : Reg) (ea : Thread → DWord) (addr : List Opnd)
    (s : State) : Host.Outcome State Fault Refusal :=
  s.issueMem c { reads := elemRun cn fmt d :: addr } (elemReq sp (2 ^ cn.toNat) fmt.toNat d ea .write .write) (fun _ => false)
    { cmp := true,
      same := fun loc t => ea t :: (t.elems (loc.fmt fmt.toNat) (2 ^ cn.toNat) d).map (BitVec.ofNat 64),
      act := actSte sp (2 ^ cn.toNat) fmt.toNat d ea }

def execSteOff (c : Ctl) (cn : BitVec 3) (d a : Reg) (off : BitVec 18) (s : State) : Host.Outcome State Fault Refusal :=
  execSte c .g cn 0 d (eaOff a off) [.pair a] s
def execSteIdx (c : Ctl) (sp : Space) (cn : BitVec 3) (fmt : BitVec 4) (d a b : Reg) (s : State) :
    Host.Outcome State Fault Refusal :=
  execSte c sp cn fmt d (eaIdx a b) [.pair a, .one b] s

/-! ### ATOM and RED (R169 to R172) -/

/-- The bytes of an ATOM's word at its place: L1 is not read (R63). -/
def Iss.atomOld (u : Iss) (sp : Space) (l n : Nat) (loc : Loc) (s : State) : Nat :=
  match loc with
  | .mem ((a, _) :: _) _ => leNat (s.seen u.pkg a n)
  | .own k _ => match u.team s with
    | some tm => (tm.spaceMem u.group l sp).le k n
    | none => 0
  | _ => 0

/-- The new value is written where the step is made: at home, or in the copy that the package owns (R63). -/
def Iss.atomWrite (u : Iss) (sp : Space) (l n : Nat) (loc : Loc) (v : Nat) (s : State) : State :=
  match loc with
  | .mem ((a, _) :: _) _ => if homeOf a = u.pkg then s.poke a (leBytes n v) else s.writeCopy u.pkg a (leBytes n v)
  | .own k _ => s.modTeam u.pkg u.ctx (fun t => t.setSpaceMem u.group l ((t.spaceMem u.group l sp).put k (leBytes n v)) sp)
  | _ => s

/-- The issuing core's L1 copy of an access's line is invalidated (R64). -/
def Iss.l1Out (u : Iss) (loc : Loc) (s : State) : State :=
  match u.team s with
  | none => s
  | some tm => loc.parts.foldl (fun s x => s.l1Drop u.pkg (tm.coreOf u.group) x.1) s

/-- After an ATOM, the issuing die alone holds a line of the home package (R63, R316). -/
def Iss.atomDie (u : Iss) (loc : Loc) (s : State) : State :=
  match loc with
  | .mem ((a, _) :: _) _ => if homeOf a = u.pkg then (s.dropDies a).addDie a (u.die s) else s
  | _ => s

/-- ATOM at a lane, one indivisible step (R170). -/
def actAtom (sp : Space) (ty : AtTy) (op : AtOp) (ord : AtOrd) (d a b : Reg) (u : Iss) (l : Nat) (loc : Loc) (s : State) :
    State × LaneEnd :=
  let t := u.thread s l
  match u.unserved l (t.pair a) loc.parts s with
  | some r => r
  | none =>
    let n := ty.w / 8
    let old := u.atomOld sp l n loc s
    let (v, e) := t.atomArgs ty op b
    let s := match atomNew ty op old v e with
      | some x => u.atomWrite sp l n loc x s
      | none => s
    let s := u.atomDie loc s
    let s := u.acquire ord.acqScope (u.l1Out loc s)
    u.defer l d ((wordsOf ty.wide (BitVec.ofNat 64 old)).map (fun w => (w, false))) 0 (u.countOp l loc.parts s)

/-- The operands of an ATOM's data field (R169). -/
def atomOpnd (ty : AtTy) (op : AtOp) (b : Reg) : Opnd :=
  if op == .cas then (if ty.wide then .quad b else .pair b) else .sized ty.wide b

def execAtom (c : Ctl) (sp : Space) (ty : AtTy) (op : AtOp) (ord : AtOrd) (d a b : Reg) (s : State) :
    Host.Outcome State Fault Refusal :=
  s.issueMem c { counts := true, reads := [.pair a, atomOpnd ty op b] }
    (.fixed sp (fun t => t.pair a) (ty.w / 8) (ty.w / 8) .atom .own) (fun _ => false)
    { rel := relWide sp ord.relScope, cmp := true,
      same := fun _ t => [t.pair a, BitVec.ofNat 64 (t.atomArgs ty op b).1, BitVec.ofNat 64 (t.atomArgs ty op b).2],
      late := fun _ => some (.atom ty op d b),
      act := actAtom sp ty op ord d a b }

/-- sv.task[39:0] × 2^24 + g[SB][23:0] (R171). -/
def redKey (inst : BitVec 40) (seq : Word) : DWord := inst ++ seq.extractLsb' 0 24

/-- RED at a lane: always at the home of its address (R63). -/
def actRed (sp : Space) (ty : AtTy) (op : AtOp) (key : Bool) (d a b : Reg) (u : Iss) (l : Nat) (loc : Loc) (s : State) :
    State × LaneEnd :=
  match u.team s with
  | none => (s, .left)
  | some tm =>
    let t := u.thread s l
    let n := ty.w / 8
    let v := (t.val ty.wide d).toNat
    let kv := redKey tm.inst (t.reg b)
    match u.storePoison (t.pair a) loc s with
    | some tr => (s, .trap tr)
    | none =>
      let s := (u.l1Out loc s).sink u.pkg (tm.coreOf u.group)
      match loc with
      | .mem ((x, _) :: _) _ =>
        if homeOf x = u.pkg then
          if key && (s.pkg u.pkg).keys.any (fun e => e.1 == kv) then (s, .done)
          else
            let s := if key then s.modPkg u.pkg (fun k => { k with keys := (kv, tm.inst) :: k.keys }) else s
            match atomNew ty op (u.atomOld sp l n loc s) v 0 with
            | some w => (u.atomWrite sp l n loc w s, .done)
            | none => (s, .done)
        else
          (u.countOp l loc.parts (u.sendWrite tm l (t.pair a) x
            (.req .red x (atomArg ty op) 0 kv key (BitVec.ofNat 64 v, 0) []) s), .done)
      | _ =>
        match atomNew ty op (u.atomOld sp l n loc s) v 0 with
        | some w => (u.atomWrite sp l n loc w s, .done)
        | none => (s, .done)

/-- A keyed RED at home waits while the key table has no room for its key (R326). -/
def redWait (b : Reg) (u : Iss) (l : Nat) (loc : Loc) (s : State) : Bool :=
  match u.team s with
  | none => false
  | some tm => loc.parts.any (fun x => homeOf x.1 == u.pkg) && (s.pkg u.pkg).keyFull (redKey tm.inst ((u.thread s l).reg b))

def execRed (c : Ctl) (sp : Space) (ty : AtTy) (op : AtOp) (key : Bool) (rel : Option Scope) (d a b : Reg) (s : State) :
    Host.Outcome State Fault Refusal :=
  s.issueMem c { reads := [.sized ty.wide d, .pair a] ++ (if key then [.one b] else []) }
    (.fixed sp (fun t => t.pair a) (ty.w / 8) (ty.w / 8) .write .write) (fun _ => false)
    { rel := relWide sp rel, cmp := true,
      same := fun _ t => [t.pair a, t.val ty.wide d, if key then (t.reg b).setWidth 64 else 0],
      first := fun u t => if t.region.isSome && !key then some (u.regionTrap 1 (some (t.pair a))) else none,
      wait := fun u l loc s => key && redWait b u l loc s,
      act := actRed sp ty op key d a b }

/-! ### FENCE (R173, R185) -/

/-- FENCE covers remote writes under R185: .st or .all at .cell or .space. -/
def fenceReports (kind : FenceKind) (sc : Scope) : Bool := kind != .ld && sc.wide

def execFence (c : Ctl) (kind : FenceKind) (sc : Scope) (s : State) : Host.Outcome State Fault Refusal :=
  s.issueHold c {} (fun u s' => match u.team s' with
      | some t => if sc.wide && (t.group u.group).rwCount != 0 && !(u.active c s').isEmpty then some s' else none
      | none => none)
    (fun u l s' =>
      match if fenceReports kind sc then u.storeFault (u.heldFails s l) else none with
      | some tr => (u.dropFails l s', .trap tr)
      | none => (if kind = .st then s' else u.acquire (some sc) s', .done))

/-! ### WAITM (R73, R174) -/

/-- WAITM at a lane: the arming read, then the wait. -/
def actWaitm (d a b t : Reg) (sc : Scope) (u : Iss) (l : Nat) (loc : Loc) (s : State) : State × LaneEnd :=
  let x := u.thread s l
  match u.unserved l (x.pair a) loc.parts s with
  | some r => r
  | none =>
    match loc with
    | .mem ((e, _) :: _) _ =>
      -- the read is fresh, and no later load of the thread reads an older copy (R66)
      let s := u.l1Out loc (u.acquire (some sc) s)
      let s := if homeOf e = u.pkg then s.addDie e (u.die s) else s
      if BitVec.ofNat 64 (leNat (s.seen u.pkg e 8)) != x.pair b then u.defer l d [(0, false)] 0 s
      else
        let tmo := (x.reg t).toNat
        let m : Monitor := ⟨lineOf e, x.pair a, if tmo = 0 then none else some ((s.pkg u.pkg).cycles s.clock + tmo)⟩
        (s.modThread u.pkg u.ctx u.group l (fun y => { y with
          st := .monitor m, defCount := y.defCount + 1,
          pend := y.pend ++ [⟨d.toNat, false, 1, [], false, 0, u.pc, false, y.undo, none⟩] }), .waiting)
    | _ => (s, .done)

def execWaitm (c : Ctl) (sc : Scope) (d a b t : Reg) (s : State) : Host.Outcome State Fault Refusal :=
  s.issueMem c { counts := true, reads := [.pair a, .pair b, .one t] }
    (.fixed .g (fun x => x.pair a) 8 8 .read .read) (fun _ => false)
    { cmp := true, same := fun _ x => [x.pair a], late := fun _ => some (.waitm d),
      first := fun u x => if x.region.isSome then some (u.regionTrap 7 (some (x.pair a))) else none,
      act := actWaitm d a b t sc }

/-! ### PREF and CMNT (R175, R176) -/

/-- PREF at a lane: a line that may be read comes into the L1, or is asked for; any other prefetch is dropped. -/
def Iss.prefetch (u : Iss) (sz : Size) (ea : DWord) (s : State) : State :=
  match u.team s with
  | none => s
  | some tm =>
    if ea.toNat % sz.bytes ≠ 0 ∨ 2 ^ 57 ≤ ea.toNat then s
    else
      match s.translate u.pkg tm.part (u.die s) ea.toNat .read with
      | (.ok tr, s) =>
        let a := s.forward (tr.at ea.toNat)
        if homeOf a = u.pkg then
          if (s.dirOf a).st.owned || s.poisoned a || s.locked a then s
          else (s.loadPiece u.pkg (tm.coreOf u.group) a 1).2
        else if (tfind (s.pkg u.pkg).copies (lineOf a)).isSome then (s.loadPiece u.pkg (tm.coreOf u.group) a 1).2
        else if (s.pkg u.pkg).dead (homeOf a) then s
        else s.request u.pkg tm { ctx := u.ctx, group := u.group, lanes := [], pc := u.pc, addr := a, dst := homeOf a, eseq := 0,
                                  kind := .pref, deadline := 0, tmo := 0 } (.req .gets (a / 128 * 128) 0 0 0 false (0, 0) [])
      | (_, s) => s

def execPref (c : Ctl) (sz : Size) (ea : Thread → DWord) (addr : List Opnd) (s : State) : Host.Outcome State Fault Refusal :=
  s.issue c { reads := addr } (fun u l s =>
    (if u.visLane s l = l then u.prefetch sz (ea (u.thread s l)) s else s, .done))
def execPrefOff (c : Ctl) (sz : Size) (a : Reg) (off : BitVec 18) (s : State) : Host.Outcome State Fault Refusal :=
  execPref c sz (eaOff a off) [.pair a] s
def execPrefIdx (c : Ctl) (sz : Size) (a b : Reg) (s : State) : Host.Outcome State Fault Refusal :=
  execPref c sz (eaIdx a b) [.pair a, .one b] s

/-- CMNT at a lane. A home's memory is current in this model whatever its caches hold, so `.wb` of a line has nothing to write. -/
def actCmnt (op : CmntOp) (u : Iss) (loc : Loc) (s : State) : State :=
  match loc with
  | .mem ((a, _) :: _) _ =>
    match op with
    | .inv => u.l1Out loc s
    | .wb => s
    | .evict => s.evict u.pkg (lineOf a)
  | _ => s

def execCmnt (c : Ctl) (sz : Size) (op : CmntOp) (ea : Thread → DWord) (addr : List Opnd) (s : State) :
    Host.Outcome State Fault Refusal :=
  s.issueMem c { reads := addr } (.fixed .g ea sz.bytes sz.bytes .read .none) (fun _ => false)
    { mild := fun e => e == .poison, act := fun u _ loc s => (actCmnt op u loc s, .done) }
def execCmntOff (c : Ctl) (sz : Size) (op : CmntOp) (a : Reg) (off : BitVec 18) (s : State) :
    Host.Outcome State Fault Refusal :=
  execCmnt c sz op (eaOff a off) [.pair a] s
def execCmntIdx (c : Ctl) (sz : Size) (op : CmntOp) (a b : Reg) (s : State) : Host.Outcome State Fault Refusal :=
  execCmnt c sz op (eaIdx a b) [.pair a, .one b] s

/-! ### Remote regions (R177 to R182) -/

/-- RBEG opens a region at the park that it makes: older results are written before the region opens, and 0 to the status register (R163,
R177; log entry 90). -/
def execRbeg (c : Ctl) (d a : Reg) (s : State) : Host.Outcome State Fault Refusal :=
  s.issue c { counts := true, reads := [.pair a], force := true } (fun u l s =>
    let t := u.thread s l
    let target := t.pair a
    if t.region.isSome then (s, .trap (u.regionTrap 4 none))
    else if 2 ^ 57 ≤ target.toNat then (s, .trap (u.trap 0x02 1 (some target)))
    else if target.toNat % 8 ≠ 0 then (s, .trap (u.trap 0x02 8 (some target)))
    else
      let t := (t.defer u.pc d.toNat false [(0, false)] 0).parkNow.1
      (u.setThread s l { t with region := some ⟨target, d, t.preds, [], 0, []⟩ }, .done))

/-- RCMT: the region's operations have all been answered. Where none has failed the region closes, as by a FENCE.all at .space; else it rolls
back with the earliest failure, RCMT being the failing instruction of a write (R179 to R181). -/
def Iss.commit (u : Iss) (l : Nat) (r : Region) (s : State) : State × LaneEnd :=
  match r.fails with
  | [] => (u.acquire (some .space) (s.modThread u.pkg u.ctx u.group l (fun t => { t with region := none })), .done)
  | f :: fs =>
    let (_, code, info, _, addr) := fs.foldl (fun (b : Nat × Nat × Nat × Pc × DWord) x => if x.1 < b.1 then x else b) f
    (s.rollback u.pkg u.ctx u.group l code (some (u.pc64, addr, BitVec.ofNat 64 info)) u.pc64, .left)

/-- A region operation of a lane is still unanswered (R181). -/
def Iss.regionOpen (u : Iss) (s : State) (l : Nat) : Bool :=
  (s.pkg u.pkg).reqs.any (fun e => e.2.ctx == u.ctx && e.2.group == u.group && e.2.region &&
    e.2.lanes.any (fun x => x.1 == u.visLane s l))

def execRcmt (c : Ctl) (s : State) : Host.Outcome State Fault Refusal :=
  s.issueHold c { force := true } (fun u s' => if (u.active c s').any (u.regionOpen s') then some s' else none)
    (fun u l s' =>
      match (u.thread s' l).region with
      | none => (s', .trap (u.regionTrap 5 none))
      | some r =>
        -- a shadow lane's region has the failures of its visible lane's writes
        let fails := ((u.thread s (u.visLane s l)).region.map (·.fails)).getD r.fails
        u.commit l { r with fails := fails } s')

/-- RABT rolls the region back at once: the status register takes 0x80, and tx.* stay (R182). -/
def execRabt (c : Ctl) (s : State) : Host.Outcome State Fault Refusal :=
  s.issue c {} (fun u l s =>
    if (u.thread s l).region.isNone then (s, .trap (u.regionTrap 5 none))
    else (s.rollback u.pkg u.ctx u.group l 0x80 none u.pc64, .left))

end Sys2Proof.Machine
end

