-- ==== Sys2Proof/Machine/Sync.lean ====
section
/-! DEFINITION. Named barriers and byte barriers, and the byte-barrier credits and waits that engines and headers share (R186 to
R193). -/

namespace Sys2Proof.Machine

/-- The meaning of a class 4 instruction: each active lane performs it as a separate thread, and a mirrored pair performs it once,
after its operands have been compared (R34, R187). -/
def State.effect (s : State) (c : Ctl) (k : Pre) (same : Thread → List DWord) (f : Iss → Nat → State → State × LaneEnd) :
    Host.Outcome State Fault Refusal :=
  s.issue c k (fun u l s' =>
    if u.pairAgrees c l same s then u.once c.park l (f u l) s' else (s', .trap u.mirrorTrap))

/-- The threads of a team in a state, by group and lane. -/
def Team.inState (t : Team) (f : TSt → Bool) : List (Nat × Nat) :=
  (List.range t.tmpl.groups).flatMap (fun g => (t.lanes.filter (fun l => f (t.thread g l).st)).map (fun l => (g, l)))

/-- tx.info of BARRIER (R188): the reason, the count that was fixed, and the count offered. -/
def barrierInfo (reason fixed : Nat) (v : Word) : DWord :=
  v ++ (BitVec.ofNat 4 0 ++ BitVec.ofNat 12 fixed ++ BitVec.ofNat 8 0 ++ BitVec.ofNat 8 reason : BitVec 32)
def barrierTrap (pc : Pc) (reason fixed : Nat) (v : Word) : Trap := ⟨0x0D, pc.setWidth 64, none, some (barrierInfo reason fixed v)⟩

def Team.setNb (t : Team) (n : Nat) (b : NBar) : Team := { t with nb := tput t.nb n b }
def Team.setBb (t : Team) (n : Nat) (b : BBar) : Team := { t with bb := tput t.bb n b }
def State.setNb (s : State) (p c n : Nat) (b : NBar) : State := s.modTeam p c (fun t => t.setNb n b)
def State.setBb (s : State) (p c n : Nat) (b : BBar) : State := s.modTeam p c (fun t => t.setBb n b)

/-- A trap at a thread of the team, unless the team has been stopped meanwhile; entries that it empties go. -/
def State.trapThread (s : State) (p c g l : Nat) (tr : Trap) : State :=
  match s.team? p c with
  | none => s
  | some t => if t.stop.isSome then s else (s.trap p c g l tr).modTeam p c (fun t => t.sweepEnts g)

/-! ### Named barriers (R188 to R190) -/

/-- Every thread parked in NBSYNC on a barrier takes BARRIER at its own instruction. -/
def State.trapNb (s : State) (p c : Nat) (t : Team) (n reason fixed : Nat) (v : Option Word) : State :=
  (t.inState (· == .nbar n)).foldl (fun s e =>
    let (w, s) : Word × State := match v with
      | some w => (w, s)
      | none => ((s.trapDetail none).1.setWidth 32, (s.trapDetail none).2)
    s.trapThread p c e.1 e.2 (barrierTrap (t.thread e.1 e.2).pc reason fixed w)) s

/-- Every thread parked in NBSYNC on a barrier goes on: the acquire of R75, then the next word. -/
def State.releaseNb (s : State) (p c : Nat) (t : Team) (n : Nat) : State :=
  (t.inState (· == .nbar n)).foldl (fun s e => (s.dropL1 p (t.coreOf e.1)).completeLane p c e.1 e.2) s

/-- The arrival of a thread with a count (R188). -/
def actArrive (n : Nat) (sync : Bool) (b : Src) (u : Iss) (l : Nat) (s : State) : State × LaneEnd :=
  match u.team s with
  | none => (s, .left)
  | some t =>
    let v := (u.thread s l).src32 b
    let sink (s : State) : State := s.sink u.pkg (t.coreOf u.group)
    let x := t.nbar n
    if v.toInt < 1 ∨ 2048 < v.toInt then (s, .trap (barrierTrap u.pc 2 x.cnt v))
    else if x.cnt ≠ 0 ∧ x.cnt ≠ v.toNat then
      ((s.setNb u.pkg u.ctx n { x with cnt := 0, arr := 0 }).trapNb u.pkg u.ctx t n 1 x.cnt (some v),
        .trap (barrierTrap u.pc 1 x.cnt v))
    else if x.arr + 1 = v.toNat then
      let s := ((sink s).setNb u.pkg u.ctx n ⟨!x.phase, 0, 0⟩).releaseNb u.pkg u.ctx t n
      (if sync then s.dropL1 u.pkg (t.coreOf u.group) else s, .done)
    else
      let s := (sink s).setNb u.pkg u.ctx n { x with cnt := v.toNat, arr := x.arr + 1 }
      if sync then (s.modThread u.pkg u.ctx u.group l (fun y => { y with st := .nbar n }), .waiting) else (s, .done)

def execNbarv (c : Ctl) (n : Reg) (b : Src) (s : State) : Host.Outcome State Fault Refusal :=
  s.effect c { reads := b.opnd false } (fun t => [(t.src32 b).setWidth 64]) (actArrive n.toNat false b)
def execNbsync (c : Ctl) (n : Reg) (b : Src) (s : State) : Host.Outcome State Fault Refusal :=
  s.effect c { reads := b.opnd false } (fun t => [(t.src32 b).setWidth 64]) (actArrive n.toNat true b)

/-- NBINIT (R190). The count offered, which no thread offers here, is a free value in tx.info (log entry 4). -/
def execNbinit (c : Ctl) (n : Reg) (s : State) : Host.Outcome State Fault Refusal :=
  s.effect c {} (fun _ => []) (fun u _ s =>
    match u.team s with
    | none => (s, .left)
    | some t =>
      let x := t.nbar n.toNat
      ((s.setNb u.pkg u.ctx n.toNat { x with cnt := 0, arr := 0 }).trapNb u.pkg u.ctx t n.toNat 3 x.cnt none, .done))

/-! ### Byte barriers (R191 to R193) -/

/-- The wait parity of a group. -/
def Group.setGwp (g : Group) (n : Nat) (b : Bool) : Group :=
  { g with gwp := if b then g.gwp ||| ((1 : BitVec 32) <<< n) else g.gwp &&& ~~~ ((1 : BitVec 32) <<< n) }

/-- The program counters at which lanes of a group wait on a byte barrier. -/
def Team.bbPcs (t : Team) (g n : Nat) : List Pc :=
  ((t.lanes.filter (fun l => (t.thread g l).st == .bbar n false || (t.thread g l).st == .bbar n true)).map
    (fun l => (t.thread g l).pc)).eraseDups

/-- A completion is consumed by one waiting entry of a group: which one is a free choice (R193). Its lanes all go on. -/
def State.releaseBbGroup (s : State) (p c n : Nat) (phase : Bool) (g : Nat) : State :=
  match s.team? p c with
  | none => s
  | some t =>
    match t.bbPcs g n with
    | [] => s
    | pcs =>
      let (k, s) := if pcs.length = 1 then (0, s) else s.choose pcs.length
      let pc := pcs.getD k 0
      let lanes := t.lanes.filter (fun l =>
        ((t.thread g l).st == .bbar n false || (t.thread g l).st == .bbar n true) && (t.thread g l).pc == pc)
      let s := (s.modGroup p c g (fun x => x.setGwp n phase)).dropL1 p (t.coreOf g)
      lanes.foldl (fun s l => s.completeLane p c g l) s

/-- A byte barrier takes a new state and makes the Test of R192. In a bank that is not active, or
of a stopped team, nothing is released (R297). -/
def State.bbTest (s : State) (p c n : Nat) (b : BBar) : State :=
  if b.arr = 0 ∧ b.bytes = 0 then
    let b' : BBar := { b with phase := !b.phase, arr := b.init }
    match s.team? p c with
    | none => s
    | some t =>
      let s := s.setBb p c n b'
      if t.place.isNone || t.stop.isSome then s
      else (List.range t.tmpl.groups).foldl (fun s g => s.releaseBbGroup p c n b'.phase g) s
  else s.setBb p c n b

/-- Credit (R192): bytes landed by a copy-engine operation. -/
def State.bbCredit (s : State) (p c n bytes : Nat) : State :=
  match s.team? p c with
  | none => s
  | some t => s.bbTest p c n { t.bbar n with bytes := (t.bbar n).bytes - bytes }

/-- What a byte-barrier operation makes of the barrier: its new state, or the reason of BARRIER. -/
def bbOp (init arrive : Bool) (b : BBar) (v : Int) : Except Nat BBar :=
  if init then
    if v < 0 ∨ 65535 < v then .error 4 else .ok { b with init := v.toNat, arr := v.toNat, bytes := 0 }
  else if arrive then
    if v < 0 ∨ (b.arr : Int) < v then .error 5 else .ok { b with arr := b.arr - v.toNat }
  else if v < 0 ∨ 2 ^ 31 - 1 < b.bytes + v then .error 4
  else .ok { b with bytes := b.bytes + v }

/-- BBINIT, BBEXP and BBARV at a lane: the operation, then the Test for the last two. -/
def actBb (init arrive : Bool) (n : Nat) (b : Src) (u : Iss) (l : Nat) (s : State) : State × LaneEnd :=
  match u.team s with
  | none => (s, .left)
  | some t =>
    let v := (u.thread s l).src32 b
    match bbOp init arrive (t.bbar n) v.toInt with
    | .error r => (s, .trap (barrierTrap u.pc r 0 v))
    | .ok x =>
      let s := if arrive then s.sink u.pkg (t.coreOf u.group) else s
      (if init then s.setBb u.pkg u.ctx n x else s.bbTest u.pkg u.ctx n x, .done)

def execBbinit (c : Ctl) (n b : Reg) (s : State) : Host.Outcome State Fault Refusal :=
  s.effect c { reads := [.one b] } (fun t => [(t.reg b).setWidth 64]) (actBb true false n.toNat (.reg b))
def execBbexp (c : Ctl) (n : Reg) (b : Src) (s : State) : Host.Outcome State Fault Refusal :=
  s.effect c { reads := b.opnd false } (fun t => [(t.src32 b).setWidth 64]) (actBb false false n.toNat b)
def execBbarv (c : Ctl) (n : Reg) (b : Src) (s : State) : Host.Outcome State Fault Refusal :=
  s.effect c { reads := b.opnd false } (fun t => [(t.src32 b).setWidth 64]) (actBb false true n.toNat b)

/-- A barrier's phase as its group has not yet consumed it (R193). -/
def Iss.bbReady (u : Iss) (n : Nat) (s : State) : Bool :=
  match u.team s with
  | some t => (t.bbar n).phase != (t.group u.group).gwp.getLsbD n
  | none => false

/-- BBWAIT (R193): its test is made once for the entry, on the state before the instruction; its active lanes all go on or all
park. -/
def execBbwait (c : Ctl) (n : Reg) (s : State) : Host.Outcome State Fault Refusal :=
  s.issue c {} (fun u l s' =>
    if !u.pairAgrees c l (fun _ => ()) s then (s', .trap u.mirrorTrap)
    else
      match u.team s with
      | none => (s', .left)
      | some t =>
        if u.bbReady n.toNat s then
          ((s'.modGroup u.pkg u.ctx u.group (fun x => x.setGwp n.toNat (t.bbar n.toNat).phase)).dropL1 u.pkg
            (t.coreOf u.group), .done)
        else (s'.modThread u.pkg u.ctx u.group l (fun y => { y with st := .bbar n.toNat false }), .waiting))

/-- BBTEST (R193): a completion seen is the acquire of R75. -/
def execBbtest (c : Ctl) (pd : PredIx) (n : Reg) (s : State) : Host.Outcome State Fault Refusal :=
  s.effect c { counts := true } (fun _ => []) (fun u l s =>
    let b := u.bbReady n.toNat s
    u.deferPred l pd b (if b then u.acquire (some .team) s else s))

end Sys2Proof.Machine
end

