-- ==== Sys2Proof/Machine/Booth.lean ====
section
/-! DEFINITION. Held objects and tickets: the Booth's checks of a handle, the ticket instructions, and the background step (R194 to
R201). -/

namespace Sys2Proof.Machine

/-! ### Handles (R194, R197) -/

def hBooth (h : DWord) : Nat := (h.extractLsb' 61 3).toNat
def hObj (h : DWord) : Nat := (h.extractLsb' 40 21).toNat
def hSeq (h : DWord) : BitVec 24 := h.extractLsb' 16 24
def hGen (h : DWord) : BitVec 16 := h.extractLsb' 0 16

/-- TICKET (R197). -/
def Iss.ticket (u : Iss) (h : DWord) (reason : Nat) : Trap := u.trap 0x0E reason (some h)

/-- The object that a handle names, by reasons 1 and 9 (R197). -/
def Iss.object (u : Iss) (part : Nat) (h : DWord) (s : State) : Except Nat Obj :=
  if 6 ≤ hBooth h then .error 1
  else
    match tfind (s.die u.pkg (hBooth h)).objs (hObj h) with
    | none => .error 1
    | some o => if !o.live || o.gen != hGen h then .error 1 else if o.part ≠ part then .error 9 else .ok o

/-- The object that an object handle names: its SEQ is 0, which reason 1 checks before reason 9 (R197). -/
def Iss.objectOnly (u : Iss) (part : Nat) (h : DWord) (s : State) : Except Nat Obj :=
  if hSeq h ≠ 0 then .error 1 else u.object part h s

/-- A place with its index in the queue. -/
def Obj.place? (o : Obj) (seq : BitVec 24) : Option (Nat × Place) :=
  match o.places.findIdx? (fun x => x.seq == seq) with
  | none => none
  | some k => o.places[k]?.map (fun x => (k, x))

/-- The object and the place that a handle names, by reasons 1, 9 and 2. -/
def Iss.place (u : Iss) (part : Nat) (h : DWord) (s : State) : Except Nat (Obj × Nat × Place) :=
  match u.object part h s with
  | .error e => .error e
  | .ok o => match o.place? (hSeq h) with
    | none => .error 2
    | some (k, x) => .ok (o, k, x)

/-- THR of a visible lane (R196). -/
def Iss.thr (u : Iss) (l : Nat) : Nat := u.group * 64 + l

/-- The caller's own place, by reason 3 too. -/
def Iss.ownPlace (u : Iss) (part : Nat) (l : Nat) (h : DWord) (s : State) : Except Nat (Obj × Nat × Place) :=
  match u.place part h s with
  | .error e => .error e
  | .ok (o, k, x) => if x.abandoned || x.ctx != u.ctx || x.thr != u.thr l then .error 3 else .ok (o, k, x)

/-- A ticket operation on the caller's own place. -/
def ticketOp (a : Reg) (f : Iss → Nat → DWord → Obj → Nat → Place → State → State × LaneEnd) (u : Iss) (l : Nat) (s : State) :
    State × LaneEnd :=
  let h := (u.thread s l).pair a
  match u.ownPlace (u.part s) l h s with
  | .error r => (s, .trap (u.ticket h r))
  | .ok (o, k, x) => f u l h o k x s

/-- The operands of a ticket instruction that reads one pair. -/
def State.ticketEffect (s : State) (c : Ctl) (counts : Bool) (a : Reg)
    (f : Iss → Nat → DWord → Obj → Nat → Place → State → State × LaneEnd) : Host.Outcome State Fault Refusal :=
  s.effect c { counts := counts, reads := [.pair a] } (fun t => [t.pair a]) (ticketOp a f)

/-! ### The ticket instructions (R198) -/

/-- NEXTSEQ counts 1 to 0xFF_FFFF and wraps to 1 (R195). -/
def nextSeq (q : BitVec 24) : BitVec 24 := if q = 0xFFFFFF then 1 else q + 1

/-- Places that a Booth can store: its links are 24-bit indexes, of which one is null (R196). -/
def boothStorage : Nat := 2 ^ 24 - 1
def Die.places (d : Die) : Nat := d.objs.foldl (fun n o => n + o.2.places.length) 0

/-- A handle pair and a predicate as one deferred result, which counts once (R91; log entry 91). -/
def Iss.deferTicket (u : Iss) (l : Nat) (d : Reg) (v : DWord) (pk : PredIx) (b : Bool) (s : State) : State × LaneEnd :=
  let t := u.thread s l
  let vs : List (Word × Bool) := (words2 v).map (fun w => (w, false)) ++ [(if b then 1 else 0, false)]
  (u.setThread s l { t with pend := t.pend ++ [⟨d.toNat, false, 3, vs, false, 0, u.pc, true, t.undo, some pk.toNat⟩],
                            defCount := t.defCount + 1 }, .done)

/-- TKREQ at a lane. -/
def actTkreq (yld : Bool) (d a : Reg) (pk : PredIx) (u : Iss) (l : Nat) (s : State) : State × LaneEnd :=
  let h := (u.thread s l).pair a
  match u.objectOnly (u.part s) h s with
  | .error r => (s, .trap (u.ticket h r))
  | .ok o =>
    if 2 ^ 20 - 1 ≤ o.places.length ∨ boothStorage ≤ (s.die u.pkg (hBooth h)).places then (s, .trap (u.ticket h 5))
    else
      let hold := o.places.isEmpty
      let x : Place := ⟨o.nextSeq, !hold, hold, false, yld, u.ctx, u.thr l⟩
      let s := s.setObj u.pkg (hBooth h) (hObj h) { o with places := o.places ++ [x], nextSeq := nextSeq o.nextSeq }
      u.deferTicket l d (handleOf (hBooth h) (hObj h) o.nextSeq o.gen) pk hold (if hold then u.acquire (some .pkg) s else s)

def execTkreq (c : Ctl) (yld : Bool) (d a : Reg) (pk : PredIx) (s : State) : Host.Outcome State Fault Refusal :=
  s.effect c { counts := true, reads := [.pair a] } (fun t => [t.pair a]) (actTkreq yld d a pk)

/-- TKTRY: pd is HOLDER. -/
def execTktry (c : Ctl) (pd : PredIx) (a : Reg) (s : State) : Host.Outcome State Fault Refusal :=
  s.ticketEffect c true a (fun u l _ _ _ x s =>
    u.deferPred l pd x.holder (if x.holder then u.acquire (some .pkg) s else s))

/-- TKWAIT: a holder goes on; a waiting thread parks on its ticket until the grant, and then finds itself the holder. -/
def execTkwait (c : Ctl) (a : Reg) (s : State) : Host.Outcome State Fault Refusal :=
  s.ticketEffect c false a (fun u l h _ _ x s =>
    if x.holder then (u.acquire (some .pkg) s, .done)
    else (s.modThread u.pkg u.ctx u.group l (fun t => { t with st := .ticket h }), .parked))

/-- The context and the THR of an identity, where it names a live thread of a running task of a partition (R197, reason 6). -/
def State.liveThread (s : State) (p part : Nat) (v : DWord) : Option (Nat × Nat) :=
  let inst : BitVec 40 := v.extractLsb' 0 40
  let g := (v.extractLsb' 40 5).toNat
  let l := (v.extractLsb' 45 6).toNat
  if v.extractLsb' 51 13 ≠ 0 then none
  else
    match (s.pkg p).teams.find? (fun e => e.2.inst == inst && e.2.part == part && e.2.stop.isNone) with
    | none => none
    | some (ctx, t) => if g < t.tmpl.groups ∧ l < t.vis ∧ (t.thread g l).live then some (ctx, g * 64 + l) else none

def execTkgive (c : Ctl) (a b : Reg) (s : State) : Host.Outcome State Fault Refusal :=
  s.effect c { reads := [.pair a, .pair b] } (fun t => [t.pair a, t.pair b]) (fun u l s =>
    ticketOp a (fun u l h o k x s =>
      match s.liveThread u.pkg (u.part s) ((u.thread s l).pair b) with
      | none => (s, .trap (u.ticket h 6))
      | some (ctx, thr) =>
        (s.setObj u.pkg (hBooth h) (hObj h) { o with places := o.places.set k { x with ctx := ctx, thr := thr } }, .done)) u l s)

/-- TKSWAP: two waiting places of one object exchange positions, and the one that moves forward loses YIELDABLE. -/
def execTkswap (c : Ctl) (pd : PredIx) (a b : Reg) (s : State) : Host.Outcome State Fault Refusal :=
  s.effect c { counts := true, reads := [.pair a, .pair b] } (fun t => [t.pair a, t.pair b]) (fun u l s =>
    ticketOp a (fun u l h o k x s =>
      let hb := (u.thread s l).pair b
      match u.place (u.part s) hb s with
      | .error r => (s, .trap (u.ticket hb r))
      | .ok (_, m, y) =>
        let good := hBooth h == hBooth hb && hObj h == hObj hb && decide (k < m) && x.waiting && y.waiting && y.yieldable
        u.deferPred l pd good (if good then
          s.setObj u.pkg (hBooth h) (hObj h)
            { o with places := (o.places.set k { y with yieldable := false }).set m x } else s)) u l s)

def execTkaban (c : Ctl) (a : Reg) (s : State) : Host.Outcome State Fault Refusal :=
  s.ticketEffect c false a (fun u _ h o _ x s =>
    if x.holder then (s, .trap (u.ticket h 4))
    else (s.setObj u.pkg (hBooth h) (hObj h) (o.abandon x.seq), .done))

def execTkrel (c : Ctl) (a : Reg) (s : State) : Host.Outcome State Fault Refusal :=
  s.ticketEffect c false a (fun u _ h o _ x s =>
    if x.waiting then (s, .trap (u.ticket h 4))
    else
      let s := match u.team s with
        | some t => s.sink u.pkg (t.coreOf u.group)
        | none => s
      (s.setObj u.pkg (hBooth h) (hObj h) (o.release x.seq), .done))

/-- The position of a place: the places ahead of it that are not abandoned (R196). -/
def Obj.position (o : Obj) (k : Nat) : Nat := ((o.places.take k).filter (fun x => !x.abandoned)).length

def execTkinfo (c : Ctl) (d a : Reg) (s : State) : Host.Outcome State Fault Refusal :=
  s.ticketEffect c true a (fun u l _ o k _ s =>
    u.defer l d [(BitVec.ofNat 32 (o.position k), false), (BitVec.ofNat 32 o.places.length, false)] 0 s)

/-- A background step of an object whose skipping is in progress (R199). -/
def execBoothStep (p die obj : Nat) (s : State) : Host.Outcome State Fault Refusal :=
  .next (match tfind (s.die p die).objs obj with
    | none => s
    | some o => if o.skipping then s.setObj p die obj o.advance else s)

/-! ### Objects (R201) -/

/-- An object number that is not live: the first from `n` upward, around the end. -/
def Die.freeObj (d : Die) : Nat → Nat → Nat
  | 0, n => n
  | fuel + 1, n => match tfind d.objs n with
    | some o => if o.live then d.freeObj fuel ((n + 1) % 2 ^ 21) else n
    | none => n
def Die.liveObjs (d : Die) : Nat := (d.objs.filter (fun o => o.2.live)).length

/-- GEN of a new object: one more than the number's last one had (R194). -/
def Die.nextGen (d : Die) (n : Nat) : BitVec 16 :=
  match tfind d.objs n with
  | some o => o.gen + 1
  | none => 0

/-- HONEW: the object number is a free choice among those that are not live (R201, R55). -/
def actHonew (d a : Reg) (u : Iss) (l : Nat) (s : State) : State × LaneEnd :=
  let v := (u.thread s l).reg a
  let sel := (v.extractLsb' 0 3).toNat
  if v.extractLsb' 3 29 ≠ 0 ∨ sel = 6 then (s, .trap (u.trap 0x0E 8 none))
  else
    let die := if sel = 7 then u.die s else sel
    let x := s.die u.pkg die
    if 2 ^ 21 ≤ x.liveObjs then (s, .trap (u.trap 0x0E 5 none))
    else
      let (k, s) := s.choose (2 ^ 21)
      let n := x.freeObj (x.objs.length + 1) k
      let gen := x.nextGen n
      let s := s.setObj u.pkg die n ⟨gen, 1, false, true, u.part s, []⟩
      u.defer l d ((words2 (handleOf die n 0 gen)).map (fun w => (w, false))) 0 s

def execHonew (c : Ctl) (d a : Reg) (s : State) : Host.Outcome State Fault Refusal :=
  s.effect c { counts := true, reads := [.one a] } (fun t => [(t.reg a).setWidth 64]) (actHonew d a)

def execHodel (c : Ctl) (a : Reg) (s : State) : Host.Outcome State Fault Refusal :=
  s.effect c { reads := [.pair a] } (fun t => [t.pair a]) (fun u l s =>
    let h := (u.thread s l).pair a
    match u.objectOnly (u.part s) h s with
    | .error r => (s, .trap (u.ticket h r))
    | .ok o => if !o.places.isEmpty then (s, .trap (u.ticket h 7))
      else (s.setObj u.pkg (hBooth h) (hObj h) { o with live := false }, .done))

end Sys2Proof.Machine
end

