-- ==== Sys2Proof/Machine/Agent.lean ====
section
/-! DEFINITION. Accesses that are no thread's: those of the Ringmaster, of the engines and of the host, at virtual or at space addresses.
Each is made at the home at once (log entry 23). -/

namespace Sys2Proof.Machine

/-- Whom an access serves: the partition whose tables it walks, whether its task is driver work, and the task, program counter and
core that a PAGE_MALFORMED record names (R352). -/
structure Who where
  part : Nat
  driver : Bool := false
  inst : BitVec 40 := 0
  pc : DWord := 0
  core : Nat := 0xFFFF
  deriving DecidableEq, Repr

/-- A failed access: the trap code, tx.info[7:0], and the virtual address. -/
structure AFail where
  code : Nat
  info : Nat
  addr : Nat
  deriving DecidableEq, Repr

/-- The trap code and tx.info[7:0] of a failed translation (R308). -/
def Xl.trap : Xl → Nat × Nat
  | .page => (0x05, 0)
  | .poison => (0x08, 0)
  | .malformed _ => (0x06, 0x31)
  | .perm => (0x06, 0x20)
  | .fault code info => (code, info)
  | .space | .ok _ => (0x15, 0)

/-- The record of a walk that finds a malformed entry (R352). -/
def Who.malformed (w : Who) (va level : Nat) : Rec :=
  ⟨0x0B, w.part, 0x06, w.inst, w.pc, w.core, 0xFF, dataAt [(32, leBytes 8 va), (40, leBytes 1 level), (41, leBytes 1 w.part)]⟩

/-- A translation for an agent: through a die's TLBs, or by a walk of its own. -/
def State.agentXl (s : State) (p : Nat) (w : Who) (die : Option Nat) (va : Nat) (acc : Access) : Xl × State :=
  if 2 ^ 57 ≤ va then (.space, s)
  else
    let r := match die with
      | some d => s.translate p w.part d va acc
      | none =>
        match s.walk p w.part va with
        | (.ok t, es) => (es.foldl (fun (s : State) e => s.setPteBit e 5) (s.needWalk 0 es)).useTr p va acc t
        | (x, es) => (x, s.needWalk 0 es)
    match r with
    | (.malformed level, s) => (.malformed level, s.event p (ringOf w.part w.driver) (w.malformed va level))
    | r => r

/-- The space address of an agent's access to bytes of one line. -/
def State.agentLine (s : State) (p : Nat) (w : Who) (die : Option Nat) (va : Nat) (acc : Access) : Except AFail Nat × State :=
  match s.agentXl p w die va acc with
  | (.ok t, s) =>
    let a := s.forward (t.at va)
    match s.homeFault p a (acc == .write) with
    | some (c, i) => (.error ⟨c, i, va⟩, s)
    | none => (.ok a, s)
  | (x, s) => (.error ⟨x.trap.1, x.trap.2, va⟩, s)

/-- Bytes that an agent reads at a virtual address, line by line. -/
def State.agentReadFuel (p : Nat) (w : Who) (die : Option Nat) : Nat → Nat → Nat → State → Except AFail (List Byte) × State
  | 0, _, _, s => (.ok [], s)
  | fuel + 1, va, n, s =>
    if n = 0 then (.ok [], s)
    else
      let k := min n (128 - va % 128)
      match s.agentLine p w die va .read with
      | (.error f, s) => (.error f, s)
      | (.ok a, s) =>
        let bs := s.peekN a k
        match State.agentReadFuel p w die fuel (va + k) (n - k) (s.need a false (die.getD 0)) with
        | (.ok cs, s) => (.ok (bs ++ cs), s)
        | e => e
def State.agentRead (s : State) (p : Nat) (w : Who) (die : Option Nat) (va n : Nat) : Except AFail (List Byte) × State :=
  State.agentReadFuel p w die (n / 128 + 2) va n s

/-- Bytes that an agent writes at a virtual address, line by line, up to the first failure. -/
def State.agentWriteFuel (p : Nat) (w : Who) (die : Option Nat) : Nat → Nat → List Byte → State → Option AFail × State
  | 0, _, _, s => (none, s)
  | fuel + 1, va, bs, s =>
    if bs.isEmpty then (none, s)
    else
      let k := 128 - va % 128
      match s.agentLine p w die va .write with
      | (.error f, s) => (some f, s)
      | (.ok a, s) => State.agentWriteFuel p w die fuel (va + k) (bs.drop k) (s.poke a (bs.take k))
def State.agentWrite (s : State) (p : Nat) (w : Who) (die : Option Nat) (va : Nat) (bs : List Byte) : Option AFail × State :=
  State.agentWriteFuel p w die (bs.length / 128 + 2) va bs s

end Sys2Proof.Machine
end

