-- ==== Sys2Proof/Machine/Engine.lean ====
section
/-! DEFINITION. What the engines share: the pages that a command translates and locks at issue (R209, R213, R214, R309), its reads and
writes of them (R383), the issue of a group instruction (R26 to R28, R208, R209), and the matrix queue with its claim (R211,
R212, R237). -/

namespace Sys2Proof.Machine

/-! ### Pages translated and locked at issue -/

/-- Why an issue stops: a trap for every lane of the entry, or an absent page (R209). -/
inductive GFail
  | trap (t : Trap)
  | page (va : Nat) (acc : Access)
  deriving DecidableEq, Repr

/-- A trap of R209 that names an address or an offset: tx.info[7:0] is 0. -/
def Iss.atIssue (u : Iss) (code va : Nat) : GFail := .trap (u.trap code 0 (some (BitVec.ofNat 64 va)))
/-- ENGINE with its reason and the operand value or the block's address (R209). -/
def Iss.engFail (u : Iss) (reason v : Nat) : GFail := .trap (u.trap 0x17 reason (some (BitVec.ofNat 64 v)))

/-- A page translated for an engine command (R209). -/
def Iss.lockPage (u : Iss) (tm : Team) (acc : Access) (va : Nat) (s : State) : Except GFail PageTr × State :=
  if 2 ^ 57 ≤ va then (.error (u.atIssue 0x15 va), s)
  else
    match s.translate u.pkg tm.part (u.die s) va acc with
    | (.ok t, s) => (.ok t, s)
    | (.page, s) => (.error (.page va acc), s)
    | (.malformed level, s) => (.error (u.atIssue 0x06 va), s.pageMalformed u.pkg tm u.group u.pc64 0xFF va level)
    | (x, s) => (.error (u.atIssue x.trap.1 va), s)

/-- The page of a list that holds an address. -/
def pageOf (ps : List PageTr) (va : Nat) : Option PageTr := ps.find? (fun t => t.covers va)

/-- What a command asks of the pages of an area: the formats of the first page, whether blocks may have a geometry, and that every
page agrees with the first (R49, R213, R214, R242). -/
structure PageRule where
  acc : Access
  fmts : List Nat
  geom : Bool
  deriving DecidableEq, Repr

/-- A page of an area fits the rule, beside those before it. -/
def PageRule.fits (k : PageRule) (ps : List PageTr) (t : PageTr) : Bool :=
  match ps with
  | [] => k.fmts.contains t.fmt && elemFmtOk t.fmt t.geom && (k.geom || t.geom == 0)
  | p :: _ => t.fmt == p.fmt && t.geom == p.geom

/-- The page at an address, translated once for the command and checked; FORMAT where it does not fit. -/
def Iss.lockAt (u : Iss) (tm : Team) (k : PageRule) (va : Nat) (ps : List PageTr) (s : State) :
    Except GFail (PageTr × List PageTr) × State :=
  match pageOf ps va with
  | some t => (.ok (t, ps), s)
  | none =>
    match u.lockPage tm k.acc va s with
    | (.error e, s) => (.error e, s)
    | (.ok t, s) => if k.fits ps t then (.ok (t, ps ++ [t]), s) else (.error (u.atIssue 0x07 va), s)

/-- The pages of `n` bytes from an address. -/
def Iss.lockRun (u : Iss) (tm : Team) (k : PageRule) : Nat → Nat → Nat → List PageTr → State →
    Except GFail (List PageTr) × State
  | 0, _, _, ps, s => (.ok ps, s)
  | fuel + 1, va, n, ps, s =>
    if n = 0 then (.ok ps, s)
    else
      match u.lockAt tm k va ps s with
      | (.error e, s) => (.error e, s)
      | (.ok (t, ps), s) =>
        let left := t.va + t.size - va
        if n ≤ left then (.ok ps, s) else u.lockRun tm k fuel (va + left) (n - left) ps s

/-- The pages of `n` I4X blocks from an address, every page's tail skipped (R49). -/
def Iss.lockBlocks (u : Iss) (tm : Team) (k : PageRule) : Nat → Nat → Nat → List PageTr → State →
    Except GFail (List PageTr) × State
  | 0, _, _, ps, s => (.ok ps, s)
  | fuel + 1, va, n, ps, s =>
    if n = 0 then (.ok ps, s)
    else
      match u.lockAt tm k va ps s with
      | (.error e, s) => (.error e, s)
      | (.ok (t, ps), s) =>
        let fit := (t.va + t.size - va) / 80
        if n ≤ fit then (.ok ps, s) else u.lockBlocks tm k fuel (t.va + t.size) (n - fit) ps s

/-- An address starts a whole block of its page (R49). -/
def PageTr.blockStart (t : PageTr) (va : Nat) : Bool := (va - t.va) % 80 == 0 && decide (va + 80 ≤ t.va + t.size)

/-- The pages of `n` elements from an address; ALIGN where it starts no element or block (R49). -/
def Iss.lockElems (u : Iss) (tm : Team) (k : PageRule) (va n : Nat) (s : State) : Except GFail (List PageTr) × State :=
  match u.lockAt tm k va [] s with
  | (.error e, s) => (.error e, s)
  | (.ok (t, ps), s) =>
    if t.fmt = 9 then
      if t.blockStart va then u.lockBlocks tm k (n + 2) va ((n + 127) / 128) ps s else (.error (u.atIssue 0x04 va), s)
    else if va % elemSize t.fmt ≠ 0 then (.error (u.atIssue 0x04 va), s)
    else u.lockRun tm k (n * elemSize t.fmt / 65536 + 2) va (n * elemSize t.fmt) ps s

/-- Several runs of one length, in order. -/
def Iss.lockRuns (u : Iss) (tm : Team) (k : PageRule) (n : Nat) : List Nat → List PageTr → State → Except GFail (List PageTr) × State
  | [], ps, s => (.ok ps, s)
  | va :: vas, ps, s =>
    match u.lockRun tm k (n / 65536 + 2) va n ps s with
    | (.error e, s) => (.error e, s)
    | (.ok ps, s) => u.lockRuns tm k n vas ps s

/-- A die's count of locks of a leaf (R309). -/
def Die.lockCount (d : Die) (leaf : Nat) : Nat := tget 0 d.locks leaf
/-- LOCK of a leaf as the dies' counts give it (R309). -/
def State.lockBit (s : State) (p leaf : Nat) : State :=
  let on := (s.pkg p).dies.any (fun d => d.2.lockCount leaf != 0)
  let a := s.forward (leaf + 7)
  let b := s.peek a
  if b.getLsbD 7 = on then s else s.poke a [if on then b ||| 0x80 else b &&& 0x7F]
/-- The pages of a command are locked, or unlocked, on a die. -/
def State.lockPages (s : State) (p die : Nat) (lock : Bool) (ps : List PageTr) : State :=
  ps.foldl (fun s t => (s.modDie p die (fun d => { d with locks :=
    (let n := d.lockCount t.leaf
     if lock then tput d.locks t.leaf (n + 1) else if n ≤ 1 then tdel d.locks t.leaf else tput d.locks t.leaf (n - 1)) })).lockBit
      p t.leaf) s

/-! ### Reads and writes of locked pages (R383) -/

/-- The first failure of a command's accesses: trap code and address. -/
abbrev EFail := Option (Nat × Nat)

/-- Bytes of locked pages; a byte that cannot be read is none. -/
def State.lockedRead (s : State) (p : Nat) (ps : List PageTr) : Nat → Nat → Nat → List (Option Byte) × EFail
  | 0, _, _ => ([], none)
  | fuel + 1, va, n =>
    if n = 0 then ([], none)
    else
      let k := min n (128 - va % 128)
      let here : List (Option Byte) × EFail := match pageOf ps va with
        | none => (List.replicate k none, none)
        | some t =>
          let a := s.forward (t.at va)
          match s.homeFault p a false with
          | some (c, _) => (List.replicate k none, some (c, va))
          | none => ((s.peekN a k).map some, none)
      let rest := s.lockedRead p ps fuel (va + k) (n - k)
      (here.1 ++ rest.1, here.2.or rest.2)
def State.readLocked (s : State) (p : Nat) (ps : List PageTr) (va n : Nat) : List (Option Byte) × EFail :=
  s.lockedRead p ps (n / 128 + 2) va n

/-- A read of locked pages is an access at the homes of its lines (R317). -/
def State.needLocked (p die : Nat) (ps : List PageTr) : Nat → Nat → Nat → State → State
  | 0, _, _, s => s
  | fuel + 1, va, n, s =>
    if n = 0 then s
    else
      let k := min n (128 - va % 128)
      let s := match pageOf ps va with
        | none => s
        | some t =>
          let a := s.forward (t.at va)
          if (s.homeFault p a false).isSome then s else s.need a false die
      State.needLocked p die ps fuel (va + k) (n - k) s
def State.needRun (s : State) (p die : Nat) (ps : List PageTr) (va n : Nat) : State := State.needLocked p die ps (n / 128 + 2) va n s

/-- A byte string in which no byte has failed. -/
def allBytes (bs : List (Option Byte)) : Option (List Byte) := bs.foldr (fun b r => match b, r with
  | some x, some xs => some (x :: xs)
  | _, _ => none) (some [])

/-- A write within one line of a locked page, which is not performed where its home fails it (R383); `f` gives the new bytes from the
old. -/
def State.writeLocked (s : State) (p : Nat) (ps : List PageTr) (va n : Nat) (f : List Byte → List Byte) : State × EFail :=
  match pageOf ps va with
  | none => (s, none)
  | some t =>
    let a := s.forward (t.at va)
    match s.homeFault p a true with
    | some (c, _) => (s, some (c, va))
    | none => (s.poke a (f (s.peekN a n)), none)

/-- The address of block `k` of a run of I4X blocks (R49). -/
def blockAt (ps : List PageTr) : Nat → Nat → Nat → Nat
  | 0, va, _ => va
  | fuel + 1, va, k =>
    match pageOf ps va with
    | none => va
    | some t =>
      let fit := (t.va + t.size - va) / 80
      if k < fit then va + 80 * k else blockAt ps fuel (t.va + t.size) (k - fit)

/-! ### The issue of a group instruction -/

/-- How a group instruction ends at issue. -/
inductive GEnd
  /-- It retires. -/
  | done
  /-- It waits at issue. -/
  | wait
  /-- It retires when its command does, and the group waits for it (R237). -/
  | held
  | fail (f : GFail)
  deriving DecidableEq, Repr

/-- The visible non-exited lanes of a group, ascending (R34). -/
def Team.liveVis (t : Team) (g : Nat) : List Nat := t.visLanes.filter (fun l => (t.thread g l).live)
/-- The visible lanes of an entry, parked ones among them (R28). -/
def Team.entVis (t : Team) (g : Nat) (pc : Pc) : List Nat := (t.entLanes g pc).filter (fun l => decide (l < t.vis))

/-- Every lane of the entry ends an instruction alike, whatever its guard. -/
def Iss.allEnd (u : Iss) (c : Ctl) (f : Iss → Nat → State → State × LaneEnd) (s : State) : State :=
  u.run { c with pneg := false, pred := 0 } {} f s
def Iss.allTrap (u : Iss) (c : Ctl) (t : Trap) (s : State) : State := u.allEnd c (fun _ _ s => (s, .trap t)) s

/-- A group waits for the command that its entry has issued: its ports issue nothing, and its lanes stay at the instruction (R237). -/
def Iss.groupWaits (u : Iss) (c : Ctl) (s : State) : State :=
  let s := (u.stamp s).modGroup u.pkg u.ctx u.group (fun g => { g.idlePorts with vwait := true })
  if c.park then u.lanes.foldl (fun s l => s.modThread u.pkg u.ctx u.group l (fun t => { t with parkDue := true })) s else s

/-- A group instruction's end takes effect. -/
def Iss.groupEnd (u : Iss) (c : Ctl) (s0 : State) (r : GEnd × State) : State :=
  match r.1 with
  | .done => u.allEnd c (fun _ _ s => (s, .done)) r.2
  | .wait => s0
  | .held => u.groupWaits c r.2
  | .fail (.trap t) => u.allTrap c t r.2
  | .fail (.page va acc) => u.allEnd c (fun u l s => u.parkPage l (BitVec.ofNat 64 va) (8 ||| acc.kind) s) r.2

/-- The registers of operands, in order. -/
def Thread.opnds (t : Thread) (os : List Opnd) : List Word := os.flatMap (fun o => (List.range o.n).map (t.at o.r))

/-- Operand word `k`, and the pair at `k`. -/
def wordAt (ops : List Word) (k : Nat) : Nat := (ops.getD k 0).toNat
def pairAt (ops : List Word) (k : Nat) : Nat := wordAt ops k + 2 ^ 32 * wordAt ops (k + 1)

/-- The operand words that a class 5 instruction reads from its first lane. -/
def Iss.operands (u : Iss) (s : State) (l : Nat) (os : List Opnd) : List Word := (u.thread s l).opnds os

/-- The descriptor fields of a shard (R242). -/
def shardOf (b : List Byte) : Nat × Nat := (blkLe b 0 8, blkLe b 8 4 * blkLe b 16 2)
/-- The pages that hold a shard (R242). -/
def shardRule : PageRule := ⟨.read, [1, 2, 3, 4, 5, 6, 9], false⟩

/-- The resumption of a suspended command (R246): VPJ translates and locks its pages again. -/
def Iss.resumeCmd (u : Iss) (tm : Team) (m : MCmd) (s : State) : GEnd × State :=
  let go (ps : List PageTr) (s : State) : GEnd × State :=
    let die := u.die s
    let s := s.lockPages u.pkg die true ps
    (.held, s.modTeam u.pkg u.ctx (fun t =>
      let e := t.eng (t.onOdd u.group)
      t.setEng (t.onOdd u.group) { e with mq := e.mq.map (fun x =>
        if x.suspended && x.group == u.group then { x with suspended := false, pages := ps, die := die } else x) }))
  if m.op = 0x0C then
    match u.lockElems tm shardRule (shardOf m.block).1 (shardOf m.block).2 s with
    | (.error f, s) => (.fail f, s)
    | (.ok ps, s) => go ps s
  else go [] s

/-- The value of a class 5 instruction's first operand. -/
def Thread.firstOpnd (t : Thread) : List Opnd → DWord
  | [] => 0
  | o :: _ => t.val (decide (2 ≤ o.n)) o.r

/-- A group instruction is issued once, by the lowest-numbered lane (R208): the resumption of a suspended command, which reads no operand
(R246), or the checks of R94, R91, R237 and R34 and the instruction's own part. Either is a fork (R71). -/
def Iss.issueOnce (u : Iss) (c : Ctl) (counts : Bool) (reads : List Opnd) (tm : Team) (l : Nat)
    (f : Iss → Team → List Word → State → GEnd × State) (s : State) : State :=
  let t := u.thread s l
  let fork (x : State → GEnd × State) : State := if (tm.group u.group).rwCount ≠ 0 then s else u.groupEnd c s (x s)
  match (tm.suspended u.group).filter (fun m => m.pc == u.pc) with
  | some m => fork (u.resumeCmd tm m)
  | none =>
    if t.flags reads then u.allTrap c ⟨0x11, u.pc64, none, none⟩ s
    else if counts && u.lanes.any (fun l => decide (16 ≤ (u.thread s l).defCount)) then u.allTrap c ⟨0x03, u.pc64, none, none⟩ s
    else if (tm.suspended u.group).isSome then u.allTrap c (u.trap 0x17 0x0C (some (t.firstOpnd reads))) s
    else if !u.pairAgrees { c with pneg := false, pred := 0 } l (fun t => t.opnds reads) s then u.allTrap c u.mirrorTrap s
    else fork (f u tm (t.opnds reads))

/-- The meaning of a class 5 instruction (R28). -/
def State.issueGroup (s : State) (c : Ctl) (counts : Bool) (reads : List Opnd)
    (f : Iss → Team → List Word → State → GEnd × State) : Host.Outcome State Fault Refusal :=
  match s.iss? with
  | none => .next s
  | some u =>
    match u.team s with
    | none => .next s
    | some tm =>
      let ent := tm.entVis u.group u.pc
      let on (l : Nat) : Bool := (u.thread s l).guard c
      if u.blocked s || (tm.group u.group).vwait || ent.any (fun l => !(u.thread s l).runs) then .next s
      else if !ent.any on then .next (u.allEnd c (fun _ _ s => (s, .done)) s)
      else if !ent.all on || ent != tm.liveVis u.group then .next (u.allTrap c ⟨0x0C, u.pc64, none, none⟩ s)
      else
        match ent with
        | [] => .next s
        | l :: _ => .next (u.issueOnce c counts reads tm l f s)

/-! ### Claim and queue (R211, R212) -/

/-- A team holds the claim of a core. -/
def Team.claims (t : Team) (core : Nat) : Bool :=
  match t.place with
  | none => false
  | some (c, _) => (core == c && t.engE.claim) || (t.tmpl.pair && core == c + 1 && t.engO.claim)

/-- The claim is free or the team's own, and the queue has a place. -/
def Iss.mayQueue (u : Iss) (tm : Team) (s : State) : Bool :=
  (s.pkg u.pkg).teams.all (fun t => t.1 == u.ctx || !t.2.claims (tm.coreOf u.group)) &&
    decide ((tm.eng (tm.onOdd u.group)).mq.length < 8)

/-- A command enters the queue, its pages locked; the first one claims the engine (R211). -/
def Iss.enqueue (u : Iss) (m : MCmd) (s : State) : State :=
  let die := u.die s
  (s.lockPages u.pkg die true m.pages).modTeam u.pkg u.ctx (fun t =>
    let odd := t.onOdd u.group
    let e := t.eng odd
    let e : MEng := if e.claim then e else { e with claim := true, mat := {} }
    t.setEng odd { e with mq := e.mq ++ [{ m with die := die }] })

/-- A command of the group at the instruction. -/
def Iss.cmd (u : Iss) (op mod : Nat) (ops : List Word) : MCmd := { pc := u.pc, op := op, mod := mod, group := u.group, ops := ops }

/-- The issue of a matrix or vocabulary command: it waits for the claim and for a place in the queue, its checks give the command or
why it fails, and the command is queued. -/
def Iss.queueCmd (u : Iss) (tm : Team) (held : Bool) (f : State → Except GFail MCmd × State) (s : State) : GEnd × State :=
  if !u.mayQueue tm s then (.wait, s)
  else
    match f s with
    | (.error e, s) => (.fail e, s)
    | (.ok m, s) => (if held then .held else .done, u.enqueue m s)

/-- A range lies in the team's scratchpad; PERM otherwise (R209). -/
def Iss.scratchFail (u : Iss) (tm : Team) (off n : Nat) : Option GFail :=
  if tm.tmpl.scratch < off + n then some (u.atIssue 0x06 off) else none
/-- A byte barrier that a command credits (R209, reason 0x05). -/
def Iss.bbFail (u : Iss) (tm : Team) (bbe : Bool) (bb v : Nat) : Option GFail :=
  if bbe && decide (tm.tmpl.bbc ≤ bb) then some (u.engFail 0x05 v) else none
/-- A reason under a condition. -/
def Iss.failIf (u : Iss) (b : Bool) (reason v : Nat) : Option GFail := if b then some (u.engFail reason v) else none
/-- The first failure of a list of checks. -/
def firstFail : List (Option GFail) → Option GFail
  | [] => none
  | some f :: _ => some f
  | none :: fs => firstFail fs

/-- The scratchpad of a core's share of a team. -/
def Team.scr (t : Team) (odd : Bool) : Mem := if odd then t.scrO else t.scrE
def Team.setScr (t : Team) (odd : Bool) (m : Mem) : Team := if odd then { t with scrO := m } else { t with scrE := m }

/-- An ENGINE_FAULT record about a command of a team. -/
def State.engineFault (s : State) (p : Nat) (t : Team) (g : Nat) (pc : Pc) (code : Nat) (data : List (Nat × List Byte)) : State :=
  s.event p (ringOf t.part t.driver) { t.evRec g 0x05 code (pc.setWidth 64) 0xFF (dataAt data) with lane := 0xFF }

/-! ### The head of a queue -/

/-- The head of a team's queue is changed. -/
def State.modHead (s : State) (p c : Nat) (odd : Bool) (f : MCmd → MCmd) : State :=
  s.modTeam p c (fun t =>
    let e := t.eng odd
    t.setEng odd { e with mq := match e.mq with
      | [] => []
      | m :: ms => f m :: ms })

/-- The head leaves the queue: its locks go, its first failed access is reported (R383), and its barrier is credited. -/
def State.endHead (s : State) (p c : Nat) (odd : Bool) (credit : Option (Nat × Nat)) : State :=
  match s.team? p c with
  | none => s
  | some t =>
    match (t.eng odd).mq with
    | [] => s
    | m :: ms =>
      let s := (s.lockPages p m.die false m.pages).modTeam p c (fun t => t.setEng odd { t.eng odd with mq := ms })
      let s := match m.fail with
        | some (code, a) => s.engineFault p t m.group m.pc code [(32, leBytes 8 a.toNat)]
        | none => s
      match credit with
      | some (bb, n) => s.bbCredit p c bb n
      | none => s

/-- The group's wait for its command ends: its lanes go on at the next word (R237). -/
def State.endGroupWait (s : State) (p c g : Nat) : State :=
  match s.team? p c with
  | none => s
  | some t =>
    let s := s.modGroup p c g (fun x => { x with vwait := false })
    if t.stop.isSome then s
    else (t.lanes.filter (fun l => (t.thread g l).live)).foldl (fun s l => s.completeLane p c g l) s

/-- The first failure of a command is kept (R383). -/
def MCmd.failWith (m : MCmd) (f : EFail) : MCmd := { m with fail := m.fail.or (f.map (fun x => (x.1, BitVec.ofNat 64 x.2))) }

end Sys2Proof.Machine
end

