-- ==== Sys2Proof/Machine/Copy.lean ====
section
/-! DEFINITION. The copy engine: CPY, CPYM and CPYX at issue (R209, R220, R221, R225, R226), the start of a command, its pieces and
their credits (R222, R223), and its end with the completion record (R210, R224). -/

namespace Sys2Proof.Machine

/-! ### The descriptor (R220) -/

structure CDesc where
  src : Nat
  dst : Nat
  xn : Nat
  yn : Nat
  zn : Nat
  sys : Int
  szs : Int
  dys : Int
  dzs : Int
  dir : Nat
  sfmt : Nat
  bbe : Bool
  bb : Nat
  mask : Nat
  cw : Nat
  slots : Nat
  deriving DecidableEq, Repr

def cdesc (b : List Byte) : CDesc where
  src := blkLe b 0 8
  dst := blkLe b 8 8
  xn := blkLe b 16 4
  yn := blkLe b 20 2
  zn := blkLe b 22 2
  sys := toInt 32 true (blkLe b 24 4)
  szs := toInt 32 true (blkLe b 28 4)
  dys := toInt 32 true (blkLe b 32 4)
  dzs := toInt 32 true (blkLe b 36 4)
  dir := blkByte b 40
  sfmt := blkByte b 41
  bbe := decide (128 ≤ blkByte b 42)
  bb := blkByte b 42 % 32
  mask := blkByte b 44
  cw := blkLe b 48 8
  slots := blkLe b 56 5

/-- The source, or the destination, lies in the scratchpad. -/
def CDesc.srcS (d : CDesc) (k : CopyKind) : Bool :=
  match k with
  | .cpy => d.dir == 1 || d.dir == 3
  | .cpym => false
  | .cpyx => d.dir == 1
def CDesc.dstS (d : CDesc) (k : CopyKind) : Bool :=
  match k with
  | .cpy => d.dir == 0 || d.dir == 3
  | .cpym => true
  | .cpyx => false

/-- Elements to move, or bytes in byte mode. -/
def CDesc.total (d : CDesc) : Nat := d.xn * d.yn * d.zn
/-- D, with a destination format (R221); 0 stands for byte mode. -/
def CDesc.bytes (d : CDesc) (fmt : Nat) : Nat :=
  if fmt = 0 then d.total else if fmt = 9 then d.total / 128 * 80 else d.total * elemSize fmt

/-- The start of the row that holds element `pos`, on the source and on the destination side. -/
def CDesc.srcRow (d : CDesc) (pos : Nat) : Nat :=
  wrap 64 ((d.src : Int) + (pos / (d.xn * d.yn) : Nat) * d.szs + (pos / d.xn % d.yn : Nat) * d.sys)
def CDesc.dstRow (d : CDesc) (pos : Nat) : Nat :=
  wrap 64 ((d.dst : Int) + (pos / (d.xn * d.yn) : Nat) * d.dzs + (pos / d.xn % d.yn : Nat) * d.dys)

/-! ### Issue -/

/-- Every row of a scratchpad side lies in `n` bytes of scratchpad. -/
def rowsIn (n base : Nat) (ys zs : Int) (yn zn row : Nat) : Bool :=
  [0, ((yn - 1 : Nat) : Int) * ys].all (fun y => [0, ((zn - 1 : Nat) : Int) * zs].all (fun z =>
    let a := (base : Int) + y + z
    decide (0 ≤ a) && decide (a + row ≤ n)))

/-- Bytes of a row of `xn` elements in a scratchpad format. -/
def scrRowBytes (fmt xn : Nat) : Nat := if fmt = 0 then xn else if fmt = 9 then xn / 128 * 80 else xn * elemSize fmt

/-- The rows of a scratchpad side start where its format's elements or blocks may start (R44, R221). -/
def rowsAligned (fmt base : Nat) (ys zs : Int) (yn zn : Nat) : Bool :=
  let n : Nat := if fmt = 0 then 1 else if fmt = 9 then 16 else elemSize fmt
  base % n == 0 && (yn == 1 || ys % n == 0) && (zn == 1 || zs % n == 0)

/-- A reserved bit or value of a descriptor (R220). -/
def descReserved (k : CopyKind) (b : List Byte) : Bool :=
  let d := cdesc b
  b.getD 43 0 != 0 || blkLe b 45 3 != 0 || blkLe b 61 3 != 0 || blkByte b 42 / 32 % 4 != 0 ||
    !(decide (1 ≤ d.xn) && decide (d.xn ≤ 2 ^ 24) && decide (1 ≤ d.yn) && decide (1 ≤ d.zn)) ||
    (match k with
      | .cpy => decide (3 < d.dir)
      | .cpym => d.dir != 0
      | .cpyx => decide (1 < d.dir)) ||
    (k != .cpym && (d.mask != 0 || d.slots != 0)) || decide (9 < d.sfmt)

/-- The checks of a descriptor at offset `off` (R209, R221, R225, R226). -/
def Iss.copyFail (u : Iss) (tm : Team) (k : CopyKind) (off : Nat) (b : List Byte) : Option GFail :=
  let d := cdesc b
  let ss := d.srcS k
  let ds := d.dstS k
  let x4 := d.sfmt == 9 && (ss || ds) && d.xn % 128 != 0
  firstFail [u.failIf (descReserved k b) 1 off, u.failIf (k == .cpyx && d.sfmt != 0) 2 off,
    u.failIf (x4 || (ss && !rowsAligned d.sfmt d.src d.sys d.szs d.yn d.zn) ||
      (ds && !rowsAligned d.sfmt d.dst d.dys d.dzs d.yn d.zn) || d.cw % 32 != 0) 3 off,
    u.failIf ((d.sfmt == 0 || ds) && decide (2 ^ 31 - 1 < d.bytes d.sfmt)) 4 off,
    if k = .cpym then none else u.bbFail tm d.bbe d.bb off,
    u.failIf (k == .cpym && d.mask == 0) 7 off,
    (if ss && !rowsIn tm.tmpl.scratch d.src d.sys d.szs d.yn d.zn (scrRowBytes d.sfmt d.xn) then some (u.atIssue 0x06 d.src) else none),
    (if k = .cpy ∧ ds ∧ !rowsIn tm.tmpl.scratch d.dst d.dys d.dzs d.yn d.zn (scrRowBytes d.sfmt d.xn) then some (u.atIssue 0x06 d.dst)
      else none)]

/-- Commands that a core's copy engine holds (R223). -/
def Package.copiesOn (k : Package) (core : Nat) : Nat :=
  k.teams.foldl (fun n t => n + (t.2.copies.filter (fun x => x.entered && x.core == core)).length) 0

/-- The team in a slot of a core, or of the even core of its pair: its context, and whether the core is the odd one (R11). -/
def Package.inSlot (k : Package) (core slot : Nat) : Option (Nat × Team × Bool) :=
  match k.teams.find? (fun t => match t.2.place with
      | some (c, n) => n == slot && (c == core || (t.2.tmpl.pair && c + 1 == core))
      | none => false) with
  | none => none
  | some (ctx, t) => some (ctx, t, match t.place with
      | some (c, _) => c != core
      | none => false)

/-- The destinations of a CPYM as they stand (R225). -/
def Package.copyDests (k : Package) (tm : Team) (core : Nat) (d : CDesc) : List CDest :=
  ((List.range 8).filter (fun j => d.mask / 2 ^ j % 2 == 1)).map (fun j =>
    let c := core / 8 * 8 + j
    match k.inSlot c (d.slots / 2 ^ (5 * j) % 32) with
    | none => ⟨c, 0, 0, false, true⟩
    | some (ctx, t, odd) => ⟨c, ctx, t.inst, odd, t.part != tm.part || decide (t.tmpl.bbc ≤ d.bb) ||
        !rowsIn t.tmpl.scratch d.dst d.dys d.dzs d.yn d.zn (scrRowBytes d.sfmt d.xn)⟩)

/-- A command enters the copy engine of a core: a CPYM records its destinations, which wait for it (R225). -/
def State.enterCopy (s : State) (p ctx core : Nat) (tm : Team) (x : Copy) : State :=
  let ds := if x.kind = .cpym then (s.pkg p).copyDests tm core (cdesc x.desc) else []
  let x : Copy := { x with entered := true, core := core, dests := ds }
  let s := s.modTeam p ctx (fun t => if t.copies.any (fun y => y.id == x.id) then t.modCopy x.id (fun _ => x)
    else { t with copies := t.copies ++ [x] })
  (ds.filter (fun d => !d.skip)).foldl (fun s (d : CDest) => s.modTeam p d.ctx (fun t => { t with cpymHold := t.cpymHold + 1 })) s

/-- The issue of a copy command (R208, R209, R223). -/
def Iss.issueCopy (u : Iss) (tm : Team) (k : CopyKind) (off : Nat) (s : State) : GEnd × State :=
  let core := tm.coreOf u.group
  if tm.copies.any (fun x => !x.entered) || decide (16 ≤ (s.pkg u.pkg).copiesOn core) then (.wait, s)
  else
    match firstFail [u.failIf (off % 64 != 0) 3 off, u.scratchFail tm off 64] with
    | some e => (.fail e, s)
    | none =>
      let b := (tm.scr (tm.onOdd u.group)).bytes off 64
      match u.copyFail tm k off b with
      | some e => (.fail e, s)
      | none =>
        let id := tm.copies.foldl (fun n x => max n x.id) 0 + 1
        let x : Copy := { id := id, kind := k, pc := u.pc, group := u.group, core := core, off := BitVec.ofNat 32 off, desc := b }
        (.done, s.enterCopy u.pkg u.ctx core tm x)

def execCpy (c : Ctl) (a : Reg) (s : State) : Host.Outcome State Fault Refusal :=
  s.issueGroup c false [.one a] (fun u tm ops s => u.issueCopy tm .cpy (ops.getD 0 0).toNat s)
def execCpym (c : Ctl) (a : Reg) (s : State) : Host.Outcome State Fault Refusal :=
  s.issueGroup c false [.one a] (fun u tm ops s => u.issueCopy tm .cpym (ops.getD 0 0).toNat s)
def execCpyx (c : Ctl) (a : Reg) (s : State) : Host.Outcome State Fault Refusal :=
  s.issueGroup c false [.one a] (fun u tm ops s => u.issueCopy tm .cpyx (ops.getD 0 0).toNat s)

/-- The commands of a resumed team enter its cores' engines in issue order, each while there is room (R223). -/
def State.enterTeam (p ctx : Nat) : List Copy → State → State
  | [], s => s
  | x :: xs, s =>
    match s.team? p ctx with
    | none => s
    | some t =>
      let core := t.coreOf x.group
      if t.place.isNone || decide (16 ≤ (s.pkg p).copiesOn core) then s
      else State.enterTeam p ctx xs (s.enterCopy p ctx core t x)
def State.enterCopies (s : State) (p : Nat) : State :=
  (s.pkg p).teams.foldl (fun s (t : Nat × Team) => State.enterTeam p t.1 (t.2.copies.filter (fun x => !x.entered)) s) s

/-! ### Transfer -/

/-- Why a transfer does not go on: an absent page, or a failure (STATUS, INFO, address). -/
inductive CStop
  | page (va : Nat) (kind : BitVec 8)
  | fail (status info addr : Nat)
  deriving DecidableEq, Repr

/-- A command's accesses, for its task. -/
def Copy.who (x : Copy) (t : Team) : Who :=
  { part := t.part, driver := t.driver, inst := t.inst, pc := x.pc.setWidth 64, core := x.core }
def Copy.die (x : Copy) : Nat := dieOf x.core

/-- The stop that a failed translation gives. -/
def Xl.stop (x : Xl) (acc : Access) (va : Nat) : CStop :=
  match x with
  | .page => .page va (8 ||| acc.kind)
  | x => .fail x.trap.1 x.trap.2 va
def AFail.stop (f : AFail) (acc : Access) : CStop :=
  if f.code = 0x05 then .page f.addr (8 ||| acc.kind) else .fail f.code f.info f.addr

/-- FMT and GEOM of a page as one number. -/
def PageTr.code (t : PageTr) : Nat := t.fmt + 16 * t.geom

/-- A page of an element-mode side: it has an element format, the one that the side has shown before (R49, R221). -/
def State.copyPage (s : State) (p : Nat) (w : Who) (die : Nat) (acc : Access) (known : Option Nat) (va : Nat) :
    Except CStop PageTr × State :=
  match s.agentXl p w (some die) va acc with
  | (.ok t, s) =>
    if !elemFmtOk t.fmt t.geom || known.getD t.code != t.code then (.error (.fail 0x07 0 va), s) else (.ok t, s)
  | (x, s) => (.error (x.stop acc va), s)

/-- Block `k` of a row of I4X blocks, each page's tail skipped (R49). -/
def State.copyBlock (p : Nat) (w : Who) (die : Nat) (acc : Access) (known : Option Nat) :
    Nat → Nat → Nat → State → Except CStop Nat × State
  | 0, va, _, s => (.ok va, s)
  | fuel + 1, va, k, s =>
    match s.copyPage p w die acc known va with
    | (.error e, s) => (.error e, s)
    | (.ok t, s) =>
      let fit := (t.va + t.size - va) / 80
      if k < fit then (.ok (va + 80 * k), s) else State.copyBlock p w die acc known fuel (t.va + t.size) (k - fit) s

/-- Where element `x` of a row lies, or its block, with the format of its side (R221). -/
def State.copyAt (s : State) (p : Nat) (w : Who) (die : Nat) (acc : Access) (scr : Bool) (known : Option Nat) (sfmt row x : Nat) :
    Except CStop (Nat × Nat) × State :=
  if scr then (.ok (sfmt, if sfmt = 9 then row + 80 * (x / 128) else row + x * elemSize sfmt), s)
  else
    match s.copyPage p w die acc known row with
    | (.error e, s) => (.error e, s)
    | (.ok t, s) =>
      if t.fmt = 9 then
        if !t.blockStart row then (.error (.fail 0x17 3 row), s)
        else
          match State.copyBlock p w die acc (some t.code) (x / 128 + 2) row (x / 128) s with
          | (.error e, s) => (.error e, s)
          | (.ok a, s) => (.ok (t.code, a), s)
      else
        let a := (row + x * elemSize t.fmt) % 2 ^ 64
        if a % elemSize t.fmt ≠ 0 then (.error (.fail 0x04 0 a), s)
        else
          match s.copyPage p w die acc (some t.code) a with
          | (.error e, s) => (.error e, s)
          | (.ok _, s) => (.ok (t.code, a), s)

/-- Bytes of the source as they stand now. -/
def State.sourceNow (s : State) (p : Nat) (t : Team) (x : Copy) (scr : Bool) (a n : Nat) : Except CStop (List Byte) × State :=
  if scr then (.ok ((t.scr (t.onOdd x.group)).bytes a n), s)
  else
    match s.agentRead p (x.who t) (some x.die) a n with
    | (.error f, s) => (.error (f.stop .read), s)
    | (.ok b, s) => (.ok b, s)

/-- Bytes of the source, each from the 16-byte unit that the command has read ahead, or as it stands now (R71). -/
def State.copyReadFuel (p : Nat) (t : Team) (x : Copy) (scr : Bool) : Nat → Nat → Nat → State → Except CStop (List Byte) × State
  | 0, _, _, s => (.ok [], s)
  | fuel + 1, a, n, s =>
    if n = 0 then (.ok [], s)
    else
      let k := min n (16 - a % 16)
      let r : Except CStop (List Byte) × State := match tfind x.read (a / 16) with
        | some b => (.ok ((b.drop (a % 16)).take k), s)
        | none => s.sourceNow p t x scr a k
      match r with
      | (.error e, s) => (.error e, s)
      | (.ok b, s) =>
        match State.copyReadFuel p t x scr fuel (a + k) (n - k) s with
        | (.error e, s) => (.error e, s)
        | (.ok bs, s) => (.ok (b ++ bs), s)
def State.copyRead (s : State) (p : Nat) (t : Team) (x : Copy) (scr : Bool) (a n : Nat) : Except CStop (List Byte) × State :=
  State.copyReadFuel p t x scr (n / 16 + 2) a n s

/-- STATUS and INFO of a write that its home fails: POISON on the own package; elsewhere as an acknowledgement that fails (R184, R224,
R226). -/
def writeStatus (own : Bool) (code : Nat) : Nat × Nat :=
  if own then (code, 0) else if code = 0x09 then (0x09, 0) else (0x0B, if code = 0x0A then 1 else 3)

/-- Bytes of a global destination, line by line. -/
def State.copyStore (p : Nat) (w : Who) (die : Nat) : Nat → Nat → List Byte → State → Option CStop × State
  | 0, _, _, s => (none, s)
  | fuel + 1, va, bs, s =>
    if bs.isEmpty then (none, s)
    else
      match s.agentXl p w (some die) va .write with
      | (.ok t, s) =>
        let a := s.forward (t.at va)
        match s.homeFault p a true with
        | some (c, _) => (some (.fail (writeStatus (homeOf a == p) c).1 (writeStatus (homeOf a == p) c).2 va), s)
        | none =>
          let k := 128 - va % 128
          State.copyStore p w die fuel (va + k) (bs.drop k) (s.poke a (bs.take k))
      | (x, s) => (some (x.stop .write va), s)

/-- A credit of a command's bytes to a barrier of a team, which is not made where it would carry BYTES below −2^31 (R222). -/
def State.copyCredit (s : State) (p ctx : Nat) (inst : BitVec 40) (bb n : Nat) : Option State :=
  match s.team? p ctx with
  | none => some s
  | some t =>
    if t.inst ≠ inst ∨ n = 0 then some s
    else if (t.bbar bb).bytes - n < -(2 : Int) ^ 31 then none
    else some (s.bbCredit p ctx bb n)

/-- The barriers that a command credits: its team's, or those of a CPYM's destinations (R222, R225). -/
def Copy.creditees (x : Copy) (ctx : Nat) (t : Team) : List (Nat × BitVec 40) :=
  if x.kind = .cpym then (x.dests.filter (fun (d : CDest) => !d.skip)).map (fun d => (d.ctx, d.inst)) else [(ctx, t.inst)]

/-- A piece is credited (R222): after a credit that cannot be applied the command makes none. -/
def State.creditPiece (s : State) (p ctx id n : Nat) : State :=
  match s.team? p ctx with
  | none => s
  | some t =>
    match t.copies.find? (fun x => x.id == id) with
    | none => s
    | some x =>
      let d := cdesc x.desc
      if !d.bbe || x.noCredit || n = 0 then s
      else
        (x.creditees ctx t).foldl (fun s (c : Nat × BitVec 40) =>
          match s.copyCredit p c.1 c.2 d.bb n with
          | some s => s
          | none => s.modTeam p ctx (fun t => t.modCopy id (fun x =>
              { x with noCredit := true, fail := x.fail.or (some (0x17, 0, 0x0B)) })))
          (s.modTeam p ctx (fun t => t.modCopy id (fun x => { x with credited := x.credited + n })))

/-- Bytes land in a scratchpad: the issuing team's, or those of a CPYM's destinations. -/
def State.copyScr (s : State) (p ctx : Nat) (x : Copy) (a : Nat) (bs : List Byte) : State :=
  match x.kind with
  | .cpym => (x.dests.filter (fun (d : CDest) => !d.skip)).foldl (fun s (d : CDest) =>
      s.modTeam p d.ctx (fun t => if t.inst = d.inst then t.setScr d.odd ((t.scr d.odd).put a bs) else t)) s
  | _ => s.modTeam p ctx (fun t => t.setScr (t.onOdd x.group) ((t.scr (t.onOdd x.group)).put a bs))

/-- A number enters a list of intervals. -/
def addUnit (u : Nat) : List (Nat × Nat) → List (Nat × Nat)
  | [] => [(u, u + 1)]
  | (a, b) :: r =>
    if u + 1 < a then (u, u + 1) :: (a, b) :: r
    else if u + 1 = a then (u, b) :: r
    else if u < b then (a, b) :: r
    else if u = b then (match r with
      | (c, d) :: r' => if c = b + 1 then (a, d) :: r' else (a, b + 1) :: (c, d) :: r'
      | [] => [(a, b + 1)])
    else (a, b) :: addUnit u r
/-- The command has moved a unit. -/
def Copy.hasMoved (x : Copy) (u : Nat) : Bool := x.moved.any (fun i => decide (i.1 ≤ u) && decide (u < i.2))

/-- A unit has been moved. -/
def Copy.unit (x : Copy) (u bytes : Nat) : Copy := { x with pos := x.pos + bytes, moved := addUnit u x.moved }

/-- Nothing of a CPYM is written where every destination is skipped (R225). -/
def Copy.writes (x : Copy) : Bool := x.kind != .cpym || x.dests.any (fun (d : CDest) => !d.skip)

/-- A unit has been written: it is credited (R222). -/
def State.unitDone (s : State) (p ctx : Nat) (x : Copy) (u bytes : Nat) : State :=
  (s.modTeam p ctx (fun t => t.modCopy x.id (fun x =>
    { x.unit u bytes with written := if x.writes then x.written + bytes else x.written }))).creditPiece p ctx x.id bytes

/-- A line of a CPYX is sent to its home (R226). -/
def State.sendLine (s : State) (p ctx : Nat) (t : Team) (x : Copy) (unit va a : Nat) (bs : List Byte) : State :=
  let off := a % 128
  let mask : BitVec 128 := (BitVec.allOnes 128 >>> (128 - bs.length)) <<< off
  let r : Req := { ctx := ctx, group := x.group, lanes := [(bs.length, BitVec.ofNat 64 va)], pc := x.pc, addr := a, dst := homeOf a,
                   eseq := 0, kind := .cpyx x.id, deadline := 0, tmo := 0 }
  (s.modTeam p ctx (fun t => t.modCopy x.id (fun x =>
    { x.unit unit bs.length with lines := x.lines + 1 }))).request p t r
      (.req .wrh (a / 128 * 128) 0 mask 0 false (0, 0) (padTo 128 (List.replicate off 0 ++ bs)))

/-- One element converted (R221): R43 under RNE; between integers the low bits. -/
def convElem (src dst : Nat) (v : FVal) : Nat :=
  match elemFmt? dst with
  | some f => if elemFmt? src = none ∧ src ≠ 9 then (f.ofInt .rne v.int).1 else (f.ofVal .rne v).1
  | none =>
    let n := 8 * elemSize dst
    if elemFmt? src = none ∧ src ≠ 9 then wrap n v.int else wrap n (v.toInteger .rne n true).1

/-- The values of elements `x` to `x + n − 1` of a source row, in one block or not (R45). -/
def State.copyVals (s : State) (p : Nat) (t : Team) (x : Copy) (d : CDesc) (scr : Bool) (row : Nat) :
    Nat → Nat → Except CStop (List FVal) × State
  | 0, _ => (.ok [], s)
  | n + 1, i =>
    match s.copyAt p (x.who t) x.die .read scr x.sfmt d.sfmt row i with
    | (.error e, s) => (.error e, s)
    | (.ok (code, a), s) =>
      let fmt := code % 16
      match s.copyRead p t x scr a (elemSize fmt) with
      | (.error e, s) => (.error e, s)
      | (.ok b, s) =>
        let v : Except CStop FVal := if fmt = 9 then
            (match i4xDecode b with
             | some vs => .ok (vs.getD (i % 128) (.nan false))
             | none => .error (.fail 0x07 0 a))
          else .ok (elemVal fmt (leNat b))
        match v with
        | .error e => (.error e, s)
        | .ok v =>
          match State.copyVals s p t x d scr row n (i + 1) with
          | (.error e, s) => (.error e, s)
          | (.ok vs, s) => (.ok (v :: vs), s)

/-- The bytes of one destination element: bit for bit between equal formats, converted otherwise (R221). -/
def State.copyElem (s : State) (p : Nat) (t : Team) (x : Copy) (d : CDesc) (sf df row i : Nat) : Except CStop (List Byte) × State :=
  let scr := d.srcS x.kind
  if sf = df then
    match s.copyAt p (x.who t) x.die .read scr x.sfmt d.sfmt row i with
    | (.error e, s) => (.error e, s)
    | (.ok (_, a), s) => s.copyRead p t x scr a (elemSize sf)
  else
    match s.copyVals p t x d scr row 1 i with
    | (.error e, s) => (.error e, s)
    | (.ok vs, s) => (.ok (leBytes (elemSize df) (convElem sf df (vs.headD (.nan false)))), s)

/-- `n` elements of a row, from element `i` on. -/
def State.copyElems (p : Nat) (t : Team) (x : Copy) (d : CDesc) (sf df row : Nat) : Nat → Nat → State → Except CStop (List Byte) × State
  | 0, _, s => (.ok [], s)
  | n + 1, i, s =>
    match s.copyElem p t x d sf df row i with
    | (.error e, s) => (.error e, s)
    | (.ok b, s) =>
      match State.copyElems p t x d sf df row n (i + 1) s with
      | (.error e, s) => (.error e, s)
      | (.ok bs, s) => (.ok (b ++ bs), s)

/-- The I4X block of 128 elements from `i` on: bit for bit, or encoded once for its five units (R47, R221). -/
def State.copyBlockBytes (s : State) (p ctx : Nat) (t : Team) (x : Copy) (d : CDesc) (sf row i part key : Nat) :
    Except CStop (List Byte) × State :=
  let scr := d.srcS x.kind
  if sf = 9 then
    match s.copyAt p (x.who t) x.die .read scr x.sfmt d.sfmt row i with
    | (.error e, s) => (.error e, s)
    | (.ok (_, a), s) => s.copyRead p t x scr (a + 16 * part) 16
  else
    match tfind x.read key with
    | some b => (.ok ((b.drop (16 * part)).take 16), s)
    | none =>
      match s.copyVals p t x d scr row 128 i with
      | (.error e, s) => (.error e, s)
      | (.ok vs, s) =>
        let b := (i4xEncode (vs.map (fun v => fp32.val (convElem sf 1 v)))).1
        (.ok ((b.drop (16 * part)).take 16), s.modTeam p ctx (fun t => t.modCopy x.id (fun x => { x with read := tput x.read key b })))

/-- A command stops on a page, or fails: it moves no more (R223, R224). -/
def State.copyStop (s : State) (p ctx : Nat) (t : Team) (x : Copy) (e : CStop) : State :=
  match e with
  | .page va kind =>
    ((s.modDie p x.die (fun d => d.addFault (pfault t (BitVec.ofNat 64 va) kind 0 x.pc))).modTeam p ctx (fun t => t.modCopy x.id (fun x =>
      { x with page := some (BitVec.ofNat 64 va) }))).flushFaults p x.die
  | .fail st info a =>
    s.modTeam p ctx (fun t => t.modCopy x.id (fun x => x.failWith st (BitVec.ofNat 64 a) (BitVec.ofNat 32 info)))

/-- The rows of a command, and a unit's row and place in it: unit `u` is chunk `u mod 2^32` of row `u div 2^32`. -/
def CDesc.rows (d : CDesc) : Nat := d.yn * d.zn
def copyRow (u : Nat) : Nat := u / 2 ^ 32
def copyChunk (u : Nat) : Nat := u % 2 ^ 32

/-- The elements of a row that lie in its chunk `c`, with elements of `e` bytes from address `b` and chunks of `g` bytes: the first, and how
many. -/
def chunkSpan (g e b xn c : Nat) : Nat × Nat :=
  let lo := if c = 0 then 0 else (g * c - b % g) / e
  let hi := min xn ((g * (c + 1) - b % g) / e)
  (lo, hi - lo)

/-- Bytes of a command's destination, once its format is known; a command whose format is not known has moved nothing. -/
def Copy.size (x : Copy) : Nat :=
  let d := cdesc x.desc
  if d.sfmt = 0 then d.total else if d.dstS x.kind then d.bytes d.sfmt else match x.dfmt with
    | some c => d.bytes (c % 16)
    | none => 2 ^ 63

/-- One unit in byte mode: a 16-byte unit of the destination, or a line of a CPYX (R62, R226). -/
def State.moveBytes (s : State) (p ctx : Nat) (t : Team) (x : Copy) (d : CDesc) (u : Nat) : State :=
  let pos := copyRow u * d.xn
  let r := chunkSpan (if x.kind = .cpyx then 128 else 16) 1 (d.dstRow pos) d.xn (copyChunk u)
  let n := r.2
  let a := (d.srcRow pos + r.1) % 2 ^ 64
  let b := (d.dstRow pos + r.1) % 2 ^ 64
  if n = 0 then s
  else
    match s.copyRead p t x (d.srcS x.kind) a n with
    | (.error e, s) => s.copyStop p ctx t x e
    | (.ok bs, s) =>
      if d.dstS x.kind then (s.copyScr p ctx x b bs).unitDone p ctx x u n
      else if x.kind = .cpyx then
        match s.agentXl p (x.who t) (some x.die) b .write with
        | (.ok tr, s) =>
          let dest := s.forward (tr.at b)
          if homeOf (tr.at b) = p then s.copyStop p ctx t x (.fail 0x17 0x08 b)
          else if homeOf dest = p then (s.poke dest bs).unitDone p ctx x u n
          else if (s.pkg p).dead (homeOf dest) then s.copyStop p ctx t x (.fail 0x0B 1 b)
          else s.sendLine p ctx t x u b dest bs
        | (.space, s) => s.copyStop p ctx t x (.fail 0x17 0x08 b)
        | (e, s) => s.copyStop p ctx t x (e.stop .write b)
      else
        match State.copyStore p (x.who t) x.die 2 b bs s with
        | (some e, s) => s.copyStop p ctx t x e
        | (none, s) => s.unitDone p ctx x u n

/-- One unit in element mode: the elements of a 16-byte unit of the destination, or a fifth of a block of an I4X destination (R62). -/
def State.moveElem (s : State) (p ctx : Nat) (t : Team) (x : Copy) (d : CDesc) (u : Nat) : State :=
  let pos := copyRow u * d.xn
  let row := d.srcRow pos
  match s.copyAt p (x.who t) x.die .write (d.dstS x.kind) x.dfmt d.sfmt (d.dstRow pos) 0 with
  | (.error e, s) => s.copyStop p ctx t x e
  | (.ok (dc, _), s) =>
    match s.copyAt p (x.who t) x.die .read (d.srcS x.kind) x.sfmt d.sfmt row 0 with
    | (.error e, s) => s.copyStop p ctx t x e
    | (.ok (sc, a), s) =>
      let s := s.modTeam p ctx (fun t => t.modCopy x.id (fun x => { x with sfmt := some sc, dfmt := some dc }))
      let x : Copy := { x with sfmt := some sc, dfmt := some dc }
      let sf := sc % 16
      let df := dc % 16
      let c := copyChunk u
      let r := if df = 9 then (128 * (c / 5), if 128 * (c / 5) < d.xn then 16 else 0)
        else chunkSpan 16 (elemSize df) (d.dstRow pos) d.xn c
      if (sf == 9 || df == 9) && d.xn % 128 != 0 then s.copyStop p ctx t x (.fail 0x17 3 (if sf = 9 then a else d.dstRow pos))
      else if 2 ^ 31 - 1 < d.bytes df then s.copyStop p ctx t x (.fail 0x17 4 (d.dstRow pos))
      else if r.2 = 0 then s
      else
        match s.copyAt p (x.who t) x.die .write (d.dstS x.kind) x.dfmt d.sfmt (d.dstRow pos) r.1 with
        | (.error e, s) => s.copyStop p ctx t x e
        | (.ok (_, b), s) =>
          match (if df = 9 then s.copyBlockBytes p ctx t x d sf row r.1 (c % 5) (2 ^ 64 + (copyRow u * 2 ^ 32 + c / 5)) else State.copyElems p t x d sf df row r.2 r.1 s) with
          | (.error e, s) => s.copyStop p ctx t x e
          | (.ok bs, s) =>
            let b := if df = 9 then b + 16 * (c % 5) else b
            if d.dstS x.kind then (s.copyScr p ctx x b bs).unitDone p ctx x u bs.length
            else
              match State.copyStore p (x.who t) x.die 2 b bs s with
              | (some e, s) => s.copyStop p ctx t x e
              | (none, s) => s.unitDone p ctx x u bs.length

/-- A copy command that may read and write: it has started, waits on no page, has not failed and has something left to move. -/
def Copy.active (x : Copy) : Bool := x.started && !x.ending && x.page.isNone && decide (x.pos < x.size)

/-- A started command moves one of its units, in no fixed order (R71). -/
def State.moveUnit (s : State) (p ctx id u : Nat) : State :=
  match s.team? p ctx with
  | none => s
  | some t =>
    match t.copies.find? (fun x => x.id == id) with
    | none => s
    | some x =>
      let d := cdesc x.desc
      if !x.active || x.hasMoved u || decide (d.rows ≤ copyRow u) then s
      else if d.sfmt = 0 then s.moveBytes p ctx t x d u else s.moveElem p ctx t x d u

/-- Where a 16-byte unit of the source lies: chunk `u mod 2^32` of row `u div 2^32`, if the row has it. -/
def State.sourceUnit (s : State) (p : Nat) (t : Team) (x : Copy) (d : CDesc) (u : Nat) : Option Nat × State :=
  let row := d.srcRow (copyRow u * d.xn)
  let c := copyChunk u
  let fmt : Option Nat := if d.sfmt = 0 then some 0 else if d.srcS x.kind then some d.sfmt else x.sfmt.map (· % 16)
  match fmt with
  | none => (none, s)
  | some f =>
    if f = 9 then
      if d.xn ≤ 128 * (c / 5) then (none, s)
      else match s.copyAt p (x.who t) x.die .read (d.srcS x.kind) x.sfmt d.sfmt row (128 * (c / 5)) with
        | (.ok (_, a), s) => (some (a + 16 * (c % 5)), s)
        | (.error _, _) => (none, s)
    else
      let e := if f = 0 then 1 else elemSize f
      ((if (chunkSpan 16 e row d.xn c).2 = 0 then none else some ((row / 16 * 16 + 16 * c) % 2 ^ 64)), s)

/-- A started command reads a unit of its source now, and writes it later. A read that fails is made again when the unit is due. -/
def State.readAhead (s : State) (p ctx id u : Nat) : State :=
  match s.team? p ctx with
  | none => s
  | some t =>
    match t.copies.find? (fun x => x.id == id) with
    | none => s
    | some x =>
      let d := cdesc x.desc
      if !x.active || decide (d.rows ≤ copyRow u) then s
      else
        match s.sourceUnit p t x d u with
        | (none, _) => s
        | (some a, s') =>
          match s'.sourceNow p t x (d.srcS x.kind) a 16 with
          | (.ok b, s') => s'.modTeam p ctx (fun t => t.modCopy id (fun x =>
              if (tfind x.read (a / 16)).isSome then x else { x with read := tput x.read (a / 16) b }))
          | (.error _, _) => s

/-! ### Events -/

/-- COPY_START (R223): an entered command issues its first source read. Re-issues that wait enter where there is room. -/
def execCopyStart (p ctx k : Nat) (s : State) : Host.Outcome State Fault Refusal :=
  .next ((s.enterCopies p).modTeam p ctx (fun t => if t.place.isNone then t else t.modCopy k (fun x => if x.entered then { x with started := true } else x)))

/-- COPY_PIECE_WRITTEN (R221, R222): a unit of a started command lands, and is credited after its writes. -/
def execCopyPieceWritten (p ctx k u : Nat) (s : State) : Host.Outcome State Fault Refusal :=
  .next (s.moveUnit p ctx k u)

/-- D of a command, as far as its destination's format can be known; a free value otherwise. -/
def State.copyTotal (s : State) (p : Nat) (t : Team) (x : Copy) : Nat × State :=
  let d := cdesc x.desc
  if d.sfmt = 0 then (d.total, s)
  else if d.dstS x.kind then (d.bytes d.sfmt, s)
  else
    match x.dfmt with
    | some c => (d.bytes (c % 16), s)
    | none =>
      match s.walk p t.part d.dst with
      | (.ok tr, _) => if elemFmtOk tr.fmt tr.geom then (d.bytes tr.fmt, s) else s.choose (2 ^ 31)
      | _ => s.choose (2 ^ 31)

/-- STATUS, FADDR and INFO of an ended command (R210, R224, R225). -/
def Copy.outcome (x : Copy) : Nat × DWord × Word :=
  match x.fail with
  | some f => f
  | none =>
    let skipped := (x.dests.filter (fun (d : CDest) => d.skip)).foldl (fun n (d : CDest) => n + 2 ^ (d.core % 8)) 0
    if skipped = 0 then (0, 0, 0) else (0x17, 0, BitVec.ofNat 32 (skipped + 0x0D * 256))

/-- The command leaves; `rec` says how the completion record failed. What no record tells goes to the fault log, whose lane is a
free value, and to the host (R210, R224, R277, R352; log entry 98). -/
def State.copyFinish (s : State) (p ctx : Nat) (t : Team) (x : Copy) (bad : Option Nat) : State :=
  let (st, a, info) := x.outcome
  let cw := (cdesc x.desc).cw
  let report (code : Nat) (data : List (Nat × List Byte)) (s : State) : State :=
    let (lane, s) := s.choose 64
    ((s.modRec p t.inst (fun r => r.logFault code lane x.core (x.pc.setWidth 64) x.group)).event p (ringOf t.part t.driver)
      ⟨0x05, t.part, BitVec.ofNat 32 code, t.inst, x.pc.setWidth 64, x.core, 0xFF, dataAt data⟩)
  let s := match bad with
    | some code => report code [(32, leBytes 8 cw), (40, leBytes 4 info.toNat), (44, leBytes 4 st)] s
    | none => if cw = 0 ∧ st ≠ 0 then report st [(32, leBytes 8 a.toNat), (40, leBytes 4 info.toNat)] s else s
  ((s.dropHolds p [x]).modTeam p ctx (fun t => { t with copies := t.copies.filter (fun y => y.id != x.id) })).enterCopies p

/-- The completion record (R210): bytes 16 to 31, then bytes 0 to 15 as one release. -/
def State.writeRecord (s : State) (p : Nat) (w : Who) (die : Option Nat) (cw done status info addr : Nat) : Option AFail × State :=
  match s.agentWrite p w die (cw + 16) (leBytes 8 addr ++ leBytes 8 0) with
  | (some f, s) => (some f, s)
  | (none, s) => s.agentWrite p w die cw (leBytes 8 done ++ leBytes 4 status ++ leBytes 4 info)

/-- COPY_END (R210, R222, R224): a command that has moved all or has failed, and whose lines are all answered, credits what it has not,
and reports. An absent page of its record is serviced first. -/
def execCopyEnd (p ctx k : Nat) (s : State) : Host.Outcome State Fault Refusal :=
  .next (match s.team? p ctx with
    | none => s
    | some t =>
      match t.copies.find? (fun x => x.id == k) with
      | none => s
      | some x =>
        if !x.started || x.page.isSome || x.lines != 0 || decide (x.pos < x.size) then s
        else
          let (total, s) := if x.ending then (x.credited, s) else s.copyTotal p t x
          let s := s.creditPiece p ctx k (total - x.credited)
          match (s.team? p ctx).bind (fun t => t.copies.find? (fun x => x.id == k)) with
          | none => s
          | some x =>
            let (st, a, info) := x.outcome
            let cw := (cdesc x.desc).cw
            if cw = 0 then s.copyFinish p ctx t x none
            else
              match s.writeRecord p (x.who t) (some x.die) cw x.written st info.toNat a.toNat with
              | (none, s) => s.copyFinish p ctx t x none
              | (some f, s) =>
                if f.code = 0x05 then
                  (s.copyStop p ctx t x (.page cw (8 ||| Access.write.kind))).modTeam p ctx (fun t => t.modCopy k (fun x =>
                    { x with ending := true }))
                else s.copyFinish p ctx t x (some f.code))

end Sys2Proof.Machine
end

