-- ==== Sys2Proof/Machine/Link.lean ====
section
/-! DEFINITION. What both ends of a link do with a flit: the checks of a receiver (R335, R338, R341), acknowledgement and credit (R336 to
R338), and the stamp that a sender puts on a flit. -/

namespace Sys2Proof

/-- An image as it is written at BAR0's window (R340): each listed byte at its offset, the others 0. Bytes and bits that R340 fixes at 0 are
reserved, and ignored (R6). -/
def SchedImage.parse (bs : List (Nat × Byte)) : SchedImage :=
  let m : Mem := bs.foldl (fun m x => if x.1 < 524352 then m.set x.1 x.2 else m) []
  { sver := BitVec.ofNat 32 (m.le 0 4), epoch := m.le 8 8,
    -- bit 15 of an entry stands in its second byte
    ents := (m.filter (fun x => decide (64 ≤ x.1) && x.1 % 2 == 1 && decide (128 ≤ x.2.toNat))).map (fun x =>
      let o := x.1 - 64
      (o / 2048, o % 2048 / 256, o % 256 / 2, (m.byte (x.1 - 1)).toNat)) }
/-- Byte `o` of an image. -/
def SchedImage.byteAt (g : SchedImage) (o : Nat) : Byte :=
  if o < 4 then (leBytes 4 g.sver.toNat).getD o 0
  else if 8 ≤ o ∧ o < 16 then (leBytes 8 g.epoch).getD (o - 8) 0
  else if o < 64 then 0
  else
    let e := o - 64
    match g.ents.find? (fun x => x.1 == e / 2048 && x.2.1 == e % 2048 / 256 && x.2.2.1 == e % 256 / 2) with
    | some x => if o % 2 = 0 then BitVec.ofNat 8 x.2.2.2 else 0x80
    | none => 0

/-- The peer that a schedule gives a link of a package in a slot. -/
def SchedImage.peer? (g : SchedImage) (p slot i : Nat) : Option Nat :=
  (g.ents.find? (fun e => e.1 == p && e.2.1 == slot % 8 && e.2.2.1 == i)).map (fun e => e.2.2.2)
/-- Two packages are direct in a slot. -/
def SchedImage.direct (g : SchedImage) (p q slot : Nat) : Bool :=
  g.ents.any (fun e => e.1 == p && e.2.1 == slot % 8 && e.2.2.2 == q)

end Sys2Proof

namespace Sys2Proof.Machine

/-! ### Links and slots -/

def Package.link (k : Package) (i : Nat) : Link := tget {} k.links i
def Package.modLink (k : Package) (i : Nat) (f : Link → Link) : Package := { k with links := tput k.links i (f (k.link i)) }
def State.modLink (s : State) (p i : Nat) (f : Link → Link) : State := s.modPkg p (fun k => k.modLink i f)

/-- The slot of fabric time, counted from 0 (R339). -/
def State.slot (s : State) : Nat := s.time / 10000
/-- Nanoseconds into the slot. -/
def State.intoSlot (s : State) : Nat := s.time % 10000

/-! ### The sender's stamp -/

/-- The channel whose freed slots are returned next, after the one returned last (R336). -/
def Link.nextOwed (l : Link) : Option Nat :=
  ((List.range 7).map (fun k => (l.lastCr + 1 + k) % 7)).find? (fun c => tget 0 l.owed c != 0)

/-- The acknowledgement and credit that a flit carries, and the link that has given them. -/
def Link.stamp (l : Link) (f : Flit) : Flit × Link :=
  match l.nextOwed with
  | none => ({ f with lack := l.rxSeq, crch := 0, crinc := 0 }, { l with dueIdle := false })
  | some c =>
    let n := min 63 (tget 0 l.owed c)
    let l : Link := { l with owed := tput l.owed c (tget 0 l.owed c - n), lastCr := c }
    ({ f with lack := l.rxSeq, crch := c, crinc := n }, { l with dueIdle := l.nextOwed.isSome })

/-- A flit leaves on a link: it is on its way to the peer's receiver. -/
def State.putWire (s : State) (p i : Nat) (f : Flit) : State :=
  let r := ((s.pkg p).link i).stamp f
  (s.modLink p i (fun _ => r.2)).modLink r.2.peer i (fun x => { x with wire := x.wire ++ [r.1.seal r.2.tuse] })

/-! ### The receiver -/

/-- Whether a sequence number lies before another, modulo 4,096 (R337). -/
def seqBefore (a b : Nat) : Bool := a != b && decide ((b + 4096 - a) % 4096 ≤ 2048)

/-- LACK passes flits of the replay buffer (R337). -/
def Link.acked (l : Link) (lack now : Nat) : Link :=
  let rest := l.replay.dropWhile (fun f => seqBefore f.lseq lack)
  if rest.length = l.replay.length then l else { l with replay := rest, resend := min l.resend rest.length, ackAt := now }

/-- Why a receiver refuses a flit (R335): the CODE of LINK_PROTOCOL. -/
def Flit.protocol (f : Flit) (p : Nat) : Option Nat :=
  let resv := match f.body with
    | .reserved => true
    | _ => false
  if resv || decide (8 ≤ f.type) then some 1
  else if (if f.type = 1 then f.ch != 0 && f.ch != 5 else f.ch != (f.body.typeCh false).2) then some 2
  else if 2 ≤ f.hop then some 3
  else if f.hop = 1 ∧ f.dst ≠ p then some 4
  else none

/-- A flit is dropped, with a LINK_PROTOCOL record (R335). -/
def State.protocolDrop (s : State) (p i code : Nat) (f : Flit) : State :=
  s.event p 8 (pkgRec 0x0E code (dataAt [(32, leBytes 2 i), (40, f.header f.fcrc.toNat)]))

/-- The check of a connection's first flit (R341). -/
def State.checkFirst (s : State) (p i : Nat) (f : Flit) : State :=
  let l := (s.pkg p).link i
  if l.checked then s
  else
    let s := s.modLink p i (fun x => { x with checked := true })
    if f.src = l.peer then s
    else
      let sver := match (s.pkg p).sched with
        | some g => g.sver.toNat
        | none => 0
      (s.modLink p i (fun x => { x with mism := true, idleOnly := true })).event p 8
        (pkgRec 0x0F 0 (dataAt [(32, leBytes 2 i), (34, leBytes 1 l.peer), (35, leBytes 1 f.src), (36, leBytes 4 sver)]))

/-- A type that carries a link sequence number (R334). -/
def Flit.sequenced (f : Flit) : Bool := decide (1 ≤ f.type) && decide (f.type ≤ 6)

/-- A receiver takes the next flit of a link that `want` selects. A flit that it drops by R335 or R338 it takes whatever is wanted. -/
def State.takeFlit (s : State) (p i : Nat) (want : Flit → Bool) : Option Flit × State :=
  let k := s.pkg p
  let l := k.link i
  if 128 ≤ i || !l.conn || k.slotNo != s.slot then (none, s)
  else
    match l.wire with
    | [] => (none, s)
    | f :: fs =>
      let took := s.modLink p i (fun x => { x with wire := fs })
      -- what is dropped until the expected number arrives asks for a replay once
      let miss (s : State) : State := s.modLink p i (fun x => { x with dropping := true, dueReplay := x.dueReplay || !x.dropping })
      if !f.intact l.ruse then (none, miss (took.modLink p i (fun x => { x with crcf := sat 32 x.crcf })))
      else
        match f.protocol p with
        | some code => (none, took.protocolDrop p i code f)
        | none =>
          let late := f.sequenced && f.lseq != l.rxSeq
          if !late && !want f then (none, s)
          else
            let s := (took.modPkg p (fun k => { k with heard := tput k.heard f.src s.time })).checkFirst p i f
            let s := s.modLink p i (fun x =>
              { x.acked f.lack s.time with credits := tput x.credits f.crch (tget 0 x.credits f.crch + f.crinc) })
            if late then (none, miss s)
            else if f.sequenced then
              (some f, s.modLink p i (fun x => { x with
                rxSeq := (x.rxSeq + 1) % 4096, dropping := false, owed := tput x.owed f.ch (tget 0 x.owed f.ch + 1), dueIdle := true }))
            else (some f, s)

/-- A flit for this package whose body `want` selects is performed, once (R325). -/
def State.onFlit (s : State) (p i : Nat) (want : Flit → Bool) (now : Flit → State → State) : State :=
  match s.takeFlit p i (fun f => f.sequenced && f.dst == p && want f) with
  | (some f, s) => s.deliver p f now
  | (none, s) => s

end Sys2Proof.Machine
end

