-- ==== Sys2Proof/Machine/Coll.lean ====
section
/-! DEFINITION. Collectives: COLL and COLLQ, the exchange of contributions between the members, the fold in ascending rank, aborts and the end
(R227 to R235). Each member sends its part straight to the members that need it, at the step that its algorithm gives the pair (log
entry 30). -/

namespace Sys2Proof.Machine

/-! ### The parameter block (R228) -/

def Coll.op (c : Coll) : Nat := blkByte c.block 0
def Coll.alg (c : Coll) : Nat := blkByte c.block 1
def Coll.dtype (c : Coll) : Nat := blkByte c.block 2
def Coll.redop (c : Coll) : Nat := blkByte c.block 4
def Coll.root (c : Coll) : Nat := blkLe c.block 6 2
def Coll.sendAt (c : Coll) : Nat := blkLe c.block 16 8
def Coll.recvAt (c : Coll) : Nat := blkLe c.block 24 8
def Coll.count (c : Coll) : Nat := blkLe c.block 32 8
def Coll.stepBase (c : Coll) : Nat := blkLe c.block 40 8
def Coll.keyBase (c : Coll) : DWord := BitVec.ofNat 64 (blkLe c.block 48 8)
def Coll.bbe (c : Coll) : Bool := decide (128 ≤ blkByte c.block 56)
def Coll.bb (c : Coll) : Nat := blkByte c.block 56 % 32
def Coll.cw (c : Coll) : Nat := blkLe c.block 64 8
def Coll.ranks (c : Coll) : Nat := c.members.length
/-- Bytes of an element of DTYPE, whose codes are those of R48. -/
def Coll.elem (c : Coll) : Nat := elemSize c.dtype
def Coll.blockBytes (c : Coll) : Nat := c.count * c.elem

/-- What must match across the members: all but SEND, RECV, BB and CW, and the members (R227, R229). -/
def Coll.par (c : Coll) : List Byte :=
  c.block.take 16 ++ (c.block.drop 32).take 24 ++ c.members.map (BitVec.ofNat 8)

/-- Blocks of SEND and of RECV (R230). -/
def sendBlocks (op n : Nat) : Nat := if op = 1 ∨ op = 3 then n else 1
def recvBlocks (op n : Nat) : Nat := if op = 2 ∨ op = 3 then n else 1

/-- Two ranges of bytes meet. -/
def rangesMeet (a n b m : Nat) : Bool := decide (a < b + m) && decide (b < a + n)
def isPow2 (n : Nat) : Bool := (List.range 9).any (fun k => n == 2 ^ k)

/-- A reserved bit or value of the block. -/
def collReserved (b : List Byte) : Bool :=
  blkByte b 5 != 0 || blkLe b 10 6 != 0 || blkLe b 57 7 != 0 || blkLe b 72 56 != 0 || blkByte b 56 / 32 % 4 != 0 ||
    !(decide (1 ≤ blkByte b 2) && decide (blkByte b 2 ≤ 7)) || !([0, 1, 7].contains (blkByte b 3)) ||
    decide (255 < blkLe b 8 2) || !(decide (1 ≤ blkLe b 32 8) && decide (blkLe b 32 8 ≤ 2 ^ 32))

/-- OP, ALG, REDOP or ROOT is not valid for a group of `n` (R209, reason 0x0A). -/
def collInvalid (b : List Byte) (n : Nat) : Bool :=
  let op := blkByte b 0
  decide (5 < op) || decide (2 < blkByte b 1) || decide (2 < blkByte b 4) ||
    (decide (2 ≤ op) && decide (op ≤ 4) && blkByte b 4 != 0) ||
    (if op = 4 ∨ op = 5 then decide (n ≤ blkLe b 6 2) else blkLe b 6 2 != 0) || (blkByte b 1 == 1 && !isPow2 n)

/-- Entry `g` of the collective group table (R227). One that lists a package twice is no group. -/
def Package.cgroupAt (k : Package) (g : Nat) : CGroup :=
  let b (j : Nat) : Byte := tget 0 k.cgTab (512 * g + j)
  let ms := (List.range ((b 0).toNat + 1)).map (fun r => (b (8 + r)).toNat)
  ⟨(b 1).getLsbD 0 && decide ms.Nodup, ms⟩

/-- The checks of a block at an address (R209, R228). -/
def Iss.collFail (u : Iss) (tm : Team) (k : Package) (va : Nat) (b : List Byte) : Option GFail :=
  let g := k.cgroupAt (blkLe b 8 2)
  let n := g.members.length
  let z := blkLe b 32 8 * elemSize (blkByte b 2)
  let op := blkByte b 0
  firstFail [u.failIf (collReserved b) 1 va,
    u.failIf (!(blkByte b 3 == 0 || (blkByte b 3 == 1) == decide (blkByte b 2 ≤ 5))) 2 va,
    u.failIf (blkLe b 16 8 % 128 != 0 || blkLe b 24 8 % 128 != 0 || blkLe b 64 8 % 32 != 0) 3 va,
    u.failIf (rangesMeet (blkLe b 16 8) (sendBlocks op n * z) (blkLe b 24 8) (recvBlocks op n * z) &&
      !(blkLe b 16 8 == blkLe b 24 8 && (op == 0 || op == 4 || op == 5))) 4 va,
    u.bbFail tm (decide (128 ≤ blkByte b 56)) (blkByte b 56 % 32) va,
    u.failIf (!g.valid || !g.members.contains u.pkg) 9 va,
    u.failIf (collInvalid b n) 0x0A va]

/-! ### Steps (R232) -/

/-- Steps of an algorithm for one pass over `n` ranks. -/
def passSteps (alg n : Nat) : Nat :=
  match alg with
  | 0 => n - 1
  | 1 => Nat.log2 n
  | _ => 1
/-- All-reduce makes two passes. -/
def Coll.passes (c : Coll) : Nat := if c.op = 0 then 2 else 1
def Coll.pass (c : Coll) : Nat := if c.ranks = 1 then 0 else passSteps c.alg c.ranks
def Coll.total (c : Coll) : Nat := c.passes * c.pass

/-- The step of a pass at which the part of rank `s` reaches rank `r`. -/
def pairStep (alg n s r : Nat) : Nat :=
  match alg with
  | 0 => (r + n - s - 1) % n
  | 1 => Nat.log2 (Nat.xor s r)
  | _ => 0

/-- Segment `j` of an all-reduce: its first byte and its length. -/
def Coll.seg (c : Coll) (j : Nat) : Nat × Nat :=
  let lo := j * c.count / c.ranks
  (lo * c.elem, ((j + 1) * c.count / c.ranks - lo) * c.elem)

/-- What rank `s` gives rank `r` at a step: the first byte and the length, in SEND, or in the reduced segment at the second pass of an
all-reduce; none where it gives nothing. -/
def Coll.part? (c : Coll) (step s r : Nat) : Option (Nat × Nat) :=
  let z := c.blockBytes
  if s ≠ r ∧ pairStep c.alg c.ranks s r ≠ (if c.op = 0 then step % c.pass else step) then none
  else
    match c.op with
    | 0 => if step < c.pass then some (c.seg r) else some (0, (c.seg s).2)
    | 1 | 3 => some (r * z, z)
    | 2 => some (0, z)
    | 4 => if s = c.root then some (0, z) else none
    | _ => if r = c.root then some (0, z) else none

/-- Chunks of a flit's data each. -/
def chunks (bs : List Byte) : List (List Byte) := chunksOf 128 (bs.length / 128 + 1) bs

/-- The bytes of a part that has arrived whole: none while a chunk is missing. -/
def Coll.arrived (c : Coll) (step src len : Nat) : Option (List Byte) :=
  (List.range ((len + 127) / 128)).foldr (fun k acc => match acc, c.got.find? (fun x => x.1 == step && x.2.1 == src && x.2.2.1 == k) with
    | some bs, some x => some (x.2.2.2 ++ bs)
    | _, _ => none) (some [])

/-! ### The fold (R231) -/

/-- An element widened into ATYPE. -/
def collWiden (dtype v : Nat) : Nat :=
  if dtype = 6 then wrap 32 (toInt 8 true v) else if dtype = 7 then v else (fp32.ofVal .rne (elemVal dtype v)).1

/-- One step of the fold. -/
def collOp (dtype redop acc x : Nat) : Nat :=
  if 6 ≤ dtype then
    match redop with
    | 0 => (acc + x) % 2 ^ 32
    | 1 => if toInt 32 true x < toInt 32 true acc then x else acc
    | _ => if toInt 32 true acc < toInt 32 true x then x else acc
  else
    match redop with
    | 0 => (fp32.addVal .rne (fp32.val acc) (fp32.val x)).1
    | r => (fp32.minMax (r == 1) acc x).1

/-- The result in DTYPE. -/
def collNarrow (dtype v : Nat) : Nat :=
  match dtype with
  | 1 | 7 => v
  | 6 => wrap 8 (clamp 8 true (toInt 32 true v))
  | _ => match elemFmt? dtype with
    | some f => (f.ofVal .rne (fp32.val v)).1
    | none => 0

/-- One element of every rank, in ascending rank. -/
def foldElems (dtype redop : Nat) : List Nat → Nat
  | [] => 0
  | x :: xs => collNarrow dtype (xs.foldl (fun acc y => collOp dtype redop acc (collWiden dtype y)) (collWiden dtype x))

/-- Parts of equal length, one for each rank, reduced element by element. -/
def Coll.reduce (c : Coll) (parts : List (List Byte)) : List Byte :=
  let z := c.elem
  (List.range ((parts.headD []).length / z)).flatMap (fun j =>
    leBytes z (foldElems c.dtype c.redop (parts.map (fun b => leNat ((b.drop (j * z)).take z)))))

/-- The parts that every rank has given this one in the reducing pass, in ascending rank. -/
def Coll.parts (c : Coll) : List (List Byte) :=
  (List.range c.ranks).map (fun s =>
    let step := if s = c.rank then 0 else pairStep c.alg c.ranks s c.rank
    match c.part? step s c.rank with
    | some x => (c.arrived step s x.2).getD []
    | none => [])

/-! ### COLL and COLLQ -/

/-- A package's last 4,096 collectives (R235), and those that it still keeps: these, and older ones that have not ended. -/
@[irreducible] def lastColls (cs : List Coll) : List Coll := cs.drop (cs.length - 4096)
def keptColls (cs : List Coll) : List Coll := (cs.take (cs.length - 4096)).filter (fun c => !c.ended) ++ lastColls cs

/-- COLL (R208, R228, R229): the block is read, and the collective waits for the sequencer. -/
def Iss.issueColl (u : Iss) (tm : Team) (va : Nat) (d : Reg) (s : State) : GEnd × State :=
  if 64 ≤ ((s.pkg u.pkg).colls.filter (fun c => !c.ended)).length then (.wait, s)
  else if va % 128 ≠ 0 then (.fail (u.engFail 3 va), s)
  else
    match u.lockPage tm .read va s with
    | (.error e, s) => (.fail e, s)
    | (.ok t, s) =>
      let a := s.forward (t.at va)
      match s.homeFault u.pkg a false with
      | some (code, _) => (.fail (u.atIssue code va), s)
      | none =>
        let b := s.peekN a 128
        let s := s.need a false (u.die s)
        match u.collFail tm (s.pkg u.pkg) va b with
        | some e => (.fail e, s)
        | none =>
          let k := s.pkg u.pkg
          let g := blkLe b 8 2
          let ms := (k.cgroupAt g).members
          let count := k.collCount + 1
          let h : DWord := BitVec.ofNat 64 (g * 2 ^ 40 + count % 2 ^ 40)
          let c : Coll := { handle := h, n := tget 0 k.collOn g, ctx := u.ctx, inst := tm.inst, part := tm.part, driver := tm.driver,
                            pc := u.pc, group := u.group, core := tm.coreOf u.group, block := b, members := ms,
                            rank := ms.idxOf u.pkg }
          let s := s.modPkg u.pkg (fun k => { k with
            colls := keptColls (k.colls ++ [c]), collCount := count,
            collOn := tput k.collOn g (tget 0 k.collOn g + 1) })
          (.done, u.lanes.foldl (fun s l => (u.defer l d ((words2 h).map (fun w => (w, false))) 0 s).1) s)

def execColl (c : Ctl) (d a : Reg) (s : State) : Host.Outcome State Fault Refusal :=
  s.issueGroup c true [.pair a] (fun u tm ops s => u.issueColl tm (pairAt ops 0) d s)

/-- The state of a handle (R235). -/
def Coll.stateCode (c : Coll) : Nat :=
  if c.ended then (if c.st = .aborted then 3 else 2) else if c.st = .queued then 0 else 1

/-- COLLQ (R235). The step number of a handle that is not known is a free value. -/
def execCollq (c : Ctl) (d a : Reg) (s : State) : Host.Outcome State Fault Refusal :=
  s.issueGroup c true [.pair a] (fun u _ ops s =>
    let x := (lastColls (s.pkg u.pkg).colls).find? (fun y => y.handle.toNat == pairAt ops 0)
    let r : (Nat × Nat) × State := match x with
      | some y => ((y.stepBase + y.steps, y.stateCode), s)
      | none => ((Config.freeNat s.free, 4), { s with free := s.free + 1 })
    let ws := words2 (BitVec.ofNat 64 r.1.1) ++ [BitVec.ofNat 32 r.1.2, 0]
    (.done, u.lanes.foldl (fun s l => (u.defer l d (ws.map (fun w => (w, false))) 0 s).1) r.2))

/-! ### Exchange -/

/-- A collective of a package is changed. -/
def State.modColl (s : State) (p : Nat) (h : DWord) (f : Coll → Coll) : State :=
  s.modPkg p (fun k => { k with colls := k.colls.map (fun c => if c.handle = h then f c else c) })
def Package.coll? (k : Package) (h : DWord) : Option Coll := k.colls.find? (fun c => c.handle == h)

/-- A member aborts, and sends the tokens (R234). -/
def State.abortColl (s : State) (p : Nat) (h : DWord) (cause : Nat) (addr : DWord) : State :=
  (s.modColl p h (fun c => if c.st = .complete ∨ c.st = .aborted then c else { c with faddr := addr })).modPkg p (fun k =>
    k.abortColls p cause Coll.rank (fun c => c.handle == h))

/-- Whom a collective's accesses serve. -/
def Coll.who (c : Coll) : Who := { part := c.part, driver := c.driver, inst := c.inst, pc := c.pc.setWidth 64, core := c.core }

/-- An access of a collective fails: an absent page is serviced while it waits, any other failure aborts (R223, R234). -/
def State.collStop (s : State) (p : Nat) (c : Coll) (f : AFail) (acc : Access) : State :=
  if f.code = 0x05 then
    let die := dieOf c.core
    ((s.modDie p die (fun d => d.addFault
        ⟨c.part, BitVec.ofNat 64 f.addr &&& ~~~ 0xFFFF, 8 ||| acc.kind, 0, c.inst, c.pc.setWidth 64, false⟩)).modColl p c.handle
      (fun c => { c with page := some (BitVec.ofNat 64 f.addr) })).flushFaults p die
  else (s.modColl p c.handle (fun c => { c with poison := c.poison || f.code == 0x08 })).abortColl p c.handle f.code (BitVec.ofNat 64 f.addr)

/-- An identity that a package still keeps: that of a collective of the group which some member has not ended (R232). -/
def State.identKept (s : State) (c : Coll) : Bool :=
  c.members.any (fun q => match (s.pkg q).colls.find? (fun x => x.cgroup == c.cgroup && x.n == c.n) with
    | some x => !x.ended
    | none => true)

/-- A contribution, the parameters of a member's first exchange, or an abort token reaches a member's collective, or waits for it to be issued (R229, R232, R234). -/
def State.collRecv (s : State) (p : Nat) (b : Body) : State :=
  let k := s.pkg p
  match b with
  | .coll g n key step src chunk par data =>
    match k.colls.find? (fun c => c.cgroup == g && c.n == n) with
    | none => s.modPkg p (fun k => { k with collEarly := k.collEarly ++ [b] })
    | some c =>
      if c.st = .aborted ∨ c.st = .complete then s
      else if par ≠ c.par then s.abortColl p c.handle 0x17 0
      else if k.colls.any (fun x => x.cgroup == g && x.keyBase == key && x.got.any (fun y =>
          x.stepBase + y.1 == c.stepBase + step && y.2.1 == src && y.2.2.1 == chunk && src != x.rank) && s.identKept x) then s
      else s.modColl p c.handle (fun c => { c with got := c.got ++ [(step, src, chunk, data)] })
  | .hello g n src par =>
    match k.colls.find? (fun c => c.cgroup == g && c.n == n) with
    | none => s.modPkg p (fun k => { k with collEarly := k.collEarly ++ [b] })
    | some c =>
      if c.st = .aborted ∨ c.st = .complete then s
      else if par ≠ c.par then s.abortColl p c.handle 0x17 0
      else s.modColl p c.handle (fun c => { c with heard := if c.heard.contains src then c.heard else c.heard ++ [src] })
  | .abort g n rank cause _ =>
    match k.colls.find? (fun c => c.cgroup == g && c.n == n) with
    | none => s.modPkg p (fun k => { k with collEarly := k.collEarly ++ [b] })
    | some c => s.modColl p c.handle (fun c => c.abort rank cause)
  | _ => s

/-- A body that belongs to a collective. -/
def Body.ofColl (b : Body) (g n : Nat) : Bool :=
  match b with
  | .coll g' n' .. => g' == g && n' == n
  | .hello g' n' .. => g' == g && n' == n
  | .abort g' n' .. => g' == g && n' == n
  | _ => false

/-- Parts put under this member's own rank. -/
def ownGot (step rank : Nat) (bs : List Byte) : List (Nat × Nat × Nat × List Byte) :=
  (chunks bs).mapIdx (fun k b => (step, rank, k, b))

/-- Bytes that a collective reads of SEND. -/
def State.collRead (s : State) (p : Nat) (c : Coll) (off n : Nat) : Except AFail (List Byte) × State :=
  s.agentRead p c.who none (c.sendAt + off) n

/-- The contributions of a step, one member after another; `own` is the reduced segment of an all-reduce's second pass. -/
def State.sendStep (p : Nat) (c : Coll) (own : List Byte) : List Nat → State → Option AFail × State
  | [], s => (none, s)
  | r :: rs, s =>
    match (if r = c.rank then none else c.part? c.sent c.rank r) with
    | none => State.sendStep p c own rs s
    | some (off, n) =>
      let src : Except AFail (List Byte) × State :=
        if c.op = 0 ∧ c.pass ≤ c.sent then (.ok own, s) else s.collRead p c off n
      match src with
      | (.error f, s) => (some f, s)
      | (.ok bs, s) =>
        match State.sendStep p c own rs s with
        | (some f, s) => (some f, s)
        | (none, s) =>
          (none, (chunks bs).zipIdx.foldl (fun s (x : List Byte × Nat) =>
            s.send p (c.members.getD r 0) (.coll c.cgroup c.n c.keyBase c.sent c.rank x.2 c.par x.1)) s)

/-- Bytes written to RECV, line by line; how many landed, and the failure that stopped them. -/
def State.recvWrite (p : Nat) (c : Coll) : List (Nat × List Byte) → Nat → State → Option AFail × Nat × State
  | [], n, s => (none, n, s)
  | (off, bs) :: xs, n, s =>
    match s.agentWrite p c.who none (c.recvAt + off) bs with
    | (some f, s) => (some f, n, s)
    | (none, s) => State.recvWrite p c xs (n + bs.length) s

/-- A run of bytes cut at lines of RECV, which is 128-byte aligned. -/
def atLines (off : Nat) (bs : List Byte) : List (Nat × List Byte) :=
  let k := 128 - off % 128
  (off, bs.take k) :: (chunks (bs.drop k)).mapIdx (fun j b => (off + k + 128 * j, b))

/-- What a step that is complete puts into RECV (R230). -/
def Coll.landed (c : Coll) (step : Nat) : List (Nat × List Byte) :=
  let z := c.blockBytes
  let from' (off : Nat → Nat) : List (Nat × List Byte) :=
    ((List.range c.ranks).filter (fun s => s != c.rank)).flatMap (fun s => match c.part? step s c.rank with
      | some x => atLines (off s) ((c.arrived step s x.2).getD [])
      | none => [])
  let own (off : Nat) : List (Nat × List Byte) :=
    if step = 0 then match c.part? 0 c.rank c.rank with
      | some x => atLines off ((c.arrived 0 c.rank x.2).getD [])
      | none => []
    else []
  match c.op with
  | 0 => if step + 1 = c.pass then atLines (c.seg c.rank).1 (c.reduce c.parts)
    else if c.pass ≤ step then from' (fun s => (c.seg s).1) else []
  | 1 => if step + 1 = c.pass then atLines 0 (c.reduce c.parts) else []
  | 2 | 3 => own (c.rank * z) ++ from' (fun s => s * z)
  | 4 => own 0 ++ from' (fun _ => 0)
  | _ => if step + 1 = c.pass ∧ c.rank = c.root then atLines 0 (c.reduce c.parts) else []

/-- Every part of the current step has arrived. -/
def Coll.stepFull (c : Coll) : Bool :=
  (List.range c.ranks).all (fun s => s == c.rank || match c.part? c.steps s c.rank with
    | some x => (c.arrived c.steps s x.2).isSome
    | none => true)

/-- The first exchange: the member's parameters go to every other, its own part is read, and what has come early is taken (R229, R233). With one rank SEND is copied to RECV
(R232). -/
def State.collBegin (s : State) (p : Nat) (c : Coll) : State :=
  let run (got : List (Nat × Nat × Nat × List Byte)) (wrote : Nat) (s : State) : State :=
    let s := s.modColl p c.handle (fun c => { c with st := .running, got := c.got ++ got, wrote := wrote })
    let s := c.members.foldl (fun s q => if q = p then s else s.send p q (.hello c.cgroup c.n c.rank c.par)) s
    let early := (s.pkg p).collEarly.filter (fun b => b.ofColl c.cgroup c.n)
    early.foldl (fun s b => s.collRecv p b)
      (s.modPkg p (fun k => { k with collEarly := k.collEarly.filter (fun b => !b.ofColl c.cgroup c.n) }))
  match c.part? 0 c.rank c.rank with
  | none => run [] 0 s
  | some (off, n) =>
    match s.collRead p c off n with
    | (.error f, s) => s.collStop p c f .read
    | (.ok bs, s) =>
      if c.ranks = 1 then
        match State.recvWrite p c (atLines 0 bs) 0 s with
        | (none, w, s) => run [] w s
        | (some f, w, s) => (if f.code = 0x05 then s else s.modColl p c.handle (fun c => { c with wrote := w })).collStop p c f .write
      else run (ownGot 0 c.rank bs) 0 s

/-- The parameters of every other member have been found to match (R229). -/
def Coll.allHeard (c : Coll) : Bool := (List.range c.ranks).all (fun r => r == c.rank || c.heard.contains r)

/-- A running collective moves on: the contributions of its step go out; then, when those of the others are in, the step is complete. -/
def State.collMove (s : State) (p : Nat) (c : Coll) : State :=
  if c.total ≤ c.steps then s
  else if c.sent = c.steps then
    match State.sendStep p c (if c.op = 0 ∧ c.pass ≤ c.sent then c.reduce c.parts else []) (List.range c.ranks) s with
    | (some f, s) => s.collStop p c f .read
    | (none, s) => s.modColl p c.handle (fun c => { c with sent := c.sent + 1 })
  else if c.stepFull && c.allHeard then
    match State.recvWrite p c (c.landed c.steps) 0 s with
    | (none, w, s) => s.modColl p c.handle (fun c => { c with steps := c.steps + 1, wrote := c.wrote + w })
    | (some f, w, s) =>
      (if f.code = 0x05 then s else s.modColl p c.handle (fun c => { c with wrote := c.wrote + w })).collStop p c f .write
  else s

/-- COLL_EXCHANGE (R229, R232): the next move of a collective. A member in a dead cell aborts it (R327). -/
def execCollExchange (p : Nat) (h : DWord) (s : State) : Host.Outcome State Fault Refusal :=
  .next (match (s.pkg p).coll? h with
    | none => s
    | some c =>
      if c.ended || c.page.isSome || c.st == .aborted then s
      else
        match c.members.find? (fun q => (s.pkg p).dead q) with
        | some q => s.modPkg p (fun k => k.abortColls p 0x0A (fun c => c.members.idxOf q) (fun c => c.handle == h))
        | none => if c.st = .queued then s.collBegin p c else s.collMove p c)

/-- COLL_CONTRIBUTION (R231, R232): a contribution arrives; a duplicate is dropped. -/
def execCollContribution (p link : Nat) (s : State) : Host.Outcome State Fault Refusal :=
  .next (s.onFlit p link (fun f => match f.body with
    | .coll .. | .hello .. => true
    | _ => false) (fun f s => s.collRecv p f.body))

/-- COLL_ABORT_TOKEN (R234): the member stops. -/
def execCollAbortToken (p link : Nat) (s : State) : Host.Outcome State Fault Refusal :=
  .next (s.onFlit p link (fun f => match f.body with
    | .abort .. => true
    | _ => false) (fun f s => s.collRecv p f.body))

/-! ### The end (R233, R234) -/

/-- A member has stopped, as an abort asks, or its cell is dead. -/
def State.collStopped (s : State) (p : Nat) (c : Coll) (q : Nat) : Bool :=
  (s.pkg p).dead q || match (s.pkg q).colls.find? (fun x => x.cgroup == c.cgroup && x.n == c.n) with
    | some x => x.st == .aborted || x.st == .complete
    | none => (s.pkg q).collEarly.any (fun b => match b with
      | .abort g n .. => g == c.cgroup && n == c.n
      | _ => false)
/-- The steps that every member has completed (R234). -/
def State.collCommon (s : State) (c : Coll) : Nat :=
  c.members.foldl (fun k q => min k (match (s.pkg q).colls.find? (fun x => x.cgroup == c.cgroup && x.n == c.n) with
    | some x => x.steps
    | none => 0)) c.steps

/-- STATUS of a collective that ends (R210, R234): 0x08 where this member's own access met a poisoned line (R329). -/
def Coll.status (c : Coll) : Nat := if c.st ≠ .aborted then 0 else if c.poison && c.abortRank == c.rank then 0x08 else 0x80

/-- The handle's state becomes final, last of all (R233). -/
def State.collFinish (s : State) (p : Nat) (c : Coll) (bad : Option Nat) : State :=
  let st := c.status
  let info := if c.st = .aborted then c.abortRank + 256 * c.cause else 0
  let report (code : Nat) (data : List (Nat × List Byte)) (s : State) : State :=
    let (lane, s) := s.choose 64
    (s.modRec p c.inst (fun r => r.logFault code lane c.core (c.pc.setWidth 64) c.group)).event p (ringOf c.part c.driver)
      ⟨0x05, c.part, BitVec.ofNat 32 code, c.inst, c.pc.setWidth 64, c.core, 0xFF, dataAt data⟩
  let s := match bad with
    | some code => report code [(32, leBytes 8 c.cw), (40, leBytes 4 info), (44, leBytes 4 st)] s
    | none => if c.cw = 0 ∧ st ≠ 0 then report st [(32, leBytes 8 c.faddr.toNat), (40, leBytes 4 info)] s else s
  let s := if c.bbe then (s.copyCredit p c.ctx c.inst c.bb c.wrote).getD s else s
  s.modColl p c.handle (fun x => { x with st := if x.st = .aborted then .aborted else .complete, got := c.got,
                                          page := none, ended := true })

/-- COLL_END (R233, R234): the completion record, the credit, and the final state. -/
def execCollEnd (p : Nat) (h : DWord) (s : State) : Host.Outcome State Fault Refusal :=
  .next (match (s.pkg p).coll? h with
    | none => s
    | some c =>
      let aborted := c.st == .aborted
      if c.ended || c.page.isSome || !(if aborted then c.members.all (s.collStopped p c) else c.st == .running && c.steps == c.total) then s
      else
        let k := s.collCommon c
        let c : Coll := if aborted then { c with got := c.got.filter (fun x => decide (x.1 < k)) } else c
        if c.cw = 0 then s.collFinish p c none
        else
          match s.writeRecord p c.who none c.cw (c.stepBase + (if aborted then k else c.steps)) c.status
              (if aborted then c.abortRank + 256 * c.cause else 0) c.faddr.toNat with
          | (none, s) => s.collFinish p c none
          | (some f, s) => if f.code = 0x05 then s.collStop p c f .write else s.collFinish p c (some f.code))

end Sys2Proof.Machine
end

