-- ==== Sys2Proof/Machine/Ring.lean ====
section
/-! DEFINITION. The Ringmaster: template records, regions and edges, launches, mailboxes and slots, the ready pool, dispatch,
completion and certification (R12 to R19, R110, R276 to R291, R384). -/

namespace Sys2Proof.Machine

/-! ### Template records (R110) -/

/-- A region entry of 24 bytes. -/
def parseRegion (b : List Byte) : Option TRegion :=
  let r : TRegion := ⟨blkLe b 0 4, blkLe b 4 4, blkLe b 8 4, blkLe b 12 4, blkByte b 16⟩
  if 3 < r.mode ∨ blkLe b 17 7 ≠ 0 then none
  else if r.mode = 0 ∧ b.any (· != 0) then none
  else some r

/-- The region entries of a record. -/
def parseRegions (b : List Byte) : Nat → Option (List TRegion)
  | 0 => some []
  | n + 1 =>
    match parseRegion (b.take 24), parseRegions (b.drop 24) n with
    | some r, some rs => some (r :: rs)
    | _, _ => none

/-- A template record: its first 40 bytes, the region entries below NREG, and bytes 232 to 255. -/
def parseTmpl (h rs tail : List Byte) : Option Tmpl :=
  let flags := blkLe h 4 2
  let width := blkByte h 6
  let groups := blkByte h 7
  let regs := blkLe h 8 2
  let pair := flags / 2 % 2 == 1
  let entry := blkLe h 16 8
  let handler := blkLe h 24 8
  let lmem := blkLe h 36 4
  if 4 ≤ flags ∨ (width ≠ 16 ∧ width ≠ 32 ∧ width ≠ 64) ∨ groups < (if pair then 2 else 1) ∨ (if pair then 32 else 16) < groups ∨
      regs < 32 ∨ 512 < regs ∨ regs % 32 ≠ 0 ∨ 2 ^ 57 ≤ entry ∨ entry % 8 ≠ 0 ∨ 2 ^ 57 ≤ handler ∨ handler % 8 ≠ 0 ∨
      11 < blkByte h 33 ∨ blkLe h 34 2 ≠ 0 ∨ 65536 < lmem ∨ lmem % 16 ≠ 0 ∨ (tail.any (· != 0)) then none
  else
    match parseRegions rs (blkByte h 32) with
    | none => none
    | some rs => some
        { mirror := flags % 2 == 1, pair := pair, width := width, groups := groups, regs := regs, nbc := blkByte h 10,
          bbc := blkByte h 11, scratch := blkLe h 12 4, entry := BitVec.ofNat 64 entry, handler := BitVec.ofNat 64 handler,
          prio := blkByte h 33, lmem := lmem, regions := rs }

/-- Why a launch cannot be read: a read fails, the record breaks R110, or a region interval runs past 2^57 (R280). -/
inductive LErr (ε : Type)
  | fault (e : ε)
  | record
  | interval

/-- A template record read at an address; NREG says which region entries are read (R110). -/
def readTmpl {ε : Type} (rd : Nat → Nat → State → Except ε (List Byte) × State) (a : Nat) (s : State) :
    Except (LErr ε) Tmpl × State :=
  match rd a 40 s with
  | (.error e, s) => (.error (.fault e), s)
  | (.ok h, s) =>
    if 8 < blkByte h 32 then (.error .record, s)
    else
      match rd (a + 40) (24 * blkByte h 32) s with
      | (.error e, s) => (.error (.fault e), s)
      | (.ok rs, s) =>
        match rd (a + 232) 24 s with
        | (.error e, s) => (.error (.fault e), s)
        | (.ok tail, s) =>
          match parseTmpl h rs tail with
          | none => (.error .record, s)
          | some t => (.ok t, s)

/-- The bounding intervals of the declared regions, their bases read from the argument block (R280). A region without bytes has an
empty interval. -/
def readBases {ε : Type} (rd : Nat → Nat → State → Except ε (List Byte) × State) (arg : Nat) :
    List TRegion → State → Except (LErr ε) (List (Nat × Nat × Nat)) × State
  | [], s => (.ok [], s)
  | r :: rs, s =>
    if r.mode = 0 then readBases rd arg rs s
    else
      match rd (arg + r.argoff) 8 s with
      | (.error e, s) => (.error (.fault e), s)
      | (.ok b, s) =>
        let lo := leNat b
        let hi := if r.width = 0 ∨ r.height = 0 then lo else lo + (r.height - 1) * r.pitch + r.width
        if 2 ^ 57 < hi ∧ lo < hi then (.error .interval, s)
        else
          match readBases rd arg rs s with
          | (.ok xs, s) => (.ok ((lo, hi, r.mode) :: xs), s)
          | e => e

/-- A template and its regions. -/
def readLaunch {ε : Type} (rd : Nat → Nat → State → Except ε (List Byte) × State) (a arg : Nat) (s : State) :
    Except (LErr ε) (Tmpl × List (Nat × Nat × Nat)) × State :=
  match readTmpl rd a s with
  | (.error e, s) => (.error e, s)
  | (.ok t, s) =>
    match readBases rd arg t.regions s with
    | (.error e, s) => (.error e, s)
    | (.ok rs, s) => (.ok (t, rs), s)

/-! ### Resources (R12 to R14) -/

/-- Resources of a core. -/
structure Res where
  slots : Nat
  threads : Nat
  regs : Nat
  scratch : Nat
  nb : Nat
  bb : Nat
  deriving DecidableEq, Repr

def Res.add (x y : Res) : Res := ⟨x.slots + y.slots, x.threads + y.threads, x.regs + y.regs, x.scratch + y.scratch, x.nb + y.nb, x.bb + y.bb⟩
def Res.within (x y : Res) : Bool :=
  decide (x.slots ≤ y.slots) && decide (x.threads ≤ y.threads) && decide (x.regs ≤ y.regs) && decide (x.scratch ≤ y.scratch) &&
    decide (x.nb ≤ y.nb) && decide (x.bb ≤ y.bb)
/-- A core (R12). -/
def coreRes : Res := ⟨32, 2048, 262144, 524288, 48, 32⟩
/-- A core less the reservation for level 11 (R13). -/
def coreLow : Res := ⟨31, 1984, 253952, 507904, 46, 30⟩

/-- What `n` groups charge on a core; the barriers live on the even core (R11, R12). -/
def Tmpl.charge (t : Tmpl) (n : Nat) (odd : Bool) : Res :=
  ⟨n, t.width * n, t.width * t.regs * n, t.scratch, if odd then 0 else t.nbc, if odd then 0 else t.bbc⟩
/-- Groups on the even core, or on the odd one. -/
def Tmpl.on (t : Tmpl) (odd : Bool) : Nat :=
  let even := if t.pair then (t.groups + 1) / 2 else t.groups
  if odd then t.groups - even else even
def Tmpl.need (t : Tmpl) (odd : Bool) : Res := t.charge (t.on odd) odd

/-- A template that no empty core can hold is refused (R14). -/
def Tmpl.refused (t : Tmpl) (prio : Nat) : Bool :=
  let room := if prio = 11 then coreRes else coreLow
  !((t.need false).within room && (!t.pair || (t.need true).within room))

/-- What a resident team charges on a core now: a retired group has freed its slot, threads and registers (R18). -/
def Team.charge (t : Team) (core : Nat) : Res :=
  match t.place with
  | none => ⟨0, 0, 0, 0, 0, 0⟩
  | some (c, _) =>
    let odd := t.tmpl.pair && core == c + 1
    if core = c ∨ odd then
      let gs := (List.range t.tmpl.groups).filter (fun g => t.onOdd g == odd && !(t.group g).retired)
      t.tmpl.charge gs.length odd
    else ⟨0, 0, 0, 0, 0, 0⟩
/-- The resources in use on a core, by the teams that `sel` selects. -/
def Package.inUse (k : Package) (core : Nat) (sel : Team → Bool) : Res :=
  k.teams.foldl (fun r t => if sel t.2 then r.add (t.2.charge core) else r) ⟨0, 0, 0, 0, 0, 0⟩

/-- A stopped team has been freed, and only its remote writes are still out (R261, step 7). -/
def Team.isFreed (t : Team) : Bool := t.stop.isSome && t.place.isNone && t.groups.all (fun g => g.2.retired)

/-- The bytes of .l windows in use (R59). -/
def Package.lmemUsed (k : Package) : Nat :=
  k.teams.foldl (fun n t => if t.2.isFreed then n
    else n + t.2.tmpl.width * t.2.tmpl.groups * t.2.tmpl.lmem) 0

/-- A team needs resources on a core, and the core has them free (R12, R13). -/
def Package.coreHolds (k : Package) (core prio : Nat) (need : Res) : Bool :=
  ((k.inUse core (fun _ => true)).add need).within coreRes &&
    (prio == 11 || ((k.inUse core (fun t => t.prio != 11)).add need).within coreLow)

/-- A core takes part in dispatch, and for a partition (R284, R353, R357). -/
def Package.coreOpen (k : Package) (core part : Nat) : Bool :=
  let x := k.core core
  decide (core < 384) && k.sdReady.getLsbD (16 + dieOf core) && !x.outOfDispatch && x.scanning.isNone && !x.preempt &&
    (match tfind k.corePart core with
      | some q => q == part
      | none => true)

/-- A team slot is free on a core. -/
def Package.slotFree (k : Package) (core slot : Nat) : Bool :=
  decide (slot < 32) && k.teams.all (fun t => match t.2.place with
    | some (c, n) => !((c == core || (t.2.tmpl.pair && c + 1 == core)) && n == slot)
    | none => true)

/-- A core, or the pair at an even core, can hold a template's team now. -/
def Package.roomFor (k : Package) (t : Tmpl) (prio part core : Nat) : Bool :=
  k.coreOpen core part && k.coreHolds core prio (t.need false) && (List.range 32).any (k.slotFree core) &&
    (!t.pair || (core % 2 == 0 && k.coreOpen (core + 1) part && k.coreHolds (core + 1) prio (t.need true)))

/-- A task not yet dispatched can be dispatched to a core; one that MIRROR sent back goes to another core, and to another die when one
has room (R35). -/
def Package.canDispatch (k : Package) (r : TRec) (core : Nat) : Bool :=
  let room := k.roomFor r.tmpl r.prio r.part
  (r.tmpl.lmem == 0 || decide (k.lmemUsed + r.tmpl.width * r.tmpl.groups * r.tmpl.lmem ≤ k.lmemPool.size)) && room core &&
    (match r.mirrorCore with
      | none => true
      | some c => core != c && !(r.tmpl.pair && core == c / 2 * 2) &&
          (dieOf core != dieOf c || !(List.range 384).any (fun x => dieOf x != dieOf c && room x)))

/-- A pre-empted team can be resumed on a core (R306): on its own while its bank stands, on another once its record is done and that
core's spill has ended; and its matrix claim moves with it (R211). -/
def Package.canResume (k : Package) (ctx : Nat) (t : Team) (core : Nat) : Bool :=
  let own (c : Nat) : Bool := (k.core c).inactive.contains ctx && !(k.core c).overwritten
  let fill (c : Nat) : Bool := (k.core c).inactive.all (fun x => match tfind k.teams x with
    | some y => y.recDone || y.place.isSome
    | none => true)
  let claimed (c : Nat) : Bool := k.teams.any (fun x => x.1 != ctx && x.2.claims c)
  k.roomFor t.tmpl t.prio t.part core && t.place.isNone && t.stop.isNone &&
    !(t.engE.claim && claimed core) && !(t.engO.claim && claimed (core + 1)) &&
    (own core || (t.recDone && fill core && (!t.tmpl.pair || fill (core + 1))))

/-- The head of a level. -/
def Package.headOf (k : Package) (level : Nat) : Option (Nat × TRec) :=
  match tget [] k.fifos level with
  | [] => none
  | ix :: _ => (tfind k.records ix).map (fun r => (ix, r))

/-- The head of a level is dispatchable (R284). -/
def Package.headFits (k : Package) (level : Nat) : Bool :=
  match k.headOf level with
  | none => false
  | some (_, r) => (List.range 384).any (fun core => match r.ctx with
    | none => k.canDispatch r core
    | some c => match tfind k.teams c with
      | some t => k.canResume c t core
      | none => false)

/-! ### The ready pool (R284, R285) -/

/-- A task enters a FIFO at its tail; at the head of an empty one its skip count starts at 0. -/
def Package.enqueue (k : Package) (prio ix : Nat) : Package :=
  let q := tget [] k.fifos prio
  { k with fifos := tput k.fifos prio (q ++ [ix]), skip := if q.isEmpty then tput k.skip prio 0 else k.skip }

/-- A pre-empted team's task goes to the head of its FIFO, behind those pre-empted before it (R306). -/
def Package.requeue (k : Package) (prio ix : Nat) : Package :=
  let q := tget [] k.fifos prio
  let old (x : Nat) : Bool := match tfind k.records x with
    | some r => r.ctx.isSome
    | none => false
  let n := (q.takeWhile old).length
  { k with fifos := tput k.fifos prio (q.take n ++ [ix] ++ q.drop n), skip := if n = 0 then tput k.skip prio 0 else k.skip }

/-- The highest level at or below `n - 1` that satisfies a test. -/
def highest (f : Nat → Bool) : Nat → Option Nat
  | 0 => none
  | n + 1 => if f n then some n else highest f n

/-- The level that the next dispatch takes (R285). -/
def Package.pickLevel (k : Package) : Option Nat :=
  let fits := k.headFits
  let b := highest (fun l => tget 0 k.skip l == 256 && (k.headOf l).isSome && !fits l) 12
  if fits 11 then some 11
  else
    let starved := (List.range 11).filter (fun l => tget 0 k.starve l == 256 && (highest fits (l + 1)).isSome)
    let low := match b with
      | some b => starved.any (fun l => decide (l < b))
      | none => false
    match starved.head?, low with
    | some l, false => highest fits (l + 1)
    | _, _ => highest (fun l => fits l && decide (b.getD 0 ≤ l)) 12

/-- The counts after a dispatch from level `h` (R285). -/
def Package.countDispatch (k : Package) (h : Nat) : Package :=
  (List.range 12).foldl (fun k l =>
    let c := tget 0 k.starve l
    let some' (l : Nat) : Bool := (List.range (l + 1)).any (fun m => !(tget [] k.fifos m).isEmpty)
    let k := if l ≤ 10 ∧ h ≤ l then { k with starve := tput k.starve l 0 }
      else if l ≤ 10 ∧ some' l then { k with starve := tput k.starve l (min (c + 1) 256) } else k
    let k := if h < l ∧ (k.headOf l).isSome ∧ !k.headFits l then
      { k with skip := tput k.skip l (min (tget 0 k.skip l + 1) 256) } else k
    if l = h then { k with skip := tput k.skip l 0 } else k) k

/-- A record becomes READY and enters the pool. -/
def State.makeReady (s : State) (p ix : Nat) : State :=
  match tfind (s.pkg p).records ix with
  | none => s
  | some r => (s.putRec p ix { r with st := .ready, deps := 0 }).modPkg p (fun k => k.enqueue r.prio ix)

/-! ### Launches (R276, R280 to R282) -/

/-- The instance of a package's sequence number. -/
def instOf (p q : Nat) : BitVec 40 := BitVec.ofNat 40 (p * 2 ^ 32 + q)

/-- The sequence number of the next instance: 1 follows 0xFFFF_FFFF, and a live one is skipped (R276). -/
def Package.seqAfter (k : Package) (p : Nat) : Nat → Nat → Nat
  | 0, q => q
  | fuel + 1, q =>
    let n := if q = 2 ^ 32 - 1 then 1 else q + 1
    if (k.findRec (instOf p n)).isSome then k.seqAfter p fuel n else n

/-- The record pool's entries. -/
def Package.recSlots (k : Package) : Nat := k.recPool.size / 128
/-- A free record of the pool. -/
def Package.freeRec (k : Package) : Option Nat :=
  let rec go : Nat → Nat → Option Nat
    | 0, _ => none
    | fuel + 1, i =>
      if k.recSlots ≤ i then none
      else match tfind k.records i with
        | none => some i
        | some r => if r.st = .free then some i else go fuel (i + 1)
  go (k.records.length + 1) 0

/-- The states that the matcher's window counts and that give edges (R281, R282). -/
def RecSt.inWindow : RecSt → Bool
  | .waiting | .ready | .running | .failed => true
  | _ => false

/-- A record belongs to a stream of launches (R276, R384). -/
def TRec.inStream (r : TRec) (x : Launch) : Bool := r.stream == x.stream && r.part == x.part && r.driver == x.driver
def Launch.sameStream (x y : Launch) : Bool := x.stream == y.stream && x.part == y.part && x.driver == y.driver

/-- Two regions overlap, and one of them is written (R280, R281). -/
def regionsMeet (a b : Nat × Nat × Nat) : Bool :=
  decide (max a.1 b.1 < min a.2.1 b.2.1) && (decide (2 ≤ a.2.2) || decide (2 ≤ b.2.2))

/-- An earlier task gives the launch an edge (R281). -/
def TRec.edgeTo (r : TRec) (x : Launch) : Bool :=
  r.inStream x && r.st.inWindow && r.regions.any (fun a => x.regions.any (regionsMeet a))

/-- The successor block pool is not empty, and holds the blocks that a launch's edges need (R282). -/
def Package.blocksOk (k : Package) (p : Nat) (x : Launch) : Bool :=
  let used := k.usedBlocks.length
  let need := ((k.records.filter (fun e => e.2.edgeTo x)).map (fun e => e.2.blockNeed)).sum
  decide (used < Config.succBlocks p) && decide (used + need ≤ Config.succBlocks p)

/-- A launch can go ahead: its stream's window has room, a record and successor blocks are free, and no launch of its stream waits before
it (R282). -/
def Package.launchOk (k : Package) (p : Nat) (before : List Launch) (x : Launch) : Bool :=
  decide ((k.records.filter (fun e => e.2.inStream x && e.2.st.inWindow)).length < 4096) && k.freeRec.isSome && k.blocksOk p x &&
    !before.any x.sameStream

/-- A launch made: the record, its edges, and its place in the pool (R276 to R284). -/
def State.launchNow (s : State) (p : Nat) (x : Launch) : BitVec 40 × State :=
  let k := s.pkg p
  match k.freeRec with
  | none => (0, s)
  | some ix =>
    let q := k.seqAfter p (k.records.length + 1) k.seq
    let inst := instOf p q
    let from' := k.records.filter (fun e => e.2.edgeTo x)
    let deps := x.ndep + from'.length
    let s := s.modPkg p (fun k => { k with seq := q })
    let s := from'.foldl (fun s e => s.addSucc p e.1 e.2 inst) s
    let r : TRec := { inst := inst, template := x.template, arg := x.arg, deps := deps, prio := x.prio, st := .waiting, cert := 3,
                      stream := x.stream, succ := [], parent := x.parent, part := x.part, driver := x.driver, tmpl := x.tmpl,
                      regions := x.regions, cookie := x.cookie }
    let s := s.putRec p ix r
    (inst, if deps = 0 then s.makeReady p ix else s)

/-- The ring of records about a message: that of the mailbox page it came through (R384). -/
def msgRec (type part code : Nat) (data : List Byte) : Rec := ⟨type, part, BitVec.ofNat 32 code, 0, 0, 0xFFFF, 0xFF, data⟩

/-- RESULT is written; where it cannot be, CONFIG_REJECT with CODE 5 (R289, R352). The record is none of those R384 gives the
mailbox's ring, so it goes to the driver's (R351; DEDUCED, log entry 70). -/
def State.writeResult (s : State) (p : Nat) (x : Launch) (v : BitVec 40) : State :=
  match x.result with
  | none => s
  | some a =>
    match (if a.toNat % 8 = 0 then s.agentWrite p { part := x.part, driver := x.driver } none a.toNat (leBytes 8 v.toNat)
        else (some ⟨0x04, 0, a.toNat⟩, s)) with
    | (none, s) => s
    | (some _, s) => s.event p 8
        ⟨0x15, 0xFF, 5, v, 0, 0xFFFF, 0xFF, dataAt [(32, leBytes 8 a.toNat), (56, leBytes 8 x.cookie.toNat)]⟩

/-- A launch made, with its RESULT and its answer. -/
def State.launchFull (s : State) (p : Nat) (x : Launch) : State :=
  let (inst, s) := s.launchNow p x
  (s.writeResult p x inst).tellLane p x.asker ((words2 (inst.setWidth 64)).map (fun w => (w, false)))

/-- The first waiting launch that can go ahead, with those before it and after it. -/
def Package.nextLaunch (k : Package) (p : Nat) : List Launch → List Launch → Option (List Launch × Launch × List Launch)
  | _, [] => none
  | before, x :: xs => if k.launchOk p before x then some (before, x, xs) else k.nextLaunch p (before ++ [x]) xs

/-- DEFERRED_LAUNCH: a launch that waited for the window or for a record goes ahead (R282). -/
def execDeferredLaunch (p : Nat) (s : State) : Host.Outcome State Fault Refusal :=
  .next (match (s.pkg p).nextLaunch p [] (s.pkg p).waitLaunch with
    | none => s
    | some (before, x, after) => (s.modPkg p (fun k => { k with waitLaunch := before ++ after })).launchFull p x)

/-! ### Messages (R288 to R291) -/

/-- The Ringmaster's own reads (R289). -/
def rmRead (p : Nat) (w : Who) (va n : Nat) (s : State) : Except AFail (List Byte) × State := s.agentRead p w none va n

/-- A launch message is rejected: LAUNCH_MALFORMED (0x07) or LAUNCH_REFUSED (0x08), and RESULT 0 (R290). -/
def State.rejectMsg (s : State) (p : Nat) (x : Launch) (type : Nat) (f : Option AFail) : State :=
  let s := s.event p x.page (msgRec type x.part (match f with
      | some f => f.code
      | none => 0)
    (dataAt ((match f with
      | some f => [(32, leBytes 8 f.addr)]
      | none => []) ++ [(56, leBytes 8 x.cookie.toNat)])))
  s.writeResult p x 0

/-- A message's launch: its template and regions are read, and it is rejected, made, or has to wait (none). `code` is its priority, 15
for the template's; `high` says whether it may run at level 11. -/
def State.tryLaunch (s : State) (p : Nat) (x : Launch) (code : Nat) (high : Bool) : Option State :=
  match readLaunch (rmRead p { part := x.part, driver := x.driver }) x.template.toNat x.arg.toNat s with
  | (.error (.fault f), s) => some (s.rejectMsg p x 0x07 (some f))
  | (.error _, s) => some (s.rejectMsg p x 0x07 none)
  | (.ok (t, rs), s) =>
    let x : Launch := { x with tmpl := t, regions := rs, prio := if code = 15 then t.prio else code }
    if x.prio = 11 ∧ !high then some (s.rejectMsg p x 0x07 none)
    else if t.refused x.prio then some (s.rejectMsg p x 0x08 none)
    else if (s.pkg p).launchOk p (s.pkg p).waitLaunch x then some (s.launchFull p x)
    else none

/-- A reserved bit or value, or a field out of range, in a message through a mailbox page, or from the fabric (R288, R290). -/
def msgMalformed (page : Option Nat) (m : List Byte) : Bool :=
  let prio := blkByte m 5
  let part := blkByte m 33
  decide (2 ≤ blkByte m 4) || (blkLe m 0 4 == 0 && decide (11 < prio) && prio != 15) || decide (256 ≤ blkLe m 6 2) ||
    blkLe m 16 8 % 8 != 0 || blkLe m 24 8 % 8 != 0 || decide (64 ≤ blkByte m 32) || blkLe m 34 6 != 0 || blkLe m 48 16 != 0 ||
    (match page with
      | none => decide (8 < part)
      | some 8 => decide (7 < part)
      | some _ => part != 0)

/-- The launch that a message asks for: with TAG 0 its own template, else the slot's. -/
def msgLaunch (m : List Byte) (part : Nat) (driver : Bool) (page : Nat) (template : DWord) : Launch :=
  { template := template, arg := BitVec.ofNat 64 (blkLe m 16 8), prio := 0, stream := blkLe m 6 2 % 256, ndep := blkByte m 32 % 64,
    part := part, driver := driver, tmpl := {}, regions := [], parent := 0, cookie := BitVec.ofNat 64 (blkLe m 40 8),
    result := if blkByte m 4 % 2 = 1 then some (BitVec.ofNat 64 (blkLe m 24 8)) else none,
    page := page, asker := none }

/-- The message at the head of a mailbox. -/
def Package.mboxHead (k : Package) (page : Nat) : Option (List Byte) := (tget [] k.mbox page).head?
def Package.mboxPop (k : Package) (page : Nat) : Package := { k with mbox := tput k.mbox page (tget [] k.mbox page).tail }

/-- LAUNCH: the head of a mailbox, a message with TAG 0, launches its template; it stays queued while the launch has to wait. -/
def execLaunch (p page : Nat) (s : State) : Host.Outcome State Fault Refusal :=
  .next (match (s.pkg p).mboxHead page with
    | none => s
    | some m =>
      if blkLe m 0 4 ≠ 0 then s
      else
        let s' := s.modPkg p (fun k => k.mboxPop page)
        let part := if page = 8 then blkByte m 33 % 8 else page
        let x := msgLaunch m part (page == 8) page (BitVec.ofNat 64 (blkLe m 8 8))
        if msgMalformed (some page) m then s'.rejectMsg p x 0x07 none
        else (s'.tryLaunch p x (blkByte m 5) (page == 8)).getD s)

/-- The slot of a 32-byte pre-armed launch entry; none where it breaks R111: a reserved bit is set, no source is admitted, or its priority
is not one that the image's tag space allows. -/
def armEntry (space part : Nat) (b : List Byte) : Option Slot :=
  let src := blkLe b 4 4
  let prio := blkByte b 16
  if b.length ≠ 32 ∨ src = 0 ∨ 3 < src ∨ 11 < prio ∨ blkLe b 17 15 ≠ 0 ∨ (prio = 11 ∧ space ≠ 8) then none
  else some ⟨space, BitVec.ofNat 32 (blkLe b 0 4), BitVec.ofNat 64 (blkLe b 8 8), prio, src % 2 == 1, src / 2 == 1, part, space == 8⟩

/-- The driver arms the pre-armed launch entries of an image that it loads, in the tag space of the image's partition or in its own. Where
one is malformed, two have one tag, or TARM would refuse one, the load fails and none is armed (R111, R204; log entry 97). -/
def State.armImage (s : State) (p space part : Nat) (entries : List (List Byte)) : State :=
  let new := entries.filterMap (armEntry space part)
  let tags := new.map (fun x => x.tag)
  let k := s.pkg p
  if !k.ringReady || decide (8 < space) || decide (7 < part) || (space != 8 && part != space) || new.length != entries.length ||
      tags.eraseDups.length != tags.length || k.slots.any (fun x => x.space == space && tags.contains x.tag) ||
      decide (1024 < k.slots.length + new.length) then s
  else s.modPkg p (fun k => { k with slots := k.slots ++ new })

/-- A slot that a message fires: its tag space and tag match, and it admits the message's source (R291). -/
def Package.findSlot (k : Package) (space : Nat) (tag : Word) (fabric : Bool) : Option Slot :=
  k.slots.find? (fun x => x.space == space && x.tag == tag && (if fabric then x.fabric else x.host))

/-- A tagged message fires the armed slot of its tag, or is dropped with TAG_UNARMED (R291); none where its launch has to wait. -/
def State.fire (s : State) (p space page : Nat) (fabric : Bool) (m : List Byte) : Option State :=
  let tag : Word := BitVec.ofNat 32 (blkLe m 0 4)
  match (s.pkg p).findSlot space tag fabric with
  | none =>
    let x := msgLaunch m (if space = 8 then blkByte m 33 % 8 else space) (space == 8) page 0
    some ((s.event p page (msgRec 0x09 x.part 0 (dataAt [(32, leBytes 4 tag.toNat), (36, leBytes 1 space),
      (56, leBytes 8 x.cookie.toNat)]))).writeResult p x 0)
  | some sl =>
    let s := s.modPkg p (fun k => { k with slots := k.slots.filter (fun y => y.space != space || y.tag != tag) })
    s.tryLaunch p (msgLaunch m sl.part sl.driver page sl.template) sl.prio true

/-- SLOT_FIRE: the head of a mailbox, a message with a tag, fires its slot. -/
def execSlotFire (p page : Nat) (s : State) : Host.Outcome State Fault Refusal :=
  .next (match (s.pkg p).mboxHead page with
    | none => s
    | some m =>
      if blkLe m 0 4 = 0 then s
      else
        let s' := s.modPkg p (fun k => k.mboxPop page)
        if msgMalformed (some page) m then
          s'.rejectMsg p (msgLaunch m (if page = 8 then blkByte m 33 % 8 else page) (page == 8) page 0) 0x07 none
        else (s'.fire p page page false m).getD s)

/-- MBOX_MSG: the host writes to a mailbox's message window (R289). -/
def execMboxMsg (p page : Nat) (bytes : List Byte) (s : State) : Host.Outcome State Fault Refusal :=
  .next (if !(s.pkg p).ringReady ∨ 8 < page then s
    else
      let drop (code : Nat) (s : State) : State :=
        s.event p page (msgRec 0x0A (if page = 8 then 0xFF else page) code (dataAt [(32, leBytes 1 page)]))
      if bytes.length ≠ 64 then drop 0 s
      else if 256 ≤ (tget [] (s.pkg p).mbox page).length then
        drop 1 (s.modPkg p (fun k => { k with mboxOvf := k.mboxOvf ||| ((1 : BitVec 9) <<< page) }))
      else s.modPkg p (fun k => { k with mbox := tput k.mbox page (tget [] k.mbox page ++ [bytes]) }))

/-- MBOX_STAT_WRITE: OVF is W1C (R289). -/
def execMboxStatWrite (p page : Nat) (v : Word) (s : State) : Host.Outcome State Fault Refusal :=
  .next (if (s.pkg p).ringReady && v.getLsbD 16 then
    s.modPkg p (fun k => { k with mboxOvf := k.mboxOvf &&& ~~~ ((1 : BitVec 9) <<< page) }) else s)

/-! ### Certification (R205, R279) -/

/-- What CERTW answers about a record now, if its certification is final or it has failed. -/
def TRec.verdict (r : TRec) : Option Bool :=
  match r.st with
  | .failed => some false
  | .done => if r.cert = 1 then some true else if r.cert = 2 then some false else none
  | _ => none

/-- Every CERTW whose answer is known returns. -/
def State.checkCerts (s : State) (p : Nat) : State :=
  (s.pkg p).certWaits.foldl (fun s w =>
    let v : Option Bool := match (s.pkg p).rec? w.inst with
      | none => some false
      | some r => r.verdict
    match v with
    | none => s
    | some b => s.answerCert p w b) s

/-- CERT of a DONE record as its cores' horizons give it (R279). -/
def Package.certOf (k : Package) (r : TRec) : Nat :=
  if r.cert ≠ 0 then r.cert
  else if r.cores.all (fun c => decide (r.tdone ≤ (k.core c).horizon)) then 1
  else if r.cores.any (fun c => (k.core c).outOfDispatch && decide ((k.core c).horizon < r.tdone)) then 2
  else 0
/-- The CERT fields of a package move (R279). -/
def State.certify (s : State) (p : Nat) : State :=
  ((s.pkg p).records.foldl (fun s e =>
    if e.2.st = .done ∧ (s.pkg p).certOf e.2 ≠ e.2.cert then s.putRec p e.1 { e.2 with cert := (s.pkg p).certOf e.2 } else s) s).checkCerts p

/-! ### Dispatch (R15, R285, R286) -/

/-- A team as it is dispatched (R15). -/
def newTeam (r : TRec) (core slot clock : Nat) (mirror : Bool) : Team :=
  let pc : Pc := r.tmpl.entry.setWidth 57
  let th : Thread := { pc := pc }
  let g : Group := { threads := (List.range r.tmpl.width).map (fun l => (l, th)), ents := [(pc.toNat, ⟨clock, false, none⟩)] }
  { inst := r.inst, template := r.template, arg := r.arg, part := r.part, prio := r.prio, stream := r.stream, driver := r.driver,
    mirror := mirror, tmpl := r.tmpl, place := some (core, slot), groups := (List.range r.tmpl.groups).map (fun i => (i, g)) }

/-- The cores of a team placed at a core. -/
def Tmpl.coresAt (t : Tmpl) (core : Nat) : List Nat := if t.pair then [core, core + 1] else [core]
/-- Cores added to CORES. -/
def TRec.addCores (r : TRec) (cs : List Nat) : TRec := { r with cores := (r.cores ++ cs).eraseDups }

/-- The time slice of a partition starts on a core that has none running (R295). -/
def State.startSlice (s : State) (p core part : Nat) : State :=
  let us := tget 0 (s.pkg p).slice part
  s.modCore p core (fun x => if us ≠ 0 ∧ x.sliceEnd.isNone then { x with sliceEnd := some (s.time + us * 1000) } else x)

/-- TEAM_DISPATCH: the Ringmaster dispatches the head of the level that R285 picks, to a core that can hold it, under a team slot and a
context slot that are free. -/
def execTeamDispatch (p core slot ctx : Nat) (s : State) : Host.Outcome State Fault Refusal :=
  let k := s.pkg p
  .next (match k.pickLevel with
    | none => s
    | some h =>
      match k.headOf h with
      | none => s
      | some (ix, r) =>
        if r.ctx.isSome || !k.canDispatch r core || !k.slotFree core slot || (r.tmpl.pair && !k.slotFree (core + 1) slot) ||
            (tfind k.teams ctx).isSome || decide (2 ^ 20 ≤ ctx) || !k.ringReady then s
        else
          let cs := r.tmpl.coresAt core
          let mirror := r.tmpl.mirror || k.mirrorPolicy.getLsbD r.part
          let s := s.putRec p ix { (r.addCores cs) with st := .running, cert := 0, ctx := some ctx, mirrorCore := none }
          let s := s.modPkg p (fun k => { (k.dequeue h ix) with teams := tput k.teams ctx (newTeam r core slot (k.cycles s.clock) mirror) })
          let s := s.modPkg p (fun k => k.countDispatch h)
          cs.foldl (fun s c => (s.dropL1 p c).startSlice p c r.part) s)

/-! ### Retirement, completion and freeing (R18, R19, R261, R279, R283) -/

/-- A context slot is given back: nothing of the machine refers to its team any longer. -/
def State.freeCtx (s : State) (p ctx : Nat) (inst : BitVec 40) : State :=
  s.modPkg p (fun k => { k with
    teams := tdel k.teams ctx,
    certWaits := k.certWaits.filter (fun w => match w.asker with
      | .lane _ _ _ i => i != inst
      | _ => true),
    waitLaunch := k.waitLaunch.map (fun x => match x.asker with
      | some (.lane _ _ _ i) => if i = inst then { x with asker := none } else x
      | _ => x),
    reqs := tmap (fun _ q => if q.ctx == ctx then { q with kind := .pref, lanes := [], silent := true } else q) k.reqs,
    cores := tmap (fun _ c => { c with inactive := c.inactive.filter (fun x => x != ctx) }) k.cores })

/-- Commands and collectives of a team that have not ended. -/
def Package.engineBusy (k : Package) (ctx : Nat) (t : Team) : Bool :=
  t.mqs.any (fun m => t.stop.isNone || (m.started && !m.suspended)) || !t.copies.isEmpty || k.colls.any (fun c => c.ctx == ctx && c.inst == t.inst && !c.ended)

/-- A completion subtracts 1 from a successor's counter (R283). -/
def State.applyDep (s : State) (p : Nat) (inst : BitVec 40) : State :=
  match (s.pkg p).records.find? (fun e => e.2.inst == inst && e.2.st != .free) with
  | none => s
  | some (ix, r) =>
    if r.deps = 1 ∧ r.st = .waiting then s.makeReady p ix else s.putRec p ix { r with deps := r.deps - 1 }

/-- TASK_COMPLETE (R19, R279, R283): the record is DONE, its completion is applied to its successors in list order, and the team's
resources are free. -/
def execTaskComplete (p ctx : Nat) (s : State) : Host.Outcome State Fault Refusal :=
  .next (match s.team? p ctx with
    | none => s
    | some t =>
      if t.stop.isSome || !(List.range t.tmpl.groups).all (fun g => (t.group g).retired && (t.group g).rwCount == 0) ||
          (s.pkg p).engineBusy ctx t || t.cpymHold != 0 then s
      else
        match (s.pkg p).records.find? (fun e => e.2.inst == t.inst && e.2.st != .free) with
        | none => s.freeCtx p ctx t.inst
        | some (ix, r) =>
          let s := s.putRec p ix { r with st := .done, tdone := (s.pkg p).cycles s.clock, cert := 0, ctx := none }
          let s := s.modPkg p (fun k => k.dequeue r.prio ix)
          let s := r.succ.foldl (fun s i => s.applyDep p i) (s.freeCtx p ctx t.inst)
          s.certify p)

/-- The homes drop the RED.k keys of an instance (R171, R279). -/
def Package.dropKeys (k : Package) (inst : BitVec 40) : Package := { k with keys := k.keys.filter (fun x => x.2 != inst) }

/-- Keyed reductions that waited for room in the key table are performed, in order of arrival, while there is room (R326). -/
def State.serveKeys : Nat → State → Nat → State
  | 0, s, _ => s
  | fuel + 1, s, h =>
    match (s.pkg h).keyWait with
    | [] => s
    | f :: fs =>
      match f.body with
      | .req _ _ _ _ key _ _ _ =>
        if (s.pkg h).keyFull key then s
        else State.serveKeys fuel ((s.modPkg h (fun k => { k with keyWait := fs })).homeTurn h f) h
      | _ => State.serveKeys fuel (s.modPkg h (fun k => { k with keyWait := fs })) h

/-- An instance's retirement reaches a home. -/
def State.retireAt (s : State) (h : Nat) (inst : BitVec 40) : State :=
  let s := s.modPkg h (fun k => k.dropKeys inst)
  State.serveKeys ((s.pkg h).keyWait.length + 1) s h

/-- RECORD_RETIRE (R279): a DONE record whose certification is final and that no CERTW still names becomes FREE, and the homes drop its
keys. -/
def execRecordRetire (p : Nat) (inst : BitVec 40) (s : State) : Host.Outcome State Fault Refusal :=
  .next (match (s.pkg p).rec? inst with
    | none => s
    | some r =>
      if r.st ≠ .done ∨ (r.cert ≠ 1 ∧ r.cert ≠ 2) ∨ (s.pkg p).certWaits.any (fun w => w.inst == inst) then s
      else
        let s := s.modRec p inst (fun r => { r with st := .free })
        (s.retireAt p inst).modPkg p (fun k => k.sendAll p (.retire inst)))

/-- A record's task no longer runs under a context slot. -/
def TRec.leave (r : TRec) (ctx : Nat) : TRec := if r.ctx = some ctx then { r with ctx := none } else r

/-- The team of a stop no longer holds its core: its engine operations have ended, and those that had not started are discarded
(R261, steps 6 and 7). -/
def State.freeStopped (s : State) (p ctx : Nat) (t : Team) : State :=
  let s := t.mqs.foldl (fun s m => s.lockPages p m.die false m.pages) s
  if t.groups.any (fun g => g.2.rwCount != 0) then
    s.setTeam p ctx { t with place := none, engE := {}, engO := {}, groups := tmap (fun _ g => { g with retired := true }) t.groups }
  else s.freeCtx p ctx t.inst

/-- TEAM_RESOURCES_FREE (R261, step 7). A Booth slot whose remote writes are not all acknowledged stays until they are. -/
def execTeamResourcesFree (p ctx : Nat) (s : State) : Host.Outcome State Fault Refusal :=
  .next (match s.team? p ctx with
    | none => s
    | some t =>
      if t.stop ≠ some .failed ∨ (s.pkg p).engineBusy ctx t ∨ t.cpymHold ≠ 0 then s
      else (s.modRec p t.inst (fun r => r.leave ctx)).freeStopped p ctx t)

/-- MIRROR_REDISPATCH (R35): the stopped team is freed, and its task is READY again, with its record's cores and fault log. -/
def execMirrorRedispatch (p ctx : Nat) (s : State) : Host.Outcome State Fault Refusal :=
  .next (match s.team? p ctx with
    | none => s
    | some t =>
      if t.stop ≠ some .mirror ∨ (s.pkg p).engineBusy ctx t ∨ t.cpymHold ≠ 0 then s
      else
        let s := (s.modRec p t.inst (fun r => r.leave ctx)).freeStopped p ctx { t with stop := some .failed }
        match (s.pkg p).findRec t.inst with
        | some ix => s.makeReady p ix
        | none => s)

end Sys2Proof.Machine
end

