-- ==== Sys2Proof/Machine/Tasks.lean ====
section
/-! DEFINITION. The task instructions TSPAWN, TDEC, TARM, TDISARM and CERTW (R202 to R206). -/

namespace Sys2Proof.Machine

/-- ENGINE at a task instruction (R206). -/
def Iss.engineTrap (u : Iss) (reason : Nat) (v : Option DWord) : Trap := u.trap 0x17 reason v

/-- A release at .space waits for the group's outstanding remote writes (R72). -/
def Iss.releaseHold (u : Iss) (c : Ctl) (s : State) : Bool :=
  match u.team s with
  | some t => (t.group u.group).rwCount != 0 && !(u.active c s).isEmpty
  | none => false

/-- A release at .space at a lane: the failures held against it are reported, and it is not performed (R185). -/
def Iss.release (u : Iss) (l : Nat) (f : State → State × LaneEnd) (s : State) : State × LaneEnd :=
  match u.storeFault (u.heldFails s l) with
  | some tr => (u.dropFails l s, .trap tr)
  | none => f s

/-! ### TSPAWN (R202) -/

/-- What stops a plain load that TSPAWN makes: a wait for its line (none), or the end of its lane. -/
abbrev ReadStop := Option LaneEnd

/-- Bytes that a thread loads at a virtual address within one page, as a plain load of that thread. -/
def Iss.loadVa (u : Iss) (c : Ctl) (tm : Team) (l va n : Nat) (s : State) : Except ReadStop (List Byte) × State :=
  let ea := BitVec.ofNat 64 va
  if 2 ^ 57 ≤ va then (.error (some (.trap (u.bare 0x15 (some ea)))), s)
  else
    match s.translate u.pkg tm.part (u.die s) va .read with
    | (.ok tr, s) =>
      let ps := s.pieces (n / 128 + 2) (tr.at va) n
      let m := MemReq.fixed .g (fun _ => ea) 1 n .read .read
      match ps.foldl (u.waitPiece c m false none l ps) (s, false) with
      | (s, true) => (.error none, s)
      | (s, false) =>
        match u.unserved l ea ps s with
        | some (s, e) => (.error (some e), s)
        | none =>
          let (bs, s) := s.loadPieces u.pkg (tm.coreOf u.group) ps
          (.ok bs, s)
    | (x, s) =>
      match u.badXl l ea Access.read.kind x s with
      | (s, e) => (.error (some e), s)

/-- Bytes that a thread loads, page by page. -/
def Iss.loadVas (u : Iss) (c : Ctl) (tm : Team) (l : Nat) (va n : Nat) (s : State) : Except ReadStop (List Byte) × State :=
  let k := min n (65536 - va % 65536)
  match u.loadVa c tm l va k s with
  | (.ok bs, s) =>
    if n ≤ k then (.ok bs, s)
    else
      match u.loadVa c tm l (va + k) (n - k) s with
      | (.ok cs, s) => (.ok (bs ++ cs), s)
      | e => e
  | e => e

/-- PERM for a priority of 11 asked for below level 11 (R206). -/
def Iss.level11 (u : Iss) (tm : Team) (prio : Nat) (v : Word) : Option Trap :=
  if prio = 11 ∧ tm.prio ≠ 11 then some (u.trap 0x06 0 (some (v.setWidth 64))) else none

/-- The operands of TSPAWN that fail before anything is read, in the model's order (log entry 92). -/
def Iss.spawnBad (u : Iss) (tm : Team) (b e : Reg) (t : Thread) : Option Trap :=
  let v := t.reg e
  let code := (v.extractLsb' 0 4).toNat
  if v.extractLsb' 4 28 ≠ 0 ∨ (11 < code ∧ code ≠ 15) then some (u.engineTrap 0x41 (some (v.setWidth 64)))
  else match u.level11 tm code v with
    | some tr => some tr
    | none => if (t.pair b).toNat % 8 ≠ 0 then some (u.engineTrap 0x40 (some (t.pair b))) else none

/-- TSPAWN at a lane. A region interval past 2^57 reports the argument pointer, whose block holds its base (log entry 92). -/
def actTspawn (c : Ctl) (n : BitVec 6) (d a b e : Reg) (u : Iss) (l : Nat) (s : State) : State × LaneEnd :=
  match u.team s with
  | none => (s, .left)
  | some tm =>
    let t := u.thread s l
    let v := t.reg e
    let code := (v.extractLsb' 0 4).toNat
    match u.spawnBad tm b e t with
    | some tr => (s, .trap tr)
    | none =>
      match readLaunch (u.loadVas c tm l) (t.pair a).toNat (t.pair b).toNat s with
      | (.error (.fault none), s) => (s, .parked)
      | (.error (.fault (some x)), s) => (s, x)
      | (.error .record, s) => (s, .trap (u.engineTrap 0x40 (some (t.pair a))))
      | (.error .interval, s) => (s, .trap (u.engineTrap 0x40 (some (t.pair b))))
      | (.ok (tl, rs), s) =>
        let prio := if code = 15 then tl.prio else code
        match u.level11 tm prio v with
        | some tr => (s, .trap tr)
        | none =>
          let x : Launch := { template := t.pair a, arg := t.pair b, prio := prio, stream := tm.stream, ndep := n.toNat,
                              part := tm.part, driver := tm.driver, tmpl := tl, regions := rs, parent := tm.inst, cookie := 0,
                              result := none, page := 0, asker := some (.lane u.ctx u.group l tm.inst) }
          if tl.refused prio then
            u.defer l d [(0, false), (0, false)] 0 (s.event u.pkg (ringOf tm.part tm.driver)
              (tm.evRec u.group 0x08 0 u.pc64 (tm.visLane l) (dataAt [(56, leBytes 8 tm.inst.toNat)])))
          else if (s.pkg u.pkg).launchOk u.pkg (s.pkg u.pkg).waitLaunch x then
            let (inst, s) := s.launchNow u.pkg x
            u.defer l d ((words2 (inst.setWidth 64)).map (fun w => (w, false))) 0 s
          else
            let s := s.modPkg u.pkg (fun k => { k with waitLaunch := k.waitLaunch ++ [x] })
            (s.modThread u.pkg u.ctx u.group l (fun t => { t with
              wait := some 0, defCount := t.defCount + 1,
              pend := t.pend ++ [⟨d.toNat, false, 2, [], false, 0, u.pc, false, t.undo, none⟩] }), .done)

/-- The reads of TSPAWN at the lanes of the entry, of which some waits for a line. -/
def Iss.spawnWaits (u : Iss) (c : Ctl) (k : Pre) (a b e : Reg) (s : State) : State × Bool :=
  (u.laneSet c s).foldl (fun x l =>
    match u.team s with
    | none => x
    | some tm =>
      let t := u.thread s l
      if (u.before k s t).isSome || (u.spawnBad tm b e t).isSome || !(u.heldFails s l).isEmpty then x
      else
        match readLaunch (u.loadVas c tm l) (t.pair a).toNat (t.pair b).toNat x.1 with
        | (.error (.fault none), s) => (s, true)
        | _ => x) (s, false)

def execTspawn (c : Ctl) (n : BitVec 6) (d a b e : Reg) (s : State) : Host.Outcome State Fault Refusal :=
  let k : Pre := { counts := true, reads := [.pair a, .pair b, .one e] }
  s.issueHold c k
    (fun u s' => if u.releaseHold c s' then some s' else
      match u.spawnWaits c k a b e s' with
      | (x, true) => some x
      | _ => none)
    (fun u l s' =>
      if u.pairAgrees c l (fun t => [t.pair a, t.pair b, (t.reg e).setWidth 64]) s then
        u.once c.park l (u.release l (actTspawn c n d a b e u l)) s'
      else (s', .trap u.mirrorTrap))

/-! ### TDEC and CERTW (R203, R205) -/

/-- Where an instance's record is held: here, at another package, or nowhere (R203). -/
inductive Home
  | here (inst : BitVec 40)
  | there (pkg : Nat) (inst : BitVec 40)
  | unknown
  deriving DecidableEq, Repr

def Iss.recordHome (u : Iss) (v : DWord) (s : State) : Home :=
  let inst : BitVec 40 := v.extractLsb' 0 40
  let q := (v.extractLsb' 32 8).toNat
  if v.extractLsb' 40 24 ≠ 0 then .unknown
  else if q = u.pkg then .here inst
  else if (s.pkg u.pkg).member q && !(s.pkg u.pkg).dead q then .there q inst
  else .unknown

/-- A TDEC applied to a record of package `p`: none when the instance is unknown in the partition, or its counter is at 0. -/
def State.tdecAt (s : State) (p part : Nat) (inst : BitVec 40) : Option State :=
  match (s.pkg p).records.find? (fun e => e.2.inst == inst && e.2.st != .free) with
  | none => none
  | some (_, r) => if r.part ≠ part ∨ r.deps = 0 then none else some (s.applyDep p inst)

/-- A lane's request of another package's Ringmaster, which its next issue waits for (R92). -/
def Iss.askOther (u : Iss) (tm : Team) (l q : Nat) (v : DWord) (kind : ReqKind) (b : Nat → Body) (s : State) : State :=
  let key := (s.pkg u.pkg).nextReq
  let r : Req := { ctx := u.ctx, group := u.group, lanes := (tm.sharers l).map (fun j => (j, v)), pc := u.pc, addr := 0, dst := q,
                   eseq := 0, kind := kind, deadline := 0, tmo := 0 }
  (tm.sharers l).foldl (fun s j => s.modThread u.pkg u.ctx u.group j (fun t => { t with wait := some key }))
    (s.request u.pkg tm r (b key))

/-- TDEC at a lane. -/
def actTdec (a : Reg) (u : Iss) (l : Nat) (s : State) : State × LaneEnd :=
  match u.team s with
  | none => (s, .left)
  | some tm =>
    let v := (u.thread s l).pair a
    match u.recordHome v s with
    | .unknown => (s, .trap (u.engineTrap 0x42 (some v)))
    | .here inst =>
      match s.tdecAt u.pkg tm.part inst with
      | none => (s, .trap (u.engineTrap 0x42 (some v)))
      | some s => (s.sink u.pkg (tm.coreOf u.group), .done)
    | .there q inst => (u.askOther tm l q v .tdec (fun key => .tdec inst tm.part key) s, .done)

def execTdec (c : Ctl) (a : Reg) (s : State) : Host.Outcome State Fault Refusal :=
  s.issueHold c { reads := [.pair a] } (fun u s' => if u.releaseHold c s' then some s' else none)
    (fun u l s' =>
      if u.pairAgrees c l (fun t => t.pair a) s then u.once c.park l (u.release l (actTdec a u l)) s'
      else (s', .trap u.mirrorTrap))

/-- A predicate that is not known yet. -/
def Thread.deferLater (t : Thread) (pc : Pc) (pd : PredIx) (key : Nat) : Thread :=
  { t with wait := some key, defCount := t.defCount + 1, pend := t.pend ++ [⟨pd.toNat, true, 1, [], false, 0, pc, false, t.undo, none⟩] }

/-- CERTW at a lane. -/
def actCertw (pd : PredIx) (a : Reg) (u : Iss) (l : Nat) (s : State) : State × LaneEnd :=
  match u.team s with
  | none => (s, .left)
  | some tm =>
    let v := (u.thread s l).pair a
    match u.recordHome v s with
    | .unknown => (s, .trap (u.engineTrap 0x42 (some v)))
    | .here inst =>
      match (s.pkg u.pkg).rec? inst with
      | none => (s, .trap (u.engineTrap 0x42 (some v)))
      | some r =>
        if r.part ≠ tm.part then (s, .trap (u.engineTrap 0x42 (some v)))
        else
          match r.verdict with
          | some b => u.deferPred l pd b s
          | none =>
            let s := s.modPkg u.pkg (fun k => { k with
              certWaits := k.certWaits ++ [⟨inst, .lane u.ctx u.group l tm.inst⟩] })
            (s.modThread u.pkg u.ctx u.group l (fun t => t.deferLater u.pc pd 0), .done)
    | .there q inst =>
      let key := (s.pkg u.pkg).nextReq
      let s := u.askOther tm l q v .certw (fun key => .certw inst tm.part key) s
      (s.modThread u.pkg u.ctx u.group l (fun t => t.deferLater u.pc pd key), .done)

def execCertw (c : Ctl) (pd : PredIx) (a : Reg) (s : State) : Host.Outcome State Fault Refusal :=
  s.effect c { counts := true, reads := [.pair a] } (fun t => [t.pair a]) (actCertw pd a)

/-! ### TARM and TDISARM (R204) -/

/-- The tag space of a task: its partition's, or the driver's (R204, R384). -/
def Team.tagSpace (t : Team) : Nat := if t.driver then 8 else t.part

/-- TARM at a lane; the checks stand in the model's order, and a full table reports the tag (log entry 92). -/
def actTarm (a b e : Reg) (u : Iss) (l : Nat) (s : State) : State × LaneEnd :=
  match u.team s with
  | none => (s, .left)
  | some tm =>
    let t := u.thread s l
    let v := t.reg e
    let prio := (v.extractLsb' 0 4).toNat
    if v &&& 0xFFFFFCF0 ≠ 0 ∨ 11 < prio ∨ v.extractLsb' 8 2 = 0 then (s, .trap (u.engineTrap 0x41 (some (v.setWidth 64))))
    else
      match u.level11 tm prio v with
      | some tr => (s, .trap tr)
      | none =>
        let tag := t.reg a
        let k := s.pkg u.pkg
        if k.slots.any (fun x => x.space == tm.tagSpace && x.tag == tag) then
          (s, .trap (u.engineTrap 0x43 (some (tag.setWidth 64))))
        else if 1024 ≤ k.slots.length then (s, .trap (u.engineTrap 0x44 (some (tag.setWidth 64))))
        else
          (s.modPkg u.pkg (fun k => { k with slots := k.slots ++
            [⟨tm.tagSpace, tag, t.pair b, prio, v.getLsbD 8, v.getLsbD 9, tm.part, tm.driver⟩] }), .done)

def execTarm (c : Ctl) (a b e : Reg) (s : State) : Host.Outcome State Fault Refusal :=
  s.issueHold c { reads := [.one a, .pair b, .one e] } (fun u s' => if u.releaseHold c s' then some s' else none)
    (fun u l s' =>
      if u.pairAgrees c l (fun t => [(t.reg a).setWidth 64, t.pair b, (t.reg e).setWidth 64]) s then
        u.once c.park l (u.release l (actTarm a b e u l)) s'
      else (s', .trap u.mirrorTrap))

/-- TDISARM at a lane. -/
def actTdisarm (pd : PredIx) (a : Reg) (u : Iss) (l : Nat) (s : State) : State × LaneEnd :=
  match u.team s with
  | none => (s, .left)
  | some tm =>
    let tag := (u.thread s l).reg a
    let mine (x : Slot) : Bool := x.space == tm.tagSpace && x.tag == tag
    u.deferPred l pd ((s.pkg u.pkg).slots.any mine) (s.modPkg u.pkg (fun k => { k with slots := k.slots.filter (fun x => !mine x) }))

def execTdisarm (c : Ctl) (pd : PredIx) (a : Reg) (s : State) : Host.Outcome State Fault Refusal :=
  s.effect c { counts := true, reads := [.one a] } (fun t => [(t.reg a).setWidth 64]) (actTdisarm pd a)

end Sys2Proof.Machine
end

