-- ==== Sys2Proof/Machine/Receive.lean ====
section
/-! DEFINITION. What arrives over the fabric: requests at the home, recalls and their answers, responses, messages, timeouts; and what the
driver writes about coherence: the Turnstile, the cell table, and the end of a migration (R311 to R330, R203, R205, R291). -/

namespace Sys2Proof.Machine

/-! ### What a flit about a line does (R316, R318, R322); `deliver` performs them in the order of their pair (R344) -/

/-- The operation of a request. -/
def Body.reqOp? : Body → Option ReqOp
  | .req op .. => some op
  | _ => Option.none
/-- The operation of a response. -/
def Body.rspOp? : Body → Option RspOp
  | .rsp op .. => some op
  | _ => Option.none

/-- A line granted to a package enters its copies: clean, exclusive for E, dirty for M, whose bytes memory may not hold (R314). -/
def Package.install (k : Package) (p a grant : Nat) (data : List Byte) : Package :=
  if homeOf a = p then k else { k with copies := tput k.copies (lineOf a) ⟨grant != 0, grant == 2, data⟩ }

/-- A request's write has been acknowledged (R72, R226): the group's count falls, or the copy command's line is credited. -/
def State.ackReq (s : State) (p key : Nat) (r : Req) : State :=
  let s := s.dropReq p key
  match r.kind with
  | .write =>
    match s.team? p r.ctx with
    | none => s
    | some t => (s.modGroup p r.ctx r.group (fun g => { g with rwCount := g.rwCount - 1 })).sink p (t.coreOf r.group)
  | .cpyx id =>
    let n := match r.lanes with
      | (n, _) :: _ => n
      | [] => 0
    (s.modTeam p r.ctx (fun t => t.modCopy id (fun x => { x with lines := x.lines - 1, written := x.written + n }))).creditPiece p r.ctx id n
  | _ => s

/-- A response reaches the request that it answers (R72, R165, R226, R320, R322, R329). One that finds its request ended is dropped: a line
that it grants is given back (R323). A hold notice has stopped the clock when it was sent. -/
def State.takeRsp (s : State) (p src : Nat) (op : RspOp) (re a grant : Nat) (data : List Byte) : State :=
  match (s.pkg p).findReq src re with
  | none => if op = .data ∧ homeOf a ≠ p then s.giveBack p (homeOf a) a grant data else s
  | some (key, r) =>
    match op with
    | .data => ((s.modPkg p (fun k => k.install p a grant data)).dropReq p key).lateLine p r.ctx a
    | .ack => s.ackReq p key r
    | .refused => s.failReq p key r 0x09 0
    | .poison => s.failReq p key r 0x08 0
    | .hold => s

/-- A flit about a line is performed at a package. -/
def State.performLine (p : Nat) (f : Flit) (s : State) : State :=
  match f.body with
  | .req .. => s.homeArrive p f
  | .snp op a => s.snooped p f.src op a
  | .snpr a _ dirty data => s.answerTxn p f.src a dirty data
  | .rsp op re a grant data => s.takeRsp p f.src op re a grant data
  | _ => s

/-- The next flit of a link is about a line, and of one kind. -/
def State.takeLine (s : State) (p link : Nat) (want : Body → Bool) : State :=
  s.onFlit p link (fun f => want f.body) (fun f s => s.performLine p f)

def execGets (p link : Nat) (s : State) : Host.Outcome State Fault Refusal := .next (s.takeLine p link (·.reqOp? == some .gets))
def execGetm (p link : Nat) (s : State) : Host.Outcome State Fault Refusal := .next (s.takeLine p link (·.reqOp? == some .getm))
def execWrh (p link : Nat) (s : State) : Host.Outcome State Fault Refusal := .next (s.takeLine p link (·.reqOp? == some .wrh))
def execRedReq (p link : Nat) (s : State) : Host.Outcome State Fault Refusal := .next (s.takeLine p link (·.reqOp? == some .red))
def execWb (p link : Nat) (s : State) : Host.Outcome State Fault Refusal := .next (s.takeLine p link (·.reqOp? == some .wb))
def execEve (p link : Nat) (s : State) : Host.Outcome State Fault Refusal := .next (s.takeLine p link (·.reqOp? == some .eve))

/-- A recall, and the answer to one. -/
def Body.isSnp : Body → Bool
  | .snp .. => true
  | _ => false
def Body.isSnpr : Body → Bool
  | .snpr .. => true
  | _ => false
def execSnp (p link : Nat) (s : State) : Host.Outcome State Fault Refusal := .next (s.takeLine p link Body.isSnp)
def execSnpr (p link : Nat) (s : State) : Host.Outcome State Fault Refusal := .next (s.takeLine p link Body.isSnpr)

def execRspData (p link : Nat) (s : State) : Host.Outcome State Fault Refusal := .next (s.takeLine p link (·.rspOp? == some .data))
def execRspAck (p link : Nat) (s : State) : Host.Outcome State Fault Refusal := .next (s.takeLine p link (·.rspOp? == some .ack))
def execRspRefused (p link : Nat) (s : State) : Host.Outcome State Fault Refusal := .next (s.takeLine p link (·.rspOp? == some .refused))
def execRspPoison (p link : Nat) (s : State) : Host.Outcome State Fault Refusal := .next (s.takeLine p link (·.rspOp? == some .poison))
def execRspHold (p link : Nat) (s : State) : Host.Outcome State Fault Refusal := .next (s.takeLine p link (·.rspOp? == some .hold))

/-! ### Timeouts (R184, R322, R323) -/

/-- The clock of a request has run out. Before the first schedule it runs on requests that wait (R379). -/
def State.expired (s : State) (p : Nat) (r : Req) : Bool :=
  !r.held && (r.left || (s.pkg p).sched.isNone) && decide (r.deadline ≤ s.time)

/-- REMOTE_READ_TIMEOUT (R323). -/
def execRemoteReadTimeout (p r : Nat) (s : State) : Host.Outcome State Fault Refusal :=
  .next (match tfind (s.pkg p).reqs r with
    | none => s
    | some q =>
      match q.kind with
      | .load | .spec | .own | .pref => if s.expired p q then s.failReq p r q 0x0A 0 else s
      | _ => s)

/-- REMOTE_WRITE_TIMEOUT (R184). -/
def execRemoteWriteTimeout (p r : Nat) (s : State) : Host.Outcome State Fault Refusal :=
  .next (match tfind (s.pkg p).reqs r with
    | none => s
    | some q =>
      match q.kind with
      | .write | .cpyx _ => if s.expired p q then s.failReq p r q 0x0A 0 else s
      | _ => s)

/-! ### The Turnstile (R319 to R321) -/

/-- The lines of a region that have an entry. -/
def Package.regionLines (k : Package) (region : Nat) : List (Nat × DirEnt) := k.dir.filter (fun e => e.1 * 128 / 2 ^ 21 == region)

/-- What a region's masks take away from a line: the cells that lose every copy, and whether its owner keeps a read copy at most (R321). -/
def Package.takesAway (k : Package) (e : Nat × DirEnt) : BitVec 64 × Bool :=
  let v := tget (0 : BitVec 128) k.turn (e.1 * 128 / 2 ^ 21)
  (e.2.cells &&& ~~~ (v.extractLsb' 0 64), e.2.st.owned && !(v.getLsbD (64 + e.2.ownc) && v.getLsbD e.2.ownc))
/-- A line's grants agree with the masks. -/
def Package.conforms (k : Package) (e : Nat × DirEnt) : Bool := (k.takesAway e).1 == 0 && !(k.takesAway e).2

/-- The grants of a line that the masks no longer allow are revoked (R321): cells lose their copies, and an owner that may no longer write
gives its line back. A line with recalls outstanding is looked at again before the home reports the end. -/
def State.revokeLine (s : State) (h ll : Nat) : State :=
  let s := s.walkLine h ll
  let k := s.pkg h
  let e := k.dirAt ll
  let x := k.takesAway (ll, e)
  if (tfind k.txns ll).isSome || k.conforms (ll, e) || e.st == .p then s
  else
    let owner := if x.2 && !x.1.getLsbD e.ownc then k.asks h [e.ownc] .clean else []
    let asks := k.asks h (cellsOf x.1) .inval ++ owner
    if asks.isEmpty then s.revoked h ll x.1 x.2 none else s.openTxn h ll (.revoke x.1 x.2) asks

/-- TURNSTILE_WRITE (R319, R321): the new masks hold for every later request, and the grants that they no longer allow are revoked. Before
the fabric dies are ready the register takes no write (R357). -/
def execTurnstileWrite (p region : Nat) (v : BitVec 128) (s : State) : Host.Outcome State Fault Refusal :=
  .next (if !(s.pkg p).fabReady then s
    else
    let s := s.modPkg p (fun k => { k with turn := tput k.turn region v, revoking := if k.revoking.contains region then k.revoking
      else k.revoking ++ [region] })
    ((s.pkg p).regionLines region).foldl (fun s e => s.revokeLine p e.1) s)

/-- TURNSTILE_DONE (R321, R366): the home says so once every grant of the region agrees with the masks, and no recalls are outstanding in it.
A line that a request admitted earlier has been granted meanwhile is revoked first. -/
def execTurnstileDone (p region : Nat) (s : State) : Host.Outcome State Fault Refusal :=
  .next (if !(s.pkg p).revoking.contains region then s
    else
      let s := ((s.pkg p).regionLines region).foldl (fun s e => s.revokeLine p e.1) s
      if (s.pkg p).txns.any (fun x => x.1 * 128 / 2 ^ 21 == region) || !((s.pkg p).regionLines region).all (s.pkg p).conforms then s
      else (s.modPkg p (fun k => { k with revoking := k.revoking.filter (fun r => r != region) })).event p 8
        (pkgRec 0x0D 0 (dataAt [(32, leBytes 8 (region * 2 ^ 21))])))

/-! ### The switch of a migration (R74, R311) -/

/-- The lines of a 64 KiB page. -/
def pageLines (a : Nat) : List Nat := (List.range 512).map (fun j => a / 65536 * 65536 + 128 * j)

/-- Some die of the space has locked a leaf that maps the page (R309, R311). -/
def State.leafLocked (s : State) (a : Nat) : Bool :=
  s.pkgs.any (fun k => k.2.dies.any (fun d => d.2.locks.any (fun l => l.2 != 0 && (
    let w := s.peekLe l.1 8
    (List.range 3).any (fun level => pteAddr w / levelSize level == a / levelSize level && pteAddr w % levelSize level == 0)))))

/-- A line of the old page is locked, or poisoned, and nothing is in progress on it. -/
def Package.lineStill (k : Package) (a : Nat) : Bool :=
  let e := k.dirAt (llineOf a)
  (tfind k.txns (llineOf a)).isNone && (e.st == .p || e.st == .l)
/-- Read copies that the old page's line has given while it was locked go (R74). -/
def State.clearLine (s : State) (p a : Nat) : State :=
  let ll := llineOf a
  let k := s.pkg p
  if (tfind k.txns ll).isSome || (k.dirAt ll).cells == 0 then s
  else
    let asks := k.asks p (cellsOf (k.dirAt ll).cells) .inval
    if asks.isEmpty then s.modPkg p (fun k => k.setDir ll { k.dirAt ll with cells := 0 }) else s.openTxn p ll .clear asks

/-- A line moves to its new place, a poisoned one in P; nothing of it is left at the old one. -/
def State.moveLine (s : State) (p new a : Nat) : State :=
  let b := new / 65536 * 65536 + a % 65536
  let poisoned := s.poisoned a
  let s := s.writeLine b (s.homeLine a)
  let s := if poisoned then s.setDir b ⟨0, 0, 0, .p, 0⟩ else s
  (s.modPkg p (fun k => (k.dropL1Line (lineOf a)).setDir (llineOf a) ⟨0, 0, 0, .i, 0⟩)).wakeLine (lineOf a) 1

/-- MIGRATION_SWITCH: the page's contents stand at the new copy, the held writes are performed there in their order of arrival, and the
driver's command ends. Read copies of the old one are recalled first. -/
def execMigrationSwitch (p page : Nat) (s : State) : Host.Outcome State Fault Refusal :=
  .next (match (s.pkg p).migr.find? (fun m => !m.switched && !m.locking && m.old / 65536 == page) with
    | none => s
    | some m =>
      if s.leafLocked m.old || !(pageLines m.old).all (s.pkg p).lineStill then s
      else if (pageLines m.old).any (fun a => ((s.pkg p).dirAt (llineOf a)).cells != 0) then
        (pageLines m.old).foldl (fun s a => s.clearLine p a) s
      else
        let s := (pageLines m.old).foldl (fun s a => s.moveLine p m.new a) s
        let s := s.modPkg p (fun k => { k with migr := k.migr.map (fun x =>
          if x.old = m.old then { x with switched := true, held := [] } else x) })
        let s := m.held.foldl (fun s f => s.homeTurn p f) s
        s.event p 8 (pkgRec 0x14 0 (dataAt [(32, leBytes 2 5), (56, leBytes 8 m.cookie.toNat)])))

/-! ### Dead cells (R327, R328) -/

/-- A flit whose source is dead is abandoned. -/
def Package.alive (k : Package) (f : Flit) : Bool := !k.dead f.src

/-- CELL_DECLARED_DEAD: DEAD is set for every member of the cell, the space and the host are told, what the package asked of it fails, its
own requests are abandoned, collectives with a member in it abort, and the walk of the directory is due. -/
def State.declareDead (s : State) (p cell code : Nat) : State :=
  let k := s.pkg p
  let ms := k.cellMembers cell
  if ms.all k.dead then s
  else
    let s := s.modPkg p (fun k =>
      let k : Package := { k with cellTab := ms.foldl (fun t q => tput t q (tget 0 t q ||| 0x40)) k.cellTab }
      (k.sendAll p (.death cell)).postRec 8 (pkgRec 0x0C code (dataAt [(32, leBytes 1 cell)])))
    -- requests to a home in the cell fail at once
    let s := ((s.pkg p).reqs.filter (fun r => ms.contains r.2.dst)).foldl (fun s r =>
      if (tfind (s.pkg p).reqs r.1).isSome then s.failReq p r.1 r.2 0x0A 1 else s) s
    let s := s.modPkg p (fun k => k.abortColls p 0x0A (fun c => c.members.findIdx ms.contains) (fun c => c.members.any ms.contains))
    let s := s.modPkg p (fun k => { k with
      -- requests of the cell in progress here
      txns := tmap (fun _ (x : Txn) => { x with waiting := x.waiting.filter (fun q => !k.dead q) }) k.txns,
      lineq := tmap (fun _ fs => fs.filter k.alive) k.lineq,
      dirWait := k.dirWait.filter k.alive,
      keyWait := k.keyWait.filter k.alive,
      migr := k.migr.map (fun m => { m with held := m.held.filter k.alive }),
      -- flits that an intermediate of the cell may have lost leave again
      sendq := ms.foldl (fun q r => (tget [] k.relayed r).foldl (fun q f =>
        tput q (sqKey f.dst f.ch) (tget [] q (sqKey f.dst f.ch) ++ [f])) q) k.sendq,
      relayed := k.relayed.filter (fun e => !ms.contains e.1),
      keys := k.keys.filter (fun x => !ms.contains (x.2.extractLsb' 32 8).toNat),
      walks := k.walks ++ k.dir.map (fun e => (e.1, cell)) })
    let s := (s.pkg p).txns.foldl (fun s x => s.closeTxn p x.1) s
    State.serveKeys ((s.pkg p).keyWait.length + 1) s p

/-- PEER_SILENCE_TIMEOUT (R327, R379): nothing from a member for 2 ms. -/
def execPeerSilenceTimeout (p q : Nat) (s : State) : Host.Outcome State Fault Refusal :=
  let k := s.pkg p
  .next (if k.sched.isSome && q != p && k.member q && !k.dead q && decide (tget 0 k.heard q + 2000000 ≤ s.time) then
      s.declareDead p (k.cell q) 0
    else s)

/-- SAFETY_NET_WALK (R328): the walk passes a line. -/
def execSafetyNetWalk (p line : Nat) (s : State) : Host.Outcome State Fault Refusal := .next (s.walkLine p line)

/-- HEARTBEAT (R345): the peer has been heard. -/
def execHeartbeat (p link : Nat) (s : State) : Host.Outcome State Fault Refusal :=
  .next (s.onFlit p link (fun f => match f.body with
    | .heartbeat => true
    | _ => false) (fun _ s => s))

/-- DEATH_NOTICE (R327): the receiver declares the cell dead too, once. -/
def execDeathNotice (p link : Nat) (s : State) : Host.Outcome State Fault Refusal :=
  .next (s.onFlit p link (fun f => match f.body with
    | .death _ => true
    | _ => false) (fun f s => match f.body with
    | .death c => s.declareDead p c 2
    | _ => s))

/-- RETIRE_NOTICE (R326). -/
def execRetireNotice (p link : Nat) (s : State) : Host.Outcome State Fault Refusal :=
  .next (s.onFlit p link (fun f => match f.body with
    | .retire _ => true
    | _ => false) (fun f s => match f.body with
    | .retire i => s.retireAt p i
    | _ => s))

/-! ### Messages to the Ringmaster (R203, R205, R291) -/

/-- A message whose slot's launch has to wait: it waits as a launch (R282). -/
def State.fireLater (s : State) (p space page : Nat) (m : List Byte) : State :=
  let tag : Word := BitVec.ofNat 32 (blkLe m 0 4)
  match (s.pkg p).findSlot space tag true with
  | none => s
  | some sl =>
    let s := s.modPkg p (fun k => { k with slots := k.slots.filter (fun y => y.space != space || y.tag != tag) })
    let x := msgLaunch m sl.part sl.driver page sl.template
    match readLaunch (rmRead p { part := x.part, driver := x.driver }) x.template.toNat x.arg.toNat s with
    | (.ok (t, rs), s) =>
      s.modPkg p (fun k => { k with waitLaunch := k.waitLaunch ++
        [{ x with tmpl := t, regions := rs, prio := if sl.prio = 15 then t.prio else sl.prio }] })
    | (_, s) => s

/-- TAGGED_LAUNCH_MSG (R288, R291): a message from the fabric fires the slot of its tag in the space that PART names. -/
def execTaggedLaunchMsg (p link : Nat) (s : State) : Host.Outcome State Fault Refusal :=
  .next (s.onFlit p link (fun f => match f.body with
    | .launch _ => true
    | _ => false) (fun f s => match f.body with
    | .launch m =>
      let space := blkByte m 33 % 16
      let page := if space < 8 then space else 8
      if msgMalformed none m then s.rejectMsg p (msgLaunch m (if space < 8 then space else 0) (space == 8) page 0) 0x07 none
      else (s.fire p space page true m).getD (s.fireLater p space page m)
    | _ => s))

/-- TDEC_MSG (R203): the Ringmaster that holds the record applies the TDEC or refuses it, and answers; the answer comes back as a message
of its own. -/
def execTdecMsg (p link : Nat) (s : State) : Host.Outcome State Fault Refusal :=
  .next (s.onFlit p link (fun f => match f.body with
    | .tdec .. => true
    | .answer id _ => match tfind (s.pkg p).reqs id with
      | some r => r.kind == .tdec
      | none => true
    | _ => false) (fun f s => match f.body with
    | .tdec inst part id => match s.tdecAt p part inst with
      | some s => s.send p f.src (.answer id 1)
      | none => s.send p f.src (.answer id 2)
    | .answer id v => match tfind (s.pkg p).reqs id with
      | some r => if r.kind == .tdec then s.answerReq p id r v else s
      | none => s
    | _ => s))

/-- CERTW_MSG (R205): the Ringmaster that holds the record answers at once, or when the certification is final. -/
def execCertwMsg (p link : Nat) (s : State) : Host.Outcome State Fault Refusal :=
  .next (s.onFlit p link (fun f => match f.body with
    | .certw .. => true
    | .answer id _ => match tfind (s.pkg p).reqs id with
      | some r => r.kind == .certw
      | none => false
    | _ => false) (fun f s => match f.body with
    | .certw inst part id => match (s.pkg p).rec? inst with
      | none => s.send p f.src (.answer id 2)
      | some r =>
        if r.part ≠ part then s.send p f.src (.answer id 2)
        else match r.verdict with
          | some b => s.send p f.src (.answer id (if b then 1 else 0))
          | none => s.modPkg p (fun k => { k with certWaits := k.certWaits ++ [⟨inst, .remote f.src id⟩] })
    | .answer id v => match tfind (s.pkg p).reqs id with
      | some r => if r.kind == .certw then s.answerReq p id r v else s
      | none => s
    | _ => s))

/-! ### The cell table (R312, R365, R367) -/

/-- A byte as the driver writes it: DEAD is W1C. -/
def cellWrite (old new : Byte) : Byte := (new &&& 0xBF) ||| (if new.getLsbD 6 then 0 else old &&& 0x40)

/-- CELL_TABLE_WRITE: a table with more than four members in a cell is refused. Where DEAD is cleared, the end-to-end numbers of the pair and
the copies of that home's lines start afresh (log entry 31). -/
def execCellTableWrite (p off : Nat) (bytes : List Byte) (s : State) : Host.Outcome State Fault Refusal :=
  .next (if !(s.pkg p).fabReady then s
    else
    let t := (bytes.zipIdx.filter (fun x => decide (off + x.2 < 256))).foldl (fun t x =>
      tput t (off + x.2) (cellWrite (tget 0 t (off + x.2)) x.1)) (s.pkg p).cellTab
    let k : Package := { s.pkg p with cellTab := t }
    match (List.range 64).find? (fun c => decide (4 < (k.cellMembers c).length)) with
    | some c => s.event p 8 (pkgRec 0x15 2 (dataAt [(32, leBytes 1 c)]))
    | none =>
      -- a readmitted package starts afresh, with nothing numbered and no line held from it
      let back (q : Nat) : Bool := (s.pkg p).dead q && !k.dead q
      s.setPkg p { k with e2e := k.e2e.filter (fun e => !back e.1), copies := k.copies.filter (fun e => !back (homeOf (e.1 * 128))) })

end Sys2Proof.Machine
end

