-- ==== Sys2Proof/Machine/Sys.lean ====
section
/-! DEFINITION. Class 6: TRAP, BKPT, RTT, TMASK, CTLRD, CTLWR, TLBI and EVREC (R257 to R267). -/

namespace Sys2Proof.Machine

/-! ### TRAP and BKPT (R262, R263) -/

/-- SOFTWARE or BREAK: tx.pc names the word that follows, tx.addr is 0. -/
def Iss.after (u : Iss) (code : Nat) (info : DWord) : Trap := ⟨code, u.next.setWidth 64, some 0, some info⟩

def execTrapReg (c : Ctl) (a : Reg) (s : State) : Host.Outcome State Fault Refusal :=
  s.effect c { reads := [.one a] } (fun t => [(t.reg a).setWidth 64])
    (fun u l s => (s, .trap (u.after 0x12 (((u.thread s l).reg a).setWidth 64))))
def execTrapImm (c : Ctl) (imm : BitVec 18) (s : State) : Host.Outcome State Fault Refusal :=
  s.effect c {} (fun _ => []) (fun u _ s => (s, .trap (u.after 0x12 (imm.signExtend 64))))

/-- A lane halts at a BKPT (R263): its older results are written, and tx.* is set as BREAK sets it. -/
def Thread.halt (t : Thread) (pc : DWord) (info : DWord) : Thread :=
  { t with st := .halted, txCode := 0x13, txPc := pc, txAddr := 0, txInfo := info }

/-- The lanes that a BKPT halts: those whose park no region stops (R92, R178). -/
def Iss.halting (u : Iss) (c : Ctl) (s : State) : List Nat := (u.laneSet c s).filter (fun l => (u.thread s l).parkNow.2.isNone)

/-- The DEBUG_HALT record of an entry (R352): the mask of the lanes halted. -/
def Iss.haltRec (u : Iss) (lanes : List Nat) (s : State) : State :=
  match u.team s with
  | none => s
  | some t => s.event u.pkg (ringOf t.part t.driver)
      { t.evRec u.group 0x17 0x13 (u.next.setWidth 64) 0xFF (dataAt [(32, leBytes 8 (ballot lanes))]) with lane := 0xFF }

/-- A partition's debug halt is on (R262). -/
def Iss.debugHalt (u : Iss) (s : State) : Bool := (s.pkg u.pkg).dbgh.getLsbD (u.part s)

/-- BKPT at a lane under debug halt. -/
def actHalt (c : Ctl) (n : BitVec 8) (s0 : State) (u : Iss) (l : Nat) (s : State) : State × LaneEnd :=
  match (u.thread s l).parkNow with
  | (t, some r) => (u.setThread s l t, .trap (regionFull r.pc))
  | (t, none) =>
    let s := u.setThread s l t
    let s := if (u.halting c s0).head? = some l then u.haltRec (u.halting c s0) s else s
    (u.setThread (s.moveLane u.pkg u.ctx u.group l u.next u.nextClause) l
      { (u.thread s l).halt (u.next.setWidth 64) (n.setWidth 64) with pc := u.next }, .left)

def execBkpt (c : Ctl) (n : BitVec 8) (s : State) : Host.Outcome State Fault Refusal :=
  s.issue c {} (fun u l s' =>
    if !u.pairAgrees c l (fun _ => ()) s then (s', .trap u.mirrorTrap)
    else if u.debugHalt s then actHalt c n s u l s'
    else (s', .trap (u.after 0x13 (n.setWidth 64))))

/-! ### RTT (R264) -/

/-- How a lane can go on at a program counter: with the clause it lies in, by a trap, or not while a page is absent. -/
inductive Resume
  | at (cl : Option Clause)
  | trap (t : Trap)
  | bad (x : Xl) (va : DWord)
  deriving DecidableEq, Repr

/-- The nearest header at or below a program counter, within `fuel` words (R264): its address and word. -/
def State.headerBelow (p c die : Nat) : Nat → Nat → State → (Except (Xl × Nat) (Option (Nat × DWord))) × State
  | 0, _, s => (.ok none, s)
  | fuel + 1, a, s =>
    match s.fetch p c die a with
    | (.ok _, w, s) =>
      if isHeader w then (.ok (some (a, w)), s)
      else if a < 8 then (.ok none, s)
      else State.headerBelow p c die fuel (a - 8) s
    | (x, _, s) => (.error (x, a), s)

/-- The checks of a return to a program counter; `pc` is the address that their traps name as tx.pc. -/
def State.resumeAt (s : State) (p c die : Nat) (target pc : DWord) : Resume × State :=
  let bad (r : Nat) : Trap := ⟨0x02, pc, some target, some (BitVec.ofNat 64 r)⟩
  if 2 ^ 57 ≤ target.toNat then (.trap (bad 1), s)
  else if target.toNat % 8 ≠ 0 then (.trap (bad 8), s)
  else
    match State.headerBelow p c die 17 target.toNat s with
    | (.error (x, a), s) => (.bad x (BitVec.ofNat 64 a), s)
    | (.ok none, s) => (.trap (bad 1), s)
    | (.ok (some (a, w)), s) =>
      let k := clauseOf (BitVec.ofNat 57 a) (Header.ofWord w)
      if k.last.toNat < target.toNat then (.trap (bad 1), s)
      else (.at (if target.toNat = a then none else some k), s)

def execRtt (c : Ctl) (s : State) : Host.Outcome State Fault Refusal :=
  s.issue c {} (fun u l s =>
    let t := u.thread s l
    if !t.inh then (s, .trap (u.trap 0x01 0x10 none))
    else
      match s.resumeAt u.pkg u.ctx (u.die s) t.txPc u.pc64 with
      | (.at cl, s) =>
        let s := s.returnLane u.pkg u.ctx u.group l (t.txPc.setWidth 57) cl
        (if c.park then s.parkLane u.pkg u.ctx u.group l else s, .left)
      | (.trap tr, s) => (s, .trap tr)
      | (.bad x va, s) => u.badXl l va Access.fetch.kind x s)

/-! ### TMASK (R259) -/

def execTmaskReg (c : Ctl) (a : Reg) (s : State) : Host.Outcome State Fault Refusal :=
  s.issue c { reads := [.one a] } (fun u l s =>
    (u.setThread s l { u.thread s l with m := ((u.thread s l).reg a).getLsbD 0 }, .done))
def execTmaskImm (c : Ctl) (imm : BitVec 18) (s : State) : Host.Outcome State Fault Refusal :=
  s.issue c {} (fun u l s => (u.setThread s l { u.thread s l with m := imm.getLsbD 0 }, .done))

/-! ### CTLRD and CTLWR (R258, R265) -/

/-- The selectors. -/
inductive Sel
  | fsr | code | pc | addr | info | mask | part | rtmo | ptroot
  deriving DecidableEq, Repr

def selOf : Nat → Option Sel
  | 0x00 => some .fsr
  | 0x01 => some .code
  | 0x02 => some .pc
  | 0x03 => some .addr
  | 0x04 => some .info
  | 0x05 => some .mask
  | 0x10 => some .part
  | 0x11 => some .rtmo
  | 0x12 => some .ptroot
  | _ => none
def Sel.wide : Sel → Bool
  | .pc | .addr | .info | .ptroot => true
  | _ => false
def Sel.privileged : Sel → Bool
  | .part | .rtmo | .ptroot => true
  | _ => false
def Sel.readOnly : Sel → Bool
  | .mask | .part => true
  | _ => false

/-- A thread is privileged when its task was dispatched at level 11 (R258). -/
def Iss.privileged (u : Iss) (s : State) : Bool :=
  match u.team s with
  | some t => t.prio == 11
  | none => false

/-- ILLEGAL, reason 3, at execution (R265). -/
def Iss.illegal3 (u : Iss) : Trap := u.trap 0x01 3 (some u.pc64)
/-- PERM for want of privilege (R258). -/
def Iss.needsPrivilege (u : Iss) (v : Option DWord) : Trap := u.trap 0x06 0x20 v

/-- The value of a selector (R265). -/
def State.readSel (s : State) (p part : Nat) (t : Thread) : Sel → DWord
  | .fsr => t.fsr.setWidth 64
  | .code => t.txCode.setWidth 64
  | .pc => t.txPc
  | .addr => t.txAddr
  | .info => t.txInfo
  | .mask => BitVec.ofNat 64 ((if t.m then 1 else 0) + (if t.pm then 2 else 0))
  | .part => BitVec.ofNat 64 part
  | .rtmo => BitVec.ofNat 64 (tget 400 (s.pkg p).rtmo part)
  | .ptroot => tget 0 (s.pkg p).ptroot part

/-- A new root: the walks of a partition that has one go on with the old one until its next TLBI.all (R265). -/
def Package.setRoot (k : Package) (part : Nat) (v : DWord) : Package :=
  match tfind k.ptroot part with
  | none => { k with ptroot := tput k.ptroot part v }
  | some _ => { k with ptrootWalk := tput k.ptrootWalk part (BitVec.ofNat 64 (k.walkRoot part)), ptroot := tput k.ptroot part v }

/-- A selector written; none where a reserved bit or value is. -/
def Iss.writeSel (u : Iss) (part l : Nat) (v : DWord) (sel : Sel) (s : State) : Option State :=
  let onThread (f : Thread → Thread) : Option State := some (u.setThread s l (f (u.thread s l)))
  match sel with
  | .fsr => onThread (fun t => { t with fsr := v.setWidth 5 })
  | .code => onThread (fun t => { t with txCode := v.setWidth 32 })
  | .pc => onThread (fun t => { t with txPc := v })
  | .addr => onThread (fun t => { t with txAddr := v })
  | .info => onThread (fun t => { t with txInfo := v })
  | .mask | .part => none
  | .rtmo => if 2 ^ 16 ≤ v.toNat ∨ v = 0 then none
    else some (s.modPkg u.pkg (fun k => { k with rtmo := tput k.rtmo part v.toNat }))
  | .ptroot => if 2 ^ 52 ≤ v.toNat ∨ v.toNat % 4096 ≠ 0 then none else some (s.modPkg u.pkg (fun k => k.setRoot part v))

/-- The park that CTLRD and CTLWR issue after: older deferred results of the entry's lanes, guards among them, are written (R258). -/
def State.parkFirst (s : State) : State :=
  match s.iss? with
  | none => s
  | some u =>
    if u.blocked s then s
    else u.lanes.foldl (fun s l => if u.alive s then s.parkLane u.pkg u.ctx u.group l else s) s

/-- A selector checked at a lane: reserved, or read-only for a write, then the privilege (R258, R265). -/
def Iss.selector (u : Iss) (write : Bool) (v : Nat) (s : State) : Trap ⊕ Sel :=
  match selOf v with
  | none => .inl u.illegal3
  | some sel =>
    if write && sel.readOnly then .inl u.illegal3
    else if sel.privileged && !u.privileged s then .inl (u.needsPrivilege (some (BitVec.ofNat 64 v)))
    else .inr sel

/-- The registers of a selector's value. -/
def Sel.opnd (sel : Sel) (d : Reg) : Opnd := .sized sel.wide d
/-- The width of the data register in the register form is checked at execution (R378). -/
def selRegs (d b : Reg) (_ : Iss) (t : Thread) : List Opnd :=
  match selOf (t.reg b).toNat with
    | some sel => [sel.opnd d]
    | none => []

/-- CTLRD at a lane. -/
def actCtlrd (d : Reg) (v : Thread → Nat) (u : Iss) (l : Nat) (s : State) : State × LaneEnd :=
  match u.selector false (v (u.thread s l)) s with
  | .inl tr => (s, .trap tr)
  | .inr sel =>
    u.defer l d ((wordsOf sel.wide (s.readSel u.pkg (u.part s) (u.thread s l) sel)).map (fun w => (w, false))) 0 s

def execCtlrdReg (c : Ctl) (d b : Reg) (s : State) : Host.Outcome State Fault Refusal :=
  s.parkFirst.issue c { reads := [.one b], regs := selRegs d b } (actCtlrd d (fun t => (t.reg b).toNat))
def execCtlrdImm (c : Ctl) (d : Reg) (sel : BitVec 18) (s : State) : Host.Outcome State Fault Refusal :=
  s.parkFirst.issue c {} (actCtlrd d (fun _ => sel.toNat))

/-- The data register of CTLWR: a pair where the selector is 64 bits wide. -/
def selData (d : Reg) (v : Nat) : Opnd :=
  match selOf v with
  | some sel => sel.opnd d
  | none => .one d

/-- CTLWR at a lane; a flagged data register raises DEFERRED (R94) before the traps of the selector (R96). -/
def actCtlwr (d : Reg) (v : Thread → Nat) (u : Iss) (l : Nat) (s : State) : State × LaneEnd :=
  let t := u.thread s l
  if t.flags [selData d (v t)] then (s, .trap ⟨0x11, u.pc64, none, none⟩)
  else
    match u.selector true (v t) s with
    | .inl tr => (s, .trap tr)
    | .inr sel =>
      match u.writeSel (u.part s) l (t.val sel.wide d) sel s with
      | some s => (s, .done)
      | none => (s, .trap u.illegal3)

def execCtlwrReg (c : Ctl) (d b : Reg) (s : State) : Host.Outcome State Fault Refusal :=
  s.parkFirst.issue c { reads := [.one b], regs := selRegs d b } (actCtlwr d (fun t => (t.reg b).toNat))
def execCtlwrImm (c : Ctl) (d : Reg) (sel : BitVec 18) (s : State) : Host.Outcome State Fault Refusal :=
  s.parkFirst.issue c {} (actCtlwr d (fun _ => sel.toNat))

/-! ### TLBI (R266) -/

/-- What a TLBI covers: every translation of the partition, or those of the page that holds an address. -/
def tlbiCovers (va : Option Nat) (t : PageTr) : Bool :=
  match va with
  | none => true
  | some a => t.covers a

/-- A covered page is locked by an engine command of the partition (R309). -/
def Package.pageLocked (k : Package) (part : Nat) (va : Option Nat) : Bool :=
  k.teams.any (fun t => t.2.part == part && t.2.mqs.any (fun m => m.pages.any (tlbiCovers va)))

/-- An access that used a covered translation has not been performed yet: a remote one. -/
def Package.usesCovered (k : Package) (part : Nat) (va : Option Nat) : Bool :=
  let trs := k.dies.flatMap (fun d => (d.2.tlb.filter (fun e => e.part == part && tlbiCovers va e.tr)).map (·.tr))
  k.reqs.any (fun q =>
    (match tfind k.teams q.2.ctx with
      | some t => t.part == part
      | none => false) &&
    (match q.2.kind with
      | .load | .spec | .own | .write => q.2.lanes.any (fun x => va.isNone || trs.any (fun t => t.covers x.2.toNat))
      | .cpyx _ => true
      | _ => false))

/-- The translations that a TLBI covers are gone from every die of the package; a TLBI.all brings the new root into use (R265). -/
def Package.invalidate (k : Package) (part : Nat) (va : Option Nat) : Package :=
  let k := { k with dies := tmap (fun _ d => { d with tlb := d.tlb.filter (fun e => !(e.part == part && tlbiCovers va e.tr)) }) k.dies }
  if va.isNone then { k with ptrootWalk := tdel k.ptrootWalk part } else k

/-- TLBI at a lane. -/
def actTlbi (va : Thread → Option DWord) (u : Iss) (l : Nat) (s : State) : State × LaneEnd :=
  let a := va (u.thread s l)
  if !u.privileged s then (s, .trap (u.needsPrivilege a))
  else
    match a with
    | some x => if 2 ^ 57 ≤ x.toNat then (s, .trap (u.bare 0x15 (some x)))
      else (s.modPkg u.pkg (fun k => k.invalidate (u.part s) (some x.toNat)), .done)
    | none => (s.modPkg u.pkg (fun k => k.invalidate (u.part s) none), .done)

/-- A TLBI: it waits for the unlock of covered pages, and a park follows it (R258). -/
def execTlbi (c : Ctl) (reads : List Opnd) (va : Thread → Option DWord) (s : State) : Host.Outcome State Fault Refusal :=
  s.issueHold c { reads := reads, force := true }
    (fun u s' =>
      let k := s'.pkg u.pkg
      let waits (l : Nat) : Bool :=
        let a := (va (u.thread s' l)).map (·.toNat)
        u.privileged s' && (match a with
          | some a => decide (a < 2 ^ 57)
          | none => true) && (k.pageLocked (u.part s') a || k.usesCovered (u.part s') a)
      if (u.active c s').any waits then some s' else none)
    (actTlbi va)

def execTlbiPage (c : Ctl) (a : Reg) (s : State) : Host.Outcome State Fault Refusal :=
  execTlbi c [.pair a] (fun t => some (t.pair a)) s
def execTlbiAll (c : Ctl) (s : State) : Host.Outcome State Fault Refusal := execTlbi c [] (fun _ => none) s

/-! ### EVREC (R267) -/

/-- EVREC at a lane. -/
def actEvrec (a b : Reg) (u : Iss) (l : Nat) (s : State) : State × LaneEnd :=
  match u.team s with
  | none => (s, .left)
  | some tm =>
    let t := u.thread s l
    let off := (t.reg a).toNat
    if off % 32 ≠ 0 then (s, .trap (u.engineTrap 0x03 (some (BitVec.ofNat 64 off))))
    else if 2 ^ 16 ≤ (t.reg b).toNat then (s, .trap (u.engineTrap 0x01 (some ((t.reg b).setWidth 64))))
    else if tm.tmpl.scratch < off + 32 then (s, .trap (u.bare 0x06 (some (BitVec.ofNat 64 off))))
    else
      (s.event u.pkg (ringOf tm.part tm.driver) (tm.evRec u.group 0x01 (t.reg b).toNat u.pc64 (tm.visLane l)
        ((tm.spaceMem u.group l .s).bytes off 32)), .done)

/-- The ring has room for the records of `n` lanes at once. -/
def Ring.roomFor (g : Ring) (n : Nat) : Bool := g.pend.isEmpty && decide (g.head - g.tail + n ≤ g.size)

def execEvrec (c : Ctl) (a b : Reg) (s : State) : Host.Outcome State Fault Refusal :=
  s.issueHold c { reads := [.one a, .one b] }
    (fun u s' =>
      match u.team s' with
      | none => none
      | some tm =>
        if u.releaseHold c s' then some s'
        else if ((s'.pkg u.pkg).ring (ringOf tm.part tm.driver)).roomFor (u.laneSet c s').length then none else some s')
    (fun u l s' =>
      if u.pairAgrees c l (fun t => [(t.reg a).setWidth 64, (t.reg b).setWidth 64]) s then
        u.once c.park l (u.release l (actEvrec a b u l)) s'
      else (s', .trap u.mirrorTrap))

end Sys2Proof.Machine
end

