-- ==== Sys2Proof/Machine/Matrix.lean ====
section
/-! DEFINITION. WBLD, MML, MMLG, ACCZ, ACCRD and ACCST (R207, R211 to R219, R383): their checks at issue, and what they do when they
run at the head of the queue. -/

namespace Sys2Proof

/-! ### Tiles (R214, R215) -/

/-- Elements of a fixed format as exact values; a failed byte gives NaN. -/
def elemVals (fmt : Nat) (bs : List Byte) : List FVal :=
  (List.range (bs.length / elemSize fmt)).map (fun j => elemVal fmt (leNat ((bs.drop (j * elemSize fmt)).take (elemSize fmt))))

/-- The blocks of a run of bytes, decoded. -/
def blockVals (bs : List Byte) : List FVal :=
  (List.range (bs.length / 80)).flatMap (fun k => (i4xDecode ((bs.drop (80 * k)).take 80)).getD (List.replicate 128 (.nan false)))

/-- The bytes of a B tile of a tag's format (R214). -/
def tileBytes (fmt : Nat) : Nat :=
  match fmt with
  | 2 | 3 => 4096
  | 9 => 1280
  | _ => 2048
/-- The formats that pair with A (R215). -/
def pairsWith (a b : Nat) : Bool :=
  match a with
  | 2 | 3 => b == 2 || b == 3 || b == 9
  | 4 | 5 => b == 4 || b == 5 || b == 9
  | 6 => b == 6
  | _ => false
/-- The index of element (k, n) of a B tile in its decoded sequence (R214). -/
def tileIndex (geom k n : Nat) : Nat :=
  if geom = 1 then 128 * (4 * (k / 8) + n / 16) + 16 * (k % 8) + n % 16 else 64 * k + n

/-- The element format of an A code; 0 where the page gives it. -/
def AFmt.fmt (af : AFmt) : Nat := af.code.1.toNat

/-- One entry after one step: FP32 by R52, or INT32. -/
def tileStep (int : Bool) (acc : Nat) (a b : List FVal) : Nat :=
  if int then wrap 32 ((acc : Int) + (List.zipWith (fun x y => x.int * y.int) a b).foldl (· + ·) 0)
  else matrixSum acc (List.zipWith FVal.mul a b)

/-- An accumulator entry converted by ACCST (R219, R43). -/
def accConv (fmt : Nat) (rm : Rm) (int : Bool) (v : Nat) : Nat :=
  if int then
    match fmt with
    | 7 => v
    | 6 => wrap 8 (clamp 8 true (toInt 32 true v))
    | _ => match elemFmt? fmt with
      | some f => (f.ofInt rm (toInt 32 true v)).1
      | none => 0
  else
    match fmt with
    | 6 => wrap 8 ((fp32.val v).toInteger rm 8 true).1
    | 7 => wrap 32 ((fp32.val v).toInteger rm 32 true).1
    | _ => match elemFmt? fmt with
      | some f => (f.ofVal rm (fp32.val v)).1
      | none => 0

end Sys2Proof

namespace Sys2Proof.Machine

/-- Bytes of the weight buffer. -/
def wbBytes : Nat := 262144

/-- Word `k` of a command's operands. -/
def MCmd.word (m : MCmd) (k : Nat) : Nat := (m.ops.getD k 0).toNat
/-- A pair of operand words. -/
def MCmd.wide (m : MCmd) (k : Nat) : Nat := m.word k + 2 ^ 32 * m.word (k + 1)

/-! ### WBLD (R213) -/

def wbldRule : PageRule := ⟨.read, [2, 3, 4, 5, 6, 9], true⟩

/-- The checks of WBLD: source pair, offset, count. -/
def checkWbld (u : Iss) (tm : Team) (ops : List Word) (s : State) : Except GFail MCmd × State :=
  let src := pairAt ops 0
  let off := wordAt ops 2
  let n := wordAt ops 3
  let m := u.cmd 0x00 0 ops
  match firstFail [u.failIf (off % 16 != 0) 3 off, u.failIf (src % 16 != 0) 3 src, u.failIf (n % 16 != 0) 3 n,
      u.failIf (n == 0 || decide (wbBytes < n) || decide (wbBytes < off + n)) 4 n] with
  | some e => (.error e, s)
  | none =>
    match u.lockAt tm wbldRule src [] s with
    | (.error e, s) => (.error e, s)
    | (.ok (t, ps), s) =>
      if t.fmt = 9 then
        if n % 80 ≠ 0 then (.error (u.engFail 3 n), s)
        else if !t.blockStart src then (.error (u.atIssue 0x04 src), s)
        else match u.lockBlocks tm wbldRule (n / 80 + 2) src (n / 80) ps s with
          | (.error e, s) => (.error e, s)
          | (.ok ps, s) => (.ok { m with pages := ps }, s)
      else match u.lockRun tm wbldRule (n / 65536 + 2) src n ps s with
        | (.error e, s) => (.error e, s)
        | (.ok ps, s) => (.ok { m with pages := ps }, s)

def execWbld (c : Ctl) (a b e : Reg) (s : State) : Host.Outcome State Fault Refusal :=
  s.issueGroup c false [.pair a, .one b, .one e] (fun u tm ops s => u.queueCmd tm false (checkWbld u tm ops) s)

/-- One unit of the weight buffer loaded: its bytes, and its tag, not valid where its bytes failed or its block does not decode. -/
def Matrix.load (x : Matrix) (unit fmt geom : Nat) (bs : Option (List Byte)) (valid : Bool) : Matrix :=
  match bs with
  | some b => { x with wb := x.wb.put (16 * unit) b, tags := tput x.tags unit (fmt, geom, valid) }
  | none => { x with tags := tput x.tags unit (fmt, geom, false) }

/-- A run of units loaded; `valid` says whether the bytes may be used. -/
def Matrix.loadRun (fmt geom : Nat) (valid : Bool) : Nat → Matrix → Nat → List (Option Byte) → Matrix
  | 0, x, _, _ => x
  | n + 1, x, unit, bs =>
    let b := allBytes (bs.take 16)
    Matrix.loadRun fmt geom valid n (x.load unit fmt geom b (valid && b.isSome)) (unit + 1) (bs.drop 16)

/-- Runs of bytes that a command reads of its pages, at their homes (R317). -/
def State.needRuns (s : State) (p : Nat) (m : MCmd) (rs : List (Nat × Nat)) : State :=
  rs.foldl (fun s r => s.needRun p m.die m.pages r.1 r.2) s

/-- The runs that WBLD reads. -/
def wbldReads (m : MCmd) : List (Nat × Nat) :=
  match m.pages with
  | [] => []
  | t :: _ => if t.fmt = 9 then (List.range (m.word 3 / 80)).map (fun k => (blockAt m.pages (m.pages.length + 1) (m.wide 0) k, 80))
    else [(m.wide 0, m.word 3)]

/-- What WBLD does: plain bytes, or I4X blocks one after another. -/
def wbldRun (s : State) (p : Nat) (m : MCmd) (x : Matrix) : Matrix × EFail :=
  let src := m.wide 0
  let off := m.word 2
  let n := m.word 3
  match m.pages with
  | [] => (x, none)
  | t :: _ =>
    if t.fmt = 9 then
      (List.range (n / 80)).foldl (fun (x, f) k =>
        let r := s.readLocked p m.pages (blockAt m.pages (m.pages.length + 1) src k) 80
        let ok := match allBytes r.1 with
          | some b => (i4xDecode b).isSome
          | none => false
        (Matrix.loadRun 9 t.geom ok 5 x ((off + 80 * k) / 16) r.1, f.or r.2)) (x, none)
    else
      let r := s.readLocked p m.pages src n
      (Matrix.loadRun t.fmt t.geom true (n / 16) x (off / 16) r.1, r.2)

/-! ### MML and MMLG (R214 to R217) -/

def mmlRule : PageRule := ⟨.read, [1, 2, 3, 4, 5, 6, 7, 8, 9], false⟩

/-- The fields of MML's quad and pair. -/
structure MmlOp where
  abase : Nat
  ainc : Int
  apitch : Nat
  bbase : Nat
  tile : Nat
  steps : Nat
  binc : Int
  bbe : Bool
  bb : Nat
  deriving DecidableEq, Repr

def mmlOp (ops : List Word) : MmlOp where
  abase := pairAt ops 0
  ainc := toInt 16 true (wordAt ops 2 / 2 ^ 16)
  apitch := wordAt ops 2 % 2 ^ 16
  bbase := wordAt ops 3 % 2 ^ 18
  tile := wordAt ops 4 / 2 ^ 28
  steps := wordAt ops 4 / 2 ^ 16 % 2 ^ 12 + 1
  binc := toInt 16 true (wordAt ops 4)
  bbe := wordAt ops 5 / 2 ^ 7 % 2 == 1
  bb := wordAt ops 5 % 32

/-- Row `r` of step `k` of A starts here, modulo 2^64. -/
def MmlOp.row (x : MmlOp) (k r : Nat) : Nat := wrap 64 ((x.abase : Int) + k * x.ainc + r * x.apitch)
/-- The B range of a step starts here. -/
def MmlOp.brange (x : MmlOp) (base k : Nat) : Int := (base : Int) + k * x.binc
/-- Every row of every step. -/
def MmlOp.rows (x : MmlOp) : List Nat := (List.range x.steps).flatMap (fun k => (List.range 64).map (x.row k))

/-- The B ranges of a base, taken at a size, lie in the buffer: those of the first and of the last step do. -/
def MmlOp.inBuffer (x : MmlOp) (base size : Nat) : Bool :=
  [x.brange base 0, x.brange base (x.steps - 1)].all (fun lo => decide (0 ≤ lo) && decide (lo + size ≤ wbBytes))

/-- The groups of MMLG's table: base and rows (R217). -/
def mmlgGroups (b : List Byte) : List (Nat × Nat) :=
  (List.range (blkByte b 0 % 32 + 1)).map (fun k => (blkLe b (8 * k + 8) 8 / 2 ^ 16 % 2 ^ 18, blkLe b (8 * k + 8) 8 % 2 ^ 7))
/-- A reserved bit or value in the table. -/
def mmlgReserved (b : List Byte) : Bool :=
  decide (16 ≤ blkLe b 0 8) || (List.range (blkByte b 0 % 32 + 1)).any (fun k =>
    let w := blkLe b (8 * k + 8) 8
    decide (2 ^ 34 ≤ w) || w / 2 ^ 7 % 2 ^ 9 != 0)
/-- Reason 0x06. -/
def mmlgMalformed (gs : List (Nat × Nat)) : Bool :=
  decide (64 < gs.foldl (fun n g => n + g.2) 0) || gs.any (fun g => g.1 % 16 != 0)

/-- The checks of MML and MMLG that no page decides. -/
def Iss.mmlFail (u : Iss) (ops : List Word) (grouped : Bool) : Option GFail :=
  let x := mmlOp ops
  firstFail [u.failIf (decide (2 ^ 18 ≤ wordAt ops 3) || (grouped && wordAt ops 3 != 0)) 1 (wordAt ops 3),
    u.failIf (decide (2 ^ 8 ≤ wordAt ops 5) || wordAt ops 5 / 32 % 4 != 0) 1 (wordAt ops 5),
    u.failIf (x.bbase % 16 != 0) 3 (wordAt ops 3), u.failIf (x.binc % 16 != 0) 3 (wordAt ops 4)]

/-- The checks that A's format decides: the alignment of its rows, and the B ranges at the smallest size that pairs with it. -/
def Iss.mmlFmtFail (u : Iss) (tm : Team) (ops : List Word) (fmt : Nat) (bases : List Nat) : Option GFail :=
  let x := mmlOp ops
  let z := elemSize fmt
  let min := if fmt = 6 then 2048 else 1280
  firstFail [u.failIf (x.abase % z != 0) 3 x.abase, u.failIf (x.ainc % z != 0 || x.apitch % z != 0) 3 (wordAt ops 2),
    u.failIf (!bases.all (fun b => x.inBuffer b min)) 4 (wordAt ops 3), u.bbFail tm x.bbe x.bb (wordAt ops 5)]

/-- The table that MMLG copies (R217). -/
def Iss.mmlgTable (u : Iss) (tm : Team) (off : Nat) : Except GFail (List Byte) :=
  let sc := tm.scr (tm.onOdd u.group)
  match firstFail [u.failIf (off % 8 != 0) 3 off, u.scratchFail tm off 8] with
  | some e => .error e
  | none =>
    let n := 8 * (sc.le off 8 % 32 + 2)
    match firstFail [u.failIf (decide (16 ≤ sc.le off 8)) 1 off, u.scratchFail tm off n] with
    | some e => .error e
    | none =>
      let b := sc.bytes off n
      match firstFail [u.failIf (mmlgReserved b) 1 off, u.failIf (mmlgMalformed (mmlgGroups b)) 6 off] with
      | some e => .error e
      | none => .ok b

/-- The checks of MML and MMLG; `table` is MMLG's. -/
def checkMml (op : Nat) (af : AFmt) (table : Option (List Byte)) (u : Iss) (tm : Team) (ops : List Word) (s : State) :
    Except GFail MCmd × State :=
  let x := mmlOp ops
  let bases := match table with
    | some b => ((mmlgGroups b).filter (fun g => g.2 != 0)).map (·.1)
    | none => [x.bbase]
  let m : MCmd := { u.cmd op af.fmt ops with block := table.getD [] }
  match u.mmlFail ops table.isSome with
  | some e => (.error e, s)
  | none =>
    if af = .page then
      match u.lockAt tm mmlRule x.abase [] s with
      | (.error e, s) => (.error e, s)
      | (.ok (t, ps), s) =>
        match u.lockRuns tm mmlRule (32 * elemSize t.fmt) x.rows ps s with
        | (.error e, s) => (.error e, s)
        | (.ok ps, s) =>
          if !pairsWith t.fmt t.fmt then (.error (u.engFail 2 x.abase), s)
          else match u.mmlFmtFail tm ops t.fmt bases with
            | some e => (.error e, s)
            | none => (.ok { m with pages := ps, mod := t.fmt }, s)
    else
      let ends := [x.row 0 0, x.row (x.steps - 1) 0, x.row 0 63, x.row (x.steps - 1) 63]
      match firstFail (u.mmlFmtFail tm ops af.fmt bases :: ends.map (fun a =>
          (u.scratchFail tm a (32 * elemSize af.fmt)).map (fun _ => u.atIssue 0x06 x.abase))) with
      | some e => (.error e, s)
      | none => (.ok m, s)

def execMml (c : Ctl) (af : AFmt) (a b : Reg) (s : State) : Host.Outcome State Fault Refusal :=
  s.issueGroup c false [.quad a, .pair b] (fun u tm ops s => u.queueCmd tm false (checkMml 0x01 af none u tm ops) s)
/-- The checks of MMLG. -/
def checkMmlg (af : AFmt) (u : Iss) (tm : Team) (ops : List Word) (s : State) : Except GFail MCmd × State :=
  match u.mmlgTable tm (wordAt ops 6) with
  | .error e => (.error e, s)
  | .ok tb => checkMml 0x02 af (some tb) u tm ops s

def execMmlg (c : Ctl) (af : AFmt) (a b t : Reg) (s : State) : Host.Outcome State Fault Refusal :=
  s.issueGroup c false [.quad a, .pair b, .one t] (fun u tm ops s => u.queueCmd tm false (checkMmlg af u tm ops) s)

/-- The row groups of a command: first row, rows, and B base. -/
def MCmd.rowGroups (m : MCmd) : List (Nat × Nat × Nat) :=
  if m.op = 2 then ((mmlgGroups m.block).foldl (fun (x : List (Nat × Nat × Nat) × Nat) g =>
    (x.1 ++ [(x.2, g.2, g.1)], x.2 + g.2)) ([], 0)).1
  else [(0, 64, (mmlOp m.ops).bbase)]

/-- The tags of the units of a range. -/
def Matrix.tagsAt (x : Matrix) (lo n : Nat) : List (Nat × Nat × Bool) :=
  (List.range (n / 16)).map (fun k => tget (0, 0, false) x.tags (lo / 16 + k))

/-- The start check (R216): the one tag of the B units, or the reason: 0x04 when only a range runs past the buffer, else 0x02. -/
def MCmd.startTag (m : MCmd) (x : Matrix) : Except Nat (Nat × Nat) :=
  let o := mmlOp m.ops
  let los := (m.rowGroups.filter (fun g => g.2.1 != 0)).flatMap (fun g => (List.range o.steps).map (o.brange g.2.2))
  match los with
  | [] => .ok (2, 0)
  | lo :: _ =>
    let t := tget (0, 0, false) x.tags (lo.toNat / 16)
    let n := tileBytes t.1
    let ok (lo : Int) : Bool := (x.tagsAt lo.toNat (min n (wbBytes - lo.toNat))).all (· == t)
    if !t.2.2 || !pairsWith m.mod t.1 || !los.all ok then .error 2
    else if !los.all (fun lo => decide (lo + n ≤ wbBytes)) then .error 4
    else .ok (t.1, t.2.1)

/-- The bytes of A read by one step's row: of the scratchpad or of locked pages. -/
def MCmd.aRow (m : MCmd) (s : State) (p : Nat) (sc : Mem) (k r : Nat) : List (Option Byte) × EFail :=
  let a := (mmlOp m.ops).row k r
  let n := 32 * elemSize m.mod
  if m.pages.isEmpty then ((sc.bytes a n).map some, none) else s.readLocked p m.pages a n

/-- The runs of A that a command reads of its pages. -/
def MCmd.aReads (m : MCmd) : List (Nat × Nat) :=
  if m.pages.isEmpty then [] else (mmlOp m.ops).rows.map (fun a => (a, 32 * elemSize m.mod))

/-- The A tile of a step, or the first failure. -/
def MCmd.aTile (m : MCmd) (s : State) (p : Nat) (sc : Mem) (k : Nat) : Except EFail (List (List FVal)) :=
  (List.range 64).foldr (fun r rest =>
    let x := m.aRow s p sc k r
    match allBytes x.1, rest with
    | some b, .ok rows => .ok (elemVals m.mod b :: rows)
    | some _, e => e
    | none, .ok _ => .error x.2
    | none, .error f => .error (x.2.or f)) (.ok [])

/-- The decoded B tile at an offset. -/
def Matrix.bTile (x : Matrix) (fmt lo : Nat) : List FVal :=
  let b := x.wb.bytes lo (tileBytes fmt)
  if fmt = 9 then blockVals b else elemVals fmt b

/-- Column `n` of a B tile. -/
def bColumn (geom : Nat) (b : List FVal) (n : Nat) : List FVal :=
  (List.range 32).map (fun k => b.getD (tileIndex geom k n) (.nan false))

/-- Entries of a tile written. -/
def Matrix.setTile (x : Matrix) (tile : Nat) (f : Nat → Nat → Option Nat) : Matrix :=
  { x with acc := (List.range 4096).foldl (fun a i => match f (i / 64) (i % 64) with
      | some v => tput a (4096 * tile + i) (BitVec.ofNat 32 v)
      | none => a) x.acc }
def Matrix.entry (x : Matrix) (tile r n : Nat) : Nat := (tget (0 : Word) x.acc (4096 * tile + 64 * r + n)).toNat

/-- Every entry of the tile becomes the canonical NaN (R216, R383). -/
def Matrix.spoil (x : Matrix) (tile : Nat) : Matrix := x.setTile tile (fun _ _ => some 0x7FC00000)

/-- One step of MML or MMLG (R215, R217). -/
def MCmd.stepTile (m : MCmd) (fmt geom k : Nat) (a : List (List FVal)) (x : Matrix) : Matrix :=
  let o := mmlOp m.ops
  let bs := m.rowGroups.map (fun g => (g.1, g.2.1, x.bTile fmt (o.brange g.2.2 k).toNat))
  x.setTile o.tile (fun r n =>
    match bs.find? (fun g => decide (g.1 ≤ r) && decide (r < g.1 + g.2.1)) with
    | none => none
    | some g => some (tileStep (m.mod == 6) (x.entry o.tile r n) (a.getD r []) (bColumn geom g.2.2 n)))

/-- What MML and MMLG do: every step, or NaN in every entry of the tile when a read fails (R383). -/
def MCmd.mmlRun (m : MCmd) (s : State) (p : Nat) (sc : Mem) (x : Matrix) : Matrix × EFail :=
  let o := mmlOp m.ops
  match m.startTag x with
  | .error _ => (x.spoil o.tile, none)
  | .ok (fmt, geom) =>
    let r := (List.range o.steps).foldl (fun (y : Matrix × EFail × Bool) k =>
      match m.aTile s p sc k with
      | .ok a => (m.stepTile fmt geom k a y.1, y.2.1, y.2.2)
      | .error f => (y.1, y.2.1.or f, true)) (x, none, false)
    if r.2.2 then (x.spoil o.tile, r.2.1) else (r.1, none)

/-- The bytes that MML credits (R215). -/
def MCmd.mmlCredit (m : MCmd) : Option (Nat × Nat) :=
  let o := mmlOp m.ops
  if o.bbe then some (o.bb, 2048 * elemSize m.mod * o.steps) else none

/-! ### ACCZ, ACCRD and ACCST (R218, R219) -/

/-- The checks of ACCZ. -/
def checkAccz (u : Iss) (_tm : Team) (ops : List Word) (s : State) : Except GFail MCmd × State :=
  match u.failIf (decide (2 ^ 16 ≤ wordAt ops 0)) 1 (wordAt ops 0) with
  | some e => (.error e, s)
  | none => (.ok (u.cmd 0x03 0 ops), s)

def execAccz (c : Ctl) (a : Reg) (s : State) : Host.Outcome State Fault Refusal :=
  s.issueGroup c false [.one a] (fun u tm ops s => u.queueCmd tm false (checkAccz u tm ops) s)

def acczRun (m : MCmd) (x : Matrix) : Matrix :=
  { x with acc := x.acc.filter (fun e => !(m.ops.getD 0 0).getLsbD (e.1 / 4096)) }

/-- The row of ACCRD at a lane of the visible index (R218). -/
def accRow (v l : Nat) : Nat := v % 64 + l

/-- ACCRD's result at every lane of the entry is on its way; a lane whose row lies beyond the tile gets none. -/
def Iss.accPending (u : Iss) (d : Reg) (n v : Nat) (s : State) : State :=
  u.lanes.foldl (fun s l => s.modThread u.pkg u.ctx u.group l (fun t =>
    let t := { t with defCount := t.defCount + 1 }
    if accRow v (u.visLane s l) < 64 then
      { t with wait := some 0, pend := t.pend ++ [⟨d.toNat, false, n, [], false, 0, u.pc, false, t.undo, none⟩] }
    else t)) s

/-- The checks of ACCRD. -/
def checkAccrd (n : BitVec 3) (u : Iss) (_tm : Team) (ops : List Word) (s : State) : Except GFail MCmd × State :=
  let v := wordAt ops 0
  match firstFail [u.failIf (v &&& 0xFFF0C0C0 != 0) 1 v, u.failIf (decide (64 < v / 2 ^ 8 % 64 + 2 ^ n.toNat)) 4 v] with
  | some e => (.error e, s)
  | none => (.ok (u.cmd 0x04 n.toNat ops), s)

def execAccrd (c : Ctl) (n : BitVec 3) (d a : Reg) (s : State) : Host.Outcome State Fault Refusal :=
  s.issueGroup c true [.one a] (fun u tm ops s =>
    let v := wordAt ops 0
    let r := u.queueCmd tm false (checkAccrd n u tm ops) s
    if r.1 = .done then (.done, u.accPending d (2 ^ n.toNat) v r.2) else r)

/-- ACCRD's results return (R218). -/
def accrdRun (m : MCmd) (p c : Nat) (x : Matrix) (t : Team) (s : State) : State :=
  let v := m.word 0
  (t.liveVis m.group).foldl (fun s l =>
    if accRow v l < 64 then s.endWait p c m.group l ((List.range (2 ^ m.mod)).map (fun k =>
      (BitVec.ofNat 32 (x.entry (v / 2 ^ 16 % 16) (accRow v l) (v / 2 ^ 8 % 64 + k)), false)))
    else s) s

/-- MOD of ACCST (R207). -/
def accstMod (fmt : StFmt) (rm : Rm) (int : Bool) : Nat := fmt.code.toNat * 16 + rm.code.toNat * 4 + (if int then 2 else 0)

/-- The checks of ACCST. -/
def checkAccst (fmt : StFmt) (rm : Rm) (int : Bool) (u : Iss) (tm : Team) (ops : List Word) (s : State) : Except GFail MCmd × State :=
  let off := wordAt ops 0
  let sh := wordAt ops 1
  let bb := wordAt ops 2
  let pitch := sh % 2 ^ 16
  let z := elemSize fmt.code.toNat
  match firstFail [u.failIf (decide (2 ^ 20 ≤ sh)) 1 sh, u.failIf (decide (2 ^ 8 ≤ bb) || bb / 32 % 4 != 0) 1 bb,
      u.failIf (off % 16 != 0) 3 off, u.failIf (pitch % 16 != 0) 3 sh, u.failIf (decide (pitch < 64 * z)) 4 sh,
      u.bbFail tm (bb / 2 ^ 7 % 2 == 1) (bb % 32) bb, u.scratchFail tm off (63 * pitch + 64 * z)] with
  | some e => (.error e, s)
  | none => (.ok (u.cmd 0x05 (accstMod fmt rm int) ops), s)

def execAccst (c : Ctl) (fmt : StFmt) (rm : Rm) (int : Bool) (a b e : Reg) (s : State) : Host.Outcome State Fault Refusal :=
  s.issueGroup c false [.one a, .one b, .one e] (fun u tm ops s => u.queueCmd tm false (checkAccst fmt rm int u tm ops) s)

/-- ACCST writes its rows. -/
def accstRun (m : MCmd) (x : Matrix) (sc : Mem) : Mem :=
  let fmt := m.mod / 16
  (List.range 64).foldl (fun sc r => sc.put (m.word 0 + r * (m.word 1 % 2 ^ 16))
    ((List.range 64).flatMap (fun n => leBytes (elemSize fmt)
      (accConv fmt (Rm.ofCode (BitVec.ofNat 2 (m.mod / 4))) (m.mod / 2 % 2 == 1) (x.entry (m.word 1 / 2 ^ 16 % 16) r n))))) sc
def accstCredit (m : MCmd) : Option (Nat × Nat) :=
  if m.word 2 / 2 ^ 7 % 2 = 1 then some (m.word 2 % 32, 4096 * elemSize (m.mod / 16)) else none

/-! ### The head runs -/

/-- A matrix command that has started completes (R212). -/
def State.runMatrix (s : State) (p c : Nat) (odd : Bool) (t : Team) (m : MCmd) : State :=
  let e := t.eng odd
  let sc := t.scr odd
  let put (s : State) (x : Matrix) (f : EFail) : State :=
    (s.modTeam p c (fun t => t.setEng odd { t.eng odd with mat := x })).modHead p c odd (fun m => m.failWith f)
  match m.op with
  | 0 => let r := wbldRun s p m e.mat
         (put (s.needRuns p m (wbldReads m)) r.1 r.2).endHead p c odd none
  | 1 | 2 => let r := m.mmlRun s p sc e.mat
             (put (s.needRuns p m m.aReads) r.1 r.2).endHead p c odd m.mmlCredit
  | 3 => (put s (acczRun m e.mat) none).endHead p c odd none
  | 4 => (accrdRun m p c e.mat t s).endHead p c odd none
  | _ => (s.modTeam p c (fun t => t.setScr odd (accstRun m e.mat (t.scr odd)))).endHead p c odd (accstCredit m)

/-- The start of MML and MMLG: a failed check ends the command (R216). -/
def State.startMml (s : State) (p c : Nat) (odd : Bool) (t : Team) (m : MCmd) : State :=
  let e := t.eng odd
  match m.startTag e.mat with
  | .ok _ => s
  | .error r =>
    let s := s.modTeam p c (fun t => t.setEng odd { t.eng odd with mat := e.mat.spoil (mmlOp m.ops).tile })
    let s := s.engineFault p t m.group m.pc 0x17 [(40, leBytes 1 r)]
    s.endHead p c odd m.mmlCredit

end Sys2Proof.Machine
end

