-- ==== Sys2Proof/Machine/Sfu.lean ====
section
/-! DEFINITION. Class 2: nine functions of FP32, each the exact value rounded once (R158 to R160). An algebraic value is brought to
enough bits with a sticky bit below them; a transcendental one is enclosed between two binary fractions of growing precision until
both round alike. -/

namespace Sys2Proof

/-- A magnitude with its sticky bit one place below: 2m, or 2m + 1 when the exact value lies above m. -/
def sticky (m : Nat) (more : Bool) : Nat := 2 * m + (if more then 1 else 0)

/-- The quotient of two finite nonzero magnitudes, rounded. -/
def roundDiv (rm : Rm) (neg : Bool) (m : Nat) (e : Int) (n : Nat) (g : Int) : Nat × BitVec 5 :=
  let a := m * 2 ^ 64
  fp32.round rm neg (sticky (a / n) (a % n != 0)) (e - g - 65)

/-- The integer square root, one bit after another from bit k - 1 down. -/
def isqrtFrom (n : Nat) : Nat → Nat → Nat
  | 0, r => r
  | k + 1, r => if (r + 2 ^ k) * (r + 2 ^ k) ≤ n then isqrtFrom n k (r + 2 ^ k) else isqrtFrom n k r
def isqrt (n : Nat) : Nat := isqrtFrom n (Nat.log2 n / 2 + 1) 0

/-- A magnitude with an even exponent. -/
def evenExp (m : Nat) (e : Int) : Nat × Int := if e % 2 = 0 then (m, e) else (2 * m, e - 1)

/-! ### Enclosures: pairs (lo, hi) of numerators over 2^p with lo below the value and hi above it -/

abbrev Encl : Type := Nat × Nat

def Encl.mul (p : Nat) (x y : Encl) : Encl := (x.1 * y.1 / 2 ^ p, x.2 * y.2 / 2 ^ p + 1)
def Encl.div (p : Nat) (x y : Encl) : Encl := (x.1 * 2 ^ p / y.2, x.2 * 2 ^ p / y.1 + 1)
def Encl.divNat (x : Encl) (n : Nat) : Encl := (x.1 / n, x.2 / n + 1)
def Encl.add (x y : Encl) : Encl := (x.1 + y.1, x.2 + y.2)
def Encl.sub (x y : Encl) : Encl := (x.1 - y.2, x.2 - y.1)
/-- The rational m × 2^e / n. -/
def Encl.rat (p m : Nat) (e : Int) (n : Nat) : Encl :=
  let k := e + (p : Int)
  if 0 ≤ k then (m * 2 ^ k.toNat / n, m * 2 ^ k.toNat / n + 1) else (m / (n * 2 ^ (-k).toNat), m / (n * 2 ^ (-k).toNat) + 1)

/-- Terms x^k / k! from term `t` = x^(k - 1) / (k - 1)! on, `n` of them; the rest of the series is below twice the last. -/
def expTerms (p : Nat) (x : Encl) : Nat → Nat → Encl → Encl
  | 0, _, t => (0, 2 * t.2 + 1)
  | n + 1, k, t => let u := (Encl.mul p t x).divNat k
                   u.add (expTerms p x n (k + 1) u)
/-- e^x for 0 ≤ x ≤ 1. -/
def Encl.exp (p : Nat) (x : Encl) : Encl := Encl.add (2 ^ p, 2 ^ p) (expTerms p x (p / 4 + 16) 1 (2 ^ p, 2 ^ p))

/-- Terms z^(2k+1) / (2k+1) with `t` = z^(2k+1), z ≤ 1/3; the rest is below the last power. -/
def atanhTerms (p : Nat) (z2 : Encl) : Nat → Nat → Encl → Encl
  | 0, _, t => (0, 2 * t.2 + 1)
  | n + 1, k, t => (t.divNat (2 * k + 1)).add (atanhTerms p z2 n (k + 1) (Encl.mul p t z2))
/-- atanh z for 0 ≤ z ≤ 1/3. -/
def Encl.atanh (p : Nat) (z : Encl) : Encl := atanhTerms p (Encl.mul p z z) (p / 3 + 8) 0 z
/-- ln 2 = 2 atanh (1/3). -/
def ln2 (p : Nat) : Encl := let a := Encl.atanh p (Encl.rat p 1 0 3)
                            a.add a

/-- The even and the odd terms of an alternating series, apart: the sum is the first less the second. -/
def altTerms (step : Nat → Encl → Encl) (coef : Nat → Encl → Encl) : Nat → Nat → Encl → Encl × Encl
  | 0, _, t => ((0, 2 * t.2 + 1), (0, 2 * t.2 + 1))
  | n + 1, k, t =>
    let r := altTerms step coef n (k + 1) (step k t)
    if k % 2 = 0 then ((coef k t).add r.1, r.2) else (r.1, (coef k t).add r.2)
/-- atan (1/q) for q ≥ 5. -/
def atanInv (p q : Nat) : Encl :=
  let r := altTerms (fun _ t => t.divNat (q * q)) (fun k t => t.divNat (2 * k + 1)) (p / 4 + 8) 0 (Encl.rat p 1 0 q)
  r.1.sub r.2
/-- π = 16 atan (1/5) - 4 atan (1/239). -/
def piEncl (p : Nat) : Encl :=
  let a := atanInv p 5
  let b := atanInv p 239
  Encl.sub (16 * a.1, 16 * a.2) (4 * b.1, 4 * b.2)
/-- sin y for 0 ≤ y ≤ π/2. -/
def Encl.sin (p : Nat) (y : Encl) : Encl :=
  let y2 := Encl.mul p y y
  let r := altTerms (fun k t => (Encl.mul p t y2).divNat ((2 * k + 2) * (2 * k + 3))) (fun _ t => t) (p / 8 + 16) 0 y
  r.1.sub r.2

/-- `n` squarings. -/
def Encl.squareN (p : Nat) : Nat → Encl → Encl
  | 0, x => x
  | n + 1, x => Encl.squareN p n (Encl.mul p x x)

/-- An irrational value rounded: at precisions 192, 384, 768, … up to `fuel` doublings, until both ends of its enclosure round
alike. -/
def roundEncl (rm : Rm) (f : Nat → Bool × Encl × Int) : Nat → Nat → Nat × BitVec 5
  | 0, _ => (fp32.nan, 0)
  | fuel + 1, p =>
    let (neg, x, e) := f p
    let a := fp32.round rm neg (2 * x.1 + 1) (e - 1)
    let b := fp32.round rm neg (2 * x.2 - 1) (e - 1)
    if a = b then a else roundEncl rm f fuel (2 * p)

def roundReal (rm : Rm) (f : Nat → Bool × Encl × Int) : Nat × BitVec 5 := roundEncl rm f 6 192

/-! ### The functions of a code (R158, R159) -/

/-- The NaN result of an operand that is NaN. -/
def sfuNan (s : Bool) : Nat × BitVec 5 := (fp32.nan, flagIf s flagIV)
def sfuInvalid : Nat × BitVec 5 := (fp32.nan, flagIV)

def frcp1 (rm : Rm) (a : Nat) : Nat × BitVec 5 :=
  match fp32.val a with
  | .nan s => sfuNan s
  | .inf neg => (fp32.zero neg, 0)
  | .fin neg m e => if m = 0 then (fp32.inf neg, flagDZ) else roundDiv rm neg 1 0 m e

def frsq1 (rm : Rm) (a : Nat) : Nat × BitVec 5 :=
  match fp32.val a with
  | .nan s => sfuNan s
  | .inf neg => if neg then sfuInvalid else (fp32.zero false, 0)
  | .fin neg m e =>
    if m = 0 then (fp32.inf neg, 0)
    else if neg then sfuInvalid
    else
      let (m, e) := evenExp m e
      let r := isqrt (2 ^ 128 / m)
      fp32.round rm false (sticky r (r * r * m != 2 ^ 128)) (-(e / 2) - 65)

def fsqrt1 (rm : Rm) (a : Nat) : Nat × BitVec 5 :=
  match fp32.val a with
  | .nan s => sfuNan s
  | .inf neg => if neg then sfuInvalid else (fp32.inf false, 0)
  | .fin neg m e =>
    if m = 0 then (fp32.zero neg, 0)
    else if neg then sfuInvalid
    else
      let (m, e) := evenExp m e
      let n := m * 2 ^ 80
      let r := isqrt n
      fp32.round rm false (sticky r (r * r != n)) (e / 2 - 41)

def fdiv1 (rm : Rm) (a b : Nat) : Nat × BitVec 5 :=
  match fp32.val a, fp32.val b with
  | .nan s, y => (fp32.nan, flagIf (s || y.isSnan) flagIV)
  | .inf _, .nan s => sfuNan s
  | .inf _, .inf _ => sfuInvalid
  | .inf p, .fin q _ _ => (fp32.inf (p != q), 0)
  | .fin .., .nan s => sfuNan s
  | .fin p _ _, .inf q => (fp32.zero (p != q), 0)
  | .fin p m e, .fin q n g =>
    if n = 0 then (if m = 0 then sfuInvalid else (fp32.inf (p != q), flagDZ))
    else if m = 0 then (fp32.zero (p != q), 0)
    else roundDiv rm (p != q) m e n g

/-- 2^(k + j / 2^n), 0 < j < 2^n. -/
def exp2Real (rm : Rm) (k : Int) (j n : Nat) : Nat × BitVec 5 :=
  roundReal rm (fun p => (false, Encl.exp p (Encl.mul p (ln2 p) (Encl.rat p j (-(n : Int)) 1)), k - (p : Int)))

def fexp21 (rm : Rm) (a : Nat) : Nat × BitVec 5 :=
  match fp32.val a with
  | .nan s => sfuNan s
  | .inf neg => if neg then (fp32.zero false, 0) else (fp32.inf false, 0)
  | .fin neg m e =>
    if 0 ≤ e then
      -- a is integral, of magnitude at least 2^23 or 0
      if m = 0 then (fp32.one, 0) else fp32.round rm false 1 (if neg then -1000 else 1000)
    else
      let n := (-e).toNat
      let x := sgn neg m
      let k := Int.fdiv x (2 ^ n)
      let j := (x - k * 2 ^ n).toNat
      if j = 0 then fp32.round rm false 1 (max (-1000) (min 1000 k))
      else if 1000 < k then fp32.round rm false 1 1000
      else if k < -1000 then fp32.round rm false 3 (-1000)
      else exp2Real rm k j n

/-- log2 of m × 2^e, m a power of two no more than once: m = 2^h × (1 + f). -/
def log2Real (rm : Rm) (m : Nat) (e : Int) : Nat × BitVec 5 :=
  let h := Nat.log2 m
  let k : Int := e + h
  roundReal rm (fun p =>
    -- ln (1 + f) = 2 atanh ((m - 2^h) / (m + 2^h)), as a fraction of ln 2
    let l := Encl.atanh p (Encl.rat p (m - 2 ^ h) 0 (m + 2 ^ h))
    let g := Encl.div p (l.add l) (ln2 p)
    if 0 ≤ k then (false, Encl.add (k.toNat * 2 ^ p, k.toNat * 2 ^ p) g, -(p : Int))
    else (true, Encl.sub (k.natAbs * 2 ^ p, k.natAbs * 2 ^ p) g, -(p : Int)))

def flog21 (rm : Rm) (a : Nat) : Nat × BitVec 5 :=
  match fp32.val a with
  | .nan s => sfuNan s
  | .inf neg => if neg then sfuInvalid else (fp32.inf false, 0)
  | .fin neg m e =>
    if m = 0 then (fp32.inf true, flagDZ)
    else if neg then sfuInvalid
    else if m = 2 ^ Nat.log2 m then fp32.ofInt rm (e + Nat.log2 m)
    else log2Real rm m e

/-- sin (π × num / 2^n) for 0 ≤ num / 2^n < 2, as sign and magnitude of an angle in [0, 1/2]. -/
def sinReal (rm : Rm) (neg : Bool) (num n : Nat) : Nat × BitVec 5 :=
  let half := 2 ^ n
  let (flip, r) := if half ≤ num then (true, num - half) else (false, num)
  let r := if half < 2 * r then half - r else r
  let sign := neg != flip
  if r = 0 then (fp32.zero sign, 0)
  else if 2 * r = half then fp32.round rm sign 1 0
  else roundReal rm (fun p => (sign, Encl.sin p (Encl.mul p (piEncl p) (Encl.rat p r (-(n : Int)) 1)), -(p : Int)))

def fsinpi1 (rm : Rm) (a : Nat) : Nat × BitVec 5 :=
  match fp32.val a with
  | .nan s => sfuNan s
  | .inf _ => sfuInvalid
  | .fin neg m e =>
    if m = 0 then (fp32.zero neg, 0)
    else if 0 ≤ e then (fp32.zero neg, 0)
    else
      let n := (-e).toNat
      -- an integer gives the zero of its own sign (R159)
      if m % 2 ^ n = 0 then (fp32.zero neg, 0) else sinReal rm neg (m % 2 ^ (n + 1)) n

/-- cos (π x) = sin (π (x + 1/2)). -/
def fcospi1 (rm : Rm) (a : Nat) : Nat × BitVec 5 :=
  match fp32.val a with
  | .nan s => sfuNan s
  | .inf _ => sfuInvalid
  | .fin _ m e =>
    if 0 ≤ e then fp32.round rm (e == 0 && m % 2 == 1) 1 0
    else
      let n := (-e).toNat
      let num := (m + 2 ^ (n - 1)) % 2 ^ (n + 1)
      -- n + 1/2 gives +0 (R159)
      if num % 2 ^ n = 0 then (fp32.zero false, 0) else sinReal rm false num n

/-- tanh x = (X - 1) / (X + 1), X = e^(2x): e^(2x / 2^7) squared seven times. -/
def tanhReal (rm : Rm) (neg : Bool) (m : Nat) (e : Int) : Nat × BitVec 5 :=
  roundReal rm (fun p =>
    let g := p + 256
    let x := Encl.squareN g 7 (Encl.exp g (Encl.rat g m (e - 6) 1))
    let one : Encl := (2 ^ g, 2 ^ g)
    (neg, Encl.div g (x.sub one) (x.add one), -(g : Int)))

def ftanh1 (rm : Rm) (a : Nat) : Nat × BitVec 5 :=
  match fp32.val a with
  | .nan s => sfuNan s
  | .inf neg => (fp32.one + fp32.sign neg, 0)
  | .fin neg m e =>
    if m = 0 then (fp32.zero neg, 0)
    -- from 32 on tanh lies between 1 - 2^-90 and 1
    else if 2 ^ 5 ≤ m * 2 ^ (max 0 e).toNat / 2 ^ (max 0 (-e)).toNat then fp32.round rm neg (2 ^ 90 - 1) (-90)
    else tanhReal rm neg m e

end Sys2Proof

namespace Sys2Proof.Machine

/-- The meaning of a function of one FP32 operand. -/
def execSfu1 (c : Ctl) (f : Nat → Nat × BitVec 5) (d a : Reg) (s : State) : Host.Outcome State Fault Refusal :=
  s.deferred c d [.one a] (fun t => ([BitVec.ofNat 32 (f (t.reg a).toNat).1], (f (t.reg a).toNat).2))

def execFrcp (c : Ctl) (rm : Rm) (d a : Reg) (s : State) : Host.Outcome State Fault Refusal := execSfu1 c (frcp1 rm) d a s
def execFrsq (c : Ctl) (rm : Rm) (d a : Reg) (s : State) : Host.Outcome State Fault Refusal := execSfu1 c (frsq1 rm) d a s
def execFsqrt (c : Ctl) (rm : Rm) (d a : Reg) (s : State) : Host.Outcome State Fault Refusal := execSfu1 c (fsqrt1 rm) d a s
def execFdiv (c : Ctl) (rm : Rm) (d a b : Reg) (s : State) : Host.Outcome State Fault Refusal :=
  s.deferred c d [.one a, .one b] (fun t =>
    ([BitVec.ofNat 32 (fdiv1 rm (t.reg a).toNat (t.reg b).toNat).1], (fdiv1 rm (t.reg a).toNat (t.reg b).toNat).2))
def execFexp2 (c : Ctl) (rm : Rm) (d a : Reg) (s : State) : Host.Outcome State Fault Refusal := execSfu1 c (fexp21 rm) d a s
def execFlog2 (c : Ctl) (rm : Rm) (d a : Reg) (s : State) : Host.Outcome State Fault Refusal := execSfu1 c (flog21 rm) d a s
def execFsinpi (c : Ctl) (rm : Rm) (d a : Reg) (s : State) : Host.Outcome State Fault Refusal := execSfu1 c (fsinpi1 rm) d a s
def execFcospi (c : Ctl) (rm : Rm) (d a : Reg) (s : State) : Host.Outcome State Fault Refusal := execSfu1 c (fcospi1 rm) d a s
def execFtanh (c : Ctl) (rm : Rm) (d a : Reg) (s : State) : Host.Outcome State Fault Refusal := execSfu1 c (ftanh1 rm) d a s

end Sys2Proof.Machine
end

