-- ==== Sys2Proof/Machine/Vocab.lean ====
section
/-! DEFINITION. The vocabulary commands VPJINIT to VSMAX (R236 to R256): state blocks, the ranked heap, the normaliser, HEAPSPILL,
and the matrix queue's events. -/

namespace Sys2Proof

/-! ### FP32 arithmetic of the engine, every result under RNE -/

def f32add (a b : Nat) : Nat := (fp32.addVal .rne (fp32.val a) (fp32.val b)).1
def f32sub (a b : Nat) : Nat := (fp32.addVal .rne (fp32.val a) (fp32.val b).negate).1
def f32mul (a b : Nat) : Nat := (fp32.mulVal .rne (fp32.val a) (fp32.val b)).1
def f32max (a b : Nat) : Nat := (fp32.minMax false a b).1
/-- Exp2CR and Log2CR: FEXP2 and FLOG2 under RNE (R245, R250). -/
def exp2cr (a : Nat) : Nat := (fexp21 .rne a).1
def log2cr (a : Nat) : Nat := (flog21 .rne a).1

/-- The canonical NaN, −∞ and +∞. -/
def f32nan : Nat := 0x7FC00000
def f32ninf : Nat := 0xFF800000
def f32inf : Nat := 0x7F800000

/-- RoundNE32(a × log2 e / d) for a finite positive d: the exact real number, rounded once. -/
def mulLog2e (a : Nat) (d : FVal) : Nat :=
  match fp32.val a, d with
  | .fin neg m e, .fin _ n g =>
    if m = 0 then fp32.zero neg
    else (roundReal .rne (fun p => (neg, (Encl.div p (m * 2 ^ p, m * 2 ^ p) (ln2 p)).divNat n, e - g - (p : Int)))).1
  | .inf neg, _ => fp32.inf neg
  | _, _ => fp32.nan
/-- RoundNE32(a × ln 2). -/
def mulLn2 (a : Nat) : Nat :=
  match fp32.val a with
  | .fin neg m e =>
    if m = 0 then fp32.zero neg
    else (roundReal .rne (fun p => (neg, Encl.mul p (m * 2 ^ p, m * 2 ^ p) (ln2 p), e - (p : Int)))).1
  | .inf neg => fp32.inf neg
  | .nan _ => fp32.nan

/-- 1. -/
def fvalOne : FVal := .fin false 1 0
/-- t of a logit (R241). -/
def logitT (z : Nat) : Nat := mulLog2e z fvalOne
/-- A logit is invalid (R241). -/
def logitBad (z : Nat) : Bool := (fp32.val z).isNan || z == f32inf || logitT z == f32inf

/-! ### State blocks (R238, R239) -/

/-- A row's state block. -/
structure VRow where
  m : Nat
  s : Nat
  k : Nat
  cnt : Nat
  invalid : Bool
  spilled : Bool
  fin : Bool
  lost : Bool
  labv : Nat
  flz : Nat
  fli : Nat
  l2 : Nat
  lse : Nat
  lab : List Nat
  lz : List Nat
  heap : List (Nat × Nat)
  deriving DecidableEq, Repr

/-- Word `k` of a block. -/
def blkWord (b : List Byte) (k : Nat) : Nat := leNat ((b.drop (4 * k)).take 4)

/-- The fields of a block of 576 bytes. -/
def VRow.ofBytes (b : List Byte) : VRow :=
  let w := blkWord b
  { m := w 0, s := w 1, k := w 2 % 2 ^ 13, cnt := w 2 / 2 ^ 16 % 2 ^ 13, invalid := w 3 % 2 == 1, spilled := w 3 / 2 % 2 == 1,
    fin := w 3 / 4 % 2 == 1, lost := w 3 / 8 % 2 == 1, labv := w 3 / 16 % 16, flz := w 4, fli := w 5, l2 := w 6, lse := w 7,
    lab := (List.range 4).map (fun j => w (8 + j)), lz := (List.range 4).map (fun j => w (12 + j)),
    heap := (List.range 64).map (fun i => (w (16 + 2 * i), w (17 + 2 * i))) }

def bit (b : Bool) : Nat := if b then 1 else 0

/-- The bytes of a block; its reserved bits are 0. -/
def VRow.bytes (r : VRow) : List Byte :=
  ([r.m, r.s, r.k + 2 ^ 16 * r.cnt, bit r.invalid + 2 * bit r.spilled + 4 * bit r.fin + 8 * bit r.lost + 16 * r.labv, r.flz, r.fli,
    r.l2, r.lse] ++ r.lab ++ r.lz ++ r.heap.flatMap (fun e => [e.1, e.2])).flatMap (leBytes 4)

/-- The masks of a header word's fields that are marked RO, or are reserved (R239): M, S, K with its neighbours, and the flags with LABV. -/
def roFields : Nat → List Nat
  | 0 | 1 => [0xFFFFFFFF]
  | 2 => [0x1FFF, 0xE000, 0xE0000000]
  | _ => [1, 2, 4, 8, 0xF0, 0xFFFFFF00]

/-- Word `k` of a header as a command that has it at work reads it: CNT from the block, the other fields as the command has read or written
them last (R239). -/
def headerIn (ro b : List Byte) (k : Nat) : Nat :=
  if k = 2 then (blkWord ro 2 &&& 0xE000FFFF) ||| (blkWord b 2 &&& 0x1FFF0000) else blkWord ro k
/-- Word `k` of a header written by such a command: a field marked RO that software has changed meanwhile stays as it was written, for the
next command to read (R239). -/
def headerOut (ro b new : List Byte) (k : Nat) : Nat :=
  (roFields k).foldl (fun w f => w ||| (if blkWord b k &&& f = blkWord ro k &&& f then blkWord new k &&& f else blkWord b k &&& f))
    (if k = 2 then blkWord new 2 &&& 0x1FFF0000 else 0)
/-- Four words as bytes. -/
def headerBytes (f : Nat → Nat) : List Byte := (List.range 4).flatMap (fun k => leBytes 4 (f k))

/-- The start check (R239): a reserved bit set, or K or CNT out of range. -/
def blockBad (b : List Byte) : Bool :=
  let r := VRow.ofBytes b
  blkWord b 2 / 2 ^ 13 % 8 != 0 || decide (2 ^ 29 ≤ blkWord b 2) || decide (2 ^ 8 ≤ blkWord b 3) || r.k == 0 || decide (4096 < r.k) ||
    decide (r.k < r.cnt)

/-- What VPJINIT sets (R239). -/
def VRow.init (k : Nat) (lab : List Nat) : VRow :=
  { m := f32ninf, s := 0, k := k, cnt := 0, invalid := false, spilled := false, fin := false, lost := false, labv := 0, flz := 0,
    fli := 0, l2 := f32nan, lse := f32nan, lab := lab, lz := List.replicate 4 f32nan,
    heap := List.replicate 64 (f32ninf, 0xFFFFFFFF) }

/-- L2 and LSE are not current. -/
def VRow.unfinish (r : VRow) : VRow := { r with fin := false, l2 := f32nan, lse := f32nan }

/-! ### The heap (R240, R244) -/

/-- Candidate x ranks before candidate y. -/
def ranksBefore (x y : Nat × Nat) : Bool :=
  match (fp32.val x.1).cmp (fp32.val y.1) with
  | .gt => true
  | .eq => decide (x.2 < y.2)
  | .lt => false
/-- A candidate placed in rank order. -/
def placeRank (x : Nat × Nat) : List (Nat × Nat) → List (Nat × Nat)
  | [] => [x]
  | y :: ys => if ranksBefore x y then x :: y :: ys else y :: placeRank x ys

/-- Insert (R244): the row, and the candidate to hand out with HEAPSPILL. `masked` says that a lane of the group has traps masked. -/
def VRow.insert (r : VRow) (masked : Bool) (x : Nat × Nat) : VRow × Option (Nat × Nat) :=
  let h := min r.k 64
  let n := min r.cnt h
  let rest := r.heap.drop
  if n < h then ({ r with heap := placeRank x (r.heap.take n) ++ rest (n + 1), cnt := r.cnt + 1 }, none)
  else
    let last := r.heap.getD (h - 1) (0, 0)
    let (y, heap) : (Nat × Nat) × List (Nat × Nat) :=
      if ranksBefore last x then (x, r.heap) else (last, placeRank x (r.heap.take (h - 1)) ++ rest h)
    let r : VRow := { r with heap := heap }
    if r.k ≤ 64 then (r, none)
    else if r.cnt = r.k ∧ !ranksBefore y (r.flz, r.fli) then (r, none)
    else if masked then ({ r with lost := true }, none)
    else ({ r with spilled := true }, some y)

/-- The capture of label logits (R243). -/
def VRow.capture (r : VRow) (idx z : Nat) : VRow :=
  (List.range 4).foldl (fun r j =>
    if r.lab.getD j 0 = idx ∧ r.labv / 2 ^ j % 2 = 0 then { r with lz := r.lz.set j z, labv := r.labv + 2 ^ j } else r) r

/-- A logit enters a row (R241, R243, R244): the row, its t if valid, and the candidate to hand out. -/
def VRow.take (r : VRow) (masked : Bool) (idx z : Nat) : VRow × Option Word × Option (Nat × Nat) :=
  let r := r.capture idx z
  if logitBad z then ({ r with invalid := true }, none, none)
  else if z = f32ninf then (r, some (BitVec.ofNat 32 f32ninf), none)
  else
    let (r, y) := r.insert masked (z, idx)
    (r, some (BitVec.ofNat 32 (logitT z)), y)

/-! ### The normaliser (R245) -/

/-- One chunk folded into M and S; an invalid logit is none. -/
def foldChunk (m s : Nat) (ts : List (Option Word)) : Nat × Nat :=
  let m' := ts.foldl (fun m t => match t with
    | some t => f32max m t.toNat
    | none => m) m
  if m' = f32ninf then (m, s)
  else
    let leaf (i : Nat) : Nat := match ts.getD i none with
      | some t => exp2cr (f32sub t.toNat m')
      | none => 0
    let c := (treeNode (fun a b => (f32add a b, 0)) leaf 5 0).1
    (m', (fp32.fmaVal .rne (fp32.val s) (fp32.val (exp2cr (f32sub m m'))) (fp32.val c)).1)
def VRow.fold (r : VRow) (ts : List (Option Word)) : VRow :=
  { r with m := (foldChunk r.m r.s ts).1, s := (foldChunk r.m r.s ts).2 }

/-- L2 and LSE (R250). -/
def finish (invalid : Bool) (m s : Nat) : Nat × Nat :=
  if invalid then (f32nan, f32nan)
  else if s = 0 then (f32ninf, f32ninf)
  else (f32add m (log2cr s), mulLn2 (f32add m (log2cr s)))

/-- A logit (R243): the fold of R52 over the products of a hidden row and a shard row, scaled. -/
def logit (scale : Nat) (h w : List FVal) : Nat := f32mul (matrixSum 0 (List.zipWith FVal.mul h w)) scale

/-- VPJMRG of a row, before its candidates (R248). -/
def VRow.merge (a b : VRow) : VRow :=
  let m' := f32max a.m b.m
  let part (x : VRow) : Nat := f32mul x.s (exp2cr (f32sub x.m m'))
  let a : VRow := if m' = f32ninf then a else { a with s := f32add (part a) (part b), m := m' }
  let a := (List.range 4).foldl (fun (a : VRow) j =>
    if b.labv / 2 ^ j % 2 = 1 ∧ a.labv / 2 ^ j % 2 = 0 then { a with lz := a.lz.set j (b.lz.getD j 0), labv := a.labv + 2 ^ j }
    else a) a
  { a with invalid := a.invalid || b.invalid, lost := a.lost || b.lost }

/-! ### VSAMP (R252) -/

/-- c[0], c[1], … over the heap's logits. -/
def sampSums (temp : FVal) (z0 : Nat) : Nat → List Nat → List Nat
  | _, [] => []
  | c, z :: zs =>
    let d := f32add c (exp2cr (mulLog2e (f32sub z z0) temp))
    d :: sampSums temp z0 d zs

/-- The pick among the heap's first entries. -/
def sampPick (temp topp : Nat) (x : Word) (zs : List Nat) : Nat :=
  if temp = 0 then 0
  else
    let c := fp32.one :: sampSums (fp32.val temp) (zs.getD 0 0) fp32.one zs.tail
    let last := c.getD (c.length - 1) 0
    let lim := f32mul topp last
    let n := 1 + (c.findIdx? (fun v => (fp32.val v).cmp (fp32.val lim) != .lt)).getD (c.length - 1)
    let target := match fp32.val (c.getD (n - 1) 0) with
      | .fin _ m e => (fp32.round .rne false (x.toNat / 2 ^ 8 * m) (e - 24)).1
      | _ => last
    ((c.take n).findIdx? (fun v => (fp32.val v).cmp (fp32.val target) == .gt)).getD (n - 1)

end Sys2Proof

namespace Sys2Proof.Machine

/-! ### Checks at issue (R236, R237, R242, R251) -/

/-- A control register: bits beyond BB, BBE and `mask` are reserved (R236). -/
def Iss.ctlFail (u : Iss) (tm : Team) (v mask : Nat) : List (Option GFail) :=
  [u.failIf (v % 2 ^ 26 &&& (2 ^ 26 - 1 - mask) != 0) 1 v, u.bbFail tm (v / 2 ^ 31 == 1) (v / 2 ^ 26 % 32) v]
/-- The credit of a control register (R237). -/
def ctlCredit (v : Nat) : Option (Nat × Nat) := if v / 2 ^ 31 = 1 then some (v / 2 ^ 26 % 32, 64) else none
/-- State blocks: alignment and range (R237, R238). -/
def Iss.blocksFail (u : Iss) (tm : Team) (off rows : Nat) : List (Option GFail) :=
  [u.failIf (off % 64 != 0) 3 off, u.scratchFail tm off (576 * rows)]

/-- The checks of a vocabulary command in ascending order of reason, PERM last. -/
def vocabFail (fs : List (Option GFail)) : Option GFail :=
  let key (f : GFail) : Nat := match f with
    | .trap t => if t.code = 0x17 then ((t.info.getD 0).setWidth 8).toNat else 0x100
    | .page .. => 0x101
  (fs.filterMap id).foldl (fun (b : Option GFail) f => match b with
    | none => some f
    | some g => if key f < key g then some f else some g) none

/-- The checks of VPJINIT. -/
def checkVpjinit (e : Reg) (u : Iss) (tm : Team) (ops : List Word) (s : State) : Except GFail MCmd × State :=
  let so := wordAt ops 0
  let v := wordAt ops 1
  let lo := wordAt ops 2
  let k := v % 2 ^ 13
  let rows := v / 2 ^ 16 % 64 + 1
  let labe := v / 2 ^ 24 % 2 == 1
  match vocabFail (u.ctlFail tm v 0x013F1FFF ++ u.blocksFail tm so rows ++
      [u.failIf (k == 0 || decide (4096 < k) || (!labe && e != 0)) 1 v] ++
      (if labe then [u.failIf (lo % 16 != 0) 3 lo, u.scratchFail tm lo (16 * rows)] else [])) with
  | some f => (.error f, s)
  | none =>
    let table := if labe then (tm.scr (tm.onOdd u.group)).bytes lo (16 * rows) else []
    (.ok { u.cmd 0x0B 0 ops with block := table }, s)

def execVpjinit (c : Ctl) (a b e : Reg) (s : State) : Host.Outcome State Fault Refusal :=
  s.issueGroup c false [.one a, .one b, .one e] (fun u tm ops s => u.queueCmd tm false (checkVpjinit e u tm ops) s)

/-- The fields of a descriptor (R242). -/
structure VDesc where
  wbase : Nat
  vn : Nat
  voff : Nat
  d : Nat
  rows : Nat
  hfmt : Nat
  hoff : Nat
  hpitch : Nat
  soff : Nat
  scale : Nat
  gs : Nat
  out : Nat
  dhoff : Nat
  bbe : Bool
  bb : Nat
  mode : Nat
  ktop : Nat
  deriving DecidableEq, Repr

def vdesc (b : List Byte) : VDesc where
  wbase := blkLe b 0 8
  vn := blkLe b 8 4
  voff := blkLe b 12 4
  d := blkLe b 16 2
  rows := blkByte b 18 + 1
  hfmt := blkByte b 19
  hoff := blkLe b 20 4
  hpitch := blkLe b 24 4
  soff := blkLe b 28 4
  scale := blkLe b 32 4
  gs := blkLe b 36 4
  out := blkLe b 40 8
  dhoff := blkLe b 48 4
  bbe := blkByte b 52 / 2 ^ 7 == 1
  bb := blkByte b 52 % 32
  mode := blkByte b 53
  ktop := blkLe b 54 2

/-- The bytes of the descriptor that are 0 where a command does not use them: offset and length. -/
def zeroAt (b : List Byte) (fs : List (Nat × Nat)) : Bool := fs.all (fun f => blkLe b f.1 f.2 == 0)

/-- The descriptor copied at issue (R237, R242). -/
def Iss.descriptor (u : Iss) (tm : Team) (a n align : Nat) : Except GFail (List Byte) :=
  match firstFail [u.failIf (a % align != 0) 3 a, u.scratchFail tm a n] with
  | some f => .error f
  | none => .ok ((tm.scr (tm.onOdd u.group)).bytes a n)

/-- Checks that every descriptor meets (R242). -/
def Iss.descFail (u : Iss) (tm : Team) (a : Nat) (b : List Byte) (unused : List (Nat × Nat)) (modes : Nat) : List (Option GFail) :=
  let x := vdesc b
  [u.failIf (!zeroAt b ((56, 8) :: unused) || blkByte b 52 / 32 % 4 != 0 || modes ≤ x.mode || x.vn == 0 || decide (2 ^ 24 < x.vn) ||
      decide (0xFFFFFFFE < x.voff + x.vn - 1)) 1 a, u.bbFail tm x.bbe x.bb a]
/-- Checks of the hidden rows and state blocks of VPJ and VPJBWD. -/
def Iss.hiddenFail (u : Iss) (tm : Team) (a : Nat) (x : VDesc) : List (Option GFail) :=
  [u.failIf (x.d < 32 || decide (8192 < x.d) || decide (64 < x.rows)) 1 a,
    u.failIf (x.hfmt == 0 || decide (3 < x.hfmt)) 2 a,
    u.failIf (x.d % 32 != 0 || x.hoff % 16 != 0 || x.hpitch % 16 != 0) 3 a,
    u.scratchFail tm x.hoff ((x.rows - 1) * x.hpitch + x.d * elemSize x.hfmt)] ++ u.blocksFail tm x.soff x.rows

/-- The checks of VPJ. -/
def checkVpj (u : Iss) (tm : Team) (ops : List Word) (s : State) : Except GFail MCmd × State :=
  let o := wordAt ops 0
  match u.descriptor tm o 64 64 with
  | .error f => (.error f, s)
  | .ok b =>
    match vocabFail (u.descFail tm o b [(36, 4), (40, 8), (48, 4), (54, 2)] 1 ++ u.hiddenFail tm o (vdesc b)) with
    | some f => (.error f, s)
    | none =>
      match u.lockElems tm shardRule (shardOf b).1 (shardOf b).2 s with
      | (.error f, s) => (.error f, s)
      | (.ok ps, s) => (.ok { u.cmd 0x0C 0 ops with block := b, pages := ps }, s)

def execVpj (c : Ctl) (a : Reg) (s : State) : Host.Outcome State Fault Refusal :=
  s.issueGroup c false [.one a] (fun u tm ops s => u.queueCmd tm true (checkVpj u tm ops) s)

/-- The checks of VPJMRG. -/
def checkVpjmrg (u : Iss) (tm : Team) (ops : List Word) (s : State) : Except GFail MCmd × State :=
  let x := wordAt ops 0
  let y := wordAt ops 1
  let v := wordAt ops 2
  let rows := v % 64 + 1
  match vocabFail (u.ctlFail tm v 0x3F ++ u.blocksFail tm x rows ++ u.blocksFail tm y rows ++
      [u.failIf (decide (x < y + 576 * rows) && decide (y < x + 576 * rows)) 4 y]) with
  | some f => (.error f, s)
  | none => (.ok (u.cmd 0x0D 0 ops), s)

def execVpjmrg (c : Ctl) (a b e : Reg) (s : State) : Host.Outcome State Fault Refusal :=
  s.issueGroup c false [.one a, .one b, .one e] (fun u tm ops s => u.queueCmd tm true (checkVpjmrg u tm ops) s)

/-- The checks of VPJFIN. -/
def checkVpjfin (u : Iss) (tm : Team) (ops : List Word) (s : State) : Except GFail MCmd × State :=
  let v := wordAt ops 1
  match vocabFail (u.ctlFail tm v 0x3F ++ u.blocksFail tm (wordAt ops 0) (v % 64 + 1)) with
  | some f => (.error f, s)
  | none => (.ok (u.cmd 0x0E 0 ops), s)

def execVpjfin (c : Ctl) (a b : Reg) (s : State) : Host.Outcome State Fault Refusal :=
  s.issueGroup c false [.one a, .one b] (fun u tm ops s => u.queueCmd tm false (checkVpjfin u tm ops) s)

/-- TEMP is +0 or finite and positive, TOPP lies in (0, 1] (R251). -/
def sampOk (temp topp : Nat) : Bool := decide (temp < f32inf) && topp != 0 && decide (topp ≤ fp32.one)

/-- The checks of VSAMP. -/
def checkVsamp (u : Iss) (tm : Team) (ops : List Word) (s : State) : Except GFail MCmd × State :=
  let o := wordAt ops 0
  match u.descriptor tm o 48 16 with
  | .error f => (.error f, s)
  | .ok b =>
    let rows := blkByte b 4 + 1
    let out := blkLe b 32 4
    match vocabFail ([u.failIf (blkByte b 7 != 0 || !zeroAt b [(36, 12)] || blkByte b 6 / 32 % 4 != 0 || decide (64 < rows) ||
          !sampOk (blkLe b 8 4) (blkLe b 12 4)) 1 o, u.failIf (out % 8 != 0) 3 out,
          u.bbFail tm (blkByte b 6 / 2 ^ 7 == 1) (blkByte b 6 % 32) o, u.scratchFail tm out (8 * rows)] ++
        u.blocksFail tm (blkLe b 0 4) rows) with
    | some f => (.error f, s)
    | none => (.ok { u.cmd 0x0F 0 ops with block := b }, s)

def execVsamp (c : Ctl) (a : Reg) (s : State) : Host.Outcome State Fault Refusal :=
  s.issueGroup c false [.one a] (fun u tm ops s => u.queueCmd tm false (checkVsamp u tm ops) s)

/-- The pages that VPJBWD and VSMAX write (R253, R255). -/
def fp32Rule : PageRule := ⟨.write, [1], false⟩

/-- The checks of VPJBWD. -/
def checkVpjbwd (u : Iss) (tm : Team) (ops : List Word) (s : State) : Except GFail MCmd × State :=
  let o := wordAt ops 0
  match u.descriptor tm o 64 64 with
  | .error f => (.error f, s)
  | .ok b =>
    let x := vdesc b
    match vocabFail (u.descFail tm o b [(54, 2)] 2 ++ u.hiddenFail tm o x ++
        [u.scratchFail tm x.dhoff (4 * x.d * x.rows)]) with
    | some f => (.error f, s)
    | none =>
      match u.lockElems tm shardRule (shardOf b).1 (shardOf b).2 s with
      | (.error f, s) => (.error f, s)
      | (.ok ps, s) =>
        match u.lockElems tm fp32Rule x.out (x.d * x.vn) s with
        | (.error f, s) => (.error f, s)
        | (.ok qs, s) => (.ok { u.cmd 0x10 ps.length ops with block := b, pages := ps ++ qs }, s)

def execVpjbwd (c : Ctl) (a : Reg) (s : State) : Host.Outcome State Fault Refusal :=
  s.issueGroup c false [.one a] (fun u tm ops s => u.queueCmd tm false (checkVpjbwd u tm ops) s)

/-- The pages that hold a vector (R254). -/
def vectorRule : PageRule := ⟨.read, [1, 2, 3, 4, 5, 6, 7, 8, 9], true⟩

/-- The source of VTOPK and VSMAX: the scratchpad, or pages locked at issue. -/
def Iss.vector (u : Iss) (tm : Team) (a : Nat) (x : VDesc) (s : State) : Except GFail (List PageTr) × State :=
  if x.mode % 2 = 1 then
    let al := if x.hfmt = 9 then 16 else elemSize x.hfmt
    let bytes := if x.hfmt = 9 then 80 * ((x.vn + 127) / 128) else x.vn * elemSize x.hfmt
    match firstFail [u.failIf (x.hfmt == 0 || decide (9 < x.hfmt)) 2 a,
        if x.wbase % al ≠ 0 then some (u.atIssue 0x04 x.wbase) else none, u.scratchFail tm x.wbase bytes] with
    | some f => (.error f, s)
    | none => (.ok [], s)
  else
    match u.failIf (x.hfmt != 0) 1 a with
    | some f => (.error f, s)
    | none => u.lockElems tm vectorRule x.wbase x.vn s

/-- The checks of VTOPK. -/
def checkVtopk (u : Iss) (tm : Team) (ops : List Word) (s : State) : Except GFail MCmd × State :=
  let o := wordAt ops 0
  match u.descriptor tm o 64 64 with
  | .error f => (.error f, s)
  | .ok b =>
    let x := vdesc b
    match vocabFail (u.descFail tm o b [(16, 3), (20, 12), (32, 8), (48, 4)] 2 ++
        [u.failIf (x.ktop == 0 || decide (64 < x.ktop)) 1 o, u.scratchFail tm x.out (16 + 8 * x.ktop)]) with
    | some f => (.error f, s)
    | none =>
      match u.vector tm o x s with
      | (.error f, s) => (.error f, s)
      | (.ok ps, s) => (.ok { u.cmd 0x11 ps.length ops with block := b, pages := ps }, s)

def execVtopk (c : Ctl) (a : Reg) (s : State) : Host.Outcome State Fault Refusal :=
  s.issueGroup c false [.one a] (fun u tm ops s => u.queueCmd tm false (checkVtopk u tm ops) s)

/-- The checks of VSMAX. -/
def checkVsmax (u : Iss) (tm : Team) (ops : List Word) (s : State) : Except GFail MCmd × State :=
  let o := wordAt ops 0
  match u.descriptor tm o 64 64 with
  | .error f => (.error f, s)
  | .ok b =>
    let x := vdesc b
    match vocabFail (u.descFail tm o b [(16, 3), (20, 12), (32, 8), (48, 4), (54, 2)] 4 ++
        (if x.mode / 2 = 1 then [] else [u.scratchFail tm x.out (4 * x.vn)])) with
    | some f => (.error f, s)
    | none =>
      match u.vector tm o x s with
      | (.error f, s) => (.error f, s)
      | (.ok ps, s) =>
        let m : MCmd := { u.cmd 0x12 ps.length ops with block := b, pages := ps }
        if x.mode / 2 = 1 then
          match u.lockElems tm fp32Rule x.out x.vn s with
          | (.error f, s) => (.error f, s)
          | (.ok qs, s) => (.ok { m with pages := ps ++ qs }, s)
        else (.ok m, s)

def execVsmax (c : Ctl) (a : Reg) (s : State) : Host.Outcome State Fault Refusal :=
  s.issueGroup c false [.one a] (fun u tm ops s => u.queueCmd tm false (checkVsmax u tm ops) s)

/-! ### Elements that a running command reads (R242, R383) -/

/-- A command's pages of its source, and of its destination: MOD holds how many the former are. -/
def MCmd.srcPages (m : MCmd) : List PageTr := if m.op = 0x0C then m.pages else m.pages.take m.mod
def MCmd.dstPages (m : MCmd) : List PageTr := if m.op = 0x0C then [] else m.pages.drop m.mod

/-- Elements `i` to `i + n - 1` read by a command: their exact values (NaN from failed bytes and from malformed blocks), the first
failure, and the addresses of malformed blocks that begin among them. -/
structure Elems where
  vals : List FVal
  fail : EFail
  malformed : List Nat
  deriving DecidableEq, Repr

/-- Elements of a fixed size as values; the elements of failed bytes are NaN. -/
def elemsOf (fmt : Nat) (bs : List (Option Byte)) : List FVal :=
  (List.range (bs.length / elemSize fmt)).map (fun j =>
    match allBytes ((bs.drop (j * elemSize fmt)).take (elemSize fmt)) with
    | some b => elemVal fmt (leNat b)
    | none => .nan false)

/-- One block's values and whether it is malformed. -/
def blockOf (bs : List (Option Byte)) : List FVal × Bool :=
  match allBytes bs with
  | none => (List.replicate 128 (.nan false), false)
  | some b => match i4xDecode b with
    | some vs => (vs, false)
    | none => (List.replicate 128 (.nan false), true)

/-- The elements of a run of I4X blocks, each block read by `rd` at its address `at'`. -/
def elemsBlocks (rd : Nat → List (Option Byte) × EFail) (at' : Nat → Nat) (i n : Nat) : Elems :=
  let first := i / 128
  let ks := List.range ((i + n + 127) / 128 - first)
  let r := ks.foldl (fun (x : Elems) k =>
    let a := at' (first + k)
    let b := rd a
    let d := blockOf b.1
    ⟨x.vals ++ d.1, x.fail.or b.2, if d.2 && decide (i ≤ 128 * (first + k)) then x.malformed ++ [a] else x.malformed⟩) ⟨[], none, []⟩
  { r with vals := (r.vals.drop (i % 128)).take n }

/-- Elements of a shard or of a vector in global memory. -/
def State.globalElems (s : State) (p : Nat) (ps : List PageTr) (base i n : Nat) : Elems :=
  match ps with
  | [] => ⟨List.replicate n (.nan false), none, []⟩
  | t :: _ =>
    if t.fmt = 9 then elemsBlocks (fun a => s.readLocked p ps a 80) (blockAt ps (ps.length + 1) base) i n
    else
      let r := s.readLocked p ps (base + i * elemSize t.fmt) (n * elemSize t.fmt)
      ⟨elemsOf t.fmt r.1, r.2, []⟩

/-- Those elements are read at their homes (R317). -/
def State.needElems (s : State) (p die : Nat) (ps : List PageTr) (base i n : Nat) : State :=
  match ps with
  | [] => s
  | t :: _ =>
    if t.fmt = 9 then (List.range ((i + n + 127) / 128 - i / 128)).foldl (fun s k =>
      s.needRun p die ps (blockAt ps (ps.length + 1) base (i / 128 + k)) 80) s
    else s.needRun p die ps (base + i * elemSize t.fmt) (n * elemSize t.fmt)

/-- Elements of a vector in the scratchpad. -/
def scratchElems (sc : Mem) (fmt base i n : Nat) : Elems :=
  if fmt = 9 then elemsBlocks (fun a => ((sc.bytes a 80).map some, none)) (fun k => base + 80 * k) i n
  else ⟨elemVals fmt (sc.bytes (base + i * elemSize fmt) (n * elemSize fmt)), none, []⟩

/-- The hidden rows of a descriptor. -/
def hiddenRows (sc : Mem) (x : VDesc) : List (List FVal) :=
  (List.range x.rows).map (fun r => elemVals x.hfmt (sc.bytes (x.hoff + r * x.hpitch) (x.d * elemSize x.hfmt)))

/-- State block `r` of a run. -/
def rowBytes (sc : Mem) (off r : Nat) : List Byte := sc.bytes (off + 576 * r) 576
/-- INVALID is set in a block, and nothing else changes. -/
def markRow (sc : Mem) (off r : Nat) : Mem := sc.set (off + 576 * r + 12) (sc.byte (off + 576 * r + 12) ||| 1)

/-- Records of malformed blocks (R242, R352). -/
def State.reportBlocks (s : State) (p : Nat) (t : Team) (m : MCmd) (as' : List Nat) : State :=
  as'.foldl (fun s a => s.engineFault p t m.group m.pc 0x07 [(32, leBytes 8 a)]) s

/-- The row is left out: it failed the start check. -/
def MCmd.skips (m : MCmd) (r : Nat) : Bool := m.bad / 2 ^ r % 2 == 1

/-! ### The start check (R239, R248) -/

/-- The runs of blocks that a command names, each with whether the check marks its bad rows. -/
def MCmd.named (m : MCmd) : List (Nat × Bool) :=
  match m.op with
  | 0x0C => [((vdesc m.block).soff, true)]
  | 0x0D => [(m.word 0, true), (m.word 1, false)]
  | 0x0E => [(m.word 0, true)]
  | 0x0F => [(blkLe m.block 0 4, true)]
  | 0x10 => [((vdesc m.block).soff, false)]
  | _ => []
/-- How many rows it names. -/
def MCmd.rows (m : MCmd) : Nat :=
  match m.op with
  | 0x0B => m.word 1 / 2 ^ 16 % 64 + 1
  | 0x0C | 0x10 => (vdesc m.block).rows
  | 0x0D => m.word 2 % 64 + 1
  | 0x0E => m.word 1 % 64 + 1
  | 0x0F => blkByte m.block 4 + 1
  | _ => 0

/-- The runs of blocks that it works on. -/
def MCmd.runs (m : MCmd) : List Nat := if m.op = 0x0B then [m.word 0] else m.named.map (·.1)
/-- The header of a row of a run as the command has it. -/
def MCmd.header (m : MCmd) (run r : Nat) : List Byte := m.ro.getD (run * m.rows + r) []
/-- A row of a run as the command reads it (R239). -/
def MCmd.row (m : MCmd) (sc : Mem) (run r : Nat) : VRow :=
  let b := rowBytes sc (m.runs.getD run 0) r
  VRow.ofBytes (headerBytes (headerIn (m.header run r) b) ++ b.drop 16)
/-- A row of a run written by the command. -/
def MCmd.putRow (m : MCmd) (run : Nat) (sc : Mem) (r : Nat) (x : VRow) : Mem :=
  let off := m.runs.getD run 0
  sc.put (off + 576 * r) (headerBytes (headerOut (m.header run r) (rowBytes sc off r) x.bytes) ++ x.bytes.drop 16)

/-- The command at the head changes rows of a run: those that `f` gives. -/
def State.storeRows (s : State) (p c : Nat) (odd : Bool) (m : MCmd) (run : Nat) (f : Nat → Option VRow) : State :=
  (s.modTeam p c (fun t => t.setScr odd ((List.range m.rows).foldl (fun sc r => match f r with
    | some x => m.putRow run sc r x
    | none => sc) (t.scr odd)))).modHead p c odd (fun h =>
    { h with ro := (List.range m.rows).foldl (fun hs r => match f r with
      | some x => hs.set (run * m.rows + r) (x.bytes.take 16)
      | none => hs) h.ro })

/-- The start check of one block. -/
def State.checkRow (p c : Nat) (odd : Bool) (t : Team) (m : MCmd) (off : Nat) (mark : Bool) (s : State) (r : Nat) : State :=
  if blockBad (rowBytes (t.scr odd) off r) then
    let s := s.modTeam p c (fun t => if mark then t.setScr odd (markRow (t.scr odd) off r) else t)
    let s := s.modHead p c odd (fun m => { m with bad := Nat.lor m.bad (2 ^ r) })
    s.engineFault p t m.group m.pc 0x17 [(32, leBytes 8 (off + 576 * r)), (40, leBytes 1 1)]
  else s

/-- A vocabulary command starts: its blocks are checked, their headers are read, and VPJ clears FIN, L2 and LSE (R239, R245). -/
def State.startVocab (s : State) (p c : Nat) (odd : Bool) (t : Team) (m : MCmd) : State :=
  let s := m.named.foldl (fun s n => (List.range m.rows).foldl (State.checkRow p c odd t m n.1 n.2) s) s
  let s := s.modHead p c odd (fun m => { m with ro := m.runs.flatMap (fun off =>
    (List.range m.rows).map (fun r => (t.scr odd).bytes (off + 576 * r) 16)) })
  if m.op = 0x0C then
    match s.team? p c with
    | none => s
    | some t =>
      match (t.eng odd).mq with
      | [] => s
      | m :: _ => s.storeRows p c odd m 0 (fun r => if m.skips r then none else some (m.row (t.scr odd) 0 r).unfinish)
  else s

/-! ### HEAPSPILL (R246) -/

/-- The command at the head is suspended, its locks go, and every non-exited lane of its group takes HEAPSPILL. -/
def State.heapSpill (s : State) (p c : Nat) (odd : Bool) (m : MCmd) (off : Nat) (y : Nat × Nat) : State :=
  let s := (s.lockPages p m.die false m.pages).modHead p c odd (fun m => { m with suspended := true, pages := [] })
  let s := s.modGroup p c m.group (fun g => { g with vwait := false })
  match s.team? p c with
  | none => s
  | some t =>
    (s.trapLanes p c m.group (t.lanes.filter (fun l => (t.thread m.group l).live))
      ⟨0x0F, m.pc.setWidth 64, some (BitVec.ofNat 64 off), some (BitVec.ofNat 32 y.2 ++ BitVec.ofNat 32 y.1)⟩).modTeam p c
        (fun t => t.sweepEnts m.group)

/-- A non-exited lane of a group has traps masked (R244). -/
def Team.masked (t : Team) (g : Nat) : Bool := t.lanes.any (fun l => (t.thread g l).live && (t.thread g l).m)

/-! ### VPJ (R243, R245) -/

/-- The rows of a unit in progress, the t of its logits so far, and the candidate at which it stops. -/
structure VUnit where
  rows : List VRow
  ts : List (Option Word)
  stop : Option (Nat × (Nat × Nat))
  deriving DecidableEq, Repr

/-- The logits of a unit from position `q` on: position v × rows + r, row `r` of the unit's shard row `v`. -/
def vpjUnit (x : VDesc) (skips : Nat → Bool) (masked : Bool) (v0 : Nat) (hs ws : List (List FVal)) : Nat → Nat → VUnit → VUnit
  | 0, _, y => y
  | n + 1, q, y =>
    let v := q / x.rows
    let r := q % x.rows
    if skips r then vpjUnit x skips masked v0 hs ws n (q + 1) { y with ts := y.ts ++ [none] }
    else
      match y.rows[r]? with
      | none => vpjUnit x skips masked v0 hs ws n (q + 1) { y with ts := y.ts ++ [none] }
      | some row =>
        let (row, t, sp) := row.take masked (x.voff + v0 + v) (logit x.scale (hs.getD r []) (ws.getD v []))
        let y : VUnit := { y with rows := y.rows.set r row, ts := y.ts ++ [t] }
        match sp with
        | some z => { y with stop := some (r, z) }
        | none => vpjUnit x skips masked v0 hs ws n (q + 1) y

/-- The t of one hidden row of a unit. -/
def unitRow (rows : Nat) (ts : List (Option Word)) (r : Nat) : List (Option Word) :=
  (List.range (ts.length / rows)).map (fun v => ts.getD (v * rows + r) none)

/-- Shard rows read for a unit. -/
def State.shardRows (s : State) (p : Nat) (m : MCmd) (x : VDesc) (v0 n : Nat) : List Elems :=
  (List.range n).map (fun v => s.globalElems p m.srcPages x.wbase ((v0 + v) * x.d) x.d)

/-- They are read at their homes (R317). -/
def State.needShard (s : State) (p : Nat) (m : MCmd) (x : VDesc) (v0 n : Nat) : State :=
  (List.range n).foldl (fun s v => s.needElems p m.die m.srcPages x.wbase ((v0 + v) * x.d) x.d) s

/-- VPJ takes in its next unit, up to a spill. A malformed block is reported once. -/
def State.stepVpj (s : State) (p c : Nat) (odd : Bool) (t : Team) (m : MCmd) : State :=
  let x := vdesc m.block
  let sc := t.scr odd
  let v0 := 32 * m.prog
  let n := min 32 (x.vn - v0)
  let es := s.shardRows p m x v0 n
  let bad := (es.flatMap (fun e => e.malformed)).filter (fun a => !m.reported.contains a)
  let s := (s.needShard p m x v0 n).reportBlocks p t m bad
  let fail : EFail := es.foldl (fun f e => f.or e.fail) none
  let y := vpjUnit x m.skips (t.masked m.group) v0 (hiddenRows sc x) (es.map (·.vals)) (n * x.rows - m.sub) m.sub
    ⟨(List.range x.rows).map (m.row sc 0), m.vals, none⟩
  let rows := match y.stop with
    | some _ => y.rows
    | none => y.rows.mapIdx (fun r (row : VRow) => row.fold (unitRow x.rows y.ts r))
  let s := s.storeRows p c odd m 0 (fun r => if m.skips r then none else rows[r]?)
  match y.stop with
  | some (r, z) =>
    (s.modHead p c odd (fun m => { m.failWith fail with sub := y.ts.length, vals := y.ts, reported := m.reported ++ bad })).heapSpill p c odd m (x.soff + 576 * r) z
  | none => s.modHead p c odd (fun m => { m.failWith fail with prog := m.prog + 1, sub := 0, vals := [], reported := [] })

/-! ### VPJMRG (R248) -/

/-- Row `prog` of VPJMRG from candidate `sub` on: A's row, and the candidate at which it stops with the one to hand out. -/
def mergeFrom (masked : Bool) (b : VRow) : Nat → Nat → VRow → VRow × Option (Nat × (Nat × Nat))
  | 0, _, a => (a, none)
  | n + 1, i, a =>
    match a.insert masked (b.heap.getD i (0, 0)) with
    | (a, some y) => (a, some (i, y))
    | (a, none) => mergeFrom masked b n (i + 1) a

/-- VPJMRG takes its next row, or the rest of it after a spill. -/
def State.stepMrg (s : State) (p c : Nat) (odd : Bool) (t : Team) (m : MCmd) : State :=
  let r := m.prog
  let sc := t.scr odd
  let a := m.row sc 0 r
  let b := m.row sc 1 r
  let put (s : State) (x : VRow) : State := s.storeRows p c odd m 0 (fun k => if k = r then some x else none)
  let next (s : State) : State := s.modHead p c odd (fun m => { m with prog := m.prog + 1, sub := 0 })
  if m.skips r then next (s.modTeam p c (fun t => t.setScr odd (markRow (t.scr odd) (m.word 0) r)))
  else if m.sub = 0 ∧ (a.k ≠ b.k ∨ a.lab ≠ b.lab) then next (put s { a with invalid := true })
  else
    let a := if m.sub = 0 then a.merge b else a
    match mergeFrom (t.masked m.group) b (min b.cnt 64 - m.sub) m.sub a with
    | (a, none) => next (put s a.unfinish)
    | (a, some (i, y)) =>
      ((put s a).modHead p c odd (fun m => { m with sub := i + 1 })).heapSpill p c odd m (m.word 0 + 576 * r) y

/-! ### VPJBWD (R253) -/

/-- p of a logit's t: its share, +0 for −∞ (R253, R255). -/
def shareOf (t l2 : Nat) : Nat := if t = f32ninf then 0 else exp2cr (f32sub t l2)

/-- p − y, scaled, for a row and a shard row: G (R253). -/
def gradient (x : VDesc) (row : VRow) (idx : Nat) (h w : List FVal) : Nat :=
  let p := shareOf (logitT (logit x.scale h w)) row.l2
  f32mul (f32sub p (if row.lab.getD 0 0 = idx then fp32.one else 0)) x.gs

/-- VPJBWD takes its next unit of 32 shard rows: dh of every row, then dW of the unit. -/
def State.stepBwd (s : State) (p c : Nat) (odd : Bool) (t : Team) (m : MCmd) : State :=
  let x := vdesc m.block
  let sc := t.scr odd
  let v0 := 32 * m.prog
  let n := min 32 (x.vn - v0)
  let es := s.shardRows p m x v0 n
  let s := (s.needShard p m x v0 n).reportBlocks p t m (es.flatMap (·.malformed))
  let hs := hiddenRows sc x
  let ws := es.map (·.vals)
  let live (r : Nat) : Bool := !m.skips r && !(m.row sc 0 r).invalid && (m.row sc 0 r).fin
  -- G[r][v] as exact values; a row left out has none
  let g : List (List FVal) := (List.range x.rows).map (fun r =>
    if live r then (List.range n).map (fun v =>
      fp32.val (gradient x (m.row sc 0 r) (x.voff + v0 + v) (hs.getD r []) (ws.getD v [])))
    else [])
  let dhAt (r k : Nat) : Nat := x.dhoff + 4 * (x.d * r + k)
  let newDh (r k : Nat) : Nat :=
    matrixSum (sc.le (dhAt r k) 4) (List.zipWith FVal.mul (g.getD r []) (ws.map (fun w => w.getD k (.nan false))))
  let s := s.modTeam p c (fun t => t.setScr odd ((List.range x.rows).foldl (fun sc r =>
    if live r then (List.range x.d).foldl (fun sc k => sc.put (dhAt r k) (leBytes 4 (newDh r k))) sc else sc) (t.scr odd)))
  let dw (v k : Nat) : Nat := matrixSum 0 ((List.range x.rows).map (fun r =>
    if live r then ((g.getD r []).getD v (.nan false)).mul ((hs.getD r []).getD k (.nan false)) else .fin false 0 0))
  let w := (List.range n).foldl (fun (y : State × EFail) v => (List.range x.d).foldl (fun (y : State × EFail) k =>
    let z := y.1.writeLocked p m.dstPages (x.out + 4 * (x.d * (v0 + v) + k)) 4 (fun old =>
      leBytes 4 (if x.mode % 2 = 1 then f32add (leNat old) (dw v k) else dw v k))
    (z.1, y.2.or z.2)) y) (s, (es.foldl (fun f e => f.or e.fail) none : EFail))
  w.1.modHead p c odd (fun m => { m.failWith w.2 with prog := m.prog + 1 })

/-! ### VTOPK and VSMAX (R254, R255) -/

/-- The next 32 elements of a vector are read, each converted to FP32 (R43). -/
def State.stepVec (s : State) (p c : Nat) (odd : Bool) (t : Team) (m : MCmd) : State :=
  let x := vdesc m.block
  let i := 32 * m.prog
  let n := min 32 (x.vn - i)
  let e := if x.mode % 2 = 1 then scratchElems (t.scr odd) x.hfmt x.wbase i n else s.globalElems p m.srcPages x.wbase i n
  let s := if x.mode % 2 = 1 then s else s.needElems p m.die m.srcPages x.wbase i n
  (s.reportBlocks p t m e.malformed).modHead p c odd (fun m => { m.failWith e.fail with
    prog := m.prog + 1, vals := m.vals ++ e.vals.map (fun v => some (BitVec.ofNat 32 (fp32.ofVal .rne v).1)) })

/-- The FP32 elements of a vector. -/
def MCmd.vector (m : MCmd) : List Nat := m.vals.map (fun v => (v.getD 0).toNat)

/-- VTOPK's output (R254). -/
def topkBytes (x : VDesc) (zs : List Nat) : List Byte :=
  let r := (zs.mapIdx (fun i z => (i, z))).foldl (fun (r : VRow) e =>
    if logitBad e.2 then { r with invalid := true }
    else if e.2 = f32ninf then r
    else (r.insert false (e.2, x.voff + e.1)).1) (VRow.init x.ktop [])
  leBytes 4 r.cnt ++ leBytes 12 (bit r.invalid) ++ (r.heap.take x.ktop).flatMap (fun e => leBytes 4 e.1 ++ leBytes 4 e.2)

/-- VSMAX's output (R255). -/
def smaxVals (zs : List Nat) : List Nat :=
  if zs.any logitBad then zs.map (fun _ => f32nan)
  else
    let ms := (chunksOf 32 zs.length (zs.map (fun z => some (BitVec.ofNat 32 (logitT z))))).foldl
      (fun (m : Nat × Nat) ts => foldChunk m.1 m.2 ts) (f32ninf, 0)
    let l2 := (finish false ms.1 ms.2).1
    zs.map (fun z => shareOf (logitT z) l2)

/-- VSMAX writes its output. -/
def State.writeSmax (s : State) (p c : Nat) (odd : Bool) (m : MCmd) : State :=
  let x := vdesc m.block
  let ys := smaxVals m.vector
  if x.mode / 2 = 1 then
    let w := (ys.mapIdx (fun i y => (i, y))).foldl (fun (z : State × EFail) e =>
      let r := z.1.writeLocked p m.dstPages (x.out + 4 * e.1) 4 (fun _ => leBytes 4 e.2)
      (r.1, z.2.or r.2)) (s, none)
    w.1.modHead p c odd (fun m => m.failWith w.2)
  else s.modTeam p c (fun t => t.setScr odd ((t.scr odd).put x.out (ys.flatMap (leBytes 4))))

/-! ### Completion -/

/-- VPJINIT's rows (R239). -/
def MCmd.initRow (m : MCmd) (r : Nat) : VRow :=
  VRow.init (m.word 1 % 2 ^ 13) ((List.range 4).map (fun j => if m.block.isEmpty then 0xFFFFFFFF else blkWord m.block (4 * r + j)))

/-- VPJFIN of a row (R250). -/
def VRow.finished (r : VRow) : VRow :=
  { r with l2 := (finish r.invalid r.m r.s).1, lse := (finish r.invalid r.m r.s).2, fin := true }

/-- VSAMP's results (R252). -/
def sampRows (m : MCmd) (sc : Mem) : Mem :=
  let b := m.block
  (List.range m.rows).foldl (fun out r =>
    let row := m.row sc 0 r
    let n := min row.cnt 64
    let res : Nat × Nat :=
      if m.skips r || row.invalid || n == 0 then (0xFFFFFFFF, 0xFF)
      else
        let w (k : Nat) : Word := BitVec.ofNat 32 (blkLe b k 4)
        let x := (philox 10 (w 16) (w 20) (w 24, w 28, BitVec.ofNat 32 r, BitVec.ofNat 32 (blkByte b 5))).1
        let k := sampPick (blkLe b 8 4) (blkLe b 12 4) x ((row.heap.take n).map (·.1))
        ((row.heap.getD k (0, 0)).2, k)
    out.put (blkLe b 32 4 + 8 * r) (leBytes 4 res.1 ++ leBytes 4 res.2)) sc

/-- The credit of a vocabulary command: 64 bytes (R237). -/
def MCmd.vocabCredit (m : MCmd) : Option (Nat × Nat) :=
  match m.op with
  | 0x0B | 0x0E => ctlCredit (m.word 1)
  | 0x0D => ctlCredit (m.word 2)
  | 0x0F => if blkByte m.block 6 / 2 ^ 7 = 1 then some (blkByte m.block 6 % 32, 64) else none
  | _ => if (vdesc m.block).bbe then some ((vdesc m.block).bb, 64) else none

/-- Units of a command: of 32 vocabulary rows or elements, or VPJMRG's rows; 0 for the commands that are made at once (R256). -/
def MCmd.units (m : MCmd) : Nat :=
  match m.op with
  | 0x0C | 0x10 | 0x11 | 0x12 => ((vdesc m.block).vn + 31) / 32
  | 0x0D => m.rows
  | _ => 0

/-- One unit of the command at the head. -/
def State.stepUnit (s : State) (p c : Nat) (odd : Bool) (t : Team) (m : MCmd) : State :=
  match m.op with
  | 0x0C => s.stepVpj p c odd t m
  | 0x0D => s.stepMrg p c odd t m
  | 0x10 => s.stepBwd p c odd t m
  | _ => s.stepVec p c odd t m

/-- The last part of a command: what it writes at the end, its completion and its group's retirement (R237). -/
def State.endVocab (s : State) (p c : Nat) (odd : Bool) (m : MCmd) : State :=
  let onScr (f : Mem → Mem) : State := s.modTeam p c (fun t => t.setScr odd (f (t.scr odd)))
  let s := match m.op with
    | 0x0B => s.storeRows p c odd m 0 (fun r => some (m.initRow r))
    | 0x0E => match s.team? p c with
      | some t => s.storeRows p c odd m 0 (fun r => if m.skips r then none else some (VRow.finished (m.row (t.scr odd) 0 r)))
      | none => s
    | 0x0F => onScr (sampRows m)
    | 0x11 => onScr (fun sc => sc.put (vdesc m.block).out (topkBytes (vdesc m.block) m.vector))
    | 0x12 => s.writeSmax p c odd m
    | _ => s
  let s := s.endHead p c odd m.vocabCredit
  if m.op = 0x0C ∨ m.op = 0x0D then s.endGroupWait p c m.group else s

/-- A team's queue may run on: its team is resident, or the command that has started completes into the bank it left, a command of R256 up to
its next boundary (R256, R297). -/
def MCmd.mayRun (m : MCmd) (t : Team) : Bool :=
  t.place.isSome || (m.started && (m.sub != 0 || !(m.op == 0x0C || m.op == 0x10 || m.op == 0x11 || m.op == 0x12)))

/-- The rest of a vocabulary command, up to a spill. -/
def State.runVocab : Nat → State → Nat → Nat → Bool → State
  | 0, s, _, _, _ => s
  | fuel + 1, s, p, c, odd =>
    match s.team? p c with
    | none => s
    | some t =>
      match (t.eng odd).mq with
      | [] => s
      | m :: _ =>
        if m.suspended || !m.mayRun t then s
        else if m.units ≤ m.prog then s.endVocab p c odd m
        else State.runVocab fuel (s.stepUnit p c odd t m) p c odd

/-! ### The queue's events -/

/-- WBLD of a new context waits until the weight buffer of an inactive one has been spilled (R213). -/
def Package.wbBusy (k : Package) (core : Nat) : Bool :=
  (k.core core).inactive.any (fun c => match tfind k.teams c with
    | some t => t.place.isNone && !t.recDone && (t.engE.claim || t.engO.claim)
    | none => false)

/-- MATRIX_CMD_START: the head of a queue starts (R212); a started vocabulary command takes in its next unit (R256). -/
def execMatrixCmdStart (p ctx : Nat) (odd : Bool) (s : State) : Host.Outcome State Fault Refusal :=
  .next (match s.team? p ctx with
    | none => s
    | some t =>
      match (t.eng odd).mq with
      | [] => s
      | m :: _ =>
        let core := match t.place with
          | some (c, _) => if odd then c + 1 else c
          | none => 0
        if m.suspended || !m.mayRun t then s
        else if m.started then (if m.prog < m.units then s.stepUnit p ctx odd t m else s)
        else if t.stop.isSome || (m.op == 0 && (s.pkg p).wbBusy core) then s
        else
          let s := s.modHead p ctx odd (fun m => { m with started := true })
          if m.op = 1 ∨ m.op = 2 then s.startMml p ctx odd t m
          else if 0x0B ≤ m.op then s.startVocab p ctx odd t m
          else s)

/-- MATRIX_CMD_COMPLETE: the head of a queue, which has started, runs to its end (R212). -/
def execMatrixCmdComplete (p ctx : Nat) (odd : Bool) (s : State) : Host.Outcome State Fault Refusal :=
  .next (match s.team? p ctx with
    | none => s
    | some t =>
      match (t.eng odd).mq with
      | [] => s
      | m :: _ =>
        if m.suspended || !m.started || !m.mayRun t then s
        else if m.op < 0x0B then s.runMatrix p ctx odd t m
        else State.runVocab (m.units + 1) s p ctx odd)

/-- A suspended command of a retired group is discarded: every row that it names is marked INVALID (R246). -/
def State.discardSuspended (s : State) (p c g : Nat) : State :=
  match s.team? p c with
  | none => s
  | some t =>
    match t.suspended g with
    | none => s
    | some m =>
      let odd := t.onOdd g
      s.modTeam p c (fun t =>
        let t := m.named.foldl (fun t n => (List.range m.rows).foldl (fun t r => t.setScr odd (markRow (t.scr odd) n.1 r)) t) t
        t.setEng odd { t.eng odd with mq := (t.eng odd).mq.filter (fun x => !(x.suspended && x.group == g)) })

/-- GROUP_RETIRE: every thread of the group has exited and none of its deferred results is outstanding (R18); a command that it left
suspended is discarded (R246). -/
def execGroupRetire (w : Where) (s : State) : Host.Outcome State Fault Refusal :=
  .next (match s.team? w.pkg w.ctx with
    | none => s
    | some t =>
      if w.group < t.tmpl.groups ∧ t.stop.isNone ∧ !(t.group w.group).retired ∧
          t.lanes.all (fun l => !(t.thread w.group l).live && (t.thread w.group l).pend.isEmpty) then
        (s.discardSuspended w.pkg w.ctx w.group).modGroup w.pkg w.ctx w.group (fun g =>
          { g.idlePorts with retired := true })
      else s)

end Sys2Proof.Machine
end

