-- ==== Sys2Proof/Machine/Preempt.lean ====
section
/-! DEFINITION. Pre-emption and resumption (R295 to R306), the context record (R300 to R304), the driver's answers to page faults (R294),
and the timeout of WAITM (R174). -/

namespace Sys2Proof.Machine

/-! ### The bytes of a context record (R300 to R304) -/

def align64 (n : Nat) : Nat := (n + 63) / 64 * 64
def bit (b : Bool) (k : Nat) : Nat := if b then 2 ^ k else 0

/-- Offsets of the sections. -/
structure RecMap where
  goff : Nat
  toff : Nat
  roff : Nat
  doff : Nat
  poff : Nat
  soff : Nat
  moff : Nat
  coff : Nat
  size : Nat
  deriving DecidableEq, Repr

/-- Threads of a team, in the order group × WIDTH + lane. -/
def Team.threadList (t : Team) : List Thread :=
  (List.range t.tmpl.groups).flatMap (fun g => t.lanes.map (fun l => t.thread g l))

/-- The engines whose state the matrix section holds: with a claim, even core first. -/
def Team.matrices (t : Team) : List Matrix :=
  (if t.engE.claim then [t.engE.mat] else []) ++ (if t.engO.claim then [t.engO.mat] else [])

/-- Unstarted copies, in issue order. -/
def Team.waitingCopies (t : Team) : List Copy := t.copies.filter (fun x => !x.started)

/-- The pending results of a thread that had returned at the switch; the values of the others stand in the Booth slot (R298, R303). -/
def Thread.readyPend (x : Thread) : List Pend := x.pend.filter (fun r => r.ready)

def Team.recMap (t : Team) : RecMap :=
  let n := t.tmpl.groups * t.width
  let toff := 1024 + 2112 * t.tmpl.groups
  let roff := toff + 512 * n
  let doff := align64 (roff + t.tmpl.regs * 4 * n)
  let poff := align64 (doff + t.tmpl.regs / 8 * n)
  let soff := align64 (poff + t.threadList.foldl (fun k x => k + x.readyPend.foldl (fun k r => k + 8 * r.n) 0) 0)
  let mat := align64 (soff + t.tmpl.scratch * (if t.tmpl.pair then 2 else 1))
  let coff := align64 (mat + t.matrices.length * (262144 + 16384 + 262144))
  ⟨1024, toff, roff, doff, poff, soff, if t.matrices.isEmpty then 0 else mat, coff,
    coff + 256 * (t.mqs.length + t.waitingCopies.length)⟩

/-- A named barrier word and a byte barrier entry (R301). -/
def NBar.bytes (b : NBar) : List Byte := leBytes 4 (b.arr % 4096 + 2 ^ 13 * (b.cnt % 4096) + bit b.phase 25)
def BBar.entry (b : BBar) : List Byte :=
  leBytes 4 (wrap 32 b.bytes) ++ leBytes 2 b.arr ++ leBytes 2 b.init ++ leBytes 8 (bit b.phase 0)

/-- The header of a record (R300). -/
def Team.recHeader (t : Team) (ctx : Nat) (done early : Bool) : List Byte :=
  let m := t.recMap
  let flags := bit t.tmpl.pair 0 + bit t.mirror 1 + bit (t.engE.claim || t.engO.claim) 2 + bit done 3 + bit early 4
  leBytes 8 t.inst.toNat ++ leBytes 8 t.template.toNat ++ leBytes 8 t.arg.toNat ++ leBytes 4 (ctx % 2 ^ 20) ++ leBytes 1 t.tmpl.groups ++
    leBytes 1 t.width ++ leBytes 2 t.tmpl.regs ++ leBytes 4 t.tmpl.scratch ++ leBytes 1 t.tmpl.nbc ++ leBytes 1 t.tmpl.bbc ++
    leBytes 1 flags ++ leBytes 1 0 ++ leBytes 8 t.switchedAt ++ leBytes 16 0 ++
    (List.range 48).flatMap (fun n => if n < t.tmpl.nbc then (t.nbar n).bytes else leBytes 4 0) ++
    (List.range 32).flatMap (fun n => if n < t.tmpl.bbc then (t.bbar n).entry else leBytes 16 0) ++
    leBytes 8 m.goff ++ leBytes 8 m.toff ++ leBytes 8 m.roff ++ leBytes 8 m.doff ++ leBytes 8 m.poff ++ leBytes 8 m.soff ++
    leBytes 8 m.moff ++ leBytes 8 m.coff ++ leBytes 1 t.mqs.length ++ leBytes 1 t.waitingCopies.length ++ leBytes 6 0 ++
    leBytes 8 m.size ++ leBytes 176 0

/-- A frontier entry (R302). -/
def State.entBytes (s : State) (p : Nat) (t : Team) (g : Nat) (pc : Pc) : List Byte :=
  let e := (t.group g).ent pc
  let lanes := (t.entLanes g pc).foldl (fun n l => n + 2 ^ l) 0
  leBytes 8 pc.toNat ++ leBytes 8 lanes ++ leBytes 8 e.stamp ++ leBytes 1 (s.rankOf p t g pc).1 ++
    leBytes 1 (bit e.yield 0 + bit (e.mid pc).isSome 1) ++ leBytes 6 0

/-- A group's header and its frontier (R302). -/
def State.groupBytes (s : State) (p : Nat) (t : Team) (g : Nat) : List Byte :=
  let x := t.group g
  let pcs := t.entPcs g
  leBytes 8 (pcs.length + 2 ^ 8 * x.prog + bit x.retired 16 + bit x.vwait 17 + 2 ^ 32 * x.gwp.toNat) ++ leBytes 56 0 ++
    pcs.flatMap (s.entBytes p t g) ++ leBytes (32 * (64 - pcs.length)) 0

/-- STATE of R303 and PARK. -/
def TSt.code : TSt → Nat × Nat
  | .runnable => (0, 0)
  | .page va _ | .cont va _ => (1, va.toNat)
  | .nbar n => (2, n)
  | .bbar n _ => (3, n)
  | .ticket h => (4, h.toNat)
  | .monitor m => (5, m.ea.toNat)
  | .exited => (6, 0)
  | .halted => (7, 0)

/-- A pending result's entry, with the offset of its values (R303). -/
def Pend.bytes (r : Pend) (off : Nat) : List Byte :=
  leBytes 8 (r.dst % 2 ^ 9 + bit r.isPred 9 + 2 ^ 10 * r.n + bit r.ready 17 + 2 ^ 32 * (if r.ready then off else 0))
/-- The entries of a thread's pending results; `off` is where its values start. -/
def pendBytes : List Pend → Nat → List Byte
  | [], _ => []
  | r :: rs, off => r.bytes off ++ pendBytes rs (if r.ready then off + 8 * r.n else off)

/-- The 512 bytes of a thread (R303). -/
def Thread.recBytes (x : Thread) (off : Nat) : List Byte :=
  let (st, park) := x.st.code
  let r := x.region
  let log := match r with
    | some r => r.log
    | none => []
  let word := st + bit x.inh 4 + bit x.m 5 + bit x.pm 6 + bit r.isSome 7 + 2 ^ 8 * (x.preds.toNat / 2 % 128) + 2 ^ 15 * (x.defCount % 32) +
    2 ^ 20 * x.pend.length
  leBytes 4 word ++ leBytes 4 x.fsr.toNat ++ leBytes 4 x.txCode.toNat ++ leBytes 4 0 ++ leBytes 8 park ++ leBytes 8 x.txPc.toNat ++
    leBytes 8 x.txAddr.toNat ++ leBytes 8 x.txInfo.toNat ++
    leBytes 8 (match r with
      | some r => r.target.toNat
      | none => 0) ++ leBytes 1 log.length ++
    leBytes 2 (match r with
      | some r => r.ops
      | none => 0) ++
    leBytes 1 (match r with
      | some r => r.preds.toNat / 2 % 128
      | none => 0) ++ leBytes 4 0 ++
    log.flatMap (fun e => leBytes 8 (e.1 % 2 ^ 9 + bit e.2.2 9 + 2 ^ 32 * e.2.1.toNat)) ++ leBytes (8 * (32 - log.length)) 0 ++
    pendBytes x.pend off ++ leBytes (8 * (16 - x.pend.length)) 0 ++ leBytes 64 0

/-- The thread section; each thread's pending values follow those of the threads before it. -/
def threadsBytes : List Thread → Nat → List Byte
  | [], _ => []
  | x :: xs, off => x.recBytes off ++ threadsBytes xs (off + x.readyPend.foldl (fun k r => k + 8 * r.n) 0)

/-- The register image and the deferred-fault bitmap of a thread (R304). -/
def Thread.imageBytes (x : Thread) (regs : Nat) : List Byte := (List.range regs).flatMap (fun r => leBytes 4 (if r = 0 then 0 else (tget 0 x.regs r).toNat))
def Thread.dfbBytes (x : Thread) (regs : Nat) : List Byte :=
  (List.range (regs / 8)).map (fun j => BitVec.ofNat 8 ((List.range 8).foldl (fun n i =>
    n + bit (8 * j + i != 0 && tget false x.dfb (8 * j + i)) i) 0))

/-- The values of pending results (R303). -/
def Thread.valueBytes (x : Thread) : List Byte :=
  x.readyPend.flatMap (fun r => (List.range r.n).flatMap (fun k =>
    let v := r.vals.getD k (0, false)
    leBytes 8 (v.1.toNat + bit v.2 32)))

/-- The matrix section of one engine (R304). -/
def Matrix.recBytes (m : Matrix) : List Byte :=
  m.wb.bytes 0 262144 ++ (List.range 16384).flatMap (fun u =>
    let t := tget (0, 0, false) m.tags u
    leBytes 1 (t.1 % 16 + 2 ^ 4 * (t.2.1 % 2) + bit t.2.2 5)) ++
    (List.range 65536).flatMap (fun k => leBytes 4 (tget 0 m.acc k).toNat)

/-- A command record (R304). -/
def cmdBytes (pc : Pc) (opc cfl prog : Nat) (ops : List Word) (block : List Byte) : List Byte :=
  leBytes 8 pc.toNat ++ leBytes 2 opc ++ leBytes 1 cfl ++ leBytes 1 0 ++ leBytes 4 prog ++
    (List.range 8).flatMap (fun k => leBytes 4 (ops.getD k 0).toNat) ++ leBytes 16 0 ++ padTo 192 block
def MCmd.recBytes (m : MCmd) (t : Team) : List Byte :=
  cmdBytes m.pc (0x280 + m.op) (bit m.started 0 + bit m.suspended 1 + bit ((m.op == 0x0C || m.op == 0x0D) && (t.group m.group).vwait) 2) m.prog m.ops m.block
def Copy.recBytes (x : Copy) : List Byte :=
  cmdBytes x.pc (match x.kind with
    | .cpy => 0x286
    | .cpym => 0x287
    | .cpyx => 0x288) 0 0 [x.off] x.desc

/-- A section cut at the start of the next. -/
def areaOf (n : Nat) (bs : List Byte) : List Byte := padTo n bs

/-- The whole record, complete (R300 to R304). -/
def State.recBytes (s : State) (p ctx : Nat) (t : Team) (early : Bool) : List Byte :=
  let m := t.recMap
  let mat := if m.moff = 0 then m.coff else m.moff
  t.recHeader ctx true early ++ (List.range t.tmpl.groups).flatMap (s.groupBytes p t) ++ threadsBytes t.threadList 0 ++
    areaOf (m.doff - m.roff) (t.threadList.flatMap (fun x => x.imageBytes t.tmpl.regs)) ++
    areaOf (m.poff - m.doff) (t.threadList.flatMap (fun x => x.dfbBytes t.tmpl.regs)) ++
    areaOf (m.soff - m.poff) (t.threadList.flatMap Thread.valueBytes) ++
    areaOf (mat - m.soff) (t.scrE.bytes 0 t.tmpl.scratch ++ (if t.tmpl.pair then t.scrO.bytes 0 t.tmpl.scratch else [])) ++
    areaOf (m.coff - mat) (t.matrices.flatMap Matrix.recBytes) ++ t.mqs.flatMap (fun c => c.recBytes t) ++
    t.waitingCopies.flatMap Copy.recBytes

/-! ### The switch (R295 to R297) -/

/-- SLICE_EXPIRY (R295): the resident time slice has ended. -/
def execSliceExpiry (p core : Nat) (s : State) : Host.Outcome State Fault Refusal :=
  .next (match (s.core p core).sliceEnd with
    | some t => if t ≤ s.time then s.modCore p core (fun x => { x with preempt := true, sliceEnd := none }) else s
    | none => s)

/-- The cores that a pre-emption of a core takes: both of its pair (R1, R295). -/
def coresTaken (core : Nat) : List Nat := [core / 2 * 2, core / 2 * 2 + 1]

/-- The contexts resident on cores, in ascending order of their team slots. -/
def Package.residents (k : Package) (cores : List Nat) : List Nat :=
  (List.range 32).flatMap (fun n => (k.teams.filter (fun t => match t.2.place with
    | some (c, m) => m == n && cores.contains c
    | none => false)).map (fun t => t.1))

/-- A core's inactive bank is still being spilled or filled (R299). -/
def Package.bankBusy (k : Package) (core : Nat) : Bool :=
  (k.core core).inactive.any (fun c => match tfind k.teams c with
    | some t => t.place.isNone && !t.recDone && t.stop.isNone
    | none => false)

/-- A lane's outstanding remote read is redirected to the Booth slot (R298): the instruction has issued, and its result comes with the
response; a thread whose WAITM was arming is parked in it. `parts` is the lane's access, and every piece of it has been asked for, or is
held. -/
def State.redirect (s : State) (p ctx g l : Nat) (r : Req) (op : LateOp) (parts : List (Nat × Nat)) : State :=
  match s.team? p ctx with
  | none => s
  | some t =>
    let ls := (r.lanes.filter (fun x => t.visLane x.1 == t.visLane l)).map (·.1)
    let ea := ((r.lanes.find? (fun x => x.1 == l)).map (·.2)).getD 0
    let ent := (t.group g).ent r.pc
    let cl := if clauseEnds ent.clause r.pc then none else ent.clause
    let asked (b : Nat) : Bool := (s.pkg p).reqs.any (fun e => e.2.ctx == ctx && e.2.group == g && e.2.pc == r.pc && lineOf e.2.addr == lineOf b)
    let (dst, n) : Nat × Nat := match op with
      | .ld sz _ d => (d.toNat, sz.regs)
      | .lde f n d => (d.toNat, if f = 8 then 2 * n else n)
      | .atom ty _ d _ => (d.toNat, if ty.wide then 2 else 1)
      | .waitm d => (d.toNat, 1)
      | .answer => (0, 0)
    let wait := match op with
      | .waitm _ => false
      | _ => true
    let issue (x : Thread) : Thread := { x with
      pend := x.pend ++ [⟨dst, false, n, [], false, 0, r.pc, false, x.undo, none⟩], defCount := x.defCount + 1, specFail := false,
      st := if wait then x.st else .monitor ⟨lineOf r.addr, ea, none⟩, wait := if wait then some 0 else none, parkDue := r.park,
      region := if parts.any (fun b => homeOf b.1 != p) then x.region.map (fun y => { y with ops := y.ops + 1 }) else x.region }
    let s := ls.foldl (fun s j => s.modThread p ctx g j issue) s
    if !wait then s
    else
      let s := ls.foldl (fun s j => s.moveLane p ctx g j (r.pc + 8) cl) s
      s.modTeam p ctx (fun t => { (t.sweepEnts g) with late := t.late ++
        [⟨g, l, ls, r.pc, ea, op, parts, parts.map (fun b => if asked b.1 then none else some (s.seen p b.1 b.2)), [], none⟩] })

/-- Every lane of a team that waits for remote reads, at its switch: those whose access has been asked for whole. -/
def State.redirectAll (s : State) (p ctx : Nat) : State :=
  (s.pkg p).reqs.foldl (fun s e => match e.2.op with
    | none => s
    | some op =>
      if e.2.ctx ≠ ctx then s
      else e.2.parts.foldl (fun s x =>
        match s.team? p ctx with
        | none => s
        | some t =>
          let k := s.pkg p
          let th := t.thread e.2.group x.1
          let there (b : Nat × Nat) : Bool := (tfind k.copies (lineOf b.1)).isSome || k.reqs.any (fun q =>
            q.2.ctx == ctx && q.2.group == e.2.group && q.2.pc == e.2.pc && lineOf q.2.addr == lineOf b.1 && q.2.lanes.any (fun y => y.1 == x.1))
          if th.pc == e.2.pc && th.runs && th.wait.isNone && x.2.all there then s.redirect p ctx e.2.group x.1 e.2 op x.2 else s) s) s

/-- A team leaves its core (R296): its ports stop where they are, its unstarted copies leave their engine, and its task waits at the head
of its level (R306). -/
def State.leaveCore (s : State) (p ctx : Nat) : State :=
  match s.team? p ctx with
  | none => s
  | some t =>
    let s := (s.dropHolds p t.waitingCopies).redirectAll p ctx
    let s := s.modTeam p ctx (fun t => { t with
      place := none, last := t.coreOf 0, switchedAt := (s.pkg p).cycles s.clock, recDone := false, early := false,
      groups := tmap (fun _ g => g.idlePorts) t.groups,
      copies := t.copies.map (fun x => if x.started then x else { x with entered := false, dests := [] }) })
    match (s.pkg p).records.find? (fun e => e.2.inst == t.inst && e.2.st == .running) with
    | some (ix, r) => if t.stop.isSome then s else s.modPkg p (fun k => k.requeue r.prio ix)
    | none => s

/-- Every team resident on the cores that a pre-emption takes leaves them; their bank is inactive from now on. -/
def State.switchOut (s : State) (p core : Nat) : State :=
  let k := s.pkg p
  let cores := coresTaken core
  let ctxs := k.residents cores
  let on (c : Nat) : List Nat := ctxs.filter (fun x => match tfind k.teams x with
    | some t => match t.place with
      | some (e, _) => e == c || (t.tmpl.pair && e + 1 == c)
      | none => false
    | none => false)
  let s := ctxs.foldl (fun s c => s.leaveCore p c) s
  cores.foldl (fun s c => s.modCore p c (fun x =>
    { x with inactive := on c, overwritten := false, preempt := false, sliceEnd := none })) s

/-- The switch may be made: no inactive bank of the cores is being spilled or filled (R299). -/
def Package.maySwitch (k : Package) (core : Nat) : Bool := (coresTaken core).all (fun c => !k.bankBusy c)

/-- PREEMPT_SWITCH (R296): a pre-emption that has been asked for. -/
def execPreemptSwitch (p core : Nat) (s : State) : Host.Outcome State Fault Refusal :=
  .next (if (s.core p core).preempt && (s.pkg p).maySwitch core then s.switchOut p core else s)

/-! ### The spill (R299) -/

/-- An engine operation of R297 still writes the team's bank. -/
def State.bankWritten (s : State) (p ctx : Nat) (t : Team) : Bool :=
  t.copies.any (fun x => x.started) || t.mqs.any (fun m => m.started && !m.suspended && m.mayRun t) ||
    (s.pkg p).teams.any (fun x => x.2.copies.any (fun y => y.started && y.dests.any (fun d => d.ctx == ctx && d.inst == t.inst && !d.skip)))

/-- The place of a new record: the lowest one of the pool that meets no record of another team that is away (log entry 32). -/
def Package.recPlace (k : Package) (ctx size : Nat) : Option Nat :=
  let used := (k.teams.filter (fun t => t.1 != ctx && t.2.place.isNone && t.2.recAddr != 0)).map (fun t => (t.2.recAddr, t.2.recMap.size))
  let lo := (k.ctxPool.base + 4095) / 4096 * 4096
  ((lo :: used.map (fun u => (u.1 + u.2 + 4095) / 4096 * 4096)).filter (fun a =>
    decide (lo ≤ a) && decide (a + size ≤ k.ctxPool.base + k.ctxPool.size) && !used.any (fun u => decide (a < u.1 + u.2) && decide (u.1 < a + size)))).min?

/-- CONTEXT_SPILL (R299): the record is complete, once nothing writes the bank any more. -/
def execContextSpill (p ctx : Nat) (s : State) : Host.Outcome State Fault Refusal :=
  .next (match s.team? p ctx with
    | none => s
    | some t =>
      if t.place.isSome || t.recDone || t.stop.isSome || s.bankWritten p ctx t then s
      else
        match (s.pkg p).recPlace ctx t.recMap.size with
        | none => s
        | some a => ({ s with mem := s.mem.put a (s.recBytes p ctx t false) }).modTeam p ctx (fun t => { t with recDone := true, recAddr := a }))

/-! ### Resumption (R306) -/

/-- A halted thread's state as its record holds it (R263): the driver may have written it. -/
def Thread.fromRecord (x : Thread) (m : Mem) (th img dfb regs : Nat) : Thread :=
  let w := m.le th 4
  { x with
    preds := BitVec.ofNat 8 (w / 2 ^ 8 % 128 * 2), m := w / 2 ^ 5 % 2 == 1, pm := w / 2 ^ 6 % 2 == 1,
    fsr := BitVec.ofNat 5 (m.le (th + 4) 4), txCode := BitVec.ofNat 32 (m.le (th + 8) 4), txPc := BitVec.ofNat 64 (m.le (th + 24) 8),
    txAddr := BitVec.ofNat 64 (m.le (th + 32) 8), txInfo := BitVec.ofNat 64 (m.le (th + 40) 8),
    regs := (List.range regs).foldl (fun t r => if r = 0 then t else tput t r (BitVec.ofNat 32 (m.le (img + 4 * r) 4))) x.regs,
    dfb := (List.range regs).foldl (fun t r => if r = 0 then t else tput t r (m.le (dfb + r / 8) 1 / 2 ^ (r % 8) % 2 == 1)) x.dfb }

/-- The halted threads of a team are filled from its record. -/
def Team.fillHalted (t : Team) (m : Mem) : Team :=
  if !t.recDone then t
  else
    let r := t.recMap
    (List.range t.tmpl.groups).foldl (fun t g => t.lanes.foldl (fun t l =>
      if (t.thread g l).st != .halted then t
      else
        let n := g * t.width + l
        t.modGroup g (fun x => x.modThread l (fun y => y.fromRecord m (t.recAddr + r.toff + 512 * n)
          (t.recAddr + r.roff + 4 * t.tmpl.regs * n) (t.recAddr + r.doff + t.tmpl.regs / 8 * n) t.tmpl.regs))) t) t

/-- What follows a resumption for each parked thread (R306): monitors end with reason 3, tickets whose place holds go on, and a byte
barrier's completed phase is consumed. -/
def State.wakeResumed (s : State) (p ctx : Nat) : State :=
  match s.team? p ctx with
  | none => s
  | some t =>
    let s := (List.range t.tmpl.groups).foldl (fun s g => t.lanes.foldl (fun s l =>
      match (t.thread g l).st with
      | .monitor _ => s.wakeMonitor p ctx g l 3
      | .ticket h =>
        let die := (h.extractLsb' 61 3).toNat
        let held := match tfind (s.die p die).objs (h.extractLsb' 40 21).toNat with
          | some o => o.live && o.gen == h.extractLsb' 0 16 && o.places.any (fun x => x.seq == h.extractLsb' 16 24 && x.waiting)
          | none => false
        if held then s else s.modThread p ctx g l (fun x => { x with st := .runnable })
      | _ => s) s) s
    (List.range t.tmpl.bbc).foldl (fun s n => (List.range t.tmpl.groups).foldl (fun s g =>
      let phase := (t.bbar n).phase
      if (t.group g).gwp.getLsbD n != phase then s.releaseBbGroup p ctx n phase g else s) s) s

/-- TEAM_RESUME (R306): the pre-empted head of the level that R285 picks goes on, on its own core while its bank stands there, or on a core
whose inactive bank is filled from its record. -/
def execTeamResume (p ctx core slot : Nat) (s : State) : Host.Outcome State Fault Refusal :=
  let k := s.pkg p
  .next (match k.pickLevel with
    | none => s
    | some h =>
      match k.headOf h, s.team? p ctx with
      | some (ix, r), some t =>
        if r.ctx ≠ some ctx || !k.canResume ctx t core || !k.slotFree core slot || (t.tmpl.pair && !k.slotFree (core + 1) slot) || !k.ringReady then s
        else
          let cs := t.tmpl.coresAt core
          let own := (k.core core).inactive.contains ctx && !(k.core core).overwritten
          let early := own
          let s := s.putRec p ix (r.addCores cs)
          let s := (s.modPkg p (fun k => k.dequeue h ix)).modPkg p (fun k => k.countDispatch h)
          let s := s.setTeam p ctx { (t.fillHalted s.mem) with place := some (core, slot), early := early }
          -- a spill still running stops, and the record says so; one that is complete too
          let s : State := if early then
              match if t.recDone then some t.recAddr else (s.pkg p).recPlace ctx t.recMap.size with
              | some a => { s with mem := s.mem.put a (t.recHeader ctx t.recDone true) }
              | none => s
            else s
          let s := cs.foldl (fun s c => ((s.modCore p c (fun x => if own then x else { x with overwritten := true })).dropL1 p c).startSlice p c t.part) s
          let s := s.modPkg p (fun k => { k with cores := tmap (fun _ x => { x with inactive := x.inactive.filter (fun y => y != ctx) }) k.cores })
          ((s.wakeResumed p ctx).mergeLate p ctx).enterCopies p
      | _, _ => s)

/-! ### WAITM (R174) -/

/-- WAITM_TIMEOUT: the timeout of a parked WAITM expires. -/
def execWaitmTimeout (w : Where) (lane : Nat) (s : State) : Host.Outcome State Fault Refusal :=
  .next (match s.team? w.pkg w.ctx with
    | none => s
    | some t =>
      match (t.thread w.group lane).st with
      | .monitor m => match m.deadline with
        | some d => if t.place.isSome && t.stop.isNone && decide (d ≤ (s.pkg w.pkg).cycles s.clock) then s.wakeMonitor w.pkg w.ctx w.group lane 2 else s
        | none => s
      | _ => s)

/-! ### The end of a debug halt (R263) -/

/-- A lane whose halt ends continues at tx.pc, under the checks of R264; where a page that it needs is absent, it parks there, and
continues once the fault is answered. -/
def State.unhalt (s : State) (p ctx g l : Nat) : State :=
  match s.team? p ctx with
  | none => s
  | some t =>
    let x := t.thread g l
    let die := dieOf (t.coreOf g)
    let run (s : State) : State := s.modThread p ctx g l (fun x => { x with st := .runnable })
    let u : Iss := ⟨p, ctx, g, x.pc, ⟨x.pc, x.pc, 0, 0⟩, [l]⟩
    let fail (tr : Trap) (s : State) : State := ((run s).trap p ctx g l { tr with pc := x.txPc }).modTeam p ctx (fun t => t.sweepEnts g)
    match s.resumeAt p ctx die x.txPc x.txPc with
    | (.at cl, s) => ((run s).moveLane p ctx g l (x.txPc.setWidth 57) cl).modTeam p ctx (fun t => t.sweepEnts g)
    | (.trap tr, s) => fail tr s
    | (.bad e va, s) =>
      match u.badXl l va Access.fetch.kind e s with
      | (s, .trap tr) => fail tr s
      | (s, _) => (s.modThread p ctx g l (fun x => { x with st := .cont va Access.fetch.kind })).flushFaults p die

/-! ### Page-fault responses (R294) -/

def respVa (r : DWord) : Nat := r.toNat / 2 ^ 16 % 2 ^ 41
def respPart (r : DWord) : Nat := r.toNat / 2 ^ 8 % 8
def respAction (r : DWord) : Nat := r.toNat % 4

/-- A response matches a pending fault. -/
def Package.matches (k : Package) (r : DWord) : Bool :=
  k.dies.any (fun d => d.2.faults.any (fun f => f.part == respPart r && f.va.toNat / 65536 == respVa r))
/-- The pending faults that a response answers are no longer pending. -/
def Package.answerFaults (k : Package) (r : DWord) : Package :=
  { k with dies := tmap (fun _ d => { d with faults := d.faults.filter (fun f => !(f.part == respPart r && f.va.toNat / 65536 == respVa r)) }) k.dies }
/-- An address lies on the page of a response. -/
def onPage (r : DWord) (va : DWord) : Bool := va.toNat / 65536 == respVa r

/-- Every lane parked on the page of a response. -/
def Package.parked (k : Package) (r : DWord) : List (Nat × Nat × Nat × DWord) :=
  (k.teams.filter (fun t => t.2.part == respPart r)).flatMap (fun t => t.2.groups.flatMap (fun g => g.2.threads.flatMap (fun x =>
    match x.2.st with
    | .page va _ | .cont va _ => if onPage r va then [(t.1, g.1, x.1, va)] else []
    | _ => [])))

/-- A lane parked where its halt has ended. -/
def TSt.continues : TSt → Bool
  | .cont .. => true
  | _ => false

/-- FAULT_REPLAY (ACTION 0): every thread and command parked on the page goes on. -/
def execFaultReplay (p : Nat) (resp : DWord) (s : State) : Host.Outcome State Fault Refusal :=
  let on (x : Option DWord) : Option DWord := match x with
    | some va => if onPage resp va then none else some va
    | none => none
  .next (if respAction resp ≠ 0 || !(s.pkg p).matches resp then s
    else
      let hit := (s.pkg p).parked resp
      let ending := hit.filter (fun x => (s.thread p x.1 x.2.1 x.2.2.1).st.continues)
      let s := hit.foldl (fun s x => s.modThread p x.1 x.2.1 x.2.2.1 (fun t => if t.st.continues then t else { t with st := .runnable })) s
      let s := s.modPkg p (fun k => { (k.answerFaults resp) with
        teams := tmap (fun _ t => if t.part = respPart resp then { t with copies := t.copies.map (fun x => { x with page := on x.page }) } else t) k.teams,
        colls := k.colls.map (fun c => if c.part = respPart resp then { c with page := on c.page } else c) })
      ending.foldl (fun s x => match s.team? p x.1 with
        | none => s
        | some t => if t.stop.isSome then s else s.unhalt p x.1 x.2.1 x.2.2.1) s)

/-- A copy command on a page that cannot be serviced ends with STATUS 0x05; one that waits to write its record leaves it unwritten (R210,
R223). -/
def State.failCopyPage (s : State) (p ctx id : Nat) : State :=
  match s.team? p ctx with
  | none => s
  | some t =>
    match t.copies.find? (fun x => x.id == id) with
    | none => s
    | some x =>
      if x.ending then s.copyFinish p ctx t x (some 0x05)
      else s.modTeam p ctx (fun t => t.modCopy id (fun x => { (x.failWith 0x05 (x.page.getD 0) 0) with page := none }))

/-- The same of a collective: it aborts, unless only its record is left (R210, R234). -/
def State.failCollPage (s : State) (p : Nat) (c : Coll) : State :=
  if c.st = .aborted ∨ (c.st = .running ∧ c.steps = c.total) then s.collFinish p c (some 0x05)
  else (s.abortColl p c.handle 0x05 (c.page.getD 0)).modColl p c.handle (fun c => { c with page := none })

/-- FAULT_FAIL (ACTION 1): every thread parked on the page takes PERM at its instruction, and commands end. -/
def execFaultFail (p : Nat) (resp : DWord) (s : State) : Host.Outcome State Fault Refusal :=
  .next (if respAction resp ≠ 1 || !(s.pkg p).matches resp then s
    else
      let hit := (s.pkg p).parked resp
      let at' (t : Thread) : DWord := if t.st.continues then t.txPc else t.pc.setWidth 64
      let s := s.modPkg p (fun k => k.answerFaults resp)
      let s := hit.foldl (fun s x => match s.team? p x.1 with
        | none => s
        | some t =>
          if t.stop.isSome then s
          else
            let pc := at' (t.thread x.2.1 x.2.2.1)
            let s := s.modThread p x.1 x.2.1 x.2.2.1 (fun t => { t with st := .runnable })
            (s.trap p x.1 x.2.1 x.2.2.1 ⟨0x06, pc, some x.2.2.2, some 0x30⟩).modTeam p x.1 (fun t => t.sweepEnts x.2.1)) s
      let copies := (s.pkg p).teams.flatMap (fun t => if t.2.part = respPart resp then
        (t.2.copies.filter (fun x => x.page.any (onPage resp))).map (fun x => (t.1, x.id)) else [])
      let s := copies.foldl (fun s x => s.failCopyPage p x.1 x.2) s
      ((s.pkg p).colls.filter (fun c => c.part == respPart resp && c.page.any (onPage resp))).foldl (fun s c => s.failCollPage p c) s)

/-- FAULT_RESPONSE_RESERVED (ACTION 2 or 3): the response is dropped, with a record (R294, R352). -/
def execFaultResponseReserved (p : Nat) (resp : DWord) (s : State) : Host.Outcome State Fault Refusal :=
  .next (if respAction resp < 2 then s else s.event p 8 (pkgRec 0x15 1 (dataAt [(32, leBytes 8 resp.toNat)])))

end Sys2Proof.Machine
end

