-- ==== Sys2Proof/Machine/Wheel.lean ====
section
/-! DEFINITION. The Big Wheel's windows and the Barker (R279, R295, R353, R355, R369, R380). -/

namespace Sys2Proof.Machine

/-! ### The Big Wheel (R353) -/

/-- A rotation, a window of it, and the scan patterns of a window, in nanoseconds. -/
def rotationNs : Nat := 1280000
def windowNs : Nat := 20000
def scanNs : Nat := 18000

/-- The rotations of a die's wheel begin where they did, or where its first window, of a core that begins now, puts them. -/
def State.wheelOf (s : State) (p core : Nat) : Nat :=
  ((s.die p (dieOf core)).wheel).getD ((s.time + rotationNs - windowNs * (core % 64)) % rotationNs)

/-- WHEEL_WINDOW: the window of a core that takes part in dispatch begins, window k being that of core k of its die. Its teams are
pre-empted, and the scan patterns start; while its inactive bank is being spilled or filled, the window waits for the pre-emption. -/
def execWheelWindow (p core : Nat) (s : State) : Host.Outcome State Fault Refusal :=
  let x := s.core p core
  let phase := s.wheelOf p core
  let begins := (s.time + rotationNs - phase) % rotationNs == windowNs * (core % 64)
  .next (if 384 ≤ core || !(s.pkg p).sdReady.getLsbD (16 + dieOf core) || x.outOfDispatch || x.scanning.isSome || !(begins || x.windowLate) then s
    else
      let s := s.modDie p (dieOf core) (fun d => { d with wheel := some phase })
      if (s.pkg p).maySwitch core then
        (s.switchOut p core).modCore p core (fun x => { x with windowLate := false, scanning := some ((s.pkg p).cycles s.clock, s.time) })
      else s.modCore p core (fun x => { x with windowLate := true }))

/-- The scan of a core whose patterns have all run: sv.clock at its start. -/
def State.scanned (s : State) (p core : Nat) : Option Nat :=
  match (s.core p core).scanning with
  | some (c, t) => if t + scanNs ≤ s.time then some c else none
  | none => none

/-- SCAN_PASS: the horizon becomes the clock at which the scan began, and certifications follow (R279). -/
def execScanPass (p core : Nat) (s : State) : Host.Outcome State Fault Refusal :=
  .next (match s.scanned p core with
    | none => s
    | some t => (s.modCore p core (fun x => { x with scanning := none, horizon := t, scans := sat 64 x.scans })).certify p)

/-- The instances whose results a failed core may have spoilt: DONE records of tasks that ran there and completed after its last pass. -/
def Package.spoilt (k : Package) (core : Nat) : List (BitVec 40) :=
  (k.records.filter (fun e => e.2.st == .done && e.2.cores.contains core && decide ((k.core core).horizon < e.2.tdone))).map (fun e => e.2.inst)

/-- SCAN_FAIL records of a list of instances, four to a record (R369). -/
def scanFailRecs (core : Nat) : Nat → List (BitVec 40) → List Rec
  | 0, _ => []
  | fuel + 1, is =>
    let now := is.take 4
    let more := is.drop 4
    { pkgRec 0x12 (now.length + (if more.isEmpty then 0 else 2 ^ 31)) (now.flatMap (fun i => leBytes 8 i.toNat)) with core := core } ::
      (if more.isEmpty then [] else scanFailRecs core fuel more)

/-- SCAN_FAIL: the core leaves dispatch until the next reset, and the instances that it may have spoilt are named and take CERT = 2. -/
def execScanFail (p core : Nat) (s : State) : Host.Outcome State Fault Refusal :=
  .next (match s.scanned p core with
    | none => s
    | some _ =>
      let is := (s.pkg p).spoilt core
      let s := s.modCore p core (fun x => { x with scanning := none, outOfDispatch := true })
      let s := (scanFailRecs core (is.length / 4 + 1) is).foldl (fun s r => s.event p 8 r) s
      s.certify p)

/-! ### The Barker (R355) -/

/-- The teams resident on a core, in ascending order of their team slots. -/
def Package.residentOn (k : Package) (core : Nat) : List (Nat × Team) :=
  (List.range 32).flatMap (fun n => k.teams.filter (fun t => match t.2.place with
    | some (c, m) => m == n && (c == core || (t.2.tmpl.pair && c + 1 == core))
    | none => false))

/-- Some lane of a team that runs on a core is halted (R263). -/
def Team.haltedOn (t : Team) (core : Nat) : Bool :=
  t.groups.any (fun g => t.coreOf g.1 == core && g.2.threads.any (fun x => x.2.st == .halted))

/-- BARKER_TIMEOUT: no sink event on a core with a resident team for BARK.INT microseconds. One HANG record, and the interval restarts. -/
def execBarkerTimeout (p core : Nat) (s : State) : Host.Outcome State Fault Refusal :=
  let k := s.pkg p
  let ts := k.residentOn core
  .next (if ts.isEmpty ∨ k.barkInt = 0 ∨ s.time < (k.core core).lastSink + k.barkInt.toNat * 1000 ∨ ts.any (fun t => t.2.haltedOn core) then s
    else
      let named := ts.take 6
      (s.event p 8 { pkgRec 0x13 named.length (named.flatMap (fun t => leBytes 5 t.2.inst.toNat)) with core := core }).modCore p core
        (fun x => { x with lastSink := s.time, hangs := sat 64 x.hangs }))

end Sys2Proof.Machine
end

