-- ==== Sys2Proof/Machine/Driver.lean ====
section
/-! DEFINITION. The driver commands of the command FIFO (R350), with the page migration that they start and end (R74, R311), the scrub of a
poisoned line (R330), the end of a debug halt (R263), and CMD.STAT. -/

namespace Sys2Proof.Machine

/-! ### The FIFO (R350) -/

def cmdOp (c : List Byte) : Nat := blkLe c 0 2
def cmdPart (c : List Byte) : Nat := blkByte c 2
def cmdArg0 (c : List Byte) : Nat := blkLe c 8 8
def cmdArg1 (c : List Byte) : Nat := blkLe c 16 8
def cmdCookie (c : List Byte) : DWord := BitVec.ofNat 64 (blkLe c 24 8)

/-- The head of the FIFO, when its OP is the one given. -/
def Package.cmdHead (k : Package) (op : Nat) : Option (List Byte) := k.cmdFifo.head?.filter (fun c => cmdOp c == op)

/-- CMD_DONE: 0 done, 1 bad argument (R380). -/
def cmdDone (op status : Nat) (cookie : DWord) : Rec := pkgRec 0x14 status (dataAt [(32, leBytes 2 op), (56, leBytes 8 cookie.toNat)])

/-- The head leaves the FIFO. -/
def Package.cmdPop (k : Package) : Package := { k with cmdFifo := k.cmdFifo.tail }

/-- A command at the head of the FIFO: `f` gives its status and its effect, or none while it has to wait. It leaves the FIFO and ends with
CMD_DONE. -/
def State.command (s : State) (p op : Nat) (f : List Byte → State → Option (Nat × State)) : State :=
  match (s.pkg p).cmdHead op with
  | none => s
  | some c =>
    match f c s with
    | none => s
    | some (status, s) => (s.modPkg p Package.cmdPop).event p 8 (cmdDone (cmdOp c) status (cmdCookie c))

/-- A bad argument: nothing happens. -/
def badArg (s : State) : Option (Nat × State) := some (1, s)

/-! ### Tasks and cores -/

/-- The record of an instance, as a command names it. -/
def Package.recOf (k : Package) (a : Nat) : Option (Nat × TRec) :=
  if 2 ^ 40 ≤ a then none else k.records.find? (fun e => e.2.inst == BitVec.ofNat 40 a && e.2.st != .free)

/-- CANCEL: a WAITING or READY task fails with FCODE 0, and leaves the ready pool. -/
def execCancel (p : Nat) (s : State) : Host.Outcome State Fault Refusal :=
  .next (s.command p 1 (fun c s => match (s.pkg p).recOf (cmdArg0 c) with
    | some (ix, r) =>
      if r.st = .waiting ∨ r.st = .ready then
        some (0, ((s.putRec p ix { r with st := .failed, fcode := 0 }).modPkg p (fun k => k.dequeue r.prio ix)).checkCerts p)
      else badArg s
    | none => badArg s))

/-- FREE: a FAILED record retires. -/
def execFree (p : Nat) (s : State) : Host.Outcome State Fault Refusal :=
  .next (s.command p 2 (fun c s => match (s.pkg p).recOf (cmdArg0 c) with
    | some (ix, r) =>
      if r.st = .failed then
        some (0, (((s.putRec p ix { r with st := .free }).retireAt p r.inst).modPkg p (fun k => k.sendAll p (.retire r.inst))).checkCerts p)
      else badArg s
    | none => badArg s))

/-- PREEMPT (R295). -/
def execPreempt (p : Nat) (s : State) : Host.Outcome State Fault Refusal :=
  .next (s.command p 3 (fun c s =>
    let core := cmdArg0 c % 512
    if 384 ≤ core then badArg s else some (0, s.modCore p core (fun x => { x with preempt := true }))))

/-- SLICE. -/
def execSlice (p : Nat) (s : State) : Host.Outcome State Fault Refusal :=
  .next (s.command p 4 (fun c s =>
    if 7 < cmdPart c then badArg s else some (0, s.modPkg p (fun k => { k with slice := tput k.slice (cmdPart c) (cmdArg0 c) }))))

/-! ### Migration (R311) -/

/-- The page and its new place can be migrated: 64 KiB pages of the space, the old one at home here and not already forwarded. -/
def Package.migrates (k : Package) (p old new : Nat) : Bool :=
  old % 65536 == 0 && new % 65536 == 0 && old != new && homeOf old == p && decide (old < 2 ^ 52) && decide (new < 2 ^ 52) &&
    k.inSpace p old && k.inSpace p new && !k.migr.any (fun m => m.old == old || m.new == new)

/-- A line is locked for migration: L is set once no copy of it is left; the recalls go out first. A poisoned line stays in P. -/
def State.lockLine (s : State) (a : Nat) : State :=
  if s.poisoned a || s.locked a then s
  else if (s.pkg (homeOf a)).avail (llineOf a) true then s.setDir a ⟨0, 0, 0, .l, (s.dirOf a).dies⟩
  else s.openWant ⟨a, true, 0⟩

/-- MIGRATE: L is set on each line of the page, as soon as its copies have been recalled; once all are locked the command leaves the FIFO. It
ends at the switch. -/
def execMigrate (p : Nat) (s : State) : Host.Outcome State Fault Refusal :=
  .next (match (s.pkg p).cmdHead 5 with
    | none => s
    | some c =>
      let old := cmdArg0 c
      let begun := (s.pkg p).migr.any (fun m => !m.switched && m.old == old && m.new == cmdArg1 c && m.locking)
      if !begun && !(s.pkg p).migrates p old (cmdArg1 c) then s.command p 5 (fun _ s => badArg s)
      else
        let s := if begun then s else s.modPkg p (fun k => { k with migr := k.migr ++ [⟨old, cmdArg1 c, false, cmdCookie c, [], true⟩] })
        let s := (pageLines old).foldl (fun s a => s.lockLine a) s
        if (pageLines old).all (s.pkg p).lineStill then
          s.modPkg p (fun k => { k.cmdPop with migr := k.migr.map (fun m => { m with locking := false }) })
        else s)

/-- ENDFWD: the forwarding of an old page ends; nothing of it is held anywhere. -/
def execEndfwd (p : Nat) (s : State) : Host.Outcome State Fault Refusal :=
  .next (s.command p 6 (fun c s =>
    let old := cmdArg0 c
    if !(s.pkg p).migr.any (fun m => m.switched && m.old == old) then badArg s
    else some (0, s.modPkg p (fun k => { k with migr := k.migr.filter (fun m => m.old != old) }))))

/-! ### Cells and lines -/

/-- DEAD (R327). -/
def execDead (p : Nat) (s : State) : Host.Outcome State Fault Refusal :=
  .next (s.command p 7 (fun c s =>
    let cell := cmdArg0 c % 64
    if ((s.pkg p).cellMembers cell).isEmpty then badArg s else some (0, s.declareDead p cell 1)))

/-- SCRUB (R330): `host` is the 128 bytes at the host address; the line leaves P with them. -/
def execScrub (p : Nat) (host : List Byte) (s : State) : Host.Outcome State Fault Refusal :=
  .next (s.command p 8 (fun c s =>
    let a := cmdArg0 c
    if a % 128 ≠ 0 ∨ 2 ^ 52 ≤ a ∨ homeOf a ≠ p ∨ !s.poisoned a then badArg s
    else some (0, (s.setDir a ⟨0, 0, 0, .i, 0⟩).writeLine a (padTo 128 host))))

/-! ### Debug (R263) -/

/-- DBGHALT: the partition's debug halt. -/
def execDbghalt (p : Nat) (s : State) : Host.Outcome State Fault Refusal :=
  .next (s.command p 9 (fun c s =>
    if 7 < cmdPart c then badArg s
    else
      let bit : BitVec 8 := (1 : BitVec 8) <<< cmdPart c
      some (0, s.modPkg p (fun k => { k with dbgh := if cmdArg0 c % 2 = 1 then k.dbgh ||| bit else k.dbgh &&& ~~~ bit }))))

/-- A lane's TKWAIT is parked on an object of a Booth. -/
def TSt.onObj (die obj : Nat) : TSt → Bool
  | .ticket h => hBooth h == die && hObj h == obj
  | _ => false

/-- Every TKWAIT parked on an object is tried again, and fails with reason 1. -/
def Package.wakeObj (k : Package) (die obj : Nat) : Package :=
  { k with teams := tmap (fun _ (t : Team) => if t.place.isNone then t else
      { t with groups := tmap (fun _ (g : Group) => { g with threads := tmap (fun _ (x : Thread) =>
          if x.st.onObj die obj then { x with st := .runnable } else x) g.threads }) t.groups }) k.teams }

/-- HELD_RELEASED with CODE 1 for a HOLDER place of an object that is removed. -/
def State.reportRemoved (s : State) (p die obj : Nat) (o : Obj) (x : Place) : State :=
  match s.team? p x.ctx with
  | some t => s.event p (ringOf o.part t.driver) (heldReleased o.part 1 t.inst (t.coreOf (x.thr / 64)) (x.thr % 64) die obj o.gen x.seq)
  | none => s.event p o.part (heldReleased o.part 1 0 0xFFFF 0xFF die obj o.gen x.seq)

/-- OBJDEL: every place is unlinked, and the object is no longer LIVE. -/
def execObjdel (p : Nat) (s : State) : Host.Outcome State Fault Refusal :=
  .next (s.command p 10 (fun c s =>
    let h : DWord := BitVec.ofNat 64 (cmdArg0 c)
    let die := hBooth h
    match (if 5 < die then none else tfind (s.die p die).objs (hObj h)) with
    | none => badArg s
    | some o =>
      if !o.live || o.gen != hGen h || hSeq h != 0 || o.part != cmdPart c then badArg s
      else
        let s := s.modDie p die (fun d => { d with objs := tput d.objs (hObj h) { o with places := [], live := false, skipping := false } })
        let s := (o.places.filter (fun x => x.holder)).foldl (fun s x => s.reportRemoved p die (hObj h) o x) s
        some (0, s.modPkg p (fun k => k.wakeObj die (hObj h)))))

/-- The halted lanes of a group. -/
def Team.haltedLanes (t : Team) (g : Nat) : List Nat := t.lanes.filter (fun l => (t.thread g l).st == .halted)

/-- DBGCONT: every halted lane of the group continues; the driver may have written its state in the record of a team that is not resident. -/
def execDbgcont (p : Nat) (s : State) : Host.Outcome State Fault Refusal :=
  .next (s.command p 11 (fun c s =>
    let g := cmdArg1 c % 32
    match (s.pkg p).teams.find? (fun t => t.2.inst.toNat == cmdArg0 c && t.2.stop.isNone) with
    | none => badArg s
    | some (ctx, t) =>
      if t.tmpl.groups ≤ g ∨ (t.haltedLanes g).isEmpty then badArg s
      else
        let s := if t.place.isNone then s.setTeam p ctx (t.fillHalted s.mem) else s
        -- the lanes continue one after another, as long as the team has not been stopped
        some (0, (t.haltedLanes g).foldl (fun s l =>
          if ((s.team? p ctx).bind (fun t => t.stop)).isSome then s else s.unhalt p ctx g l) s)))

/-! ### Other commands, and CMD.STAT -/

/-- A command whose OP is not assigned is rejected with status 1. -/
def execCmdBadOp (p : Nat) (s : State) : Host.Outcome State Fault Refusal :=
  .next (match (s.pkg p).cmdFifo with
    | [] => s
    | c :: _ => if 1 ≤ cmdOp c ∧ cmdOp c ≤ 11 then s else s.command p (cmdOp c) (fun _ s => badArg s))

/-- CMD.STAT is written: bit 16 is W1C. -/
def execCmdStatWrite (p : Nat) (v : Word) (s : State) : Host.Outcome State Fault Refusal :=
  .next (if v.getLsbD 16 then s.modPkg p (fun k => { k with cmdOvf := false }) else s)

end Sys2Proof.Machine
end

