-- ==== Sys2Proof/Machine/Fabric.lean ====
section
/-! DEFINITION. The Carousel (R331 to R347, R374, R375, R379): IDLE and REPLAY flits, relay, the pick of a link, connections and slots, loss
and return of light, and the schedule. -/

namespace Sys2Proof.Machine

/-! ### Records of a link -/

/-- A LINK_LIGHT record: the feed lost, the feeds left after the event, and the flits replayed (R369). -/
def lightRec (i fibre : Nat) (live : BitVec 4) (n : Nat) : Rec :=
  pkgRec 0x10 0 (dataAt [(32, leBytes 2 i), (34, leBytes 1 fibre), (35, leBytes 1 live.toNat), (36, leBytes 4 n)])
/-- The package posts a LINK_LIGHT record, which the link's LIGHT counter counts (R369, R371). -/
def State.lightEvent (s : State) (p i fibre : Nat) (live : BitVec 4) (n : Nat) : State :=
  (s.modLink p i (fun x => { x with light := sat 32 x.light })).event p 8 (lightRec i fibre live n)
/-- The record of a re-striping whose replay has ended or yields (R346, R375). -/
def State.lightDone (s : State) (p i : Nat) : State :=
  match ((s.pkg p).link i).lightLog with
  | none => s
  | some (fibre, live, n) => (s.modLink p i (fun x => { x with lightLog := none })).lightEvent p i fibre live n
/-- The feed lost first since the last re-striping, and the feeds left after the last loss. -/
def Link.lostLog (l : Link) : Option (Nat × BitVec 4) :=
  match l.lost with
  | [] => none
  | f :: fs => some (f.1, ((f :: fs).getLastD f).2)
/-- The record of losses that no replay follows (R346, R375). -/
def State.lostDone (s : State) (p i : Nat) : State :=
  match ((s.pkg p).link i).lostLog with
  | none => s
  | some (fibre, live) => (s.modLink p i (fun x => { x with lost := [] })).lightEvent p i fibre live 0

/-- Flits not acknowledged return to the heads of their send queues, in LSEQ order (R339, R346). -/
def State.unsend (s : State) (p i : Nat) : State :=
  let l := (s.pkg p).link i
  (l.replay.foldr (fun f (s : State) => s.modPkg p (fun k =>
    { k with sendq := tput k.sendq (sqKey f.dst f.ch) (f :: tget [] k.sendq (sqKey f.dst f.ch)) })) s).modLink p i
      (fun x => { x with replay := [], resend := 0 })

/-! ### Link-local flits -/

/-- FLIT_IDLE (R336): acknowledgement and credit. -/
def execFlitIdle (p link : Nat) (s : State) : Host.Outcome State Fault Refusal :=
  .next (s.takeFlit p link (fun f => f.type == 0)).2

/-- Everything unacknowledged is to be sent again, oldest first (R338). -/
def Link.replayAll (l : Link) : Link := { l with resend := l.replay.length }

/-- FLIT_REPLAY_REQUEST (R338). -/
def execFlitReplayRequest (p link : Nat) (s : State) : Host.Outcome State Fault Refusal :=
  .next (match s.takeFlit p link (fun f => f.type == 7) with
    | (some _, s) => s.modLink p link Link.replayAll
    | (none, s) => s)

/-- RELAYED_FLIT (R343): a flit for another package enters the queue for it, ahead of the own flits; a flit of a dead cell is dropped
(R327). -/
def execRelayedFlit (p link : Nat) (s : State) : Host.Outcome State Fault Refusal :=
  .next (match s.takeFlit p link (fun f => f.sequenced && f.dst != p) with
    | (some f, s) =>
      if (s.pkg p).dead f.src then s
      else s.modPkg p (fun k =>
        { k with sendq := tput k.sendq (sqKey f.dst f.ch) (tget [] k.sendq (sqKey f.dst f.ch) ++ [{ f with hop := 1 }]) })
    | (none, s) => s)

/-- LINK_REPLAY_TIMEOUT (R338): 2 µs without an advance of LACK. -/
def execLinkReplayTimeout (p link : Nat) (s : State) : Host.Outcome State Fault Refusal :=
  let l := (s.pkg p).link link
  .next (if l.conn && !l.replay.isEmpty && decide (l.ackAt + 2000 ≤ s.time) then
      s.modLink p link (fun x => { x.replayAll with ackAt := s.time })
    else s)

/-! ### The pick of a link (R342) -/

/-- A link carries flits in this slot. -/
def Link.live (l : Link) : Bool := l.conn && l.tuse != 0 && l.lost.isEmpty
/-- A live link that carries more than IDLE (R341). -/
def Link.open' (l : Link) : Bool := l.live && !l.idleOnly

/-- Requests to a destination that have left and are not answered (R325). -/
def Package.outstanding (k : Package) (q : Nat) : Nat := (k.reqs.filter (fun r => r.2.dst == q && r.2.left)).length

/-- The flit of a queue that may go next: relayed flits first (R343); a request beyond 4,096 outstanding waits (R325). -/
def Package.queueHead (k : Package) (q ch : Nat) : Option Flit :=
  let fs := tget [] k.sendq (sqKey q ch)
  match fs.find? (fun f => f.hop == 1) with
  | some f => some f
  | none =>
    match fs with
    | [] => none
    | f :: _ => if f.type = 1 ∧ 4096 ≤ k.outstanding q then none else some f

/-- A channel whose queue to a destination has a flit, for which a link holds a credit. -/
def Package.ready (k : Package) (l : Link) (q ch : Nat) : Bool := (k.queueHead q ch).isSome && tget 0 l.credits ch != 0

/-- A link counts as not direct: its direction is down (R346), or its peer is not the one that the schedule names (R341). -/
def Link.notDirect (l : Link) : Bool := l.idleOnly || (if l.conn then l.tuse == 0 else l.tlive == 0)
/-- A destination is direct in the current slot by the schedule (R342). -/
def Package.directNow (k : Package) (p : Nat) (g : SchedImage) (q : Nat) : Bool :=
  g.ents.any (fun e => e.1 == p && e.2.1 == k.slotNo % 8 && e.2.2.2 == q && !(k.link e.2.2.1).notDirect)

/-- The links that could relay to a destination on a channel: their peer is direct to it in the next slot (R342). -/
def Package.relays (k : Package) (g : SchedImage) (q ch : Nat) : List (Nat × Nat) :=
  (k.links.filter (fun l => l.2.open' && tget 0 l.2.credits ch != 0 && g.direct l.2.peer q (k.slotNo + 1))).map
    (fun l => (l.1, tget 0 l.2.credits ch))
/-- Most credits, then the lowest link. -/
def bestRelay : List (Nat × Nat) → Option Nat
  | [] => none
  | x :: xs => some (xs.foldl (fun b y => if b.2 < y.2 then y else b) x).1

/-- The destination and channel of the relayed flit that a link takes: destinations in round-robin order (R342). -/
def Package.relayPick (k : Package) (p i : Nat) (g : SchedImage) : Option (Nat × Nat) :=
  let start := tget 0 k.rr i + 1
  let qs := (List.range 256).map (fun n => (start + n) % 256)
  (qs.flatMap (fun q => (List.range 7).map (fun c => (q, c)))).find? (fun x =>
    let q := x.1
    let ch := x.2
    match tget [] k.sendq (sqKey q ch), k.queueHead q ch with
    | _ :: _, some f => f.hop == 0 && q != p && !k.directNow p g q && !g.direct p q (k.slotNo + 1) &&
        bestRelay (k.relays g q ch) == some i
    | _, _ => false)

/-- The first flit equal to one leaves a queue. -/
def dropFlit (f : Flit) : List Flit → List Flit
  | [] => []
  | x :: xs => if x = f then xs else x :: dropFlit f xs

/-- A new flit goes out on a link: it takes a credit and the next LSEQ, and stays in the replay buffer (R336, R337, R374). The first
departure of a request starts its clock (R322). -/
def State.sendNew (s : State) (p i : Nat) (f : Flit) : State :=
  let l := (s.pkg p).link i
  let f' : Flit := { f with lseq := l.txSeq }
  let s := s.modPkg p (fun k =>
    let fs := dropFlit f (tget [] k.sendq (sqKey f.dst f.ch))
    { k with
      sendq := if fs.isEmpty then tdel k.sendq (sqKey f.dst f.ch) else tput k.sendq (sqKey f.dst f.ch) fs,
      sentAt := if f.src = p then tput k.sentAt f.dst s.time else k.sentAt,
      reqs := if f.src = p ∧ f.type = 1 then tmap (fun _ r =>
        if r.dst == f.dst && r.eseq == f.eseq && !r.left then { r with left := true, deadline := s.time + r.tmo } else r) k.reqs else k.reqs,
      relayed := if f.dst = l.peer then k.relayed else tput k.relayed l.peer (tget [] k.relayed l.peer ++ [f]),
      rr := if f.dst = l.peer then k.rr else tput k.rr i f.dst })
  (s.modLink p i (fun x => { x with
    credits := tput x.credits f.ch (tget 0 x.credits f.ch - 1), txSeq := (x.txSeq + 1) % 4096,
    ackAt := if x.replay.isEmpty then s.time else x.ackAt, replay := x.replay ++ [f'] })).putWire p i f'

/-- A flit of the link itself. -/
def localFlit (p type : Nat) (l : Link) : Flit := { type := type, ch := 7, hop := 0, dst := l.peer, src := p, body := .none }

/-- The next flit of the replay buffer is sent again (R338, R374). -/
def State.sendAgain (s : State) (p i : Nat) : State :=
  let l := (s.pkg p).link i
  match l.replay.drop (l.replay.length - l.resend) with
  | [] => s.modLink p i (fun x => { x with resend := 0 })
  | f :: _ =>
    let s := (s.modLink p i (fun x => { x with resend := x.resend - 1, rply := sat 64 x.rply,
                                               lightLog := x.lightLog.map (fun y => (y.1, y.2.1, y.2.2 + 1)) })).putWire p i f
    if ((s.pkg p).link i).resend = 0 then s.lightDone p i else s

/-- The head of a queue has been relayed once. -/
def Package.relayedHead (k : Package) (q ch : Nat) : Bool := (k.queueHead q ch).any (fun f => f.hop == 1)

/-- A link takes a new flit: one for its peer first, on any channel that has a credit, a relayed one ahead of the package's own (R343);
else one to relay (R342). -/
def State.pickNew (s : State) (p i : Nat) : Option State :=
  let k := s.pkg p
  let l := k.link i
  let ready := (List.range 7).filter (k.ready l l.peer)
  match (if ready.any (k.relayedHead l.peer) then ready.filter (k.relayedHead l.peer) else ready) with
  | c :: cs =>
    let (n, s) := s.choose (cs.length + 1)
    (k.queueHead l.peer ((c :: cs).getD n c)).map (s.sendNew p i)
  | [] =>
    match k.sched with
    | none => none
    | some g =>
      match k.relayPick p i g with
      | none => none
      | some (q, ch) => (k.queueHead q ch).map (s.sendNew p i)

/-- LINK_PICK (R342): a live link takes a flit: a REPLAY, a flit to send again, a new one while the slot is open to them, or an IDLE. -/
def execLinkPick (p link : Nat) (s : State) : Host.Outcome State Fault Refusal :=
  let k := s.pkg p
  let l := k.link link
  let idle (s : State) : State := if l.dueIdle then s.putWire p link (localFlit p 0 l) else s
  .next (if !l.live || k.slotNo != s.slot || decide (9500 ≤ s.intoSlot) || !(k.phase == .open_ || k.phase == .drain) then s
    else if l.idleOnly then idle s
    else if l.dueReplay then (s.modLink p link (fun x => { x with dueReplay := false })).putWire p link (localFlit p 7 l)
    else if l.resend ≠ 0 then s.sendAgain p link
    else if k.phase = .open_ ∧ s.intoSlot < 8500 ∧ l.replay.length < 2048 then (s.pickNew p link).getD (idle s)
    else idle s)

/-! ### Slots and connections (R339, R341, R345) -/

/-- A heartbeat is due to a peer in its last direct slot of the rotation, when nothing sequenced has left for it since that slot of the
rotation before (R345). -/
def State.heartbeatDue (s : State) (p q : Nat) (g : SchedImage) : Bool :=
  let n := s.slot
  let later := (List.range 8).any (fun j => decide (n % 8 < j) && g.direct p q j)
  let start := n * 10000
  (s.pkg p).member q && !later && (match tfind (s.pkg p).sentAt q with
    | some t => decide (t + 70000 < start)
    | none => true)

/-- CONNECTION_START (R339, R341): a link connects to the peer that the schedule gives it; its first flit is an IDLE. -/
def execConnectionStart (p link : Nat) (s : State) : Host.Outcome State Fault Refusal :=
  let k := s.pkg p
  .next (match k.sched with
    | none => s
    | some g =>
      let fresh := k.phase == .closed || k.phase == .guard
      if 128 ≤ link ∨ 8500 ≤ s.intoSlot ∨ (!fresh ∧ (k.slotNo ≠ s.slot ∨ k.phase ≠ .open_)) ∨ (!fresh ∧ (k.link link).conn) then s
      else
        let s := s.modPkg p (fun k => { k with phase := .open_, slotNo := s.slot })
        match g.peer? p s.slot link with
        | none => s.modLink p link (fun x => { x with conn := false, peer := 0 })
        | some q =>
          let light := ((s.pkg q).link link).tlive
          let s := s.modLink p link (fun x => { x with
            peer := q, conn := true, rlive := light, tuse := x.tlive, ruse := light, credits := [],
            owed := (List.range 7).map (fun c => (c, 128)), lastCr := 6, txSeq := 0, rxSeq := 0, replay := [], resend := 0,
            dropping := false, checked := false, idleOnly := false, lost := [], lightLog := none, dueIdle := false, dueReplay := false })
          -- nothing of an earlier connection reaches the peer any more
          let s := s.modLink q link (fun x => { x with wire := [] })
          let l := (s.pkg p).link link
          let s := if l.tuse = 0 then s else s.putWire p link (localFlit p 0 l)
          if s.heartbeatDue p q g then
            (s.send p q .heartbeat).modPkg p (fun k => { k with sentAt := tput k.sentAt q s.time })
          else s)

/-- SLOT_DRAIN (R339): new flits stop. -/
def execSlotDrain (p : Nat) (s : State) : Host.Outcome State Fault Refusal :=
  let k := s.pkg p
  .next (if k.phase = .open_ ∧ (k.slotNo < s.slot ∨ 8500 ≤ s.intoSlot) then s.modPkg p (fun k => { k with phase := .drain }) else s)

/-- SLOT_GUARD (R339): what is not acknowledged returns to the send queues, and every connection ends; a replay that has not finished yields
(R346, R375). -/
def execSlotGuard (p : Nat) (s : State) : Host.Outcome State Fault Refusal :=
  let k := s.pkg p
  .next (if (k.phase = .open_ ∨ k.phase = .drain) ∧ (k.slotNo < s.slot ∨ 9500 ≤ s.intoSlot) then
      (k.links.foldl (fun (s : State) l =>
        (((s.lightDone p l.1).lostDone p l.1).unsend p l.1).modLink p l.1 (fun x =>
          { x with conn := false, idleOnly := false, dueIdle := false, dueReplay := false })) s).modPkg p (fun k => { k with phase := .guard })
    else s)

/-! ### Light (R346) -/

def feedBit (f : Nat) : BitVec 4 := (1 : BitVec 4) <<< (f % 4)

/-- Flits in flight on a direction that has lost a feed: each of those that were striped over it is lost, or fails its FCRC, by a free
choice; how many of them are still on the fibres is a free choice too (R346). -/
def State.hitFlits (feed : BitVec 4) : List Flit → State → List Flit × State
  | [], s => ([], s)
  | f :: fs, s =>
    let (x, s) : Nat × State := if f.feeds &&& feed = 0 then (2, s) else s.choose 2
    let (rest, s) := State.hitFlits feed fs s
    (if x = 0 then rest else if x = 1 then { f with fcrc := ~~~ f.fcrc } :: rest else f :: rest, s)
def State.hitWire (s : State) (q i : Nat) (feed : BitVec 4) : State :=
  let w := ((s.pkg q).link i).wire
  let (n, s) := s.choose (w.length + 1)
  let (hit, s) := State.hitFlits feed (w.drop n) s
  s.modLink q i (fun x => { x with wire := w.take n ++ hit })

/-- LINK_DOWN: 0 for the transmit direction, 1 for the receive direction (R380). -/
def State.linkDown (s : State) (p link dir : Nat) : State := s.event p 8 (pkgRec 0x11 0 (dataAt [(32, leBytes 2 link), (34, leBytes 1 dir)]))

/-- The feeds that the current connection stripes over, less those lost since. -/
def Link.using (l : Link) : BitVec 4 := l.lost.foldl (fun m f => m &&& ~~~ (feedBit f.1)) l.tuse

/-- LIGHT_LOSS (R346): a transmit feed of a link is lost. Where the current connection uses it, sending stops until the re-striping; with no
feed left to the connection the direction is down. A loss that no re-striping follows is reported at once (log entry 94). -/
def execLightLoss (p link fibre : Nat) (s : State) : Host.Outcome State Fault Refusal :=
  let l := (s.pkg p).link link
  let f := fibre % 4
  .next (if 128 ≤ link ∨ l.tlive &&& feedBit f = 0 then s
    else
      let live := l.tlive &&& ~~~ (feedBit f)
      let q := l.peer
      let s := s.modLink p link (fun x => { x with tlive := live })
      let s := if l.conn then s.modLink q link (fun x => { x with rlive := live }) else s
      if !l.conn || l.using &&& feedBit f == 0 then
        let s := s.lightEvent p link f live 0
        if live = 0 && !(l.conn && l.tuse == 0) then s.linkDown p link 0 else s
      else
        let s := (s.hitWire q link (feedBit f)).modLink p link (fun x => { x with lost := x.lost ++ [(f, live)] })
        if l.using &&& ~~~ (feedBit f) = 0 then
          let s := ((s.lightDone p link).unsend p link).modLink p link (fun x => { x with tuse := 0, lost := [] })
          ((s.linkDown p link 0).linkDown q link 1).modLink q link (fun x => { x with ruse := 0 })
        else s)

/-- RESTRIPE (R346, R375): both ends stripe over the feeds that are left, and everything unacknowledged is sent again. -/
def execRestripe (p link : Nat) (s : State) : Host.Outcome State Fault Refusal :=
  let l := (s.pkg p).link link
  .next (match l.lostLog with
    | none => s
    | some (fibre, live) =>
      let s := (s.lightDone p link).modLink p link (fun x =>
        { x.replayAll with tuse := l.using, lost := [], lightLog := some (fibre, live, 0) })
      let s := s.modLink l.peer link (fun x => { x with ruse := l.using })
      if l.replay.isEmpty then s.lightDone p link else s)

/-- FEED_RETURN (R346): the feed is used again from the next connection. -/
def execFeedReturn (p link fibre : Nat) (s : State) : Host.Outcome State Fault Refusal :=
  let l := (s.pkg p).link link
  .next (if 128 ≤ link then s
    else
      let s := s.modLink p link (fun x => { x with tlive := x.tlive ||| feedBit fibre })
      if l.conn then s.modLink l.peer link (fun x => { x with rlive := l.tlive ||| feedBit fibre }) else s)

/-! ### The schedule (R340, R379) -/

/-- The five conditions of a valid image. -/
def Package.validSched (k : Package) (g : SchedImage) : Bool :=
  let ms := (List.range 256).filter k.member
  g.ents.all (fun e => g.peer? e.2.2.2 e.2.1 e.2.2.1 == some e.1) &&
    ms.all (fun p => ms.all (fun q => p == q || decide (4 ≤ ((List.range 8).filter (fun s => g.direct p q s)).length))) &&
    g.ents.all (fun e => e.1 != e.2.2.2) && g.sver != 0 && g.epoch % 80000 == 0

/-- An image takes its place among those that wait, by EPOCH; behind the earlier ones of its own EPOCH. -/
def addSched (g : SchedImage) : List SchedImage → List SchedImage
  | [] => [g]
  | x :: xs => if g.epoch < x.epoch then g :: x :: xs else x :: addSched g xs

/-- SCHEDULE_WRITE (R340): a valid image waits for its EPOCH, or for the next rotation boundary when that has passed. -/
def execScheduleWrite (p : Nat) (bytes : List (Nat × Byte)) (s : State) : Host.Outcome State Fault Refusal :=
  let k := s.pkg p
  let img := SchedImage.parse bytes
  .next (if !k.fabReady then s
    else if k.validSched img then
      let at' := if s.time ≤ img.epoch then img.epoch else (s.time + 79999) / 80000 * 80000
      s.modPkg p (fun k => { k with schedNext := addSched { img with epoch := at' } k.schedNext })
    else s.event p 8 (pkgRec 0x15 3 (dataAt [(32, leBytes 4 img.sver.toNat)])))

/-- SCHEDULE_EPOCH (R340, R379): the image takes effect. With the first one the silence of every peer counts from its EPOCH. -/
def execScheduleEpoch (p : Nat) (s : State) : Host.Outcome State Fault Refusal :=
  .next (match (s.pkg p).schedNext with
    | [] => s
    | g :: gs =>
      if s.time < g.epoch then s
      else s.modPkg p (fun k => { k with
        sched := some g, schedNext := gs,
        heard := if k.sched.isSome then k.heard else (List.range 256).map (fun q => (q, g.epoch)) }))

end Sys2Proof.Machine
end

