-- ==== Sys2Proof/Machine/HostPort.lean ====
section
/-! DEFINITION. The host port (R348, R349): the registers that the host writes and reads in BAR0, the event ring's tail, and the BAR2 window on memory;
bring-up, freeze, reset and power (R357, R359). The mailboxes, the cell table, the Turnstile, the schedule image and the fault responses have
events of their own. -/

namespace Sys2Proof.Machine

/-! ### Register writes (R6, R349) -/

/-- A write lies within the register of `w` bytes at `base`. -/
def regIn (base w off : Nat) (bs : List Byte) : Bool := !bs.isEmpty && decide (base ≤ off) && decide (off + bs.length ≤ base + w)
/-- A register of `w` bytes with bytes written from its byte `k` upward. -/
def overlay (w old k : Nat) (bs : List Byte) : Nat :=
  let o := leBytes w old
  leNat (o.take k ++ bs ++ o.drop (k + bs.length))

/-- A freeze: the clocks of the package stop (R357). -/
def Package.freeze (k : Package) : Package := { k with frozen := true }

/-- FRZ.CTL written. -/
def Package.writeFrz (k : Package) (v : Nat) : Package :=
  let k : Package := { k with dbgh := BitVec.ofNat 8 (v / 2 ^ 8) }
  if v % 2 = 1 then k.freeze else k

/-- The base or the size of a pool written. -/
def Pool.write (x : Pool) (size : Bool) (k : Nat) (bs : List Byte) : Pool :=
  if size then { x with size := overlay 8 x.size k bs } else { x with base := overlay 8 x.base k bs }

/-- The system page. -/
def Package.writeSys (k : Package) (off : Nat) (bs : List Byte) : Package :=
  if regIn 0x004 4 off bs then { k with sdFail := k.sdFail &&& ~~~ BitVec.ofNat 32 (overlay 4 0 (off - 0x004) bs) }
  else if regIn 0x010 4 off bs then k.writeFrz (overlay 4 (k.dbgh.toNat * 2 ^ 8) (off - 0x010) bs)
  else if regIn 0x020 4 off bs then if !k.mgmtReady then k else { k with barkInt := BitVec.ofNat 32 (overlay 4 k.barkInt.toNat (off - 0x020) bs) }
  else if !k.ringReady || !regIn (off / 8 * 8) 8 off bs then k
  else
    let size := off / 8 % 2 == 1
    match (off - 0x100) / 16 with
    | 0 => if off < 0x100 then k else { k with recPool := k.recPool.write size (off % 8) bs }
    | 1 => { k with ctxPool := k.ctxPool.write size (off % 8) bs }
    | 2 => { k with keyPool := k.keyPool.write size (off % 8) bs }
    | 3 => { k with lmemPool := k.lmemPool.write size (off % 8) bs }
    | _ => k

/-- The command window and CMD.STAT (R350). -/
def Package.writeCmd (k : Package) (off : Nat) (bs : List Byte) : Package :=
  if off = 0 ∧ bs.length = 64 then
    if 64 ≤ k.cmdFifo.length then { k with cmdOvf := true } else { k with cmdFifo := k.cmdFifo ++ [bs] }
  else if regIn 0x040 4 off bs ∧ overlay 4 0 (off - 0x040) bs / 2 ^ 16 % 2 = 1 then { k with cmdOvf := false }
  else k

/-- A ring's size is a power of two from 64 to 65,536; any other value leaves the register. -/
def ringSize (v : Nat) : Bool := (List.range 11).any (fun n => v == 64 * 2 ^ n)

/-- The host returns entries of a ring: TAIL goes forward, at most to HEAD, and pending records follow (R351; log entry 12). -/
def Ring.setTail (g : Ring) (v : Word) : Ring :=
  let d := (v - BitVec.ofNat 32 g.tail).toNat
  if d ≤ g.head - g.tail then Ring.flush (g.pend.length + 1) { g with tail := g.tail + d } else g

/-- BASE, SIZE and TAIL of a ring, at +0x00, +0x08 and +0x18 of its registers. -/
def Ring.write (g : Ring) (off : Nat) (bs : List Byte) : Ring :=
  if regIn 0x00 8 off bs then { g with base := BitVec.ofNat 64 (overlay 8 g.base.toNat off bs / 64 * 64) }
  else if regIn 0x08 8 off bs then
    let v := overlay 8 g.size (off - 0x08) bs
    if ringSize v then Ring.flush (g.pend.length + 1) { g with size := v } else g
  else if regIn 0x18 8 off bs then g.setTail (BitVec.ofNat 32 (overlay 8 (g.tail % 2 ^ 32) (off - 0x18) bs))
  else g

/-- A partition's page, or the driver's page 8. -/
def Package.writePage (k : Package) (page off : Nat) (bs : List Byte) : Package :=
  if !k.ringReady then k
  else if 0x100 ≤ off ∧ off < 0x120 then k.setRing page ((k.ring page).write (off - 0x100) bs)
  else if 0x200 ≤ off ∧ off < 0x220 then k.setFltRing page ((k.fltRing page).write (off - 0x200) bs)
  else if regIn 0x300 8 off bs ∧ page < 8 then
    k.setRoot page (BitVec.ofNat 64 (overlay 8 (tget 0 k.ptroot page).toNat (off - 0x300) bs % 2 ^ 52 / 4096 * 4096))
  else k

/-- LINKSTAT: MISM is W1C (R347). -/
def Package.writeLinkstat (k : Package) (off : Nat) (bs : List Byte) : Package :=
  if regIn (off / 4 * 4) 4 off bs ∧ overlay 4 0 (off % 4) bs / 4 % 2 = 1 ∧ k.fabReady then
    k.modLink (off / 4) (fun x => { x with mism := false })
  else k

/-- The collective group table (R227). -/
def Package.writeGroups (k : Package) (off : Nat) (bs : List Byte) : Package :=
  if !k.fabReady then k
  else { k with cgTab := (bs.zipIdx.filter (fun x => decide (off + x.2 < 131072))).foldl (fun t x => tput t (off + x.2) x.1) k.cgTab }

/-- A write of the host to a register of BAR0. -/
def Package.writeReg (k : Package) (off : Nat) (bs : List Byte) : Package :=
  if off < 0x1000 then k.writeSys off bs
  else if off < 0x2000 then (if k.ringReady then k.writeCmd (off - 0x1000) bs else k)
  else if 0x10000 ≤ off ∧ off < 0x19000 then k.writePage ((off - 0x10000) / 0x1000) (off % 0x1000) bs
  else if 0x110000 ≤ off ∧ off < 0x110200 then k.writeLinkstat (off - 0x110000) bs
  else if 0x140000 ≤ off ∧ off < 0x160000 then k.writeGroups (off - 0x140000) bs
  else k

/-- REGISTER_WRITE. -/
def execRegisterWrite (p off : Nat) (bytes : List Byte) (s : State) : Host.Outcome State Fault Refusal :=
  .next (s.modPkg p (fun k => k.writeReg off bytes))

/-- EVR_TAIL: the host has taken records (R351). -/
def execEvrTail (p page : Nat) (v : Word) (s : State) : Host.Outcome State Fault Refusal :=
  .next (if 8 < page then s else s.modPkg p (fun k => k.setRing page ((k.ring page).setTail v)))

/-! ### Register reads (R5, R6, R349, R371) -/

/-- Byte `k` of a value of `w` bytes. -/
def byteOf (w v k : Nat) : Byte := (leBytes w v).getD k 0

/-- A byte of the system page; FREEZE is WO. -/
def Package.readSys (k : Package) (off : Nat) : Byte :=
  let pool : Pool := match (off - 0x100) / 16 with
    | 0 => k.recPool
    | 1 => k.ctxPool
    | 2 => k.keyPool
    | _ => k.lmemPool
  if off < 4 then byteOf 4 k.sdReady.toNat off
  else if off < 8 then byteOf 4 k.sdFail.toNat (off - 4)
  else if off = 0x011 then BitVec.ofNat 8 k.dbgh.toNat
  else if 0x020 ≤ off ∧ off < 0x024 then (if k.mgmtReady then byteOf 4 k.barkInt.toNat (off - 0x020) else 0)
  else if 0x100 ≤ off ∧ off < 0x140 ∧ k.ringReady then byteOf 8 (if off / 8 % 2 = 1 then pool.size else pool.base) (off % 8)
  else 0

/-- CMD.STAT (R350): free entries, and OVF. -/
def Package.cmdStat (k : Package) : Nat := 64 - k.cmdFifo.length + (if k.cmdOvf then 2 ^ 16 else 0)
/-- MBOX.STAT of a page (R289): free entries, and OVF. -/
def Package.mboxStat (k : Package) (page : Nat) : Nat :=
  256 - (tget [] k.mbox page).length + (if k.mboxOvf.getLsbD page then 2 ^ 16 else 0)

/-- BASE, SIZE, HEAD, TAIL and LOST of a ring, by register; the counts as 32 bits. -/
def Ring.reg (g : Ring) : Nat → Nat
  | 0 => g.base.toNat
  | 1 => g.size
  | 2 => g.head % 2 ^ 32
  | 3 => g.tail % 2 ^ 32
  | _ => g.lost

/-- A byte of a page; its windows and FLT.RESP are written only. -/
def Package.readPage (k : Package) (page off : Nat) : Byte :=
  if 0x040 ≤ off ∧ off < 0x044 then byteOf 4 (k.mboxStat page) (off - 0x040)
  else if 0x100 ≤ off ∧ off < 0x128 then byteOf 8 ((k.ring page).reg (off / 8 % 8)) (off % 8)
  else if 0x200 ≤ off ∧ off < 0x220 then byteOf 8 ((k.fltRing page).reg (off / 8 % 8)) (off % 8)
  else if 0x300 ≤ off ∧ off < 0x308 ∧ page < 8 then byteOf 8 (tget 0 k.ptroot page).toNat (off - 0x300)
  else 0

/-- Fewer than 16 wavelengths live in either direction (R347). -/
def Link.deg (l : Link) : Bool := l.tlive != 0xF || l.rlive != 0xF
/-- LINKSTAT of a link (R347). -/
def Link.stat (l : Link) : Nat :=
  l.tlive.toNat * 2 ^ 20 + l.rlive.toNat * 2 ^ 16 + l.peer % 256 * 2 ^ 8 + (if l.mism then 4 else 0) + (if l.deg then 2 else 0) +
    (if l.conn then 1 else 0)

/-- The telemetry counters of a core and of a link, 8 bytes each but LIGHT and CRCF (R371). -/
def Core.counters (x : Core) : List Byte := leBytes 8 x.corr ++ leBytes 8 x.scans ++ leBytes 8 x.mirr ++ leBytes 8 x.hangs
def Link.counters (l : Link) : List Byte := leBytes 8 l.rply ++ leBytes 4 l.crcf ++ leBytes 4 l.light
/-- A byte of the core counter blocks, which are there once the core's die is ready (R357, R371). -/
def Package.readCores (k : Package) (off : Nat) : Byte :=
  if k.sdReady.getLsbD (16 + off / 32 / 64) then (k.core (off / 32)).counters.getD (off % 32) 0 else 0

/-- A byte of the collective group table (R227). -/
def Package.readGroups (k : Package) (off : Nat) : Byte :=
  let b := tget 0 k.cgTab off
  let j := off % 512
  if j = 0 ∨ (8 ≤ j ∧ j < 264) then b else if j = 1 then b &&& 1 else 0

/-- The byte that a host reads at an offset of BAR0: registers of a function that is not ready, reserved bits and what is written only
read 0 (R5, R6, R357; log entry 99). -/
def Package.readReg (k : Package) (off : Nat) : Byte :=
  if off < 0x1000 then k.readSys off
  else if 0x1040 ≤ off ∧ off < 0x1044 then (if k.ringReady then byteOf 4 k.cmdStat (off - 0x1040) else 0)
  else if 0x10000 ≤ off ∧ off < 0x19000 then (if k.ringReady then k.readPage ((off - 0x10000) / 0x1000) (off % 0x1000) else 0)
  else if 0x120000 ≤ off ∧ off < 0x123000 then k.readCores (off - 0x120000)
  else if !k.fabReady then 0
  else if 0x100000 ≤ off ∧ off < 0x100100 then k.cellByte (off - 0x100000)
  else if 0x110000 ≤ off ∧ off < 0x110200 then byteOf 4 (k.link ((off - 0x110000) / 4)).stat (off % 4)
  else if 0x130000 ≤ off ∧ off < 0x130800 then (k.link ((off - 0x130000) / 16)).counters.getD (off % 16) 0
  else if 0x140000 ≤ off ∧ off < 0x160000 then k.readGroups (off - 0x140000)
  else if 0x200000 ≤ off ∧ off < 0x200000 + 524352 then
    match (k.schedNext.getLast?).or k.sched with
    | some g => g.byteAt (off - 0x200000)
    | none => 0
  else if 0x400000 ≤ off ∧ off < 0x400000 + 10485760 then
    byteOf 16 (tget (0 : BitVec 128) k.turn ((off - 0x400000) / 16)).toNat (off % 16)
  else 0

/-- The host reads `n` bytes of BAR0. -/
def Package.readBar0 (k : Package) (off n : Nat) : Package := { k with hostRead := (List.range n).map (fun j => k.readReg (off + j)) }

/-- The host sets BAR2's size, from 1 GiB to 2 TiB (R348). -/
def Package.resizeBar (k : Package) (n : Nat) : Package := if 30 ≤ n ∧ n ≤ 41 then { k with bar2 := n } else k

/-! ### BAR2 (R349) -/

/-- An access lies in BAR2 (R348); no other reaches memory. -/
def State.inBar2 (s : State) (p off n : Nat) : Bool := decide (off + n ≤ 2 ^ (s.pkg p).bar2)

/-- The record of an access at or beyond the installed memory. -/
def State.barReject (s : State) (p off : Nat) : State := s.event p 8 (pkgRec 0x15 4 (dataAt [(32, leBytes 8 off)]))

/-- One byte as BAR2 reads it: 0xFF beyond the installed memory, a free value in a poisoned line. -/
def State.barByte (s : State) (p off : Nat) : Byte × State :=
  let a := s.forward (p * 2 ^ 44 + off)
  if Config.installed ≤ off then (0xFF, s)
  else if s.poisoned a then
    let (v, s) := s.choose 256
    (BitVec.ofNat 8 v, s)
  else (s.peek a, s.need a false 0)
def State.barBytes : Nat → Nat → Nat → State → List Byte × State
  | 0, _, _, s => ([], s)
  | n + 1, p, off, s =>
    let (b, s) := s.barByte p off
    let (bs, s) := State.barBytes n p (off + 1) s
    (b :: bs, s)

/-- BAR2_READ: the bytes go to the host. -/
def execBar2Read (p off n : Nat) (s : State) : Host.Outcome State Fault Refusal :=
  .next (if !s.inBar2 p off n then s
    else
    let (bs, s) := State.barBytes n p off s
    let s := s.modPkg p (fun k => { k with hostRead := bs })
    if Config.installed < off + n then s.barReject p off else s)

/-- Bytes written through BAR2, line by line; those beyond the installed memory are dropped, and a poisoned line is left as it is (R329). -/
def State.barWrite : Nat → Nat → Nat → List Byte → State → State
  | 0, _, _, _, s => s
  | fuel + 1, p, off, bs, s =>
    if bs.isEmpty ∨ Config.installed ≤ off then s
    else
      let n := 128 - off % 128
      let a := s.forward (p * 2 ^ 44 + off)
      State.barWrite fuel p (off + n) (bs.drop n) (if s.poisoned a then s else s.writeLine a (bs.take n))

/-- BAR2_WRITE: a write at the home, which recalls remote copies first. -/
def execBar2Write (p off : Nat) (bytes : List Byte) (s : State) : Host.Outcome State Fault Refusal :=
  .next (if !s.inBar2 p off bytes.length then s
    else
    let s := State.barWrite (bytes.length / 128 + 2) p off bytes s
    if Config.installed < off + bytes.length then s.barReject p off else s)

/-! ### Bring-up, freeze, reset and power (R357, R359) -/

/-- PACKAGE_RESET: every register of the package takes its reset value, nothing is resident, and sv.clock counts anew (R5, R130, R357). -/
def execPackageReset (p : Nat) (s : State) : Host.Outcome State Fault Refusal := .next (s.setPkg p { clock0 := s.clock })

/-- FUNCTION_READY: a function's self-test ends, once; its bit is set in SD.READY, or in SD.FAIL. -/
def execFunctionReady (p bit : Nat) (ok : Bool) (s : State) : Host.Outcome State Fault Refusal :=
  .next (s.modPkg p (fun k =>
    let m : BitVec 32 := (1 : BitVec 32) <<< bit
    if 27 < bit ∨ k.sdTested.getLsbD bit then k
    else
      let k : Package := { k with sdTested := k.sdTested ||| m }
      if ok then { k with sdReady := k.sdReady ||| m } else { k with sdFail := k.sdFail ||| m }))

/-- FREEZE: FRZ.CTL.FREEZE is written. -/
def execFreeze (p : Nat) (s : State) : Host.Outcome State Fault Refusal := .next (s.modPkg p Package.freeze)

/-- A THERMAL record. -/
def thermalRec (code mhz : Nat) : Rec := pkgRec 0x16 code (dataAt [(32, leBytes 4 mhz)])

/-- THERMAL_LIMIT: a limit is exceeded. The management controller lowers the clock by 50 MHz, and at 0.8 GHz it freezes the package. -/
def execThermalLimit (p : Nat) (s : State) : Host.Outcome State Fault Refusal :=
  .next (s.modPkg p (fun k =>
    if !k.mgmtReady then k
    else if 800 < k.clockMHz then
      ({ k with clockMHz := k.clockMHz - 50 }).postRec 8 (thermalRec 0 (k.clockMHz - 50))
    else ({ k with freezeAt := some s.time }).postRec 8 (thermalRec 2 k.clockMHz) |>.freeze))

/-- POWER_REMOVE: 10 ms after the freeze of a thermal limit, power is removed, and the contents of memory are gone. -/
def execPowerRemove (p : Nat) (s : State) : Host.Outcome State Fault Refusal :=
  .next (match (s.pkg p).freezeAt with
    | none => s
    | some t =>
      if s.time < t + 10000000 then s
      else { (s.modPkg p (fun k => { k with poweredOff := true })) with mem := s.mem.filter (fun x => homeOf x.1 != p) })

end Sys2Proof.Machine
end

