-- ==== Sys2Proof/Machine/Integer.lean ====
section
/-! DEFINITION. Class 0 up to the special values: moves, arithmetic, shifts, bit operations, LEA, predicates and SREAD (R116 to
R131, R138). -/

namespace Sys2Proof.Machine

/-! ### Moves (R121, R138) -/

/-- R138: NOP has no effect; with SW a park follows. -/
def execNop (c : Ctl) (s : State) : Host.Outcome State Fault Refusal := s.issue c {} (fun _ _ s => (s, .done))

def execMov (c : Ctl) (ty : IntTy) (d a : Reg) (s : State) : Host.Outcome State Fault Refusal :=
  s.fixed c d [.sized ty.wide a] (fun t => resInt ty (t.int ty a))

/-- SignExtend(IMM27) to 32 or 64 bits. -/
def execMovi (c : Ctl) (ty : IntTy) (d : Reg) (imm : BitVec 27) (s : State) : Host.Outcome State Fault Refusal :=
  s.fixed c d [] (fun _ => resInt ty (wrap 64 imm.toInt))

/-- d := (m[15:0] << 16) OR a[15:0]. -/
def movhi (a m : Word) : Word := m.extractLsb' 0 16 ++ a.extractLsb' 0 16
def execMovhi (c : Ctl) (d a : Reg) (b : Src) (s : State) : Host.Outcome State Fault Refusal :=
  s.fixed c d (.one a :: b.opnd false) (fun t => ([movhi (t.reg a) (t.src32 b)], 0))

/-- The result takes the deferred-fault bits of both register sources (R119). -/
def execSel (c : Ctl) (ty : IntTy) (d a b : Reg) (p : PredIx) (s : State) : Host.Outcome State Fault Refusal :=
  s.fixed c d [.sized ty.wide a, .sized ty.wide b] (fun t => resInt ty (if t.pred p then t.int ty a else t.int ty b))

/-! ### Arithmetic (R118, R122) -/

/-- An exact lane result narrowed: clamped with .sat, else modulo 2^w (R118). -/
def narrow (ty : IntTy) (sat : Bool) (x : Int) : Nat := if sat then wrap ty.w (clamp ty.w ty.signed x) else wrap ty.w x

/-- A two-source lane operation on exact values. -/
def arith2 (ty : IntTy) (sat : Bool) (f : Int → Int → Int) (a b : Nat) : Nat :=
  mapLanes ty.w (fun k => narrow ty sat
    (f (toInt ty.w ty.signed (laneOf ty.w k a)) (toInt ty.w ty.signed (laneOf ty.w k b)))) ty.n

def execArith2 (c : Ctl) (ty : IntTy) (sat : Bool) (f : Int → Int → Int) (d a : Reg) (b : Src) (s : State) :
    Host.Outcome State Fault Refusal :=
  s.fixed c d (srcs2 ty a b) (fun t => resInt ty (arith2 ty sat f (t.int ty a) (t.srcInt ty b)))

def execIadd (c : Ctl) (ty : IntTy) (sat : Bool) (d a : Reg) (b : Src) (s : State) : Host.Outcome State Fault Refusal :=
  execArith2 c ty sat (fun x y => x + y) d a b s
def execIsub (c : Ctl) (ty : IntTy) (sat : Bool) (d a : Reg) (b : Src) (s : State) : Host.Outcome State Fault Refusal :=
  execArith2 c ty sat (fun x y => x - y) d a b s
def execImul (c : Ctl) (ty : IntTy) (sat : Bool) (d a : Reg) (b : Src) (s : State) : Host.Outcome State Fault Refusal :=
  execArith2 c ty sat (fun x y => x * y) d a b s
/-- The upper w bits of the 2w-bit product. -/
def execImulh (c : Ctl) (ty : IntTy) (d a : Reg) (b : Src) (s : State) : Host.Outcome State Fault Refusal :=
  execArith2 c ty false (fun x y => Int.fdiv (x * y) (2 ^ ty.w)) d a b s
def execImin (c : Ctl) (ty : IntTy) (d a : Reg) (b : Src) (s : State) : Host.Outcome State Fault Refusal :=
  execArith2 c ty false min d a b s
def execImax (c : Ctl) (ty : IntTy) (d a : Reg) (b : Src) (s : State) : Host.Outcome State Fault Refusal :=
  execArith2 c ty false max d a b s

/-- IMAD: a × b + c per lane. -/
def imad (ty : IntTy) (sat : Bool) (a b e : Nat) : Nat :=
  mapLanes ty.w (fun k => narrow ty sat
    (toInt ty.w ty.signed (laneOf ty.w k a) * toInt ty.w ty.signed (laneOf ty.w k b) +
      toInt ty.w ty.signed (laneOf ty.w k e))) ty.n
def execImad (c : Ctl) (ty : IntTy) (sat : Bool) (d a b e : Reg) (s : State) : Host.Outcome State Fault Refusal :=
  s.fixed c d [.sized ty.wide a, .sized ty.wide b, .sized ty.wide e] (fun t =>
    resInt ty (imad ty sat (t.int ty a) (t.int ty b) (t.int ty e)))

/-- IMADW: 32-bit a and b, 64-bit c and d, all of one signedness. -/
def imadw (ty : IntTy) (a b : Word) (e : DWord) : DWord :=
  BitVec.ofNat 64 (wrap 64 (toInt 32 ty.signed a.toNat * toInt 32 ty.signed b.toNat + toInt 64 ty.signed e.toNat))
def execImadw (c : Ctl) (ty : IntTy) (d a b e : Reg) (s : State) : Host.Outcome State Fault Refusal :=
  s.fixed c d [.one a, .one b, .pair e] (fun t => (words2 (imadw ty (t.reg a) (t.reg b) (t.pair e)), 0))

/-- An operation on one source, per lane. -/
def arith1 (ty : IntTy) (sat : Bool) (f : Int → Int) (a : Nat) : Nat :=
  mapLanes ty.w (fun k => narrow ty sat (f (toInt ty.w ty.signed (laneOf ty.w k a)))) ty.n
def execIabs (c : Ctl) (ty : IntTy) (sat : Bool) (d a : Reg) (s : State) : Host.Outcome State Fault Refusal :=
  s.fixed c d [.sized ty.wide a] (fun t => resInt ty (arith1 ty sat (fun x => max x (-x)) (t.int ty a)))
def execIneg (c : Ctl) (ty : IntTy) (sat : Bool) (d a : Reg) (s : State) : Host.Outcome State Fault Refusal :=
  s.fixed c d [.sized ty.wide a] (fun t => resInt ty (arith1 ty sat (fun x => -x) (t.int ty a)))

/-! ### Division (R123) -/

/-- An exact quotient a / b rounded once to an integer (b ≠ 0): RNE ties to even. -/
def roundQuot (rm : Rm) (a b : Int) : Int :=
  let q := Int.fdiv a b
  let r := a - q * b
  if r = 0 then q
  else
    match rm with
    | .rd => q
    | .ru => q + 1
    | .rz => if q < 0 then q + 1 else q
    | .rne =>
      let twice := 2 * r.natAbs
      if twice < b.natAbs then q else if b.natAbs < twice then q + 1 else if q % 2 = 0 then q else q + 1

/-- The quotient and the remainder (R123). -/
def divRem (ty : IntTy) (rm : Rm) (a b : Nat) : Nat × Nat :=
  let x := toInt ty.w ty.signed a
  let y := toInt ty.w ty.signed b
  if y = 0 then
    (wrap ty.w (if ty.signed && decide (x < 0) then typeMin ty.w ty.signed else typeMax ty.w ty.signed), wrap ty.w x)
  else
    let qx := roundQuot rm x y
    (wrap ty.w qx, wrap ty.w (x - qx * y))

def execIdiv (c : Ctl) (ty : IntTy) (rm : Rm) (d a b : Reg) (s : State) : Host.Outcome State Fault Refusal :=
  s.deferred c d [.sized ty.wide a, .sized ty.wide b] (fun t => resInt ty (divRem ty rm (t.int ty a) (t.int ty b)).1)
def execIrem (c : Ctl) (ty : IntTy) (rm : Rm) (d a b : Reg) (s : State) : Host.Outcome State Fault Refusal :=
  s.deferred c d [.sized ty.wide a, .sized ty.wide b] (fun t => resInt ty (divRem ty rm (t.int ty a) (t.int ty b)).2)

/-! ### Shifts and bitwise operations (R124) -/

/-- ISHL, ISHR, ISAR and IROT of one lane of w bits by an amount of 0 to 255. -/
def shl (w a n : Nat) : Nat := if w ≤ n then 0 else a * 2 ^ n % 2 ^ w
def shr (w a n : Nat) : Nat := if w ≤ n then 0 else a / 2 ^ n
def sar (w a n : Nat) : Nat := wrap w (Int.fdiv (toInt w true a) (2 ^ (min n w)))
def rot (w a n : Nat) : Nat := (a * 2 ^ (n % w) + a / 2 ^ (w - n % w)) % 2 ^ w

/-- A shift per lane: the amount is bits [7:0] of the same lane of b. -/
def shiftLanes (ty : IntTy) (f : Nat → Nat → Nat → Nat) (a b : Nat) : Nat :=
  mapLanes ty.w (fun k => f ty.w (laneOf ty.w k a) (laneOf ty.w k b % 256)) ty.n

def execShift (c : Ctl) (ty : IntTy) (f : Nat → Nat → Nat → Nat) (d a : Reg) (b : Src) (s : State) :
    Host.Outcome State Fault Refusal :=
  s.fixed c d (srcs2 ty a b) (fun t => resInt ty (shiftLanes ty f (t.int ty a) (t.srcInt ty b)))

def execIshl (c : Ctl) (ty : IntTy) (d a : Reg) (b : Src) (s : State) : Host.Outcome State Fault Refusal :=
  execShift c ty shl d a b s
def execIshr (c : Ctl) (ty : IntTy) (d a : Reg) (b : Src) (s : State) : Host.Outcome State Fault Refusal :=
  execShift c ty shr d a b s
def execIsar (c : Ctl) (ty : IntTy) (d a : Reg) (b : Src) (s : State) : Host.Outcome State Fault Refusal :=
  execShift c ty sar d a b s
def execIrot (c : Ctl) (ty : IntTy) (d a : Reg) (b : Src) (s : State) : Host.Outcome State Fault Refusal :=
  execShift c ty rot d a b s

/-- A bitwise operation of two sources. -/
def execBits2 (c : Ctl) (ty : IntTy) (f : DWord → DWord → DWord) (d a : Reg) (b : Src) (s : State) :
    Host.Outcome State Fault Refusal :=
  s.fixed c d (srcs2 ty a b) (fun t =>
    (wordsOf ty.wide (f (t.val ty.wide a) (BitVec.ofNat 64 (t.srcInt ty b))), 0))

def execAnd (c : Ctl) (ty : IntTy) (d a : Reg) (b : Src) (s : State) : Host.Outcome State Fault Refusal :=
  execBits2 c ty (fun x y => x &&& y) d a b s
def execOr (c : Ctl) (ty : IntTy) (d a : Reg) (b : Src) (s : State) : Host.Outcome State Fault Refusal :=
  execBits2 c ty (fun x y => x ||| y) d a b s
def execXor (c : Ctl) (ty : IntTy) (d a : Reg) (b : Src) (s : State) : Host.Outcome State Fault Refusal :=
  execBits2 c ty (fun x y => x ^^^ y) d a b s
def execAndn (c : Ctl) (ty : IntTy) (d a : Reg) (b : Src) (s : State) : Host.Outcome State Fault Refusal :=
  execBits2 c ty (fun x y => x &&& ~~~ y) d a b s
def execNot (c : Ctl) (ty : IntTy) (d a : Reg) (s : State) : Host.Outcome State Fault Refusal :=
  s.fixed c d [.sized ty.wide a] (fun t => (wordsOf ty.wide (~~~ (t.val ty.wide a)), 0))

/-- Bit `j` of a number. -/
def bitOf (a j : Nat) : Nat := a / 2 ^ j % 2

/-- The number whose bit `j`, for j below n, is `f j`. -/
def bitsOf (f : Nat → Nat) : Nat → Nat
  | 0 => 0
  | n + 1 => bitsOf f n + f n % 2 * 2 ^ n

/-- BFX: bits beyond the width read 0 for n types and the sign for i types (R125). -/
def bfx (ty : IntTy) (a b : Nat) : Nat :=
  let pos := b % 256
  let len := min (b / 256 % 256) ty.w
  let e := bitsOf (fun j => if ty.w ≤ pos + j then (if ty.signed then bitOf a (ty.w - 1) else 0) else bitOf a (pos + j)) len
  if len = 0 then 0 else wrap ty.w (toInt len ty.signed e)
def execBfx (c : Ctl) (ty : IntTy) (d a : Reg) (b : Src) (s : State) : Host.Outcome State Fault Refusal :=
  s.fixed c d (srcs2 ty a b) (fun t => resInt ty (bfx ty (t.int ty a) (t.srcInt ty b)))

/-- BFI: bits of b inserted into a, those beyond the width dropped (R125). -/
def bfi (w a b e : Nat) : Nat :=
  let pos := e % 256
  let len := min (e / 256 % 256) w
  bitsOf (fun j => if pos ≤ j ∧ j < pos + len then bitOf b (j - pos) else bitOf a j) w
def execBfi (c : Ctl) (ty : IntTy) (d a b e : Reg) (s : State) : Host.Outcome State Fault Refusal :=
  s.fixed c d [.sized ty.wide a, .sized ty.wide b, .one e] (fun t =>
    resInt ty (bfi ty.w (t.int ty a) (t.int ty b) (t.reg e).toNat))

/-- Counts of bits (R124). -/
def popc : Nat → Nat → Nat
  | 0, _ => 0
  | n + 1, a => bitOf a n + popc n a
def clz : Nat → Nat → Nat
  | 0, _ => 0
  | n + 1, a => if bitOf a n = 1 then 0 else 1 + clz n a
def ctzFrom (a : Nat) (j : Nat) : Nat → Nat
  | 0 => 0
  | n + 1 => if bitOf a j = 1 then 0 else 1 + ctzFrom a (j + 1) n
def ctz (w a : Nat) : Nat := ctzFrom a 0 w
def brev (w a : Nat) : Nat := bitsOf (fun j => bitOf a (w - 1 - j)) w

def execCount (c : Ctl) (ty : IntTy) (f : Nat → Nat → Nat) (d a : Reg) (s : State) : Host.Outcome State Fault Refusal :=
  s.fixed c d [.sized ty.wide a] (fun t => ([BitVec.ofNat 32 (f ty.w (t.int ty a))], 0))
def execPopc (c : Ctl) (ty : IntTy) (d a : Reg) (s : State) : Host.Outcome State Fault Refusal := execCount c ty popc d a s
def execClz (c : Ctl) (ty : IntTy) (d a : Reg) (s : State) : Host.Outcome State Fault Refusal := execCount c ty clz d a s
def execCtz (c : Ctl) (ty : IntTy) (d a : Reg) (s : State) : Host.Outcome State Fault Refusal := execCount c ty ctz d a s
def execBrev (c : Ctl) (ty : IntTy) (d a : Reg) (s : State) : Host.Outcome State Fault Refusal :=
  s.fixed c d [.sized ty.wide a] (fun t => resInt ty (brev ty.w (t.int ty a)))

/-- One result byte of PRMB: a byte of the pool, or its sign replicated (R126). -/
def prmbByte (pool : DWord) (n : Nat) : Byte :=
  let y := pool.extractLsb' (8 * (n % 8)) 8
  if 8 ≤ n then (if y.getLsbD 7 then 0xFF else 0) else y
def prmb (pool : DWord) (sel : Word) : Word :=
  prmbByte pool (sel.extractLsb' 12 4).toNat ++ prmbByte pool (sel.extractLsb' 8 4).toNat ++
    prmbByte pool (sel.extractLsb' 4 4).toNat ++ prmbByte pool (sel.extractLsb' 0 4).toNat
def execPrmb (c : Ctl) (d a : Reg) (b : Src) (s : State) : Host.Outcome State Fault Refusal :=
  s.fixed c d (.pair a :: b.opnd false) (fun t => ([prmb (t.pair a) (t.src32 b)], 0))

/-- LEA: b extended by the type, shifted and added (R127). -/
def lea (ty : IntTy) (sh : Nat) (a : DWord) (b : Word) : DWord :=
  a + ((if ty.signed then b.signExtend 64 else b.setWidth 64) <<< sh)
def execLea (c : Ctl) (ty : IntTy) (sh : BitVec 3) (d a : Reg) (b : Src) (s : State) :
    Host.Outcome State Fault Refusal :=
  s.fixed c d (.pair a :: b.opnd false) (fun t => (words2 (lea ty sh.toNat (t.pair a) (t.src32 b)), 0))

/-! ### Predicates (R128, R129) -/

/-- The outcome of a comparison. -/
def ICmp.holds : ICmp → Int → Int → Bool
  | .eq, x, y => x == y
  | .ne, x, y => x != y
  | .lt, x, y => decide (x < y)
  | .le, x, y => decide (x ≤ y)
  | .gt, x, y => decide (y < x)
  | .ge, x, y => decide (y ≤ x)

def execIsetp (c : Ctl) (ty : IntTy) (cc : ICmp) (pd : PredIx) (a : Reg) (b : Src) (s : State) :
    Host.Outcome State Fault Refusal :=
  s.fixedPred c pd (srcs2 ty a b) (fun t =>
    (ICmp.holds cc (toInt ty.w ty.signed (t.int ty a)) (toInt ty.w ty.signed (t.srcInt ty b)), 0))

/-- The first source of PLOP. -/
def Thread.psrc (t : Thread) : PSrc → Bool
  | .pred p => t.pred p
  | .reg r => t.reg r != 0
def psrcOpnd : PSrc → List Opnd
  | .pred _ => []
  | .reg r => [.one r]

def execPlop (c : Ctl) (tt : BitVec 4) (pd : PredIx) (a : PSrc) (pb : PredIx) (s : State) :
    Host.Outcome State Fault Refusal :=
  s.fixedPred c pd (psrcOpnd a) (fun t =>
    (tt.getLsbD ((if t.psrc a then 2 else 0) + (if t.pred pb then 1 else 0)), 0))

/-- Bit i of the result is pi; bit 0 is 1. -/
def p2g (t : Thread) : Word := ((t.preds &&& 0xFE) ||| 1).setWidth 32
def execP2g (c : Ctl) (d : Reg) (s : State) : Host.Outcome State Fault Refusal := s.fixed c d [] (fun t => ([p2g t], 0))

/-- The predicates that the mask names take the bits of g (mask bit i is MOD[i + 1]). -/
def g2p (preds : BitVec 8) (mask : BitVec 7) (g : Word) : BitVec 8 :=
  let m : BitVec 8 := mask ++ (0 : BitVec 1)
  (preds &&& ~~~ m) ||| (g.setWidth 8 &&& m)
def execG2p (c : Ctl) (mask : BitVec 7) (g : Reg) (s : State) : Host.Outcome State Fault Refusal :=
  s.issue c { reads := [.one g] } (fun u l s =>
    let t := u.thread s l
    (u.setThread s l { t with preds := g2p t.preds mask (t.reg g) }, .done))

/-! ### Special values (R130, R131) -/

/-- A special value at a lane. In mirror mode sv.lane is the visible lane's index (R33). -/
def special (s : State) (u : Iss) (t : Team) (l : Nat) : Sv → DWord
  | .lane => BitVec.ofNat 64 (t.visLane l)
  | .group => BitVec.ofNat 64 u.group
  | .team => BitVec.ofNat 64 ((t.place.map (·.2)).getD 0)
  | .core => BitVec.ofNat 64 (t.coreOf u.group)
  | .die => BitVec.ofNat 64 (dieOf (t.coreOf u.group))
  | .pkg => BitVec.ofNat 64 u.pkg
  | .cell => BitVec.ofNat 64 ((s.pkg u.pkg).cell u.pkg)
  | .task => t.inst.setWidth 64
  | .arg => t.arg
  | .clock => BitVec.ofNat 64 ((s.pkg u.pkg).cycles s.clock)
  | .width => BitVec.ofNat 64 t.vis
  | .mirror => if t.mirror then 1 else 0

def execSread (c : Ctl) (d : Reg) (v : Sv) (s : State) : Host.Outcome State Fault Refusal :=
  s.issue c {} (fun u l s =>
    match u.team s with
    | none => (s, .left)
    | some t => u.write l d ((wordsOf v.wide (special s u t l v)).map (fun w => (w, false))) 0 s)

end Sys2Proof.Machine
end

