-- ==== Sys2Proof/Machine/Dispatch.lean ====
section
/-! DEFINITION. Dispatch: one arm per constructor of `Instr`, each one direct call of its meaning. -/

namespace Sys2Proof.Machine

def exec (i : Instr) (s : State) : Host.Outcome State Fault Refusal :=
  match i with
  | .nop c => Sys2Proof.Machine.execNop c s
  | .mov c ty d a => Sys2Proof.Machine.execMov c ty d a s
  | .movi c ty d imm => Sys2Proof.Machine.execMovi c ty d imm s
  | .movhi c d a b => Sys2Proof.Machine.execMovhi c d a b s
  | .sel c ty d a b p => Sys2Proof.Machine.execSel c ty d a b p s
  | .iadd c ty sat d a b => Sys2Proof.Machine.execIadd c ty sat d a b s
  | .isub c ty sat d a b => Sys2Proof.Machine.execIsub c ty sat d a b s
  | .imul c ty sat d a b => Sys2Proof.Machine.execImul c ty sat d a b s
  | .imulh c ty d a b => Sys2Proof.Machine.execImulh c ty d a b s
  | .imad c ty sat d a b e => Sys2Proof.Machine.execImad c ty sat d a b e s
  | .imadw c ty d a b e => Sys2Proof.Machine.execImadw c ty d a b e s
  | .idiv c ty rm d a b => Sys2Proof.Machine.execIdiv c ty rm d a b s
  | .irem c ty rm d a b => Sys2Proof.Machine.execIrem c ty rm d a b s
  | .iabs c ty sat d a => Sys2Proof.Machine.execIabs c ty sat d a s
  | .ineg c ty sat d a => Sys2Proof.Machine.execIneg c ty sat d a s
  | .imin c ty d a b => Sys2Proof.Machine.execImin c ty d a b s
  | .imax c ty d a b => Sys2Proof.Machine.execImax c ty d a b s
  | .ishl c ty d a b => Sys2Proof.Machine.execIshl c ty d a b s
  | .ishr c ty d a b => Sys2Proof.Machine.execIshr c ty d a b s
  | .isar c ty d a b => Sys2Proof.Machine.execIsar c ty d a b s
  | .irot c ty d a b => Sys2Proof.Machine.execIrot c ty d a b s
  | .and c ty d a b => Sys2Proof.Machine.execAnd c ty d a b s
  | .or c ty d a b => Sys2Proof.Machine.execOr c ty d a b s
  | .xor c ty d a b => Sys2Proof.Machine.execXor c ty d a b s
  | .not c ty d a => Sys2Proof.Machine.execNot c ty d a s
  | .andn c ty d a b => Sys2Proof.Machine.execAndn c ty d a b s
  | .bfx c ty d a b => Sys2Proof.Machine.execBfx c ty d a b s
  | .bfi c ty d a b e => Sys2Proof.Machine.execBfi c ty d a b e s
  | .popc c ty d a => Sys2Proof.Machine.execPopc c ty d a s
  | .clz c ty d a => Sys2Proof.Machine.execClz c ty d a s
  | .ctz c ty d a => Sys2Proof.Machine.execCtz c ty d a s
  | .brev c ty d a => Sys2Proof.Machine.execBrev c ty d a s
  | .prmb c d a b => Sys2Proof.Machine.execPrmb c d a b s
  | .lea c ty sh d a b => Sys2Proof.Machine.execLea c ty sh d a b s
  | .isetp c ty cc pd a b => Sys2Proof.Machine.execIsetp c ty cc pd a b s
  | .plop c tt pd a pb => Sys2Proof.Machine.execPlop c tt pd a pb s
  | .p2g c d => Sys2Proof.Machine.execP2g c d s
  | .g2p c mask g => Sys2Proof.Machine.execG2p c mask g s
  | .sread c d v => Sys2Proof.Machine.execSread c d v s
  | .bra c imm => Sys2Proof.Machine.execBra c imm s
  | .brx c g => Sys2Proof.Machine.execBrx c g s
  | .call c g imm => Sys2Proof.Machine.execCall c g imm s
  | .ret c g => Sys2Proof.Machine.execRet c g s
  | .exit c => Sys2Proof.Machine.execExit c s
  | .yield c => Sys2Proof.Machine.execYield c s
  | .chkd c pair g imm => Sys2Proof.Machine.execChkd c pair g imm s
  | .fadd c ty rm sat d a b => Sys2Proof.Machine.execFadd c ty rm sat d a b s
  | .fsub c ty rm sat d a b => Sys2Proof.Machine.execFsub c ty rm sat d a b s
  | .fmul c ty rm sat d a b => Sys2Proof.Machine.execFmul c ty rm sat d a b s
  | .ffma c ty rm sat d a b e => Sys2Proof.Machine.execFfma c ty rm sat d a b e s
  | .fmin c ty d a b => Sys2Proof.Machine.execFmin c ty d a b s
  | .fmax c ty d a b => Sys2Proof.Machine.execFmax c ty d a b s
  | .fsetp c ty cc pd a b => Sys2Proof.Machine.execFsetp c ty cc pd a b s
  | .fclass c ty d a => Sys2Proof.Machine.execFclass c ty d a s
  | .frnd c ty rm x d a => Sys2Proof.Machine.execFrnd c ty rm x d a s
  | .fcvt c dst src rm d a b => Sys2Proof.Machine.execFcvt c dst src rm d a b s
  | .icvt c f2i flt int rm d a => Sys2Proof.Machine.execIcvt c f2i flt int rm d a s
  | .fscale c ty rm d a b => Sys2Proof.Machine.execFscale c ty rm d a b s
  | .shfl c wide mode d a b => Sys2Proof.Machine.execShfl c wide mode d a b s
  | .vote c mode d pa => Sys2Proof.Machine.execVote c mode d pa s
  | .gred c ty op rm d a => Sys2Proof.Machine.execGred c ty op rm d a s
  | .gscan c ty op rm d a => Sys2Proof.Machine.execGscan c ty op rm d a s
  | .rand c stream d a b => Sys2Proof.Machine.execRand c stream d a b s
  | .frcp c rm d a => Sys2Proof.Machine.execFrcp c rm d a s
  | .frsq c rm d a => Sys2Proof.Machine.execFrsq c rm d a s
  | .fsqrt c rm d a => Sys2Proof.Machine.execFsqrt c rm d a s
  | .fdiv c rm d a b => Sys2Proof.Machine.execFdiv c rm d a b s
  | .fexp2 c rm d a => Sys2Proof.Machine.execFexp2 c rm d a s
  | .flog2 c rm d a => Sys2Proof.Machine.execFlog2 c rm d a s
  | .fsinpi c rm d a => Sys2Proof.Machine.execFsinpi c rm d a s
  | .fcospi c rm d a => Sys2Proof.Machine.execFcospi c rm d a s
  | .ftanh c rm d a => Sys2Proof.Machine.execFtanh c rm d a s
  | .ldOff c sp sz spec d a off => Sys2Proof.Machine.execLdOff c sp sz spec d a off s
  | .ldIdx c sp sz ord d a b => Sys2Proof.Machine.execLdIdx c sp sz ord d a b s
  | .stOff c sp sz d a off => Sys2Proof.Machine.execStOff c sp sz d a off s
  | .stIdx c sp sz rel d a b => Sys2Proof.Machine.execStIdx c sp sz rel d a b s
  | .ldeOff c cn d a off => Sys2Proof.Machine.execLdeOff c cn d a off s
  | .ldeIdx c sp cn fmt d a b => Sys2Proof.Machine.execLdeIdx c sp cn fmt d a b s
  | .steOff c cn d a off => Sys2Proof.Machine.execSteOff c cn d a off s
  | .steIdx c sp cn fmt d a b => Sys2Proof.Machine.execSteIdx c sp cn fmt d a b s
  | .atom c sp ty op ord d a b => Sys2Proof.Machine.execAtom c sp ty op ord d a b s
  | .red c sp ty op key rel d a b => Sys2Proof.Machine.execRed c sp ty op key rel d a b s
  | .fence c kind sc => Sys2Proof.Machine.execFence c kind sc s
  | .waitm c sc d a b t => Sys2Proof.Machine.execWaitm c sc d a b t s
  | .prefOff c sz a off => Sys2Proof.Machine.execPrefOff c sz a off s
  | .prefIdx c sz a b => Sys2Proof.Machine.execPrefIdx c sz a b s
  | .cmntOff c sz op a off => Sys2Proof.Machine.execCmntOff c sz op a off s
  | .cmntIdx c sz op a b => Sys2Proof.Machine.execCmntIdx c sz op a b s
  | .rbeg c d a => Sys2Proof.Machine.execRbeg c d a s
  | .rcmt c => Sys2Proof.Machine.execRcmt c s
  | .rabt c => Sys2Proof.Machine.execRabt c s
  | .nbinit c n => Sys2Proof.Machine.execNbinit c n s
  | .nbarv c n b => Sys2Proof.Machine.execNbarv c n b s
  | .nbsync c n b => Sys2Proof.Machine.execNbsync c n b s
  | .bbinit c n b => Sys2Proof.Machine.execBbinit c n b s
  | .bbexp c n b => Sys2Proof.Machine.execBbexp c n b s
  | .bbarv c n b => Sys2Proof.Machine.execBbarv c n b s
  | .bbwait c n => Sys2Proof.Machine.execBbwait c n s
  | .bbtest c pd n => Sys2Proof.Machine.execBbtest c pd n s
  | .tkreq c yld d a pk => Sys2Proof.Machine.execTkreq c yld d a pk s
  | .tktry c pd a => Sys2Proof.Machine.execTktry c pd a s
  | .tkwait c a => Sys2Proof.Machine.execTkwait c a s
  | .tkgive c a b => Sys2Proof.Machine.execTkgive c a b s
  | .tkswap c pd a b => Sys2Proof.Machine.execTkswap c pd a b s
  | .tkaban c a => Sys2Proof.Machine.execTkaban c a s
  | .tkrel c a => Sys2Proof.Machine.execTkrel c a s
  | .boothStep p die obj => Sys2Proof.Machine.execBoothStep p die obj s
  | .tkinfo c d a => Sys2Proof.Machine.execTkinfo c d a s
  | .honew c d a => Sys2Proof.Machine.execHonew c d a s
  | .hodel c a => Sys2Proof.Machine.execHodel c a s
  | .tspawn c n d a b e => Sys2Proof.Machine.execTspawn c n d a b e s
  | .tdec c a => Sys2Proof.Machine.execTdec c a s
  | .tarm c a b e => Sys2Proof.Machine.execTarm c a b e s
  | .tdisarm c pd a => Sys2Proof.Machine.execTdisarm c pd a s
  | .certw c pd a => Sys2Proof.Machine.execCertw c pd a s
  | .wbld c a b e => Sys2Proof.Machine.execWbld c a b e s
  | .mml c af a b => Sys2Proof.Machine.execMml c af a b s
  | .mmlg c af a b t => Sys2Proof.Machine.execMmlg c af a b t s
  | .accz c a => Sys2Proof.Machine.execAccz c a s
  | .accrd c n d a => Sys2Proof.Machine.execAccrd c n d a s
  | .accst c fmt rm int a b e => Sys2Proof.Machine.execAccst c fmt rm int a b e s
  | .cpy c a => Sys2Proof.Machine.execCpy c a s
  | .cpym c a => Sys2Proof.Machine.execCpym c a s
  | .cpyx c a => Sys2Proof.Machine.execCpyx c a s
  | .coll c d a => Sys2Proof.Machine.execColl c d a s
  | .collq c d a => Sys2Proof.Machine.execCollq c d a s
  | .vpjinit c a b e => Sys2Proof.Machine.execVpjinit c a b e s
  | .vpj c a => Sys2Proof.Machine.execVpj c a s
  | .vpjmrg c a b e => Sys2Proof.Machine.execVpjmrg c a b e s
  | .vpjfin c a b => Sys2Proof.Machine.execVpjfin c a b s
  | .vsamp c a => Sys2Proof.Machine.execVsamp c a s
  | .vpjbwd c a => Sys2Proof.Machine.execVpjbwd c a s
  | .vtopk c a => Sys2Proof.Machine.execVtopk c a s
  | .vsmax c a => Sys2Proof.Machine.execVsmax c a s
  | .trapReg c a => Sys2Proof.Machine.execTrapReg c a s
  | .trapImm c imm => Sys2Proof.Machine.execTrapImm c imm s
  | .rtt c => Sys2Proof.Machine.execRtt c s
  | .tmaskReg c a => Sys2Proof.Machine.execTmaskReg c a s
  | .tmaskImm c imm => Sys2Proof.Machine.execTmaskImm c imm s
  | .ctlrdReg c d b => Sys2Proof.Machine.execCtlrdReg c d b s
  | .ctlrdImm c d sel => Sys2Proof.Machine.execCtlrdImm c d sel s
  | .ctlwrReg c d b => Sys2Proof.Machine.execCtlwrReg c d b s
  | .ctlwrImm c d sel => Sys2Proof.Machine.execCtlwrImm c d sel s
  | .tlbiPage c a => Sys2Proof.Machine.execTlbiPage c a s
  | .tlbiAll c => Sys2Proof.Machine.execTlbiAll c s
  | .bkpt c n => Sys2Proof.Machine.execBkpt c n s
  | .evrec c a b => Sys2Proof.Machine.execEvrec c a b s
  | .teamResourcesFree p ctx => Sys2Proof.Machine.execTeamResourcesFree p ctx s
  | .mirrorRedispatch p ctx => Sys2Proof.Machine.execMirrorRedispatch p ctx s
  | .teamDispatch p core slot ctx => Sys2Proof.Machine.execTeamDispatch p core slot ctx s
  | .portPick w => Sys2Proof.Machine.execPortPick w s
  | .deferredResultReturn w lane k => Sys2Proof.Machine.execDeferredResultReturn w lane k s
  | .park w pc => Sys2Proof.Machine.execPark w pc s
  | .groupRetire w => Sys2Proof.Machine.execGroupRetire w s
  | .taskComplete p ctx => Sys2Proof.Machine.execTaskComplete p ctx s
  | .recordRetire p inst => Sys2Proof.Machine.execRecordRetire p inst s
  | .deferredLaunch p => Sys2Proof.Machine.execDeferredLaunch p s
  | .mboxMsg p page bytes => Sys2Proof.Machine.execMboxMsg p page bytes s
  | .mboxStatWrite p page v => Sys2Proof.Machine.execMboxStatWrite p page v s
  | .launch p page => Sys2Proof.Machine.execLaunch p page s
  | .slotFire p page => Sys2Proof.Machine.execSlotFire p page s
  | .cancel p => Sys2Proof.Machine.execCancel p s
  | .free p => Sys2Proof.Machine.execFree p s
  | .preempt p => Sys2Proof.Machine.execPreempt p s
  | .slice p => Sys2Proof.Machine.execSlice p s
  | .migrate p => Sys2Proof.Machine.execMigrate p s
  | .endfwd p => Sys2Proof.Machine.execEndfwd p s
  | .dead p => Sys2Proof.Machine.execDead p s
  | .scrub p host => Sys2Proof.Machine.execScrub p host s
  | .dbghalt p => Sys2Proof.Machine.execDbghalt p s
  | .objdel p => Sys2Proof.Machine.execObjdel p s
  | .dbgcont p => Sys2Proof.Machine.execDbgcont p s
  | .cmdBadOp p => Sys2Proof.Machine.execCmdBadOp p s
  | .cmdStatWrite p v => Sys2Proof.Machine.execCmdStatWrite p v s
  | .sliceExpiry p core => Sys2Proof.Machine.execSliceExpiry p core s
  | .preemptSwitch p core => Sys2Proof.Machine.execPreemptSwitch p core s
  | .contextSpill p ctx => Sys2Proof.Machine.execContextSpill p ctx s
  | .teamResume p ctx core slot => Sys2Proof.Machine.execTeamResume p ctx core slot s
  | .wheelWindow p core => Sys2Proof.Machine.execWheelWindow p core s
  | .scanPass p core => Sys2Proof.Machine.execScanPass p core s
  | .scanFail p core => Sys2Proof.Machine.execScanFail p core s
  | .barkerTimeout p core => Sys2Proof.Machine.execBarkerTimeout p core s
  | .waitmTimeout w lane => Sys2Proof.Machine.execWaitmTimeout w lane s
  | .faultReplay p resp => Sys2Proof.Machine.execFaultReplay p resp s
  | .faultFail p resp => Sys2Proof.Machine.execFaultFail p resp s
  | .faultResponseReserved p resp => Sys2Proof.Machine.execFaultResponseReserved p resp s
  | .copyStart p ctx k => Sys2Proof.Machine.execCopyStart p ctx k s
  | .copyPieceWritten p ctx k n => Sys2Proof.Machine.execCopyPieceWritten p ctx k n s
  | .copyEnd p ctx k => Sys2Proof.Machine.execCopyEnd p ctx k s
  | .matrixCmdStart p ctx odd => Sys2Proof.Machine.execMatrixCmdStart p ctx odd s
  | .matrixCmdComplete p ctx odd => Sys2Proof.Machine.execMatrixCmdComplete p ctx odd s
  | .collExchange p h => Sys2Proof.Machine.execCollExchange p h s
  | .collContribution p link => Sys2Proof.Machine.execCollContribution p link s
  | .collAbortToken p link => Sys2Proof.Machine.execCollAbortToken p link s
  | .collEnd p h => Sys2Proof.Machine.execCollEnd p h s
  | .gets p link => Sys2Proof.Machine.execGets p link s
  | .getm p link => Sys2Proof.Machine.execGetm p link s
  | .wrh p link => Sys2Proof.Machine.execWrh p link s
  | .redReq p link => Sys2Proof.Machine.execRedReq p link s
  | .wb p link => Sys2Proof.Machine.execWb p link s
  | .eve p link => Sys2Proof.Machine.execEve p link s
  | .snp p link => Sys2Proof.Machine.execSnp p link s
  | .snpr p link => Sys2Proof.Machine.execSnpr p link s
  | .rspData p link => Sys2Proof.Machine.execRspData p link s
  | .rspAck p link => Sys2Proof.Machine.execRspAck p link s
  | .rspRefused p link => Sys2Proof.Machine.execRspRefused p link s
  | .rspPoison p link => Sys2Proof.Machine.execRspPoison p link s
  | .rspHold p link => Sys2Proof.Machine.execRspHold p link s
  | .remoteReadTimeout p r => Sys2Proof.Machine.execRemoteReadTimeout p r s
  | .remoteWriteTimeout p r => Sys2Proof.Machine.execRemoteWriteTimeout p r s
  | .migrationSwitch p page => Sys2Proof.Machine.execMigrationSwitch p page s
  | .turnstileWrite p region v => Sys2Proof.Machine.execTurnstileWrite p region v s
  | .turnstileDone p region => Sys2Proof.Machine.execTurnstileDone p region s
  | .cellTableWrite p off bytes => Sys2Proof.Machine.execCellTableWrite p off bytes s
  | .peerSilenceTimeout p q => Sys2Proof.Machine.execPeerSilenceTimeout p q s
  | .safetyNetWalk p line => Sys2Proof.Machine.execSafetyNetWalk p line s
  | .heartbeat p link => Sys2Proof.Machine.execHeartbeat p link s
  | .deathNotice p link => Sys2Proof.Machine.execDeathNotice p link s
  | .retireNotice p link => Sys2Proof.Machine.execRetireNotice p link s
  | .taggedLaunchMsg p link => Sys2Proof.Machine.execTaggedLaunchMsg p link s
  | .flitIdle p link => Sys2Proof.Machine.execFlitIdle p link s
  | .flitReplayRequest p link => Sys2Proof.Machine.execFlitReplayRequest p link s
  | .linkReplayTimeout p link => Sys2Proof.Machine.execLinkReplayTimeout p link s
  | .connectionStart p link => Sys2Proof.Machine.execConnectionStart p link s
  | .slotDrain p => Sys2Proof.Machine.execSlotDrain p s
  | .slotGuard p => Sys2Proof.Machine.execSlotGuard p s
  | .linkPick p link => Sys2Proof.Machine.execLinkPick p link s
  | .lightLoss p link fibre => Sys2Proof.Machine.execLightLoss p link fibre s
  | .restripe p link => Sys2Proof.Machine.execRestripe p link s
  | .feedReturn p link fibre => Sys2Proof.Machine.execFeedReturn p link fibre s
  | .scheduleWrite p img => Sys2Proof.Machine.execScheduleWrite p img s
  | .scheduleEpoch p => Sys2Proof.Machine.execScheduleEpoch p s
  | .bar2Read p off n => Sys2Proof.Machine.execBar2Read p off n s
  | .bar2Write p off bytes => Sys2Proof.Machine.execBar2Write p off bytes s
  | .packageReset p => Sys2Proof.Machine.execPackageReset p s
  | .functionReady p bit ok => Sys2Proof.Machine.execFunctionReady p bit ok s
  | .freeze p => Sys2Proof.Machine.execFreeze p s
  | .thermalLimit p => Sys2Proof.Machine.execThermalLimit p s
  | .powerRemove p => Sys2Proof.Machine.execPowerRemove p s
  | .getVersion p r => Sys2Proof.Machine.execGetVersion p r s
  | .getCapabilities p r => Sys2Proof.Machine.execGetCapabilities p r s
  | .negotiateAlgorithms p r => Sys2Proof.Machine.execNegotiateAlgorithms p r s
  | .getDigests p r => Sys2Proof.Machine.execGetDigests p r s
  | .getCertificate p r => Sys2Proof.Machine.execGetCertificate p r s
  | .challenge p r => Sys2Proof.Machine.execChallenge p r s
  | .getMeasurements p r => Sys2Proof.Machine.execGetMeasurements p r s
  | .spdmUnsupported p code r => Sys2Proof.Machine.execSpdmUnsupported p code r s
  | .registerWrite p off bytes => Sys2Proof.Machine.execRegisterWrite p off bytes s
  | .relayedFlit p link => Sys2Proof.Machine.execRelayedFlit p link s
  | .tdecMsg p link => Sys2Proof.Machine.execTdecMsg p link s
  | .certwMsg p link => Sys2Proof.Machine.execCertwMsg p link s
  | .evrTail p page v => Sys2Proof.Machine.execEvrTail p page v s

end Sys2Proof.Machine
end

