-- ==== Sys2Proof/Machine/Step.lean ====
section
/-! DEFINITION. The step: the next move of the agenda, or else the group that issues next fetches, decodes and executes one
instruction (log entry 2); and how a host places one instruction where the step fetches (log entry 11). -/

namespace Sys2Proof.Machine

/-- The context in which a word of the issuing clause is decoded (R96). -/
def Iss.decCtx (u : Iss) (t : Team) : DecCtx :=
  ⟨BitVec.ofNat 4 u.clause.ecls, u.isLast, t.tmpl.regs, t.tmpl.nbc, t.tmpl.bbc⟩

/-- The port becomes idle: its entry has left the word. -/
def Iss.idle (u : Iss) (s : State) : State :=
  s.modTeam u.pkg u.ctx (fun t => (t.modGroup u.group (fun g => g.freePort s.curB)).sweepEnts u.group)

/-- A word that is not an instruction: every lane of the entry takes the decode trap, whatever the guard (R96). -/
def Iss.decodeTrap (u : Iss) (e : DecTrap) (s : State) : State :=
  u.idle (s.trapLanes u.pkg u.ctx u.group u.lanes (u.trap (if e.clause then 0x02 else 0x01) e.reason (some u.pc64)))

/-- A fetch that fails: every lane parks on the page, or takes the trap (R134, R308). -/
def Iss.fetchFails (u : Iss) (x : Xl) (s : State) : State :=
  let die := u.die s
  u.idle ((u.lanes.foldl (fun s l =>
    match u.badXl l u.pc64 Access.fetch.kind x s with
    | (s, .trap tr) => s.trapLanes u.pkg u.ctx u.group [l] tr
    | (s, _) => s) s).flushFaults u.pkg die)

/-- One cycle of a package passes (R130). -/
def State.tick1 (s : State) (p : Nat) : State := s.modPkg p (fun k => { k with issued := k.issued + 1 })

/-- The port that issues next: an idle port picks, an entry whose park is due parks, and an entry that is ready fetches one word
and executes it, with the error that strikes it, if one does (R354). -/
def State.issueStep (s : State) : Host.Outcome State Fault Refusal :=
  match s.iss? with
  | none => exec (.portPick s.cur) s
  | some u =>
    if u.blocked s then exec (.park s.cur u.pc) s
    else
      match u.team s with
      | none => .next s
      | some t =>
        match s.fetch u.pkg u.ctx (u.die s) u.pc.toNat with
        | (.ok _, w, s) =>
          match decode (u.decCtx t) w with
          | .ok i =>
            match s.upset with
            | none => exec i s
            | some (lane, e) => u.struck i (w.extractLsb' 52 3).toNat lane e s (exec i)
          | .error e => .next (u.decodeTrap e s)
        | (x, _, s) => .next (u.fetchFails x s)

/-- The threads of a group. -/
def State.threadsOf (s : State) (w : Where) : Table Thread :=
  match s.team? w.pkg w.ctx with
  | some t => (t.group w.group).threads
  | none => []

/-- Both ports of a group hold an entry. -/
def State.bothIssue (s : State) (w : Where) : Bool :=
  match s.team? w.pkg w.ctx with
  | some t => (t.group w.group).portA.isSome && (t.group w.group).portB.isSome
  | none => false

/-- A port of a group issues. -/
def State.issueAt (s : State) (w : Where) (b : Bool) : Host.Outcome State Fault Refusal :=
  let s : State := { s with cur := w, curB := b }
  s.settle s.issueStep

/-- A group's cycle in which both ports issue: port A, then port B on the threads as A's instruction leaves them; what a lane reads of
another lane is as the cycle began (R22, R31). Where one port only holds an entry, it issues alone. -/
def State.cycle (s : State) (w : Where) : Host.Outcome State Fault Refusal :=
  match s.issueAt w false with
  | .next s' =>
    if !s.bothIssue w then .next s'
    else
      match ({ s' with prior := some (s.threadsOf w) }).issueAt w true with
      | .next s => .next { s with prior := none }
      | o => o
  | o => o

/-- The package that an event is about. -/
def evPkg : Instr → Nat
  | .boothStep p _ _ | .teamResourcesFree p _ | .mirrorRedispatch p _ | .teamDispatch p _ _ _ | .taskComplete p _
  | .recordRetire p _ | .deferredLaunch p | .mboxMsg p _ _ | .mboxStatWrite p _ _ | .launch p _ | .slotFire p _
  | .cancel p | .free p | .preempt p | .slice p | .migrate p | .endfwd p | .dead p | .scrub p _ | .dbghalt p | .objdel p
  | .dbgcont p | .cmdBadOp p | .cmdStatWrite p _ | .sliceExpiry p _ | .preemptSwitch p _ | .contextSpill p _
  | .teamResume p _ _ _ | .wheelWindow p _ | .scanPass p _ | .scanFail p _ | .barkerTimeout p _ | .faultReplay p _
  | .faultFail p _ | .faultResponseReserved p _ | .copyStart p _ _ | .copyPieceWritten p _ _ _ | .copyEnd p _ _
  | .matrixCmdStart p _ _ | .matrixCmdComplete p _ _ | .collExchange p _ | .collContribution p _ | .collAbortToken p _
  | .collEnd p _ | .gets p _ | .getm p _ | .wrh p _ | .redReq p _ | .wb p _ | .eve p _ | .snp p _ | .snpr p _
  | .rspData p _ | .rspAck p _ | .rspRefused p _ | .rspPoison p _ | .rspHold p _ | .remoteReadTimeout p _
  | .remoteWriteTimeout p _ | .migrationSwitch p _ | .turnstileWrite p _ _ | .turnstileDone p _ | .cellTableWrite p _ _
  | .peerSilenceTimeout p _ | .safetyNetWalk p _ | .heartbeat p _ | .deathNotice p _ | .retireNotice p _
  | .taggedLaunchMsg p _ | .flitIdle p _ | .flitReplayRequest p _ | .linkReplayTimeout p _ | .connectionStart p _
  | .slotDrain p | .slotGuard p | .linkPick p _ | .lightLoss p _ _ | .restripe p _ | .feedReturn p _ _ | .scheduleWrite p _
  | .scheduleEpoch p | .bar2Read p _ _ | .bar2Write p _ _ | .packageReset p | .functionReady p _ _ | .freeze p
  | .thermalLimit p | .powerRemove p | .getVersion p _ | .getCapabilities p _ | .negotiateAlgorithms p _ | .getDigests p _
  | .getCertificate p _ | .challenge p _ | .getMeasurements p _ | .spdmUnsupported p _ _ | .registerWrite p _ _
  | .relayedFlit p _ | .tdecMsg p _ | .certwMsg p _ | .evrTail p _ _ => p
  | .portPick w | .deferredResultReturn w _ _ | .park w _ | .groupRetire w | .waitmTimeout w _ => w.pkg
  | _ => 0

/-- Events that a frozen package still meets: its power goes, or it is reset (R357, R359). -/
def pastFreeze : Instr → Bool
  | .packageReset _ | .powerRemove _ => true
  | _ => false

/-- A package meets nothing: there is none of its number (R2), or its clocks have stopped (R357, R359). -/
def State.isStopped (s : State) (p : Nat) : Bool := decide (256 ≤ p) || (s.pkg p).frozen || (s.pkg p).poweredOff

/-- An event happens where its package meets it. An instruction word executes only where it is fetched. -/
def State.happens (s : State) (i : Instr) : Bool :=
  !i.isWord && (!s.isStopped (evPkg i) || (pastFreeze i && decide (evPkg i < 256)))

/-- One move of the agenda. -/
def State.move (s : State) : Move → Host.Outcome State Fault Refusal
  | .issue w b => if s.isStopped w.pkg then .fault (.stopped w.pkg) else (s.tick1 w.pkg).issueAt w b
  | .cycle w => if s.isStopped w.pkg then .fault (.stopped w.pkg) else (s.tick1 w.pkg).cycle w
  | .event i => if s.happens i then s.settle (exec i s) else .next s
  | .tick c n => .next { s with clock := s.clock + c, time := s.time + n }
  | .readAhead p ctx k u => s.settle (.next (if s.isStopped p then s else s.readAhead p ctx k u))
  | .evict p line => .next (if s.isStopped p then s else s.evict p line)
  | .hostRead p off n => .next (if s.isStopped p then s else s.modPkg p (fun k => k.readBar0 off n))
  | .resizeBar p n => .next (if s.isStopped p then s else s.modPkg p (fun k => k.resizeBar n))
  | .armImage p space part es => .next (if s.isStopped p then s else s.armImage p space part es)
  | .upset w b lane e => if s.isStopped w.pkg then .fault (.stopped w.pkg) else (({ s with upset := some (lane, e) }).tick1 w.pkg).issueAt w b
  | .memError p line => s.settle (.next (if s.isStopped p then s else s.memError p line))

/-- What is held inside one step only is not there. -/
def State.fresh (s : State) : State := { s with wants := [], prior := none, upset := none }

/-- ONE STEP: the agenda's next move, or else the current group's port. -/
def step (s : State) : Host.Outcome State Fault Refusal :=
  match s.agenda with
  | m :: rest => ({ s.fresh with agenda := rest }).move m
  | [] => if s.isStopped s.cur.pkg then .fault (.stopped s.cur.pkg) else (s.fresh.tick1 s.cur.pkg).issueAt s.cur s.curB

/-! ### One instruction placed where the step fetches -/

/-- Where `withFetchWord` places its page tables, its code page and its virtual address. -/
def fetchRoot : Nat := 0x100000
def fetchVa : Nat := 0x40000
def fetchPa : Nat := 0x200000

/-- The tables of `withFetchWord`: entry 0 of levels 4 to 1, then the leaf of the code page. -/
def fetchTables (m : Mem) : Mem :=
  let e (addr flags : Nat) : List Byte := leBytes 8 (addr + flags)
  ((((m.put fetchRoot (e 0x101000 0x21)).put 0x101000 (e 0x102000 0x21)).put 0x102000 (e 0x103000 0x21)).put 0x103000
    (e 0x104000 0x21)).put (0x104000 + 8 * 4) (e fetchPa 0x7F)

/-- The team that `withFetchWord` makes resident: one group of 16 lanes with 512 registers and every barrier. -/
def fetchTeam (ecls : Nat) : Team :=
  let pc : Pc := BitVec.ofNat 57 (fetchVa + 8)
  let k : Clause := ⟨BitVec.ofNat 57 fetchVa, pc, 0, ecls⟩
  let th : Thread := { pc := pc }
  let g : Group := { threads := (List.range 16).map (fun l => (l, th)), ents := [(fetchVa + 8, ⟨0, false, some k⟩)],
                     portA := some ⟨pc, k⟩ }
  { inst := 1, template := 0, arg := 0, part := 0, prio := 0, stream := 0, driver := false, mirror := false,
    tmpl := { width := 16, groups := 1, regs := 512, nbc := 48, bbc := 32, scratch := 65536,
              entry := BitVec.ofNat 64 fetchVa }, place := some (0, 0), groups := [(0, g)] }

/-- The class of a word, for the clause that holds it; a word of class 7 stands in an INT clause. -/
def wordClass (w : Nat) : Nat := if w / 2 ^ 52 % 8 = 7 then 0 else w / 2 ^ 52 % 8

/-- The state with one instruction placed so that the very next step fetches and runs it: a clause that holds it alone, its page
mapped, and a resident team whose port A stands at it. It stands for the load, launch, dispatch and pick that bring a
program to its first instruction (log entry 11). -/
def State.withFetchWord (s : State) (_nbits w : Nat) : State :=
  let ecls := wordClass w
  let hdr := (Header.word ⟨0, BitVec.ofNat 4 ecls, 0, false, 0, false⟩).toNat
  let s := s.modPkg 0 (fun k => { k with
    frozen := false, poweredOff := false,
    ptroot := tput k.ptroot 0 (BitVec.ofNat 64 fetchRoot), ptrootWalk := tput k.ptrootWalk 0 (BitVec.ofNat 64 fetchRoot),
    teams := tput k.teams 0 (fetchTeam ecls) })
  { s with
    mem := ((fetchTables s.mem).put fetchPa (leBytes 8 hdr)).put (fetchPa + 8) (leBytes 8 (w % 2 ^ 64)),
    agenda := [], cur := ⟨0, 0, 0⟩, curB := false }

end Sys2Proof.Machine
end

