-- ==== Sys2Proof/Safety.lean ====
section
/-! DEFINITION. What claims call safe, and the terms they use: a step that goes on, the invariant of the machine's plain data, what
two states agree on (frames), and what an instruction word finds and leaves at the lanes that issue it. -/

namespace Sys2Proof.Machine

/-- The step goes on: neither a fault nor a refusal. -/
def goesOn : Host.Outcome State Fault Refusal → Bool
  | .next _ => true
  | _ => false

/-- Memory is in its canonical form (log entry 1). -/
def State.Inv (s : State) : Prop := s.mem.wf = true

/-! ### Frames -/

/-- A group without its lanes, its entries and its ports. -/
def Group.shell (g : Group) : Group := { g with threads := [], ents := [], portA := none, portB := none, bFree := false }

/-- A team without its groups. -/
def Team.shell (t : Team) : Team := { t with groups := [] }

/-- A package without its teams, its dies, its fault rings and the signals of its rings. -/
def Package.shell (k : Package) : Package := { k with teams := [], dies := [], flt := [], msix := [] }

/-- A die without the faults that wait for the driver. -/
def Die.shell (d : Die) : Die := { d with faults := [] }

/-- Everything but packages is the same: memory, both clocks, what the model chooses by. -/
structure SameWorld (s t : State) : Prop where
  mem : t.mem = s.mem
  clock : t.clock = s.clock
  time : t.time = s.time
  free : t.free = s.free
  agenda : t.agenda = s.agenda
  cur : t.cur = s.cur
  curB : t.curB = s.curB
  prior : t.prior = s.prior
  wants : t.wants = s.wants
  upset : t.upset = s.upset

/-- Two states differ at most in the lanes, the entries and the ports of one group, and in fault records on their way to the driver: all
memory, every other package, team and group, the team's barriers, scratchpad, engines and copies, every register of the package, its
rings of events, its directory and its links are the same. -/
structure OnlyGroup (p c g : Nat) (s t : State) : Prop where
  world : SameWorld s t
  others : ∀ q, q ≠ p → t.pkg q = s.pkg q
  pkg : (t.pkg p).shell = (s.pkg p).shell
  dies : ∀ d, (t.die p d).shell = (s.die p d).shell
  teams : ∀ d, d ≠ c → t.team? p d = s.team? p d
  team : ∃ a b, s.team? p c = some a ∧ t.team? p c = some b ∧ b.shell = a.shell ∧ (b.group g).shell = (a.group g).shell ∧
    ∀ h, h ≠ g → b.group h = a.group h

/-- A thread after a park, or with one due: its results are written at once where all have returned (R90). -/
def Thread.parked (x : Thread) (park : Bool) : Thread :=
  if park then (if x.settled then x.parkNow.1 else { x with parkDue := true }) else x

/-- A lane that stands at a program counter after the word has ended its clause (R136). -/
def Iss.ends (u : Iss) (pc : Pc) : Bool := u.isLast && pc != u.pc

/-- A thread that leaves an instruction for a program counter, with or without a park; at the end of a clause its YIELD mark goes to
its entry (R90, R136). -/
def Thread.goTo (th : Thread) (u : Iss) (pc : Pc) (park : Bool) : Thread :=
  let x : Thread := ({ th with pc := pc } : Thread).parked park
  { x with yielded := x.yielded && !u.ends pc }

/-- A thread that leaves an instruction for the next word. -/
def Thread.leave (th : Thread) (u : Iss) (c : Ctl) : Thread := th.goTo u u.next c.park

/-- What an instruction word leaves at a lane: a lane that does not issue keeps its thread; one whose guard is false passes by; one whose
guard is true has `F` done to its thread; both then stand at the next word, and a word with SW parks (R81, R83, R90). -/
def Thread.issued (th : Thread) (u : Iss) (c : Ctl) (l : Nat) (F : Thread → Thread) : Thread :=
  if l ∈ u.lanes then (if th.guard c then F th else th).leave u c else th

/-- The lanes of a group have done one word of an entry, `F` at each lane whose guard was true, and nothing else has happened. -/
def Did (u : Iss) (c : Ctl) (F : Nat → Thread → Thread) (s t : State) : Prop :=
  OnlyGroup u.pkg u.ctx u.group s t ∧
    ∀ l, t.thread u.pkg u.ctx u.group l = (s.thread u.pkg u.ctx u.group l).issued u c l (F l)

/-- An entry issues: the port that issues next holds it, and no lane of it waits for an answer or for a park. -/
def Issues (u : Iss) (s : State) : Prop := s.iss? = some u ∧ u.blocked s = false

/-- No lane that issues is inside a remote region, whose undo log could stop a write (R178). -/
def NoRegion (u : Iss) (s : State) : Prop := ∀ l ∈ u.lanes, (u.thread s l).region = none

/-- Register values written by an instruction: the values with their deferred-fault bits, at a register field (R84: g0 takes none). -/
def Thread.wrote (th : Thread) (d : Reg) (vs : List (Word × Bool)) (flags : BitVec 5) : Thread :=
  ((th.raise flags).putRun d vs).getD th

/-! ### A word issued by one lane -/

/-- An entry of one lane issues a word whose guard is true there. -/
structure Lone (u : Iss) (c : Ctl) (l : Nat) (s : State) : Prop where
  issues : Issues u s
  lanes : u.lanes = [l]
  guard : (u.thread s l).guard c = true

/-- The same outside every remote region. -/
structure Alone (u : Iss) (c : Ctl) (l : Nat) (s : State) : Prop extends Lone u c l s where
  region : (u.thread s l).region = none

/-- What is left when the word's own effect has given `m`: the lane goes to a program counter, and parks where a park follows. Beside the
lanes, the entries and the ports of the group nothing else happens. -/
def After (u : Iss) (l : Nat) (pc : Pc) (park : Bool) (m t : State) : Prop :=
  OnlyGroup u.pkg u.ctx u.group m t ∧
    ∀ x, t.thread u.pkg u.ctx u.group x =
      if x = l then (m.thread u.pkg u.ctx u.group l).goTo u pc park else m.thread u.pkg u.ctx u.group x

/-- The same where the word's own effect has put its lanes where they stand, in the word or elsewhere (R17). -/
def Stays (u : Iss) (m t : State) : Prop :=
  OnlyGroup u.pkg u.ctx u.group m t ∧
    ∀ x, t.thread u.pkg u.ctx u.group x =
      let th := m.thread u.pkg u.ctx u.group x
      if x ∈ u.lanes then { th with yielded := th.yielded && !u.ends th.pc } else th

/-- A trap that the lane's handler takes (R260, R261, R292): older results are written, tx.* holds the trap, M saves into PM and masks, and the
lane stands at the handler's entry clause. -/
def Taken (u : Iss) (l : Nat) (tm : Team) (code : Nat) (pc addr info : DWord) (m t : State) : Prop :=
  OnlyGroup u.pkg u.ctx u.group m t ∧
    ∀ x, t.thread u.pkg u.ctx u.group x =
      if x = l then
        let th := m.thread u.pkg u.ctx u.group l
        { th.parkNow.1 with txCode := BitVec.ofNat 32 code, txPc := pc, txAddr := addr, txInfo := info, pm := th.parkNow.1.m, m := true,
                            inh := true, pend := [], defCount := 0, parkDue := false, wait := none, st := .runnable, yielded := false,
                            pc := tm.tmpl.handler.setWidth 57 }
      else m.thread u.pkg u.ctx u.group x

/-- A word of one lane whose traps its handler takes: traps are not masked, and the task has a handler (R260). -/
structure Handled (u : Iss) (c : Ctl) (l : Nat) (s : State) (tm : Team) : Prop extends Alone u c l s where
  team : u.team s = some tm
  single : tm.mirror = false
  handler : tm.tmpl.handler ≠ 0
  unmasked : (u.thread s l).m = false

/-! ### Held translations -/

/-- A translation that an access uses and that leaves no trace: the die holds it, the tables give the same, it permits the access, its page
is in the space, and a write finds D set (R307, R308, R310). -/
structure Held (s : State) (p part die va : Nat) (acc : Access) (tr : PageTr) : Prop where
  held : ((s.die p die).tlb.find? (fun e => e.part == part && e.tr.covers va)).map (fun e => e.tr) = some tr
  walk : (s.walk p part va).1 = .ok tr
  check : (s.pkg p).checkTr p va acc tr = .ok tr
  dirty : acc = .write ∨ acc = .atom → s.peekLe (s.forward tr.leaf) 8 / 2 ^ 6 % 2 = 1

/-- A plain read of package `p` is served now at the home of a space address: the line is ready there, and its home refuses nothing (R317, R320,
R327, R329). -/
def Served (s : State) (p a : Nat) : Prop := (s.pkg (homeOf a)).avail (llineOf a) false = true ∧ s.homeFault p a false = none

/-- A code word that the team's fetch gives, and that no store has changed since the team fetched it (R381). -/
structure Code (u : Iss) (s : State) (va : Nat) (w : DWord) : Prop where
  page : ∃ tr, Held s u.pkg (u.part s) (u.die s) va .fetch tr ∧ Served s u.pkg (s.forward (tr.at va)) ∧
    w = BitVec.ofNat 64 (s.peekLe (s.forward (tr.at va)) 8)
  kept : ∀ tm, u.team s = some tm → tget [] tm.icache va = [] ∨ tget [] tm.icache va = [w]

/-- The fetch keeps a code word. -/
def Iss.keeps (u : Iss) (va : Nat) (w : DWord) (s : State) : State :=
  s.modTeam u.pkg u.ctx (fun tm => { tm with icache :=
    (let kept := tget [] tm.icache va
     if kept.contains w then tm.icache else tput tm.icache va (kept ++ [w])) })

/-! ### Places of memory accesses -/

/-- The core that the issuing group runs on. -/
def Iss.coreIn (u : Iss) (s : State) : Nat :=
  match u.team s with
  | some t => t.coreOf u.group
  | none => 0

/-- An access of `n` bytes at `ea` meets one line of global memory, at space address `a`: it is aligned, a held translation maps it, and it
lies within the line (R162, R308, R382). -/
structure OnLine (u : Iss) (s : State) (tm : Team) (ea : DWord) (n : Nat) (acc : Access) (a : Nat) : Prop where
  aligned : ea.toNat % n = 0
  low : ea.toNat < 2 ^ 57
  some : 0 < n
  page : ∃ tr, Held s u.pkg tm.part (u.die s) ea.toNat acc tr ∧ s.forward (tr.at ea.toNat) = a ∧ tr.at ea.toNat % 128 + n ≤ 128

/-- The package shares no line of its memory, and no transaction is open at its home (R315, R317). -/
def Quiet (s : State) (p : Nat) : Prop := (s.pkg p).dir = [] ∧ (s.pkg p).txns = []

/-- The package can read a line now, or write it where `own` asks: it is the home and shares nothing, or it holds a copy that will do, and it
has no write on its way to it (R66, R316). -/
structure Ready (u : Iss) (s : State) (own : Bool) (a : Nat) : Prop where
  home : homeOf a = u.pkg → Quiet s u.pkg
  away : homeOf a ≠ u.pkg → (s.pkg u.pkg).dead (homeOf a) = false ∧ (s.pkg u.pkg).writing a = false ∧
    ∃ cp, tfind (s.pkg u.pkg).copies (lineOf a) = some cp ∧ (own = true → cp.excl = true)

/-- The core's L1 holds no copy of the line, or one that agrees (R64). -/
def Fresh (u : Iss) (s : State) (a n : Nat) : Prop :=
  ∀ cells, tfind (s.core u.pkg (u.coreIn s)).l1 (lineOf a) = some cells → cells.bytes a n = s.seen u.pkg a n

/-! ### A group instruction -/

/-- A group issues a class 5 instruction as a whole (R28, R94, R237): every visible lane that has not exited stands at it, runs, and has a true
guard, outside mirror mode and outside every region; its first lane is `l`, whose operands are not flagged; the group has no command that it waits
for or that is suspended, and no remote write out. -/
structure Whole (u : Iss) (c : Ctl) (l : Nat) (s : State) (tm : Team) (reads : List Opnd) : Prop where
  issues : Issues u s
  team : u.team s = some tm
  single : tm.mirror = false
  idle : (tm.group u.group).vwait = false
  all : tm.entVis u.group u.pc = tm.liveVis u.group
  first : (tm.entVis u.group u.pc).head? = some l
  runs : ∀ j ∈ tm.entVis u.group u.pc, (u.thread s j).runs = true ∧ (u.thread s j).guard c = true ∧ (u.thread s j).region = none
  fresh : tm.suspended u.group = none
  plain : (u.thread s l).flags reads = false
  drained : (tm.group u.group).rwCount = 0

/-- A later state has the same teams, and the same entry issues: what the translation of a command's pages may change lies elsewhere. -/
structure Calm (s t : State) : Prop where
  teams : ∀ q d, t.team? q d = s.team? q d
  cur : t.cur = s.cur
  curB : t.curB = s.curB

/-- The leaf entries of pages lie at quiet homes, where a migration has left them, and no lane watches their lines (R309, R311, R317). -/
def Lockable (s : State) (ps : List PageTr) : Prop :=
  ∀ tr ∈ ps, Quiet s (homeOf (s.forward (tr.leaf + 7))) ∧ s.watchers (lineOf (s.forward (tr.leaf + 7))) = []

end Sys2Proof.Machine
end

