-- ==== Sys2Proof/Certificates/Slice0/Obligations.lean ====
section
/-! DEFINITION. The statements for the provers. A clause says what one instruction word does at a lane; its terms say that `exec` does
it at every lane that issues, at no other, and nothing else. -/

namespace Sys2Proof.Machine

/-- A word gives `F` at every active lane, and nothing else: exec answers a next state in which each lane that issues with a true guard has
had `F` done to its thread, each that issues with a false guard has passed by, and the rest of the machine is as it was. -/
def Claims.Gives (i : Instr) (c : Ctl) (F : Thread → Thread) : Prop :=
  ∀ (u : Iss) (s : State), Issues u s → NoRegion u s → ∃ t, exec i s = .next t ∧ Did u c (fun _ => F) s t

/-- The same, where no source of an active lane is flagged: a flagged one raises DEFERRED (R94). -/
def Claims.GivesPred (i : Instr) (c : Ctl) (os : List Opnd) (F : Thread → Thread) : Prop :=
  ∀ (u : Iss) (s : State), Issues u s → NoRegion u s → (∀ l ∈ u.active c s, (u.thread s l).flags os = false) →
    ∃ t, exec i s = .next t ∧ Did u c (fun _ => F) s t

/-- A word gives a deferred result of one run of registers (R89), where no active lane holds 16 of them (R91): it joins the lane's pending
results with the deferred-fault bits of its sources, and the deferred count rises by 1. -/
def Claims.GivesDeferred (i : Instr) (c : Ctl) (d : Reg) (os : List Opnd) (f : Thread → List Word × BitVec 5) : Prop :=
  ∀ (u : Iss) (s : State), Issues u s → NoRegion u s → (∀ l ∈ u.active c s, (u.thread s l).defCount < 16) →
    ∃ t, exec i s = .next t ∧ Did u c (fun _ th =>
      { th with pend := th.pend ++ [⟨d.toNat, false, (f th).1.length, (f th).1.map (fun w => (w, th.flags os)), false, (f th).2, u.pc, true, none, none⟩],
                defCount := th.defCount + 1 }) s t

/-- The special values of a lane (R130, R131): in mirror mode sv.lane is the visible lane's. -/
def Claims.special (s : State) (u : Iss) (t : Team) (l : Nat) : Sv → DWord
  | .lane => BitVec.ofNat 64 (t.visLane l)
  | .group => BitVec.ofNat 64 u.group
  | .team => BitVec.ofNat 64 ((t.place.map (·.2)).getD 0)
  | .core => BitVec.ofNat 64 (t.coreOf u.group)
  | .die => BitVec.ofNat 64 (t.coreOf u.group / 64)
  | .pkg => BitVec.ofNat 64 u.pkg
  | .cell => BitVec.ofNat 64 ((s.pkg u.pkg).cell u.pkg)
  | .task => t.inst.setWidth 64
  | .arg => t.arg
  | .clock => BitVec.ofNat 64 ((s.pkg u.pkg).cycles s.clock)
  | .width => BitVec.ofNat 64 t.vis
  | .mirror => if t.mirror then 1 else 0

end Sys2Proof.Machine

open Sys2Proof Sys2Proof.Machine

/-! ### Classes 0, 1 and 2 at the lanes that issue -/

/-- R118, R119, R121, R122, R127, R129: moves, arithmetic, LEA and P2G write their result, with the deferred-fault bits of their sources,
at every active lane; a lane with a false guard passes by (R83), and nothing else of the machine changes. -/
def Obligations.IntegerResults : Prop :=
  (∀ c ty d a, Claims.Gives (.mov c ty d a) c (fun t =>
      t.wrote d ((wordsOf ty.wide (t.val ty.wide a)).map (fun w => (w, t.flags [.sized ty.wide a]))) 0)) ∧
  (∀ c ty d imm, Claims.Gives (.movi c ty d imm) c (fun t => t.wrote d ((wordsOf ty.wide (imm.signExtend 64)).map (fun w => (w, false))) 0)) ∧
  (∀ c d a b, Claims.Gives (.movhi c d a b) c (fun t =>
      t.wrote d [((t.src32 b).extractLsb' 0 16 ++ (t.reg a).extractLsb' 0 16, t.flags (.one a :: b.opnd false))] 0)) ∧
  (∀ c ty d a b p, Claims.Gives (.sel c ty d a b p) c (fun t =>
      t.wrote d ((wordsOf ty.wide (if t.pred p then t.val ty.wide a else t.val ty.wide b)).map
        (fun w => (w, t.flags [.sized ty.wide a, .sized ty.wide b]))) 0)) ∧
  (∀ c ty sat d a b, Claims.Gives (.iadd c ty sat d a b) c (fun t => t.wrote d ((resInt ty (arith2 ty sat (fun x y => x + y) (t.int ty a) (t.srcInt ty b))).1.map
      (fun w => (w, t.flags (srcs2 ty a b)))) 0)) ∧
  (∀ c ty sat d a b, Claims.Gives (.isub c ty sat d a b) c (fun t => t.wrote d ((resInt ty (arith2 ty sat (fun x y => x - y) (t.int ty a) (t.srcInt ty b))).1.map
      (fun w => (w, t.flags (srcs2 ty a b)))) 0)) ∧
  (∀ c ty sat d a b, Claims.Gives (.imul c ty sat d a b) c (fun t => t.wrote d ((resInt ty (arith2 ty sat (fun x y => x * y) (t.int ty a) (t.srcInt ty b))).1.map
      (fun w => (w, t.flags (srcs2 ty a b)))) 0)) ∧
  (∀ c ty d a b, Claims.Gives (.imulh c ty d a b) c (fun t =>
      t.wrote d ((resInt ty (arith2 ty false (fun x y => Int.fdiv (x * y) (2 ^ ty.w)) (t.int ty a) (t.srcInt ty b))).1.map
        (fun w => (w, t.flags (srcs2 ty a b)))) 0)) ∧
  (∀ c ty sat d a b e, Claims.Gives (.imad c ty sat d a b e) c (fun t => t.wrote d ((resInt ty (imad ty sat (t.int ty a) (t.int ty b) (t.int ty e))).1.map
      (fun w => (w, t.flags [.sized ty.wide a, .sized ty.wide b, .sized ty.wide e]))) 0)) ∧
  (∀ c ty d a b e, Claims.Gives (.imadw c ty d a b e) c (fun t => t.wrote d ((words2 (imadw ty (t.reg a) (t.reg b) (t.pair e))).map
      (fun w => (w, t.flags [.one a, .one b, .pair e]))) 0)) ∧
  (∀ c ty sat d a, Claims.Gives (.iabs c ty sat d a) c (fun t => t.wrote d ((resInt ty (arith1 ty sat (fun x => max x (-x)) (t.int ty a))).1.map
      (fun w => (w, t.flags [.sized ty.wide a]))) 0)) ∧
  (∀ c ty sat d a, Claims.Gives (.ineg c ty sat d a) c (fun t => t.wrote d ((resInt ty (arith1 ty sat (fun x => -x) (t.int ty a))).1.map
      (fun w => (w, t.flags [.sized ty.wide a]))) 0)) ∧
  (∀ c ty d a b, Claims.Gives (.imin c ty d a b) c (fun t => t.wrote d ((resInt ty (arith2 ty false min (t.int ty a) (t.srcInt ty b))).1.map
      (fun w => (w, t.flags (srcs2 ty a b)))) 0)) ∧
  (∀ c ty d a b, Claims.Gives (.imax c ty d a b) c (fun t => t.wrote d ((resInt ty (arith2 ty false max (t.int ty a) (t.srcInt ty b))).1.map
      (fun w => (w, t.flags (srcs2 ty a b)))) 0)) ∧
  (∀ c ty sh d a b, Claims.Gives (.lea c ty sh d a b) c (fun t => t.wrote d
      ((words2 (t.pair a + ((if ty.signed then (t.src32 b).signExtend 64 else (t.src32 b).setWidth 64) <<< sh.toNat))).map
        (fun w => (w, t.flags (.pair a :: b.opnd false)))) 0)) ∧
  (∀ c d, Claims.Gives (.p2g c d) c (fun t => t.wrote d [(((t.preds &&& 0xFE) ||| 1).setWidth 32, false)] 0))

/-- R124 to R126: the same of shifts, bitwise operations, bit fields, counts and PRMB. -/
def Obligations.BitResults : Prop :=
  (∀ c ty d a b, Claims.Gives (.ishl c ty d a b) c (fun t => t.wrote d ((resInt ty (shiftLanes ty shl (t.int ty a) (t.srcInt ty b))).1.map
      (fun w => (w, t.flags (srcs2 ty a b)))) 0)) ∧
  (∀ c ty d a b, Claims.Gives (.ishr c ty d a b) c (fun t => t.wrote d ((resInt ty (shiftLanes ty shr (t.int ty a) (t.srcInt ty b))).1.map
      (fun w => (w, t.flags (srcs2 ty a b)))) 0)) ∧
  (∀ c ty d a b, Claims.Gives (.isar c ty d a b) c (fun t => t.wrote d ((resInt ty (shiftLanes ty sar (t.int ty a) (t.srcInt ty b))).1.map
      (fun w => (w, t.flags (srcs2 ty a b)))) 0)) ∧
  (∀ c ty d a b, Claims.Gives (.irot c ty d a b) c (fun t => t.wrote d ((resInt ty (shiftLanes ty rot (t.int ty a) (t.srcInt ty b))).1.map
      (fun w => (w, t.flags (srcs2 ty a b)))) 0)) ∧
  (∀ c ty d a b, Claims.Gives (.and c ty d a b) c (fun t => t.wrote d ((wordsOf ty.wide (t.val ty.wide a &&& BitVec.ofNat 64 (t.srcInt ty b))).map
      (fun w => (w, t.flags (srcs2 ty a b)))) 0)) ∧
  (∀ c ty d a b, Claims.Gives (.or c ty d a b) c (fun t => t.wrote d ((wordsOf ty.wide (t.val ty.wide a ||| BitVec.ofNat 64 (t.srcInt ty b))).map
      (fun w => (w, t.flags (srcs2 ty a b)))) 0)) ∧
  (∀ c ty d a b, Claims.Gives (.xor c ty d a b) c (fun t => t.wrote d ((wordsOf ty.wide (t.val ty.wide a ^^^ BitVec.ofNat 64 (t.srcInt ty b))).map
      (fun w => (w, t.flags (srcs2 ty a b)))) 0)) ∧
  (∀ c ty d a b, Claims.Gives (.andn c ty d a b) c (fun t => t.wrote d ((wordsOf ty.wide (t.val ty.wide a &&& ~~~ BitVec.ofNat 64 (t.srcInt ty b))).map
      (fun w => (w, t.flags (srcs2 ty a b)))) 0)) ∧
  (∀ c ty d a, Claims.Gives (.not c ty d a) c (fun t => t.wrote d ((wordsOf ty.wide (~~~ t.val ty.wide a)).map
      (fun w => (w, t.flags [.sized ty.wide a]))) 0)) ∧
  (∀ c ty d a b, Claims.Gives (.bfx c ty d a b) c (fun t => t.wrote d ((resInt ty (bfx ty (t.int ty a) (t.srcInt ty b))).1.map
      (fun w => (w, t.flags (srcs2 ty a b)))) 0)) ∧
  (∀ c ty d a b e, Claims.Gives (.bfi c ty d a b e) c (fun t => t.wrote d ((resInt ty (bfi ty.w (t.int ty a) (t.int ty b) (t.reg e).toNat)).1.map
      (fun w => (w, t.flags [.sized ty.wide a, .sized ty.wide b, .one e]))) 0)) ∧
  (∀ c ty d a, Claims.Gives (.popc c ty d a) c (fun t => t.wrote d [(BitVec.ofNat 32 (popc ty.w (t.int ty a)), t.flags [.sized ty.wide a])] 0)) ∧
  (∀ c ty d a, Claims.Gives (.clz c ty d a) c (fun t => t.wrote d [(BitVec.ofNat 32 (clz ty.w (t.int ty a)), t.flags [.sized ty.wide a])] 0)) ∧
  (∀ c ty d a, Claims.Gives (.ctz c ty d a) c (fun t => t.wrote d [(BitVec.ofNat 32 (ctz ty.w (t.int ty a)), t.flags [.sized ty.wide a])] 0)) ∧
  (∀ c ty d a, Claims.Gives (.brev c ty d a) c (fun t => t.wrote d ((resInt ty (brev ty.w (t.int ty a))).1.map
      (fun w => (w, t.flags [.sized ty.wide a]))) 0)) ∧
  (∀ c d a b, Claims.Gives (.prmb c d a b) c (fun t => t.wrote d [(prmb (t.pair a) (t.src32 b), t.flags (.pair a :: b.opnd false))] 0))

/-- R136, R138: NOP has no effect but its park, and YIELD marks the lanes that issue it. -/
def Obligations.NopAndYield : Prop :=
  (∀ c, Claims.Gives (.nop c) c (fun t => t)) ∧
  (∀ c, Claims.Gives (.yield c) c (fun t => { t with yielded := true }))

/-- R94, R128, R129, R145: words with a predicate result, where no source of an active lane is flagged. -/
def Obligations.PredicateResults : Prop :=
  (∀ c ty cc pd a b, Claims.GivesPred (.isetp c ty cc pd a b) c (srcs2 ty a b) (fun t =>
      t.setPred pd (ICmp.holds cc (toInt ty.w ty.signed (t.int ty a)) (toInt ty.w ty.signed (t.srcInt ty b))))) ∧
  (∀ c tt pd a pb, Claims.GivesPred (.plop c tt pd a pb) c (psrcOpnd a) (fun t =>
      t.setPred pd (tt.getLsbD ((if t.psrc a then 2 else 0) + (if t.pred pb then 1 else 0))))) ∧
  (∀ c mask g, Claims.GivesPred (.g2p c mask g) c ([.one g]) (fun t => { t with preds := g2p t.preds mask (t.reg g) })) ∧
  (∀ c ty cc pd a b, Claims.GivesPred (.fsetp c ty cc pd a b) c (.sized ty.wide a :: b.opnd ty.wide) (fun t =>
      (t.setPred pd (cc.holds (ty.fmt.val (t.flt ty a)) (ty.fmt.val (t.srcF ty b))).1).raise
        (cc.holds (ty.fmt.val (t.flt ty a)) (ty.fmt.val (t.srcF ty b))).2))

/-- R139 to R149: floating-point words with a fixed-latency result, and the flags that they raise in FSR. -/
def Obligations.FloatResults : Prop :=
  (∀ c ty rm sat d a b, Claims.Gives (.fadd c ty rm sat d a b) c (fun t =>
      let r := ty.map2 (fadd1 ty.fmt rm sat) (t.flt ty a) (t.srcF ty b)
      t.wrote d ((wordsOf ty.wide (BitVec.ofNat 64 r.1)).map (fun w => (w, t.flags (.sized ty.wide a :: b.opnd ty.wide)))) r.2)) ∧
  (∀ c ty rm sat d a b, Claims.Gives (.fsub c ty rm sat d a b) c (fun t =>
      let r := ty.map2 (fsub1 ty.fmt rm sat) (t.flt ty a) (t.srcF ty b)
      t.wrote d ((wordsOf ty.wide (BitVec.ofNat 64 r.1)).map (fun w => (w, t.flags (.sized ty.wide a :: b.opnd ty.wide)))) r.2)) ∧
  (∀ c ty rm sat d a b, Claims.Gives (.fmul c ty rm sat d a b) c (fun t =>
      let r := ty.map2 (fmul1 ty.fmt rm sat) (t.flt ty a) (t.srcF ty b)
      t.wrote d ((wordsOf ty.wide (BitVec.ofNat 64 r.1)).map (fun w => (w, t.flags (.sized ty.wide a :: b.opnd ty.wide)))) r.2)) ∧
  (∀ c ty rm sat d a b e, Claims.Gives (.ffma c ty rm sat d a b e) c (fun t =>
      let r := ty.map3 (ffma1 ty.fmt rm sat) (t.flt ty a) (t.flt ty b) (t.flt ty e)
      t.wrote d ((wordsOf ty.wide (BitVec.ofNat 64 r.1)).map
        (fun w => (w, t.flags [.sized ty.wide a, .sized ty.wide b, .sized ty.wide e]))) r.2)) ∧
  (∀ c ty d a b, Claims.Gives (.fmin c ty d a b) c (fun t =>
      let r := ty.map2 (ty.fmt.minMax true) (t.flt ty a) (t.srcF ty b)
      t.wrote d ((wordsOf ty.wide (BitVec.ofNat 64 r.1)).map (fun w => (w, t.flags (.sized ty.wide a :: b.opnd ty.wide)))) r.2)) ∧
  (∀ c ty d a b, Claims.Gives (.fmax c ty d a b) c (fun t =>
      let r := ty.map2 (ty.fmt.minMax false) (t.flt ty a) (t.srcF ty b)
      t.wrote d ((wordsOf ty.wide (BitVec.ofNat 64 r.1)).map (fun w => (w, t.flags (.sized ty.wide a :: b.opnd ty.wide)))) r.2)) ∧
  (∀ c ty d a, Claims.Gives (.fclass c ty d a) c (fun t => t.wrote d [(fclass ty (t.flt ty a), t.flags [.sized ty.wide a])] 0)) ∧
  (∀ c ty rm x d a, Claims.Gives (.frnd c ty rm x d a) c (fun t =>
      let r := ty.map1 (ty.fmt.rnd rm x) (t.flt ty a)
      t.wrote d ((wordsOf ty.wide (BitVec.ofNat 64 r.1)).map (fun w => (w, t.flags [.sized ty.wide a]))) r.2)) ∧
  (∀ c ty rm d a b, Claims.Gives (.fscale c ty rm d a b) c (fun t =>
      let r := ty.map1 (fun v => ty.fmt.scale rm v (t.reg b).toInt) (t.flt ty a)
      t.wrote d ((wordsOf ty.wide (BitVec.ofNat 64 r.1)).map (fun w => (w, t.flags [.sized ty.wide a, .one b]))) r.2)) ∧
  (∀ c dst src rm d a b, Claims.Gives (.fcvt c dst src rm d a b) c (fun t =>
      let r := fcvtRegs dst src rm (t.val (src == .f64) a) (t.val (src == .f64) b)
      t.wrote d (r.1.map (fun w => (w, t.flags (fcvtSrcs dst src a b)))) r.2)) ∧
  (∀ c flt int rm d a, Claims.Gives (.icvt c true flt int rm d a) c (fun t =>
      let r := (flt.fmt.val (laneOf flt.fmt.bits 0 (t.val (flt == .f64) a).toNat)).toInteger rm int.w int.signed
      t.wrote d ((wordsOf int.wide (BitVec.ofInt 64 r.1)).map (fun w => (w, t.flags [.sized (flt == .f64) a]))) r.2)) ∧
  (∀ c flt int rm d a, Claims.Gives (.icvt c false flt int rm d a) c (fun t =>
      let r := flt.fmt.ofInt rm (toInt int.w int.signed (t.val int.wide a).toNat)
      t.wrote d ((wordsOf (flt == .f64) (BitVec.ofNat 64 r.1)).map (fun w => (w, t.flags [.sized int.wide a]))) r.2))

/-- R89, R91, R123, R158 to R160: words with a deferred result. -/
def Obligations.DeferredResults : Prop :=
  (∀ c ty rm d a b, Claims.GivesDeferred (.idiv c ty rm d a b) c d [.sized ty.wide a, .sized ty.wide b] (fun t =>
      resInt ty (divRem ty rm (t.int ty a) (t.int ty b)).1)) ∧
  (∀ c ty rm d a b, Claims.GivesDeferred (.irem c ty rm d a b) c d [.sized ty.wide a, .sized ty.wide b] (fun t =>
      resInt ty (divRem ty rm (t.int ty a) (t.int ty b)).2)) ∧
  (∀ c rm d a, Claims.GivesDeferred (.frcp c rm d a) c d [.one a] (fun t =>
      ([BitVec.ofNat 32 (frcp1 rm (t.reg a).toNat).1], (frcp1 rm (t.reg a).toNat).2))) ∧
  (∀ c rm d a, Claims.GivesDeferred (.frsq c rm d a) c d [.one a] (fun t =>
      ([BitVec.ofNat 32 (frsq1 rm (t.reg a).toNat).1], (frsq1 rm (t.reg a).toNat).2))) ∧
  (∀ c rm d a, Claims.GivesDeferred (.fsqrt c rm d a) c d [.one a] (fun t =>
      ([BitVec.ofNat 32 (fsqrt1 rm (t.reg a).toNat).1], (fsqrt1 rm (t.reg a).toNat).2))) ∧
  (∀ c rm d a b, Claims.GivesDeferred (.fdiv c rm d a b) c d [.one a, .one b] (fun t =>
      ([BitVec.ofNat 32 (fdiv1 rm (t.reg a).toNat (t.reg b).toNat).1], (fdiv1 rm (t.reg a).toNat (t.reg b).toNat).2))) ∧
  (∀ c rm d a, Claims.GivesDeferred (.fexp2 c rm d a) c d [.one a] (fun t =>
      ([BitVec.ofNat 32 (fexp21 rm (t.reg a).toNat).1], (fexp21 rm (t.reg a).toNat).2))) ∧
  (∀ c rm d a, Claims.GivesDeferred (.flog2 c rm d a) c d [.one a] (fun t =>
      ([BitVec.ofNat 32 (flog21 rm (t.reg a).toNat).1], (flog21 rm (t.reg a).toNat).2))) ∧
  (∀ c rm d a, Claims.GivesDeferred (.fsinpi c rm d a) c d [.one a] (fun t =>
      ([BitVec.ofNat 32 (fsinpi1 rm (t.reg a).toNat).1], (fsinpi1 rm (t.reg a).toNat).2))) ∧
  (∀ c rm d a, Claims.GivesDeferred (.fcospi c rm d a) c d [.one a] (fun t =>
      ([BitVec.ofNat 32 (fcospi1 rm (t.reg a).toNat).1], (fcospi1 rm (t.reg a).toNat).2))) ∧
  (∀ c rm d a, Claims.GivesDeferred (.ftanh c rm d a) c d [.one a] (fun t =>
      ([BitVec.ofNat 32 (ftanh1 rm (t.reg a).toNat).1], (ftanh1 rm (t.reg a).toNat).2)))

/-- R130, R131: SREAD writes the special value of its lane, as a register or a pair. -/
def Obligations.SpecialValues : Prop :=
  ∀ (c : Ctl) (d : Reg) (v : Sv) (u : Iss) (s : State) (tm : Team), Issues u s → NoRegion u s → u.team s = some tm →
    ∃ t, exec (.sread c d v) s = .next t ∧
      Did u c (fun l th => th.wrote d ((wordsOf v.wide (Claims.special s u tm l v)).map (fun w => (w, false))) 0) s t

/-- R157: RAND writes the four words of Philox4x32-10 under the key and the counter of its lane. -/
def Obligations.RandomWords : Prop :=
  ∀ (c : Ctl) (stream : BitVec 8) (d a b : Reg) (u : Iss) (s : State) (tm : Team), Issues u s → NoRegion u s → u.team s = some tm →
    ∃ t, exec (.rand c stream d a b) s = .next t ∧
      Did u c (fun l th => th.wrote d ((rand stream (tm.visLane l) (th.pair a) (th.pair b)).map
        (fun w => (w, th.flags [.pair a, .pair b]))) 0) s t

/-! ### Lane operations and transfers of control -/

/-- R31, R34, R150, R152, R153: SHFL gives each active lane its source lane's value, with its deferred-fault bit, where an inactive lane's is
as it stood before the cycle in which the other port may have issued; VOTE counts the active
visible lanes. In mirror mode the lanes of a pair agree, and the shadow lane takes the visible lane's result.
Where the model chose, log entry 43 says how. -/
def Obligations.ShuffleAndVote : Prop :=
  (∀ c wide mode d a b (u : Iss) (s : State), Issues u s → NoRegion u s →
      (∀ l ∈ u.active c s, u.pairAgrees c l (fun t => (t.val wide a, t.src32 b)) s = true) →
    ∃ t, exec (.shfl c wide mode d a b) s = .next t ∧ Did u c (fun l th =>
      let x := u.before31 c s (u.shflFrom mode b s (u.visLane s l))
      th.wrote d ((wordsOf wide (x.val wide a)).map (fun w =>
        (w, x.flags [.sized wide a] || (u.thread s (u.visLane s l)).flags (b.opnd false)))) 0) s t) ∧
  (∀ c mode d pa (u : Iss) (s : State), Issues u s → NoRegion u s → (∀ l ∈ u.active c s, u.pairAgrees c l (fun t => t.pred pa) s = true) →
      (mode = .ballot → u.vis s = 64 → regCheck (u.nregs s) [.pair d] = none) →
    ∃ t, exec (.vote c mode d pa) s = .next t ∧ Did u c (fun _ th =>
      let yes := (u.laneSet c s).filter (fun j => (u.thread s j).pred pa)
      match mode with
      | .ballot => th.wrote d ((wordsOf (u.vis s == 64) (BitVec.ofNat 64 (ballot yes))).map (fun w => (w, false))) 0
      | .all => th.setPred (d.setWidth 3) (yes.length == (u.laneSet c s).length)
      | .any => th.setPred (d.setWidth 3) (!yes.isEmpty)) s t)

/-- R154 to R156: GRED gives every active lane the root of the reduction tree over the active visible lanes, and GSCAN each lane the fold
of the lanes up to its own; an inactive lane is the identity, and FSR takes the flags of every node.
Where the model chose, log entry 18 says how. -/
def Obligations.ReduceAndScan : Prop :=
  (∀ c ty op rm d a (u : Iss) (s : State), Issues u s → NoRegion u s →
      (∀ l ∈ u.active c s, u.pairAgrees c l (fun t => t.val ty.wide a) s = true) →
    ∃ t, exec (.gred c ty op rm d a) s = .next t ∧ Did u c (fun _ th =>
      let r := treeNode (ty.op op rm) (u.leaf c ty op a s) (Nat.log2 (u.vis s)) 0
      th.wrote d ((wordsOf ty.wide (BitVec.ofNat 64 r.1)).map (fun w =>
        (w, (u.laneSet c s).any (fun j => (u.thread s j).flags [.sized ty.wide a])))) r.2) s t) ∧
  (∀ c ty op rm d a (u : Iss) (s : State), Issues u s → NoRegion u s →
      (∀ l ∈ u.active c s, u.pairAgrees c l (fun t => t.val ty.wide a) s = true) →
    ∃ t, exec (.gscan c ty op rm d a) s = .next t ∧ Did u c (fun l th =>
      let fl := (u.laneSet c s).foldl (fun f j => f ||| (u.scanOf c ty op rm a s j).2)
        (treeNode (ty.op op rm) (u.leaf c ty op a s) (Nat.log2 (u.vis s)) 0).2
      th.wrote d ((wordsOf ty.wide (BitVec.ofNat 64 (u.scanOf c ty op rm a s (u.visLane s l)).1)).map (fun w =>
        (w, (u.laneSet c s).any (fun j => decide (j ≤ u.visLane s l) && (u.thread s j).flags [.sized ty.wide a])))) fl) s t)

namespace Sys2Proof.Machine

/-- A target that a transfer may take (R97, R134): it lies in 57 bits and is a multiple of 8, and its word is a header. -/
structure Claims.Target (u : Iss) (s : State) (va w : DWord) : Prop where
  low : va.toNat < 2 ^ 57
  aligned : va.toNat % 8 = 0
  code : Code u s va.toNat w
  header : isHeader w = true

end Sys2Proof.Machine

/-- R85, R132 to R134, R137: BRA, BRX, RET, CALL and CHKD take their one lane to the target, where the target is held code; CALL writes its
link, the header after its clause; CHKD falls through where the tested bit is not set.
Where the model chose, log entry 19 says how. -/
def Obligations.Transfers : Prop :=
  (∀ c imm u l s w, Alone u c l s → u.pairAgrees c l (fun _ => ()) s = true → Claims.Target u s (u.label imm.toInt) w →
    ∃ t, exec (.bra c imm) s = .next t ∧
      After u l ((u.label imm.toInt).setWidth 57) c.park (u.keeps (u.label imm.toInt).toNat w (u.stamp s)) t) ∧
  (∀ c g u l s w, Alone u c l s → (u.thread s l).flags [.pair g] = false → u.pairAgrees c l (fun t => t.pair g) s = true →
      Claims.Target u s ((u.thread s l).pair g) w →
    (∃ t, exec (.brx c g) s = .next t ∧
      After u l (((u.thread s l).pair g).setWidth 57) c.park (u.keeps ((u.thread s l).pair g).toNat w (u.stamp s)) t) ∧
    ∃ t, exec (.ret c g) s = .next t ∧
      After u l (((u.thread s l).pair g).setWidth 57) c.park (u.keeps ((u.thread s l).pair g).toNat w (u.stamp s)) t) ∧
  (∀ c g imm u l s w, Alone u c l s → u.pairAgrees c l (fun _ => ()) s = true → Claims.Target u s (u.label imm.toInt) w →
    ∃ t, exec (.call c g imm) s = .next t ∧
      After u l ((u.label imm.toInt).setWidth 57) c.park
        (u.setThread (u.keeps (u.label imm.toInt).toNat w (u.stamp s)) l
          ((u.thread s l).wrote g ((words2 (u.clause.last.setWidth 64 + 8)).map (fun w => (w, false))) 0)) t) ∧
  (∀ c pair g imm u l s w, Alone u c l s → u.pairAgrees c l (fun t => t.flagN g (if pair then 2 else 1)) s = true →
      ((u.thread s l).flagN g (if pair then 2 else 1) = true → Claims.Target u s (u.label imm.toInt) w) →
    ∃ t, exec (.chkd c pair g imm) s = .next t ∧
      if (u.thread s l).flagN g (if pair then 2 else 1) then
        After u l ((u.label imm.toInt).setWidth 57) c.park (u.keeps (u.label imm.toInt).toNat w (u.stamp s)) t
      else After u l u.next c.park (u.stamp s) t)

/-- R135, R200: EXIT outside a region writes the lane's pending results and ends its thread; the Booth disposes of its places, and failed
remote writes that it holds are reported.
Where the model chose, log entry 81 says how. -/
def Obligations.ExitEnds : Prop :=
  ∀ c u l s, Alone u c l s →
    ∃ t, exec (.exit c) s = .next t ∧ Stays u ((u.stamp s).exitLane u.pkg u.ctx u.group l) t ∧
      (t.thread u.pkg u.ctx u.group l).st = .exited ∧ (t.thread u.pkg u.ctx u.group l).pend = []

/-! ### Class 3: memory -/

namespace Sys2Proof.Machine

/-- A result that waits for its park, and the deferred count one higher (R89 to R91). -/
def Claims.pending (th : Thread) (u : Iss) (d : Reg) (vs : List (Word × Bool)) (fl : BitVec 5) : Thread :=
  { th with pend := th.pend ++ [⟨d.toNat, false, vs.length, vs, false, fl, u.pc, true, none, none⟩], defCount := th.defCount + 1 }

/-- What a load, a store or an atomic of one lane finds, outside mirror mode: operands that are not flagged, and room for a deferred
result where it has one. -/
structure Claims.Ready3 (u : Iss) (c : Ctl) (l : Nat) (s : State) (tm : Team) (os : List Opnd) : Prop extends Alone u c l s where
  team : u.team s = some tm
  single : tm.mirror = false
  plain : (u.thread s l).flags os = false
  spec : (u.thread s l).specFail = false
  room : (u.thread s l).defCount < 16

/-- A load: the bytes of its place, extended or spread over registers by its size, wait for the park; an acquire empties the L1 first, and a
global read fills the L1. Nothing is stored. -/
def Claims.Loads (i : Instr) (c : Ctl) (sp : Space) (sz : Size) (acq : Option Scope) (d : Reg) (ea : Thread → DWord) (os : List Opnd) :
    Prop :=
  ∀ u l s tm, Claims.Ready3 u c l s tm os →
    (sp ≠ .g → (ea (u.thread s l)).toNat % sz.bytes = 0 → (ea (u.thread s l)).toNat + sz.bytes ≤ tm.spaceSize sp →
      ∃ t, exec i s = .next t ∧ After u l u.next c.park (u.setThread (u.acquire acq (u.stamp s)) l (Claims.pending (u.thread s l) u d
        ((sz.load ((tm.spaceMem u.group l sp).bytes (ea (u.thread s l)).toNat sz.bytes)).map (fun w => (w, false))) 0)) t) ∧
    (∀ a, sp = .g → OnLine u s tm (ea (u.thread s l)) sz.bytes .read a → Ready u s false a → Fresh u s a sz.bytes →
      ∃ t, exec i s = .next t ∧ After u l u.next c.park (u.setThread
        ((u.acquire acq (u.stamp s)).loadPiece u.pkg (tm.coreOf u.group) a sz.bytes).2 l (Claims.pending (u.thread s l) u d
          ((sz.load (s.seen u.pkg a sz.bytes)).map (fun w => (w, false))) 0)) t)

/-- An LD.spec with a flagged address makes no access: it gives 0 with the deferred-fault bit. -/
def Claims.SkipsSpec (i : Instr) (c : Ctl) (sz : Size) (d : Reg) (os : List Opnd) : Prop :=
  ∀ u l s tm, Alone u c l s → u.team s = some tm → tm.mirror = false → (u.thread s l).flags os = true → (u.thread s l).defCount < 16 →
    ∃ t, exec i s = .next t ∧ After u l u.next c.park (u.setThread (u.stamp s) l
      { Claims.pending (u.thread s l) u d (List.replicate sz.regs (0, true)) 0 with specFail := false }) t

/-- A store: its bytes are at its place, the issuing core's L1 copy takes them, no die of the home keeps a copy, and no other byte changes; to
another package a WRH goes out, and the group's count of remote writes rises. -/
def Claims.Stores (i : Instr) (c : Ctl) (sp : Space) (sz : Size) (rel : Option Scope) (d : Reg) (ea : Thread → DWord) (os : List Opnd) :
    Prop :=
  ∀ u l s tm, Claims.Ready3 u c l s tm os →
      (relWide sp rel = true → (tm.group u.group).rwCount = 0 ∧ (tm.group u.group).fails = []) →
    (sp ≠ .g → (ea (u.thread s l)).toNat % sz.bytes = 0 → (ea (u.thread s l)).toNat + sz.bytes ≤ tm.spaceSize sp →
      ∃ t, exec i s = .next t ∧ t.mem = s.mem ∧ After u l u.next c.park (((u.stamp s).sink u.pkg (tm.coreOf u.group)).modTeam u.pkg u.ctx
        (fun x => x.setSpaceMem u.group l ((x.spaceMem u.group l sp).put (ea (u.thread s l)).toNat ((u.thread s l).storeBytes sz d)) sp)) t) ∧
    (∀ a, sp = .g → OnLine u s tm (ea (u.thread s l)) sz.bytes .write a → homeOf a = u.pkg → Quiet s u.pkg → s.watchers (lineOf a) = [] →
      ∃ t, exec i s = .next t ∧ After u l u.next c.park
        { (((u.stamp s).sink u.pkg (tm.coreOf u.group)).l1Store u.pkg (tm.coreOf u.group) a ((u.thread s l).storeBytes sz d)).dropDies a with
          mem := s.mem.put a ((u.thread s l).storeBytes sz d) } t) ∧
    (∀ a, sp = .g → OnLine u s tm (ea (u.thread s l)) sz.bytes .write a → homeOf a ≠ u.pkg → (s.pkg u.pkg).dead (homeOf a) = false →
        (tm.group u.group).rwCount < 4095 →
      ∃ t, exec i s = .next t ∧ t.mem = s.mem ∧ After u l u.next c.park
        (((((u.stamp s).sink u.pkg (tm.coreOf u.group)).l1Store u.pkg (tm.coreOf u.group) a ((u.thread s l).storeBytes sz d)).modGroup
            u.pkg u.ctx u.group (fun x => { x with rwCount := x.rwCount + 1 })).request u.pkg tm
          { ctx := u.ctx, group := u.group, lanes := [(l, ea (u.thread s l))], pc := u.pc, addr := a, dst := homeOf a, eseq := 0,
            kind := .write, deadline := 0, tmo := 0 }
          (.req .wrh (a / 128 * 128) 0 (maskOf (a % 128) sz.bytes) 0 false (0, 0)
            (padTo 128 (List.replicate (a % 128) 0 ++ (u.thread s l).storeBytes sz d)))) t)

end Sys2Proof.Machine

/-- R59, R87, R93, R162, R164: LD in every space and form, and LD.spec.
Where the model chose, log entries 5, 6 say how. -/
def Obligations.LoadResults : Prop :=
  (∀ c sp sz spec d a off, Claims.Loads (.ldOff c sp sz spec d a off) c sp sz none d (fun t => t.pair a + off.signExtend 64) [.pair a]) ∧
  (∀ c sp sz ord d a b, Claims.Loads (.ldIdx c sp sz ord d a b) c sp sz (match ord with
      | .acq sc => some sc
      | _ => none) d (fun t => t.pair a + (t.reg b).signExtend 64) [.pair a, .one b]) ∧
  (∀ c sp sz d a off, Claims.SkipsSpec (.ldOff c sp sz true d a off) c sz d [.pair a]) ∧
  (∀ c sp sz d a b, Claims.SkipsSpec (.ldIdx c sp sz .spec d a b) c sz d [.pair a, .one b])

/-- R59, R62, R164, R165, R316: ST in every space and form, at home and to another package.
Where the model chose, log entry 6 says how. -/
def Obligations.StoreEffects : Prop :=
  (∀ c sp sz d a off, Claims.Stores (.stOff c sp sz d a off) c sp sz none d (fun t => t.pair a + off.signExtend 64) [sz.opnd d, .pair a]) ∧
  (∀ c sp sz rel d a b, Claims.Stores (.stIdx c sp sz rel d a b) c sp sz rel d (fun t => t.pair a + (t.reg b).signExtend 64)
    [sz.opnd d, .pair a, .one b])

namespace Sys2Proof.Machine

/-- An element access in .g (R168, R382): its page gives the format; the run has an element code, is aligned to its elements, stays inside
the page, and every line of it is the package's own, of which nothing is shared. -/
structure Claims.Elems (u : Iss) (s : State) (tm : Team) (ea : DWord) (n : Nat) (d : Reg) (acc : Access) (tr : PageTr)
    (ps : List (Nat × Nat)) : Prop where
  low : ea.toNat < 2 ^ 57
  held : Held s u.pkg tm.part (u.die s) ea.toNat acc tr
  format : elemFmtOk tr.fmt tr.geom = true
  block : tr.fmt = 9 → n = 128
  regs : regCheck (u.nregs s) [elemOpnd tr.fmt n d] = none
  aligned : (ea.toNat - tr.va) % elemSize tr.fmt = 0
  fits : ea.toNat - tr.va + elemBytes tr.fmt n ≤ tr.size
  pieces : ps = s.pieces (elemBytes tr.fmt n / 128 + 2) (tr.at ea.toNat) (elemBytes tr.fmt n)
  home : ∀ x ∈ ps, homeOf x.1 = u.pkg
  quiet : Quiet s u.pkg

/-- Bytes stored piece by piece. -/
def Claims.stored : Mem → List (Nat × Nat) → List Byte → Mem
  | m, [], _ => m
  | m, (a, n) :: ps, bs => Claims.stored (m.put a (bs.take n)) ps (bs.drop n)

/-- The core's L1 copies, and the dies of the home, after a store. -/
def Claims.storedL1 (p core : Nat) : State → List (Nat × Nat) → List Byte → State
  | s, [], _ => s
  | s, (a, n) :: ps, bs => Claims.storedL1 p core ((s.l1Store p core a (bs.take n)).dropDies a) ps (bs.drop n)

/-- An element load of one lane: its elements, converted, wait for the park with the flags of their conversions (R166, R167). -/
def Claims.LoadsElems (i : Instr) (c : Ctl) (sp : Space) (n fmt : Nat) (d : Reg) (ea : Thread → DWord) (os : List Opnd) : Prop :=
  ∀ u l s tm vs fl, Claims.Ready3 u c l s tm os →
    (sp ≠ .g → (ea (u.thread s l)).toNat % (if fmt = 9 then 16 else elemSize fmt) = 0 →
        (ea (u.thread s l)).toNat + elemBytes fmt n ≤ tm.spaceSize sp →
        elemsLoad fmt n ((tm.spaceMem u.group l sp).bytes (ea (u.thread s l)).toNat (elemBytes fmt n)) = some (vs, fl) →
      ∃ t, exec i s = .next t ∧ After u l u.next c.park (u.setThread (u.stamp s) l (Claims.pending (u.thread s l) u d
        ((vs.flatMap (fun v => wordsOf (fmt == 8) (BitVec.ofNat 64 v))).map (fun w => (w, false))) fl)) t) ∧
    (∀ tr ps, sp = .g → Claims.Elems u s tm (ea (u.thread s l)) n d .read tr ps →
        elemsLoad tr.fmt n ((u.stamp s).loadPieces u.pkg (tm.coreOf u.group) ps).1 = some (vs, fl) →
      ∃ t, exec i s = .next t ∧ t.mem = s.mem ∧ After u l u.next c.park
        (u.setThread ((u.stamp s).loadPieces u.pkg (tm.coreOf u.group) ps).2 l (Claims.pending (u.thread s l) u d
          ((vs.flatMap (fun v => wordsOf (tr.fmt == 8) (BitVec.ofNat 64 v))).map (fun w => (w, false))) fl)) t)

/-- An element store of one lane: its elements, converted, are in their place, and FSR takes the flags (R166, R167). -/
def Claims.StoresElems (i : Instr) (c : Ctl) (sp : Space) (n fmt : Nat) (d : Reg) (ea : Thread → DWord) (os : List Opnd) : Prop :=
  ∀ u l s tm, Claims.Ready3 u c l s tm os →
    (sp ≠ .g → (ea (u.thread s l)).toNat % (if fmt = 9 then 16 else elemSize fmt) = 0 →
        (ea (u.thread s l)).toNat + elemBytes fmt n ≤ tm.spaceSize sp → (u.thread s l).flags [elemOpnd fmt n d] = false →
      ∃ t, exec i s = .next t ∧ t.mem = s.mem ∧ After u l u.next c.park
        (((((u.stamp s).sink u.pkg (tm.coreOf u.group)).modTeam u.pkg u.ctx (fun x => x.setSpaceMem u.group l
          ((x.spaceMem u.group l sp).put (ea (u.thread s l)).toNat (elemsStore fmt ((u.thread s l).elems fmt n d)).1) sp))).modThread
            u.pkg u.ctx u.group l (fun th => th.raise (elemsStore fmt ((u.thread s l).elems fmt n d)).2)) t) ∧
    (∀ tr ps, sp = .g → Claims.Elems u s tm (ea (u.thread s l)) n d .write tr ps → (u.thread s l).flags [elemOpnd tr.fmt n d] = false →
        (∀ x ∈ ps, s.watchers (lineOf x.1) = []) →
      ∃ t, exec i s = .next t ∧ After u l u.next c.park
        (({ Claims.storedL1 u.pkg (tm.coreOf u.group) ((u.stamp s).sink u.pkg (tm.coreOf u.group)) ps
              (elemsStore tr.fmt ((u.thread s l).elems tr.fmt n d)).1 with
            mem := Claims.stored s.mem ps (elemsStore tr.fmt ((u.thread s l).elems tr.fmt n d)).1 } : State).modThread
          u.pkg u.ctx u.group l (fun th => th.raise (elemsStore tr.fmt ((u.thread s l).elems tr.fmt n d)).2)) t)

end Sys2Proof.Machine

/-- R48, R49, R166 to R168: LDE in .g, .s and .p, in every format and count. -/
def Claims.ElementLoads : Prop :=
  (∀ c cn d a off, Claims.LoadsElems (.ldeOff c cn d a off) c .g (2 ^ cn.toNat) 0 d (fun t => t.pair a + off.signExtend 64) [.pair a]) ∧
  (∀ c sp cn fmt d a b, Claims.LoadsElems (.ldeIdx c sp cn fmt d a b) c sp (2 ^ cn.toNat) fmt.toNat d
    (fun t => t.pair a + (t.reg b).signExtend 64) [.pair a, .one b])

/-- R48, R49, R166 to R168: STE in .g, .s and .p, in every format and count. -/
def Claims.ElementStores : Prop :=
  (∀ c cn d a off, Claims.StoresElems (.steOff c cn d a off) c .g (2 ^ cn.toNat) 0 d (fun t => t.pair a + off.signExtend 64)
    [elemRun cn 0 d, .pair a]) ∧
  (∀ c sp cn fmt d a b, Claims.StoresElems (.steIdx c sp cn fmt d a b) c sp (2 ^ cn.toNat) fmt.toNat d
    (fun t => t.pair a + (t.reg b).signExtend 64) [elemRun cn fmt d, .pair a, .one b])

/-- R48, R49, R166 to R168: LDE and STE in .g, .s and .p, in every format and count.
Where the model chose, log entry 15 says how. -/
def Obligations.ElementAccesses : Prop := Claims.ElementLoads ∧ Claims.ElementStores

namespace Sys2Proof.Machine

/-- A copy that the package owns, written. -/
def Claims.dirtied (cp : LineCopy) (off : Nat) (bs : List Byte) : LineCopy :=
  { cp with dirty := true, data := cp.data.take off ++ bs ++ cp.data.drop (off + bs.length) }

/-- The bytes that a step on a word of global memory leaves at a quiet home, where no die keeps a copy, or in the copy that the package
owns (R63). -/
def Claims.wrote (s : State) (p a n : Nat) (v : Option Nat) : State :=
  match v with
  | none => s
  | some v =>
    if homeOf a = p then { s.dropDies a with mem := s.mem.put a (leBytes n v) }
    else
      match tfind (s.pkg p).copies (lineOf a) with
      | none => s
      | some cp => s.modPkg p (fun k => { k with copies := tput k.copies (lineOf a) (Claims.dirtied cp (a % 128) (leBytes n v)) })

/-- What a step on a word of one of the team's spaces leaves. -/
def Claims.wroteOwn (s : State) (u : Iss) (l : Nat) (sp : Space) (a n : Nat) (v : Option Nat) : State :=
  match v with
  | none => s
  | some v => s.modTeam u.pkg u.ctx (fun x => x.setSpaceMem u.group l ((x.spaceMem u.group l sp).put a (leBytes n v)) sp)

/-- After an ATOM on a line of its package, the issuing die alone holds it (R316). -/
def Claims.onDie (s : State) (u : Iss) (core a : Nat) : State :=
  if homeOf a = u.pkg then (s.dropDies a).addDie a (dieOf core) else s

end Sys2Proof.Machine

/-- R63 to R65, R169, R170, R172, R316: ATOM in .s, .p, .l and .g: the old value waits for the park; the new value, where there is one, is in
place; the core's L1 copy of the line goes, its die alone holds a line of the package, and an acquire empties the L1. -/
def Claims.AtomicSteps : Prop :=
  ∀ c sp ty op ord d a b u l s tm, Claims.Ready3 u c l s tm [.pair a, atomOpnd ty op b] →
      (relWide sp ord.relScope = true → (tm.group u.group).rwCount = 0 ∧ (tm.group u.group).fails = []) →
    let th := u.thread s l
    let n := ty.w / 8
    let x := th.atomArgs ty op b
    (sp ≠ .g → (th.pair a).toNat % n = 0 → (th.pair a).toNat + n ≤ tm.spaceSize sp →
      let old := (tm.spaceMem u.group l sp).le (th.pair a).toNat n
      ∃ t, exec (.atom c sp ty op ord d a b) s = .next t ∧ t.mem = s.mem ∧
        After u l u.next c.park ((u.acquire ord.acqScope
          (Claims.wroteOwn (u.stamp s) u l sp (th.pair a).toNat n (atomNew ty op old x.1 x.2))).modThread u.pkg u.ctx u.group l
            (fun y => Claims.pending y u d ((wordsOf ty.wide (BitVec.ofNat 64 old)).map (fun w => (w, false))) 0)) t) ∧
    (∀ e, sp = .g → OnLine u s tm (th.pair a) n .atom e → Ready u s true e → s.watchers (lineOf e) = [] →
      let old := leNat (s.seen u.pkg e n)
      ∃ t, exec (.atom c sp ty op ord d a b) s = .next t ∧
        After u l u.next c.park ((u.acquire ord.acqScope
          ((Claims.onDie (Claims.wrote (u.stamp s) u.pkg e n (atomNew ty op old x.1 x.2)) u (tm.coreOf u.group) e).l1Drop u.pkg
            (tm.coreOf u.group) e)).modThread
            u.pkg u.ctx u.group l
            (fun y => Claims.pending y u d ((wordsOf ty.wide (BitVec.ofNat 64 old)).map (fun w => (w, false))) 0)) t)

/-- R63, R65, R169 to R171: RED makes the step at the home of its address, and gives no result; a keyed RED whose key the table holds does
nothing, and a new key enters the table. To another package a request goes out. -/
def Claims.Reductions : Prop :=
  ∀ c sp ty op key rel d a b u l s tm, Claims.Ready3 u c l s tm ([.sized ty.wide d, .pair a] ++ (if key then [.one b] else [])) →
      (relWide sp rel = true → (tm.group u.group).rwCount = 0 ∧ (tm.group u.group).fails = []) →
    let th := u.thread s l
    let n := ty.w / 8
    let v := (th.val ty.wide d).toNat
    (sp ≠ .g → (th.pair a).toNat % n = 0 → (th.pair a).toNat + n ≤ tm.spaceSize sp →
      ∃ t, exec (.red c sp ty op key rel d a b) s = .next t ∧ t.mem = s.mem ∧
        After u l u.next c.park (Claims.wroteOwn ((u.stamp s).sink u.pkg (tm.coreOf u.group)) u l sp (th.pair a).toNat n
          (atomNew ty op ((tm.spaceMem u.group l sp).le (th.pair a).toNat n) v 0)) t) ∧
    (∀ e, sp = .g → OnLine u s tm (th.pair a) n .write e → homeOf e = u.pkg → Quiet s u.pkg → s.watchers (lineOf e) = [] →
        (key = true → (s.pkg u.pkg).keyFull (redKey tm.inst (th.reg b)) = false) →
      let m := ((u.stamp s).l1Drop u.pkg (tm.coreOf u.group) e).sink u.pkg (tm.coreOf u.group)
      ∃ t, exec (.red c sp ty op key rel d a b) s = .next t ∧
        After u l u.next c.park (if key && (s.pkg u.pkg).keys.any (fun x => x.1 == redKey tm.inst (th.reg b)) then m
          else Claims.wrote (if key then m.modPkg u.pkg (fun k => { k with keys := (redKey tm.inst (th.reg b), tm.inst) :: k.keys }) else m)
            u.pkg e n (atomNew ty op (leNat (s.seen u.pkg e n)) v 0)) t) ∧
    (∀ e, sp = .g → OnLine u s tm (th.pair a) n .write e → homeOf e ≠ u.pkg → (s.pkg u.pkg).dead (homeOf e) = false →
        (tm.group u.group).rwCount < 4095 →
      ∃ t, exec (.red c sp ty op key rel d a b) s = .next t ∧ t.mem = s.mem ∧
        After u l u.next c.park
          (((((u.stamp s).l1Drop u.pkg (tm.coreOf u.group) e).sink u.pkg (tm.coreOf u.group)).modGroup u.pkg u.ctx u.group
            (fun x => { x with rwCount := x.rwCount + 1 })).request u.pkg tm
            { ctx := u.ctx, group := u.group, lanes := [(l, th.pair a)], pc := u.pc, addr := e, dst := homeOf e, eseq := 0, kind := .write,
              deadline := 0, tmo := 0 }
            (.req .red e (atomArg ty op) 0 (redKey tm.inst (th.reg b)) key (BitVec.ofNat 64 v, 0) [])) t)

/-- R64 to R66, R72, R73, R173, R174, R185: FENCE completes once the group has no remote write out that it must await and no failed one to report:
.ld and .all empty the L1 at .team and wider. WAITM reads its word anew, dropping the core's L1 copy; on a word that differs it writes 0 at once; on an equal word its lane parks on the
line's monitor until a write, an eviction or its timeout.
Where the model chose, log entries 81, 82 say how. -/
def Obligations.FenceAndWait : Prop :=
  (∀ c kind sc u l s tm, Alone u c l s → u.team s = some tm → (sc.wide = true → (tm.group u.group).rwCount = 0) →
      (tm.group u.group).fails = [] →
    ∃ t, exec (.fence c kind sc) s = .next t ∧ t.mem = s.mem ∧
      After u l u.next c.park (if kind = .st then u.stamp s else u.acquire (some sc) (u.stamp s)) t) ∧
  (∀ c sc d a b tr u l s tm e, Claims.Ready3 u c l s tm [.pair a, .pair b, .one tr] →
      OnLine u s tm ((u.thread s l).pair a) 8 .read e → Ready u s false e →
    ∃ t, exec (.waitm c sc d a b tr) s = .next t ∧ t.mem = s.mem ∧
      if BitVec.ofNat 64 (leNat (s.seen u.pkg e 8)) = (u.thread s l).pair b then
        (t.thread u.pkg u.ctx u.group l).pc = (u.thread s l).pc ∧
        (t.thread u.pkg u.ctx u.group l).st = .monitor ⟨lineOf e, (u.thread s l).pair a,
          if ((u.thread s l).reg tr).toNat = 0 then none else some ((s.pkg u.pkg).cycles s.clock + ((u.thread s l).reg tr).toNat)⟩
      else
        let m := (u.acquire (some sc) (u.stamp s)).l1Drop u.pkg (tm.coreOf u.group) e
        After u l u.next c.park (u.setThread (if homeOf e = u.pkg then m.addDie e (dieOf (tm.coreOf u.group)) else m) l
          (Claims.pending (u.thread s l) u d [(0, false)] 0)) t)

/-- R63 to R65, R169 to R172, R326: ATOM and RED of one lane, in every space, at home and to another package.
Where the model chose, log entries 6, 20 say how. -/
def Obligations.AtomicsAndReductions : Prop := Claims.AtomicSteps ∧ Claims.Reductions

/-- R64, R73, R175, R176: PREF brings a line of the package into the L1, asks another package for its line, or is dropped; CMNT drops the
core's L1 copy, writes back what is current already, or drops the line from every L1 of the package, and at its home from its dies' L2
slices (log entry 17); no byte of memory changes. -/
def Obligations.CacheOperations : Prop :=
  (∀ (i : Instr) c sz (ea : Thread → DWord) os, (∃ a off, i = .prefOff c sz a off ∧ ea = (fun t => t.pair a + off.signExtend 64) ∧ os = [.pair a]) ∨
      (∃ a b, i = .prefIdx c sz a b ∧ ea = (fun t => t.pair a + (t.reg b).signExtend 64) ∧ os = [.pair a, .one b]) →
    ∀ u l s tm, Alone u c l s → u.team s = some tm → tm.mirror = false → (u.thread s l).flags os = false →
      ((ea (u.thread s l)).toNat % sz.bytes ≠ 0 ∨ 2 ^ 57 ≤ (ea (u.thread s l)).toNat →
        ∃ t, exec i s = .next t ∧ After u l u.next c.park (u.stamp s) t) ∧
      (∀ a, OnLine u s tm (ea (u.thread s l)) sz.bytes .read a → homeOf a = u.pkg → Quiet s u.pkg →
        ∃ t, exec i s = .next t ∧ t.mem = s.mem ∧ After u l u.next c.park ((u.stamp s).loadPiece u.pkg (tm.coreOf u.group) a 1).2 t) ∧
      (∀ a, OnLine u s tm (ea (u.thread s l)) sz.bytes .read a → homeOf a ≠ u.pkg → (s.pkg u.pkg).dead (homeOf a) = false →
          tfind (s.pkg u.pkg).copies (lineOf a) = none →
        ∃ t, exec i s = .next t ∧ t.mem = s.mem ∧ After u l u.next c.park ((u.stamp s).request u.pkg tm
          { ctx := u.ctx, group := u.group, lanes := [], pc := u.pc, addr := a, dst := homeOf a, eseq := 0, kind := .pref, deadline := 0,
            tmo := 0 } (.req .gets (a / 128 * 128) 0 0 0 false (0, 0) [])) t)) ∧
  (∀ (i : Instr) c sz op (ea : Thread → DWord) os,
      (∃ a off, i = .cmntOff c sz op a off ∧ ea = (fun t => t.pair a + off.signExtend 64) ∧ os = [.pair a]) ∨
      (∃ a b, i = .cmntIdx c sz op a b ∧ ea = (fun t => t.pair a + (t.reg b).signExtend 64) ∧ os = [.pair a, .one b]) →
    ∀ u l s tm a, Alone u c l s → u.team s = some tm → tm.mirror = false → (u.thread s l).flags os = false →
        OnLine u s tm (ea (u.thread s l)) sz.bytes .read a → tfind (s.pkg u.pkg).copies (lineOf a) = none → s.watchers (lineOf a) = [] →
      ∃ t, exec i s = .next t ∧ t.mem = s.mem ∧ After u l u.next c.park (match op with
        | .inv => (u.stamp s).l1Drop u.pkg (tm.coreOf u.group) a
        | .wb => u.stamp s
        | .evict =>
          let m := (u.stamp s).modPkg u.pkg (fun k => k.dropL1Line (lineOf a))
          if homeOf a = u.pkg then m.dropDies a else m) t)

/-- R163, R177 to R182: RBEG's park writes the older results and 0 to the status register, and a region opens (log entry 90: the model's
order); RCMT closes one whose operations have all succeeded, with the acquire of a FENCE.all at .space; RABT rolls one back: the logged registers and the predicates return, the status register takes 0x80, tx.* stay, and the lane
goes on at the recovery target.
Where the model chose, log entry 80 says how. -/
def Obligations.Regions : Prop :=
  (∀ c d a u l s, Alone u c l s → (u.thread s l).flags [.pair a] = false → (u.thread s l).defCount < 16 →
      ((u.thread s l).pair a).toNat < 2 ^ 57 → ((u.thread s l).pair a).toNat % 8 = 0 →
    let th := (Claims.pending (u.thread s l) u d [(0, false)] 0).parkNow.1
    let r : Region := ⟨(u.thread s l).pair a, d, th.preds, [], 0, []⟩
    ∃ t, exec (.rbeg c d a) s = .next t ∧ After u l u.next true (u.setThread (u.stamp s) l { th with region := some r }) t ∧
      (t.thread u.pkg u.ctx u.group l).region = some r ∧
      (t.thread u.pkg u.ctx u.group l).reg d = 0 ∧ (t.thread u.pkg u.ctx u.group l).pend = []) ∧
  (∀ c u l s tm r, Lone u c l s → u.team s = some tm → tm.mirror = false → (u.thread s l).region = some r → r.fails = [] →
      u.regionOpen s l = false →
    ∃ t, exec (.rcmt c) s = .next t ∧ After u l u.next true
      (u.acquire (some .space) ((u.stamp s).modThread u.pkg u.ctx u.group l (fun x => { x with region := none }))) t) ∧
  (∀ c u l s r w, Lone u c l s → (u.thread s l).region = some r → Code u s r.target.toNat w → isHeader w = true →
    ∃ t, exec (.rabt c) s = .next t ∧ t.mem = s.mem ∧
      t.thread u.pkg u.ctx u.group l =
        { ((u.thread s l).unroll r).setStatus r 0x80 with pc := r.target.setWidth 57, yielded := (u.thread s l).yielded && !u.ends (r.target.setWidth 57) })

/-! ### Class 4: barriers, held objects, tickets and tasks -/

/-- R72, R75, R186 to R190: NBINIT zeroes CNT and ARR; an arrival with a count of 1 to 2,048 that agrees with the count so far raises ARR, and
the last one inverts the phase, zeroes both, and lets every thread that waits in NBSYNC go on (with the acquire of R75); an NBSYNC that is
not the last parks in its word. -/
def Obligations.NamedBarriers : Prop :=
  (∀ c n u l s tm, Alone u c l s → u.team s = some tm → tm.mirror = false → tm.inState (· == .nbar n.toNat) = [] →
    ∃ t, exec (.nbinit c n) s = .next t ∧ t.mem = s.mem ∧
      After u l u.next c.park ((u.stamp s).setNb u.pkg u.ctx n.toNat { tm.nbar n.toNat with cnt := 0, arr := 0 }) t) ∧
  (∀ i sync c n b u l s tm, (i = .nbarv c n b ∧ sync = false) ∨ (i = .nbsync c n b ∧ sync = true) →
      Alone u c l s → u.team s = some tm → tm.mirror = false → (u.thread s l).flags (b.opnd false) = false →
    let v := (u.thread s l).src32 b
    let x := tm.nbar n.toNat
    let m := (u.stamp s).sink u.pkg (tm.coreOf u.group)
    1 ≤ v.toInt → v.toInt ≤ 2048 → (x.cnt = 0 ∨ x.cnt = v.toNat) →
    (x.arr + 1 ≠ v.toNat →
      let m := m.setNb u.pkg u.ctx n.toNat { x with cnt := v.toNat, arr := x.arr + 1 }
      ∃ t, exec i s = .next t ∧ t.mem = s.mem ∧
        (sync = false → After u l u.next c.park m t) ∧
        (sync = true → Stays u (u.setThread m l { u.thread s l with parkDue := c.park, st := .nbar n.toNat }) t)) ∧
    (x.arr + 1 = v.toNat → (∀ e ∈ tm.inState (· == .nbar n.toNat), (tm.thread e.1 e.2).parkDue = false) →
      let m := (m.setNb u.pkg u.ctx n.toNat ⟨!x.phase, 0, 0⟩).releaseNb u.pkg u.ctx tm n.toNat
      ∃ t, exec i s = .next t ∧ t.mem = s.mem ∧ After u l u.next c.park (if sync then m.dropL1 u.pkg (tm.coreOf u.group) else m) t ∧
        ∀ e ∈ tm.inState (· == .nbar n.toNat), ∃ y, m.thread u.pkg u.ctx e.1 e.2 =
          { tm.thread e.1 e.2 with st := .runnable, pc := (tm.thread e.1 e.2).pc + 8, yielded := y }))

namespace Sys2Proof.Machine

/-- A byte barrier after the Test of R192: with no arrival and no byte outstanding its phase is inverted and it starts again. -/
def Claims.tested (x : BBar) : BBar := if x.arr = 0 ∧ x.bytes = 0 then { x with phase := !x.phase, arr := x.init } else x

end Sys2Proof.Machine

/-- R191 to R193: BBINIT sets INIT and ARR and zeroes BYTES; BBEXP raises BYTES and BBARV lowers ARR, and the Test follows; BBWAIT goes on, and the
group's wait parity takes the phase, where a phase has completed that the group has not consumed, and parks otherwise; BBTEST gives that as a
predicate. No lane of the team waits on the barrier. -/
def Obligations.ByteBarriers : Prop :=
  ∀ c n u l s tm, Alone u c l s → u.team s = some tm → tm.mirror = false → (∀ g, tm.bbPcs g n.toNat = []) →
    let x := tm.bbar n.toNat
    (∀ b, (u.thread s l).flags [.one b] = false → 0 ≤ ((u.thread s l).reg b).toInt → ((u.thread s l).reg b).toInt ≤ 65535 →
      ∃ t, exec (.bbinit c n b) s = .next t ∧ t.mem = s.mem ∧ After u l u.next c.park
        ((u.stamp s).setBb u.pkg u.ctx n.toNat
          { x with init := ((u.thread s l).reg b).toNat, arr := ((u.thread s l).reg b).toNat, bytes := 0 }) t) ∧
    (∀ b, (u.thread s l).flags (b.opnd false) = false → 0 ≤ ((u.thread s l).src32 b).toInt →
      (x.bytes + ((u.thread s l).src32 b).toInt ≤ 2 ^ 31 - 1 →
        ∃ t, exec (.bbexp c n b) s = .next t ∧ t.mem = s.mem ∧ After u l u.next c.park
          ((u.stamp s).setBb u.pkg u.ctx n.toNat (Claims.tested { x with bytes := x.bytes + ((u.thread s l).src32 b).toInt })) t) ∧
      (((u.thread s l).src32 b).toInt ≤ x.arr →
        ∃ t, exec (.bbarv c n b) s = .next t ∧ t.mem = s.mem ∧ After u l u.next c.park
          (((u.stamp s).sink u.pkg (tm.coreOf u.group)).setBb u.pkg u.ctx n.toNat
            (Claims.tested { x with arr := x.arr - ((u.thread s l).src32 b).toNat })) t)) ∧
    (x.phase ≠ (tm.group u.group).gwp.getLsbD n.toNat →
      ∃ t, exec (.bbwait c n) s = .next t ∧ t.mem = s.mem ∧ After u l u.next c.park
        (((u.stamp s).modGroup u.pkg u.ctx u.group (fun y => y.setGwp n.toNat x.phase)).dropL1 u.pkg (tm.coreOf u.group)) t) ∧
    (x.phase = (tm.group u.group).gwp.getLsbD n.toNat →
      ∃ t, exec (.bbwait c n) s = .next t ∧ t.mem = s.mem ∧
        Stays u (u.setThread (u.stamp s) l { u.thread s l with parkDue := c.park, st := .bbar n.toNat false }) t) ∧
    (∀ pd, (u.thread s l).defCount < 16 →
      let b := x.phase != (tm.group u.group).gwp.getLsbD n.toNat
      ∃ t, exec (.bbtest c pd n) s = .next t ∧ t.mem = s.mem ∧ After u l u.next c.park
        (u.setThread (if b then u.acquire (some .team) (u.stamp s) else u.stamp s) l
          ((u.thread s l).defer u.pc pd.toNat true [(if b then 1 else 0, false)] 0)) t)

namespace Sys2Proof.Machine

/-- The live object of the caller's partition that a handle names (R194, R197). -/
structure Claims.Object (u : Iss) (s : State) (h : DWord) (o : Obj) : Prop where
  booth : hBooth h < 6
  found : tfind (s.die u.pkg (hBooth h)).objs (hObj h) = some o
  live : o.live = true
  gen : o.gen = hGen h
  part : o.part = u.part s

/-- The place of the caller that a handle names, at index `k` of its object's queue (R196, R197). -/
structure Claims.Mine (u : Iss) (s : State) (l : Nat) (h : DWord) (o : Obj) (k : Nat) (x : Place) : Prop extends Claims.Object u s h o where
  at_k : o.places[k]? = some x
  seq : x.seq = hSeq h
  first : ∀ j y, j < k → o.places[j]? = some y → y.seq ≠ hSeq h
  here : x.abandoned = false
  owner : x.ctx = u.ctx ∧ x.thr = u.group * 64 + l

/-- An identity names one live thread of a running task of the partition: its instance, its group and its lane (R197). -/
structure Claims.Identity (s : State) (p part : Nat) (v : DWord) (ctx : Nat) (t : Team) : Prop where
  high : v.extractLsb' 51 13 = 0
  team : s.team? p ctx = some t
  task : t.inst = v.extractLsb' 0 40 ∧ t.part = part ∧ t.stop = none
  only : ∀ e ∈ (s.pkg p).teams, e.2.inst = v.extractLsb' 0 40 → e.1 = ctx
  thread : (v.extractLsb' 40 5).toNat < t.tmpl.groups ∧ (v.extractLsb' 45 6).toNat < t.vis ∧
    (t.thread (v.extractLsb' 40 5).toNat (v.extractLsb' 45 6).toNat).live = true

/-- A word of one lane that reads the handle in a pair, outside mirror mode. -/
structure Claims.Ticket (u : Iss) (c : Ctl) (l : Nat) (s : State) (tm : Team) (os : List Opnd) : Prop extends Alone u c l s where
  team : u.team s = some tm
  single : tm.mirror = false
  plain : (u.thread s l).flags os = false

end Sys2Proof.Machine

/-- R75, R194 to R199: TKREQ appends a place, the holder's where the queue was empty, and gives its handle and whether it holds, as one pending
result (log entry 91); TKTRY
gives whether the caller's place holds, and TKINFO its position and the queue's length; TKWAIT goes on at a holder and parks at a waiting place. -/
def Claims.TicketPlaces : Prop :=
  (∀ c yld d a pk u l s tm o, Claims.Ticket u c l s tm [.pair a] → (u.thread s l).defCount < 16 → Claims.Object u s ((u.thread s l).pair a) o →
      hSeq ((u.thread s l).pair a) = 0 → o.places.length < 2 ^ 20 - 1 → (s.die u.pkg (hBooth ((u.thread s l).pair a))).places < boothStorage →
    let h := (u.thread s l).pair a
    let hold := o.places.isEmpty
    let x : Place := ⟨o.nextSeq, !hold, hold, false, yld, u.ctx, u.group * 64 + l⟩
    let m := (u.stamp s).setObj u.pkg (hBooth h) (hObj h) { o with places := o.places ++ [x], nextSeq := nextSeq o.nextSeq }
    let th := u.thread s l
    ∃ t, exec (.tkreq c yld d a pk) s = .next t ∧ t.mem = s.mem ∧ After u l u.next c.park
      (u.setThread (if hold then u.acquire (some .pkg) m else m) l { th with defCount := th.defCount + 1, pend := th.pend ++
        [⟨d.toNat, false, 3, (words2 (handleOf (hBooth h) (hObj h) o.nextSeq o.gen)).map (fun w => (w, false)) ++
            [(if hold then 1 else 0, false)], false, 0, u.pc, true, none, some pk.toNat⟩] }) t) ∧
  (∀ c a u l s tm o k x, Claims.Ticket u c l s tm [.pair a] → Claims.Mine u s l ((u.thread s l).pair a) o k x →
    (∀ pd, (u.thread s l).defCount < 16 → ∃ t, exec (.tktry c pd a) s = .next t ∧ t.mem = s.mem ∧ After u l u.next c.park
      (u.setThread (if x.holder then u.acquire (some .pkg) (u.stamp s) else u.stamp s) l
        ((u.thread s l).defer u.pc pd.toNat true [(if x.holder then 1 else 0, false)] 0)) t) ∧
    (∀ d, (u.thread s l).defCount < 16 → ∃ t, exec (.tkinfo c d a) s = .next t ∧ t.mem = s.mem ∧ After u l u.next c.park
      (u.setThread (u.stamp s) l (Claims.pending (u.thread s l) u d
        [(BitVec.ofNat 32 ((o.places.take k).filter (fun y => !y.abandoned)).length, false), (BitVec.ofNat 32 o.places.length, false)] 0)) t) ∧
    ∃ t, exec (.tkwait c a) s = .next t ∧ t.mem = s.mem ∧
      if x.holder then After u l u.next c.park (u.acquire (some .pkg) (u.stamp s)) t
      else Stays u (u.setThread (u.stamp s) l { u.thread s l with st := .ticket ((u.thread s l).pair a) }) t)

/-- R197 to R199: TKGIVE names another live thread as the owner; TKSWAP exchanges the caller's waiting place with a yieldable waiting one behind
it; TKABAN marks a waiting place abandoned; TKREL unlinks a holder's and grants the next place that is not abandoned, whose owner goes on
where it waits in TKWAIT. -/
def Claims.TicketMoves : Prop :=
  (∀ c a u l s tm o k x, Claims.Mine u s l ((u.thread s l).pair a) o k x →
    let h := (u.thread s l).pair a
    (∀ b ctx t', Claims.Ticket u c l s tm [.pair a, .pair b] → Claims.Identity s u.pkg tm.part ((u.thread s l).pair b) ctx t' →
      let v := (u.thread s l).pair b
      ∃ t, exec (.tkgive c a b) s = .next t ∧ t.mem = s.mem ∧ After u l u.next c.park ((u.stamp s).setObj u.pkg (hBooth h) (hObj h)
        { o with places := o.places.set k { x with ctx := ctx, thr := (v.extractLsb' 40 5).toNat * 64 + (v.extractLsb' 45 6).toNat } }) t) ∧
    (∀ pd b j y, Claims.Ticket u c l s tm [.pair a, .pair b] → (u.thread s l).defCount < 16 →
        u.place tm.part ((u.thread s l).pair b) s = .ok (o, j, y) → hBooth ((u.thread s l).pair b) = hBooth h →
        hObj ((u.thread s l).pair b) = hObj h →
      let good := decide (k < j) && x.waiting && y.waiting && y.yieldable
      ∃ t, exec (.tkswap c pd a b) s = .next t ∧ t.mem = s.mem ∧ After u l u.next c.park
        (u.setThread (if good then (u.stamp s).setObj u.pkg (hBooth h) (hObj h)
            { o with places := (o.places.set k { y with yieldable := false }).set j x } else u.stamp s) l
          ((u.thread s l).defer u.pc pd.toNat true [(if good then 1 else 0, false)] 0)) t) ∧
    (Claims.Ticket u c l s tm [.pair a] → x.holder = false →
      ∃ t, exec (.tkaban c a) s = .next t ∧ t.mem = s.mem ∧ After u l u.next c.park
        ((u.stamp s).setObj u.pkg (hBooth h) (hObj h) { o with places := o.places.map (fun y => if y.seq == x.seq then
          { y with waiting := false, abandoned := true, ctx := 0, thr := 0 } else y) }) t) ∧
    (Claims.Ticket u c l s tm [.pair a] → x.waiting = false →
      ∃ t, exec (.tkrel c a) s = .next t ∧ t.mem = s.mem ∧ After u l u.next c.park
        (((u.stamp s).sink u.pkg (tm.coreOf u.group)).setObj u.pkg (hBooth h) (hObj h) (o.release x.seq)) t)) ∧
  (∀ (o : Obj) seq y rest, o.places.filter (fun x => x.seq != seq) = y :: rest → y.abandoned = false →
    o.release seq = { o with places := { y with waiting := false, holder := true } :: rest, skipping := false }) ∧
  (∀ (s : State) p die obj o x rest tm, o.places = x :: rest → x.holder = true → s.team? p x.ctx = some tm → tm.place.isSome = true →
      tm.mirror = false → (tm.thread (x.thr / 64) (x.thr % 64)).st = .ticket (handleOf die obj x.seq o.gen) →
    ((s.setObj p die obj o).thread p x.ctx (x.thr / 64) (x.thr % 64)).st = .runnable)

/-- R199, R201: a background step of the Booth skips abandoned places and grants the first that is not; HONEW makes a live object of the caller's
partition under a number that was not live, and gives its handle; HODEL ends an object with no place.
Where the model chose, log entry 24 says how. -/
def Obligations.BoothObjects : Prop :=
  (∀ s p die obj o, tfind (s.die p die).objs obj = some o →
    exec (.boothStep p die obj) s = .next (if o.skipping then s.setObj p die obj o.advance else s)) ∧
  (∀ c d a u l s tm, Claims.Ticket u c l s tm [.one a] → (u.thread s l).defCount < 16 → ((u.thread s l).reg a).toNat < 8 →
      ((u.thread s l).reg a).toNat ≠ 6 →
    let sel := ((u.thread s l).reg a).toNat
    let die := if sel = 7 then tm.coreOf u.group / 64 else sel
    (s.die u.pkg die).objs.length < 2 ^ 21 →
    ∃ t n gen, exec (.honew c d a) s = .next t ∧ t.mem = s.mem ∧ n < 2 ^ 21 ∧
      (∀ o, tfind (s.die u.pkg die).objs n = some o → o.live = false ∧ gen = o.gen + 1) ∧
      (tfind (s.die u.pkg die).objs n = none → gen = 0) ∧
      After u l u.next c.park
        (u.setThread (({ u.stamp s with free := s.free + 1 } : State).setObj u.pkg die n ⟨gen, 1, false, true, tm.part, []⟩) l
          (Claims.pending (u.thread s l) u d ((words2 (handleOf die n 0 gen)).map (fun w => (w, false))) 0)) t) ∧
  (∀ c a u l s tm o, Claims.Ticket u c l s tm [.pair a] → Claims.Object u s ((u.thread s l).pair a) o →
      hSeq ((u.thread s l).pair a) = 0 → o.places = [] →
    let h := (u.thread s l).pair a
    ∃ t, exec (.hodel c a) s = .next t ∧ t.mem = s.mem ∧
      After u l u.next c.park ((u.stamp s).setObj u.pkg (hBooth h) (hObj h) { o with live := false }) t)

/-- R29 to R33, R75, R192 to R200: the ticket operations that join, ask and wait, and those that move a place or end it. -/
def Obligations.TicketBarriers : Prop := Claims.TicketPlaces ∧ Claims.TicketMoves

namespace Sys2Proof.Machine

/-- The live record of an instance, and its place in the pool (R277). -/
def Claims.Record (s : State) (p : Nat) (inst : BitVec 40) (ix : Nat) (r : TRec) : Prop :=
  (s.pkg p).records.find? (fun e => e.2.inst == inst && e.2.st != .free) = some (ix, r)

/-- A request that another package's Ringmaster answers: the lane's next word waits for it (R92). -/
def Claims.asks (s : State) (u : Iss) (tm : Team) (l q : Nat) (v : DWord) (kind : ReqKind) (b : Body) : State :=
  s.request u.pkg tm { ctx := u.ctx, group := u.group, lanes := [(l, v)], pc := u.pc, addr := 0, dst := q, eseq := 0, kind := kind,
                       deadline := 0, tmo := 0 } b

end Sys2Proof.Machine

/-- R203, R205, R283: TDEC takes 1 from the counter of the record that its operand names, and the last makes it READY at the tail of
its FIFO; CERTW gives the verdict of a record, or waits for it; either asks the package that holds the record where that is another. -/
def Obligations.RecordInstructions : Prop :=
  ∀ c a u l s tm, Claims.Ticket u c l s tm [.pair a] → ((u.thread s l).pair a).extractLsb' 40 24 = 0 →
    let v := (u.thread s l).pair a
    let inst : BitVec 40 := v.extractLsb' 0 40
    let q := (v.extractLsb' 32 8).toNat
    let key := (s.pkg u.pkg).nextReq
    ((tm.group u.group).rwCount = 0 → (tm.group u.group).fails = [] →
      (∀ ix r, q = u.pkg → Claims.Record s u.pkg inst ix r → r.part = tm.part → 0 < r.deps →
        ∃ t, exec (.tdec c a) s = .next t ∧ After u l u.next c.park
          ((if r.deps = 1 ∧ r.st = .waiting then (u.stamp s).makeReady u.pkg ix
            else (u.stamp s).putRec u.pkg ix { r with deps := r.deps - 1 }).sink u.pkg (tm.coreOf u.group)) t) ∧
      (q ≠ u.pkg → (s.pkg u.pkg).member q = true → (s.pkg u.pkg).dead q = false →
        ∃ t, exec (.tdec c a) s = .next t ∧ t.mem = s.mem ∧ After u l u.next c.park
          (u.setThread (Claims.asks (u.stamp s) u tm l q v .tdec (.tdec inst tm.part key)) l { u.thread s l with wait := some key }) t)) ∧
    (∀ pd, (u.thread s l).defCount < 16 →
      (∀ ix r b, q = u.pkg → Claims.Record s u.pkg inst ix r → r.part = tm.part → r.verdict = some b →
        ∃ t, exec (.certw c pd a) s = .next t ∧ t.mem = s.mem ∧ After u l u.next c.park
          (u.setThread (u.stamp s) l ((u.thread s l).defer u.pc pd.toNat true [(if b then 1 else 0, false)] 0)) t) ∧
      (∀ ix r, q = u.pkg → Claims.Record s u.pkg inst ix r → r.part = tm.part → r.verdict = none →
        ∃ t, exec (.certw c pd a) s = .next t ∧ t.mem = s.mem ∧ After u l u.next c.park
          (u.setThread ((u.stamp s).modPkg u.pkg (fun k => { k with certWaits := k.certWaits ++ [⟨inst, .lane u.ctx u.group l tm.inst⟩] })) l
            ((u.thread s l).deferLater u.pc pd 0)) t) ∧
      (q ≠ u.pkg → (s.pkg u.pkg).member q = true → (s.pkg u.pkg).dead q = false →
        ∃ t, exec (.certw c pd a) s = .next t ∧ t.mem = s.mem ∧ After u l u.next c.park
          (u.setThread (Claims.asks (u.stamp s) u tm l q v .certw (.certw inst tm.part key)) l ((u.thread s l).deferLater u.pc pd key)) t))

/-- R72, R204: TARM arms a slot for a tag that its space does not hold, of 1,024 slots, and TDISARM takes the tag's slot out and says whether there
was one. -/
def Obligations.LaunchSlots : Prop :=
  (∀ c a b e u l s tm, Claims.Ticket u c l s tm [.one a, .pair b, .one e] → (tm.group u.group).rwCount = 0 → (tm.group u.group).fails = [] →
    let th := u.thread s l
    let prio := ((th.reg e).extractLsb' 0 4).toNat
    th.reg e &&& 0xFFFFFCF0 = 0 → (th.reg e).extractLsb' 8 2 ≠ 0 → prio ≤ 10 ∨ (prio = 11 ∧ tm.prio = 11) →
    (∀ x ∈ (s.pkg u.pkg).slots, ¬ (x.space = tm.tagSpace ∧ x.tag = th.reg a)) → (s.pkg u.pkg).slots.length < 1024 →
    ∃ t, exec (.tarm c a b e) s = .next t ∧ t.mem = s.mem ∧ After u l u.next c.park
      ((u.stamp s).modPkg u.pkg (fun k => { k with slots := k.slots ++
        [⟨tm.tagSpace, th.reg a, th.pair b, prio, (th.reg e).getLsbD 8, (th.reg e).getLsbD 9, tm.part, tm.driver⟩] })) t) ∧
  (∀ c pd a u l s tm, Claims.Ticket u c l s tm [.one a] → (u.thread s l).defCount < 16 →
    let mine (x : Slot) : Bool := x.space == tm.tagSpace && x.tag == (u.thread s l).reg a
    ∃ t, exec (.tdisarm c pd a) s = .next t ∧ t.mem = s.mem ∧ After u l u.next c.park
      (u.setThread ((u.stamp s).modPkg u.pkg (fun k => { k with slots := k.slots.filter (fun x => !mine x) })) l
        ((u.thread s l).defer u.pc pd.toNat true [(if (s.pkg u.pkg).slots.any mine then 1 else 0, false)] 0)) t)

namespace Sys2Proof.Machine

/-- What a lane's plain loads of a template and of its interval bases give, with no wait and no lane woken (R202, R274, R275). -/
def Claims.Reads (u : Iss) (c : Ctl) (s : State) (l : Nat) (a arg : DWord) (tl : Tmpl) (rs : List (Nat × Nat × Nat)) (r : State) : Prop :=
  (∀ tm, u.team s = some tm → readLaunch (u.loadVas c tm l) a.toNat arg.toNat s = (.ok (tl, rs), r)) ∧
    ∀ q d, r.team? q d = s.team? q d

end Sys2Proof.Machine

/-- R14, R202, R206, R276, R280 to R282: TSPAWN launches the template that its lane has read, with its own task as the parent; a template that no
empty core can hold is refused, with 0 for its result; where the window or the pool has no room the launch waits, and so does the lane's next word.
Where the model chose, log entry 27 says how. -/
def Obligations.Spawn : Prop :=
  ∀ c n d a b e u l s tm tl rs r r0, Claims.Ticket u c l s tm [.pair a, .pair b, .one e] → (u.thread s l).defCount < 16 →
      (tm.group u.group).rwCount = 0 → (tm.group u.group).fails = [] →
      Claims.Reads u c s l ((u.thread s l).pair a) ((u.thread s l).pair b) tl rs r0 →
      Claims.Reads u c (u.stamp s) l ((u.thread s l).pair a) ((u.thread s l).pair b) tl rs r →
    let th := u.thread s l
    let code := (th.reg e).toNat
    let prio := if code = 15 then tl.prio else code
    (code ≤ 11 ∨ code = 15) → (code = 11 → tm.prio = 11) → (prio = 11 → tm.prio = 11) → (th.pair b).toNat % 8 = 0 →
    let x : Launch := { template := th.pair a, arg := th.pair b, prio := prio, stream := tm.stream, ndep := n.toNat, part := tm.part,
                        driver := tm.driver, tmpl := tl, regions := rs, parent := tm.inst, cookie := 0, result := none, page := 0,
                        asker := some (.lane u.ctx u.group l tm.inst) }
    (tl.refused prio = true →
      ∃ t, exec (.tspawn c n d a b e) s = .next t ∧ After u l u.next c.park
        (u.setThread (r.event u.pkg (ringOf tm.part tm.driver)
            (tm.evRec u.group 0x08 0 u.pc64 l (dataAt [(56, leBytes 8 tm.inst.toNat)]))) l
          (Claims.pending th u d [(0, false), (0, false)] 0)) t) ∧
    (tl.refused prio = false → (r.pkg u.pkg).launchOk u.pkg (r.pkg u.pkg).waitLaunch x = true →
      ∃ t, exec (.tspawn c n d a b e) s = .next t ∧ After u l u.next c.park
        (u.setThread (r.launchNow u.pkg x).2 l
          (Claims.pending th u d ((words2 ((r.launchNow u.pkg x).1.setWidth 64)).map (fun w => (w, false))) 0)) t) ∧
    (tl.refused prio = false → (r.pkg u.pkg).launchOk u.pkg (r.pkg u.pkg).waitLaunch x = false →
      ∃ t, exec (.tspawn c n d a b e) s = .next t ∧ After u l u.next c.park
        (u.setThread (r.modPkg u.pkg (fun k => { k with waitLaunch := k.waitLaunch ++ [x] })) l { th with
          wait := some 0, defCount := th.defCount + 1, pend := th.pend ++ [⟨d.toNat, false, 2, [], false, 0, u.pc, false, none, none⟩] }) t)

/-! ### Class 5: the engines -/

namespace Sys2Proof.Machine

/-- A matrix or vocabulary command whose checks pass, where the engine's claim and queue admit it: it stands last in the queue of its core, its
pages locked, and the claim is the team's; its word retires at every lane, or the group waits for the command (R208, R209, R211, R212, R237). -/
def Claims.Queues (i : Instr) (c : Ctl) (os : List Opnd) (held : Bool)
    (check : Iss → Team → List Word → State → Except GFail MCmd × State) : Prop :=
  ∀ u l s tm m r, Whole u c l s tm os → u.mayQueue tm s = true → check u tm ((u.thread s l).opnds os) s = (.ok m, r) → Calm s r →
      Lockable r m.pages →
    ∃ t b, exec i s = .next t ∧ u.team t = some b ∧ (b.eng (tm.onOdd u.group)).claim = true ∧
      (b.eng (tm.onOdd u.group)).mq = (tm.eng (tm.onOdd u.group)).mq ++ [{ m with die := u.die r }] ∧
      (held = false → Did u c (fun _ th => th) (u.enqueue m r) t) ∧ (held = true → t = u.groupWaits c (u.enqueue m r))

/-- What ACCRD leaves at a lane: a lane whose row lies in the tile has a result on its way, and its next word waits for it (R218). -/
def Claims.accWaits (u : Iss) (d : Reg) (n v l : Nat) (th : Thread) : Thread :=
  if v % 64 + l < 64 then
    { th with defCount := th.defCount + 1, wait := some 0, pend := th.pend ++ [⟨d.toNat, false, n, [], false, 0, u.pc, false, none, none⟩] }
  else { th with defCount := th.defCount + 1 }

end Sys2Proof.Machine

/-- R208, R209, R211 to R219: WBLD, MML, MMLG, ACCZ and ACCST queue their commands, and ACCRD its own with a result on its way to each lane
whose row lies in the tile; ACCZ, ACCRD, ACCST, a plain WBLD from one page and an MML from the scratchpad pass their checks where
their operands are in range and aligned.
Where the model chose, log entries 44 to 46 say how. -/
def Obligations.MatrixCommands : Prop :=
  (∀ c a b e, Claims.Queues (.wbld c a b e) c [.pair a, .one b, .one e] false checkWbld) ∧
  (∀ c af a b, Claims.Queues (.mml c af a b) c [.quad a, .pair b] false (checkMml 0x01 af none)) ∧
  (∀ c af a b t, Claims.Queues (.mmlg c af a b t) c [.quad a, .pair b, .one t] false (checkMmlg af)) ∧
  (∀ c a, Claims.Queues (.accz c a) c [.one a] false checkAccz) ∧
  (∀ c fmt rm int a b e, Claims.Queues (.accst c fmt rm int a b e) c [.one a, .one b, .one e] false (checkAccst fmt rm int)) ∧
  (∀ c n d a u l s tm m r, Whole u c l s tm [.one a] → (∀ j ∈ u.lanes, (u.thread s j).defCount < 16) → u.mayQueue tm s = true →
      checkAccrd n u tm [(u.thread s l).reg a] s = (.ok m, r) → Calm s r → Lockable r m.pages →
    ∃ t, exec (.accrd c n d a) s = .next t ∧
      Did u c (Claims.accWaits u d (2 ^ n.toNat) ((u.thread s l).reg a).toNat) (u.enqueue m r) t) ∧
  (∀ u tm w s, w.toNat < 2 ^ 16 → checkAccz u tm [w] s = (.ok (u.cmd 0x03 0 [w]), s)) ∧
  (∀ n u tm w s, w.toNat &&& 0xFFF0C0C0 = 0 → w.toNat / 2 ^ 8 % 64 + 2 ^ n.toNat ≤ 64 →
    checkAccrd n u tm [w] s = (.ok (u.cmd 0x04 n.toNat [w]), s)) ∧
  (∀ fmt rm int u tm off sh bb s, sh.toNat < 2 ^ 20 → bb.toNat < 2 ^ 8 → bb.toNat / 32 % 4 = 0 → off.toNat % 16 = 0 → sh.toNat % 2 ^ 16 % 16 = 0 →
      64 * elemSize fmt.code.toNat ≤ sh.toNat % 2 ^ 16 → (bb.toNat / 2 ^ 7 % 2 = 1 → bb.toNat % 32 < tm.tmpl.bbc) →
      off.toNat + (63 * (sh.toNat % 2 ^ 16) + 64 * elemSize fmt.code.toNat) ≤ tm.tmpl.scratch →
    checkAccst fmt rm int u tm [off, sh, bb] s = (.ok (u.cmd 0x05 (accstMod fmt rm int) [off, sh, bb]), s)) ∧
  (∀ u tm lo hi off n s tr, let src := lo.toNat + 2 ^ 32 * hi.toNat
      src % 16 = 0 → off.toNat % 16 = 0 → n.toNat % 16 = 0 → n.toNat ≠ 0 → off.toNat + n.toNat ≤ 262144 → src + n.toNat ≤ 2 ^ 57 →
      Held s u.pkg tm.part (u.die s) src .read tr → tr.covers src = true → src + n.toNat ≤ tr.va + tr.size →
      tr.fmt ∈ [2, 3, 4, 5, 6] → elemFmtOk tr.fmt tr.geom = true →
    checkWbld u tm [lo, hi, off, n] s = (.ok { u.cmd 0x00 0 [lo, hi, off, n] with pages := [tr] }, s)) ∧
  (∀ af u tm ops s, ops.length = 6 → af ≠ .page → let o := mmlOp ops
      wordAt ops 3 < 2 ^ 18 → wordAt ops 5 < 2 ^ 8 → wordAt ops 5 / 32 % 4 = 0 → o.bbase % 16 = 0 → o.binc % 16 = 0 →
      o.abase % elemSize af.fmt = 0 → o.ainc % elemSize af.fmt = 0 → o.apitch % elemSize af.fmt = 0 →
      o.inBuffer o.bbase (if af.fmt = 6 then 2048 else 1280) = true → (o.bbe = true → o.bb < tm.tmpl.bbc) →
      (∀ a ∈ [o.row 0 0, o.row (o.steps - 1) 0, o.row 0 63, o.row (o.steps - 1) 63], a + 32 * elemSize af.fmt ≤ tm.tmpl.scratch) →
    checkMml 0x01 af none u tm ops s = (.ok (u.cmd 0x01 af.fmt ops), s))

/-- R208, R209, R236 to R256: the vocabulary commands queue; a group waits for its VPJ and its VPJMRG. VPJINIT without labels, VPJMRG of apart blocks and
VPJFIN pass their checks where their operands are in range and aligned.
Where the model chose, log entries 44, 49 to 51 say how. -/
def Obligations.VocabularyCommands : Prop :=
  (∀ c a b e, Claims.Queues (.vpjinit c a b e) c [.one a, .one b, .one e] false (checkVpjinit e)) ∧
  (∀ c a, Claims.Queues (.vpj c a) c [.one a] true checkVpj) ∧
  (∀ c a b e, Claims.Queues (.vpjmrg c a b e) c [.one a, .one b, .one e] true checkVpjmrg) ∧
  (∀ c a b, Claims.Queues (.vpjfin c a b) c [.one a, .one b] false checkVpjfin) ∧
  (∀ c a, Claims.Queues (.vsamp c a) c [.one a] false checkVsamp) ∧
  (∀ c a, Claims.Queues (.vpjbwd c a) c [.one a] false checkVpjbwd) ∧
  (∀ c a, Claims.Queues (.vtopk c a) c [.one a] false checkVtopk) ∧
  (∀ c a, Claims.Queues (.vsmax c a) c [.one a] false checkVsmax) ∧
  (∀ u tm so v lo s, so.toNat % 64 = 0 → let rows := v.toNat / 2 ^ 16 % 64 + 1
      so.toNat + 576 * rows ≤ tm.tmpl.scratch → v.toNat % 2 ^ 26 &&& (2 ^ 26 - 1 - 0x013F1FFF) = 0 →
      (v.toNat / 2 ^ 31 = 1 → v.toNat / 2 ^ 26 % 32 < tm.tmpl.bbc) → 1 ≤ v.toNat % 2 ^ 13 → v.toNat % 2 ^ 13 ≤ 4096 → v.toNat / 2 ^ 24 % 2 = 0 →
    checkVpjinit 0 u tm [so, v, lo] s = (.ok (u.cmd 0x0B 0 [so, v, lo]), s)) ∧
  (∀ u tm x y v s, x.toNat % 64 = 0 → y.toNat % 64 = 0 → let rows := v.toNat % 64 + 1
      v.toNat % 2 ^ 26 &&& (2 ^ 26 - 1 - 0x3F) = 0 → (v.toNat / 2 ^ 31 = 1 → v.toNat / 2 ^ 26 % 32 < tm.tmpl.bbc) →
      x.toNat + 576 * rows ≤ tm.tmpl.scratch → y.toNat + 576 * rows ≤ tm.tmpl.scratch →
      (y.toNat + 576 * rows ≤ x.toNat ∨ x.toNat + 576 * rows ≤ y.toNat) →
    checkVpjmrg u tm [x, y, v] s = (.ok (u.cmd 0x0D 0 [x, y, v]), s)) ∧
  (∀ u tm x v s, x.toNat % 64 = 0 → v.toNat % 2 ^ 26 &&& (2 ^ 26 - 1 - 0x3F) = 0 → (v.toNat / 2 ^ 31 = 1 → v.toNat / 2 ^ 26 % 32 < tm.tmpl.bbc) →
      x.toNat + 576 * (v.toNat % 64 + 1) ≤ tm.tmpl.scratch →
    checkVpjfin u tm [x, v] s = (.ok (u.cmd 0x0E 0 [x, v]), s))

namespace Sys2Proof.Machine

/-- A copy command whose descriptor passes its checks, where the core's copy engine has room: it enters the engine, and its word retires at
every lane (R208, R209, R220, R223). -/
def Claims.Copies (i : Instr) (c : Ctl) (a : Reg) (k : CopyKind) : Prop :=
  ∀ u l s tm, Whole u c l s tm [.one a] → (∀ x ∈ tm.copies, x.entered = true) → (s.pkg u.pkg).copiesOn (tm.coreOf u.group) < 16 →
    let off := ((u.thread s l).reg a).toNat
    let desc := (tm.scr (tm.onOdd u.group)).bytes off 64
    off % 64 = 0 → off + 64 ≤ tm.tmpl.scratch → u.copyFail tm k off desc = none →
    let x : Copy := { id := tm.copies.foldl (fun n x => max n x.id) 0 + 1, kind := k, pc := u.pc, group := u.group, core := tm.coreOf u.group,
                      off := BitVec.ofNat 32 off, desc := desc }
    let dests := if k = .cpym then (s.pkg u.pkg).copyDests tm (tm.coreOf u.group) (cdesc desc) else []
    ∃ t b, exec i s = .next t ∧ t.mem = s.mem ∧ Did u c (fun _ th => th) (s.enterCopy u.pkg u.ctx (tm.coreOf u.group) tm x) t ∧
      u.team t = some b ∧ b.copies = tm.copies ++ [{ x with entered := true, dests := dests }]

end Sys2Proof.Machine

/-- R208, R209, R220, R221, R223, R225, R226: CPY, CPYM and CPYX enter their core's copy engine, a CPYM with the destinations that its mask names.
Where the model chose, log entry 44 says how. -/
def Obligations.CopyCommands : Prop :=
  (∀ c a, Claims.Copies (.cpy c a) c a .cpy) ∧ (∀ c a, Claims.Copies (.cpym c a) c a .cpym) ∧ (∀ c a, Claims.Copies (.cpyx c a) c a .cpyx)

/-- R208, R227 to R229, R235: COLL takes its block from its page, and gives every lane the handle of its collective, which waits for the
sequencer; COLLQ gives the state and the step of a handle, and 4 for one that it does not know.
Where the model chose, log entries 44, 56, 57 say how. -/
def Obligations.Collectives : Prop :=
  (∀ c d a u l s tm tr, Whole u c l s tm [.pair a] → (∀ j ∈ u.lanes, (u.thread s j).defCount < 16) →
    let va := pairAt ((u.thread s l).opnds [.pair a]) 0
    ((s.pkg u.pkg).colls.filter (fun c => !c.ended)).length < 64 → va % 128 = 0 → va < 2 ^ 57 →
    Held s u.pkg tm.part (u.die s) va .read tr → s.homeFault u.pkg (s.forward (tr.at va)) false = none →
      (s.pkg (homeOf (s.forward (tr.at va)))).avail (llineOf (s.forward (tr.at va))) false = true →
    let b := s.peekN (s.forward (tr.at va)) 128
    u.collFail tm (s.pkg u.pkg) va b = none →
    let g := blkLe b 8 2
    let k := s.pkg u.pkg
    let h : DWord := BitVec.ofNat 64 (g * 2 ^ 40 + (k.collCount + 1) % 2 ^ 40)
    let x : Coll := { handle := h, n := tget 0 k.collOn g, ctx := u.ctx, inst := tm.inst, part := tm.part, driver := tm.driver, pc := u.pc,
                      group := u.group, core := tm.coreOf u.group, block := b, members := (k.cgroupAt g).members,
                      rank := (k.cgroupAt g).members.idxOf u.pkg }
    ∃ t, exec (.coll c d a) s = .next t ∧ t.mem = s.mem ∧ Did u c (fun _ th => th.defer u.pc d.toNat false ((words2 h).map (fun w => (w, false))) 0)
      (s.modPkg u.pkg (fun k => { k with colls := keptColls (k.colls ++ [x]), collCount := k.collCount + 1,
                                         collOn := tput k.collOn g (tget 0 k.collOn g + 1) })) t) ∧
  (∀ c d a u l s tm, Whole u c l s tm [.pair a] → (∀ j ∈ u.lanes, (u.thread s j).defCount < 16) →
    (∀ x, (lastColls (s.pkg u.pkg).colls).find? (fun y => y.handle.toNat == pairAt ((u.thread s l).opnds [.pair a]) 0) = some x →
      ∃ t, exec (.collq c d a) s = .next t ∧ t.mem = s.mem ∧ Did u c (fun _ th => th.defer u.pc d.toNat false
        ((words2 (BitVec.ofNat 64 (x.stepBase + x.steps)) ++ [BitVec.ofNat 32 x.stateCode, 0]).map (fun w => (w, false))) 0) s t) ∧
    ((lastColls (s.pkg u.pkg).colls).find? (fun y => y.handle.toNat == pairAt ((u.thread s l).opnds [.pair a]) 0) = none →
      ∃ t n, exec (.collq c d a) s = .next t ∧ t.mem = s.mem ∧ Did u c (fun _ th => th.defer u.pc d.toNat false
        ((words2 n ++ [4, 0]).map (fun w => (w, false))) 0) { s with free := s.free + 1 } t))

/-! ### Class 6: the system -/

/-- R260, R262, R292: TRAP raises SOFTWARE, and BKPT without debug halt BREAK: tx.code holds the trap, tx.pc the word that follows, tx.addr is 0 and
tx.info the operand; PM takes M, M masks, and the lane stands at its handler. -/
def Obligations.TrapsTaken : Prop :=
  ∀ c u l s tm, Handled u c l s tm →
    (∀ a, (u.thread s l).flags [.one a] = false →
      ∃ t, exec (.trapReg c a) s = .next t ∧ Taken u l tm 0x12 (u.next.setWidth 64) 0 (((u.thread s l).reg a).setWidth 64) s t) ∧
    (∀ imm : BitVec 18, ∃ t, exec (.trapImm c imm) s = .next t ∧ Taken u l tm 0x12 (u.next.setWidth 64) 0 (imm.signExtend 64) s t) ∧
    (∀ n : BitVec 8, u.debugHalt s = false →
      ∃ t, exec (.bkpt c n) s = .next t ∧ Taken u l tm 0x13 (u.next.setWidth 64) 0 (n.setWidth 64) s t)

/-- R260, R261: a TRAP where traps are masked or the task has no handler stops its team: the team issues nothing more, keeps no copy that has not started,
and no other group of it holds a word at a port or has one taken.
Where the model chose, log entry 42 says how. -/
def Obligations.TrapsStop : Prop :=
  ∀ c imm u l s tm, Alone u c l s → u.team s = some tm → tm.mirror = false → ((u.thread s l).m = true ∨ tm.tmpl.handler = 0) →
    ∃ t b, exec (.trapImm c imm) s = .next t ∧ u.team t = some b ∧ b.stop = some .failed ∧ (∀ x ∈ b.copies, x.started = true) ∧
      (∀ g, g ≠ u.group → (b.group g).portA = none ∧ (b.group g).portB = none ∧ (b.group g).pickA = none)

/-- R263: BKPT under debug halt halts its lane: its older results are written, tx.* holds BREAK, and one DEBUG_HALT record names the lane. -/
def Obligations.BreakpointHalts : Prop :=
  ∀ c (n : BitVec 8) u l s tm, Alone u c l s → u.team s = some tm → tm.mirror = false → u.debugHalt s = true →
    let y : Thread := { (u.thread s l).parkNow.1 with st := .halted, txCode := 0x13, txPc := u.next.setWidth 64, txAddr := 0,
                                                      txInfo := n.setWidth 64, pc := u.next }
    let r : Rec := { tm.evRec u.group 0x17 0x13 (u.next.setWidth 64) 0xFF (dataAt [(32, leBytes 8 (2 ^ l))]) with lane := 0xFF }
    ∃ t, exec (.bkpt c n) s = .next t ∧ t.mem = s.mem ∧
      Stays u (u.setThread ((u.stamp s).event u.pkg (ringOf tm.part tm.driver) r) l y) t

/-- R264: RTT in its handler goes on at tx.pc, where the nearest header at or below it, at most 16 words below, holds it in its clause; M takes PM. -/
def Obligations.ReturnsFromTraps : Prop :=
  ∀ c u l s tm k (w : Nat → DWord), Alone u c l s → u.team s = some tm → tm.mirror = false → (u.thread s l).inh = true →
    let th := u.thread s l
    let a := th.txPc.toNat
    a < 2 ^ 57 → a % 8 = 0 → k ≤ 16 → 8 * k ≤ a → (∀ j, j ≤ k → Code u s (a - 8 * j) (w j)) → (∀ j, j < k → isHeader (w j) = false) →
    isHeader (w k) = true → a ≤ (clauseOf (BitVec.ofNat 57 (a - 8 * k)) (Header.ofWord (w k))).last.toNat →
    let m := (List.range (k + 1)).foldl (fun s j => u.keeps (a - 8 * j) (w j) s) (u.stamp s)
    ∃ t, exec (.rtt c) s = .next t ∧ t.mem = s.mem ∧
      Stays u (u.setThread m l (({ th with pc := th.txPc.setWidth 57, m := th.pm, inh := false } : Thread).parked c.park)) t

namespace Sys2Proof.Machine

/-- The form of a CTLRD or CTLWR and the selector's number in it; `P` is the thread after the park that it issues after, which writes every
older result (R258). -/
def Claims.Selects (s : State) (u : Iss) (l : Nat) (tm : Team) (c : Ctl) (d : Reg) (write : Bool) (i : Instr) (v : Nat) (sel : Sel) : Prop :=
  let P := (u.thread s l).parkNow.1
  (u.thread s l).settled = true ∧ P.guard c = true ∧ selOf v = some sel ∧
    ((i = (if write then .ctlwrImm c d (BitVec.ofNat 18 v) else .ctlrdImm c d (BitVec.ofNat 18 v)) ∧ v < 2 ^ 18) ∨
      ∃ b, i = (if write then .ctlwrReg c d b else .ctlrdReg c d b) ∧ v = (P.reg b).toNat ∧ P.flags [.one b] = false ∧
        regCheck tm.tmpl.regs [sel.opnd d] = none)

end Sys2Proof.Machine

/-- R258, R259, R265: TMASK sets M; CTLRD gives the selected register, written at the next park, and CTLWR writes it, where its task may.
Where the model chose, log entries 29, 35 say how. -/
def Obligations.SystemRegisters : Prop :=
  (∀ c a u s, Issues u s → NoRegion u s → (∀ l ∈ u.active c s, (u.thread s l).flags [.one a] = false) →
    ∃ t, exec (.tmaskReg c a) s = .next t ∧ Did u c (fun _ th => { th with m := (th.reg a).getLsbD 0 }) s t) ∧
  (∀ c imm u s, Issues u s → NoRegion u s →
    ∃ t, exec (.tmaskImm c imm) s = .next t ∧ Did u c (fun _ th => { th with m := imm.getLsbD 0 }) s t) ∧
  (∀ c d u l s tm i v sel, Alone u c l s → u.team s = some tm → tm.mirror = false → (sel.privileged = true → tm.prio = 11) →
    let P := (u.thread s l).parkNow.1
    (Claims.Selects s u l tm c d false i v sel →
      ∃ t, exec i s = .next t ∧ t.mem = s.mem ∧ After u l u.next c.park (u.setThread s l
        (P.defer u.pc d.toNat false ((wordsOf sel.wide (s.readSel u.pkg tm.part P sel)).map (fun w => (w, false))) 0)) t) ∧
    (∀ m, Claims.Selects s u l tm c d true i v sel → sel.readOnly = false → P.flags [sel.opnd d] = false →
        u.writeSel tm.part l (P.val sel.wide d) sel (u.setThread (u.stamp s) l P) = some m →
      ∃ t, exec i s = .next t ∧ t.mem = s.mem ∧ After u l u.next c.park m t))

/-- R258: below level 11 every access to a ctl.* register raises PERM with the selector, and TLBI.page with the address; tx.info is 0x20. -/
def Obligations.Privilege : Prop :=
  (∀ c d u l s tm w i v sel, Handled u c l s tm → (u.thread s l).parkNow.1.m = false → tm.prio ≠ 11 →
      Claims.Selects s u l tm c d w i v sel → sel.privileged = true → (w = true → sel.readOnly = false) →
      (w = true → (u.thread s l).parkNow.1.flags [sel.opnd d] = false) →
    ∃ t, exec i s = .next t ∧ Taken u l tm 0x06 u.pc64 (BitVec.ofNat 64 v) 0x20 s t) ∧
  (∀ c a u l s tm, Handled u c l s tm → tm.prio ≠ 11 → (u.thread s l).flags [.pair a] = false →
    ∃ t, exec (.tlbiPage c a) s = .next t ∧ Taken u l tm 0x06 u.pc64 ((u.thread s l).pair a) 0x20 s t)

/-- R266, R267: TLBI of a privileged lane takes the translations of its page, or of its partition, out of every die, and a park follows, where no engine
has their pages locked and no remote access of the partition is on its way; EVREC posts the code and 32 bytes of the scratchpad.
Where the model chose, log entries 28, 84 say how. -/
def Obligations.TranslationsAndRecords : Prop :=
  (∀ c u l s tm, Alone u c l s → u.team s = some tm → tm.mirror = false → tm.prio = 11 →
    (∀ a, (u.thread s l).flags [.pair a] = false → let va := ((u.thread s l).pair a).toNat
      va < 2 ^ 57 → (s.pkg u.pkg).pageLocked tm.part (some va) = false → (s.pkg u.pkg).usesCovered tm.part (some va) = false →
      ∃ t, exec (.tlbiPage c a) s = .next t ∧ t.mem = s.mem ∧ After u l u.next true
        ((u.stamp s).modPkg u.pkg (fun k => k.invalidate tm.part (some va))) t) ∧
    ((s.pkg u.pkg).pageLocked tm.part none = false → (s.pkg u.pkg).usesCovered tm.part none = false →
      ∃ t, exec (.tlbiAll c) s = .next t ∧ t.mem = s.mem ∧ After u l u.next true
        ((u.stamp s).modPkg u.pkg (fun k => k.invalidate tm.part none)) t)) ∧
  (∀ c a b u l s tm, Claims.Ticket u c l s tm [.one a, .one b] → (tm.group u.group).rwCount = 0 → (tm.group u.group).fails = [] →
    let off := ((u.thread s l).reg a).toNat
    off % 32 = 0 → ((u.thread s l).reg b).toNat < 2 ^ 16 → off + 32 ≤ tm.tmpl.scratch →
    ((s.pkg u.pkg).ring (ringOf tm.part tm.driver)).roomFor 1 = true →
    ∃ t, exec (.evrec c a b) s = .next t ∧ t.mem = s.mem ∧ After u l u.next c.park
      ((u.stamp s).event u.pkg (ringOf tm.part tm.driver) (tm.evRec u.group 0x01 ((u.thread s l).reg b).toNat u.pc64 l
        ((tm.spaceMem u.group l .s).bytes off 32))) t)

/-! ### Events: the frontier -/

namespace Sys2Proof.Machine

/-- The entry that port A picks (R21 to R24): of the eligible ones but port B's the one that ranks first, or the one that has waited longest
when the progress count stands at 64. -/
def Claims.bestA (s : State) (w : Where) (t : Team) : Option Cand :=
  let cs := (s.eligible w.pkg t w.group).filter (fun k => some k.pc != (t.group w.group).portB.map (·.pc))
  if (t.group w.group).prog = 64 then firstBy Cand.older cs else firstBy Cand.before cs

/-- A pick is counted: the progress count rises, or returns to 0 where the oldest of the eligible entries was picked, and the YIELD marks of the
group go (R24, R136). -/
def Claims.counted (s : State) (w : Where) (cs : List Cand) (k : Cand) : State :=
  s.modGroup w.pkg w.ctx w.group (fun x =>
    { x with prog := if (firstBy Cand.older cs).map (·.pc) = some k.pc then 0 else min 64 (x.prog + 1),
             ents := tmap (fun _ e => { e with yield := false }) x.ents })

/-- What port B does at a pick (R23): it takes the first in rank of the eligible entries that port A does not have, unless its clause is of
the class of port A's. -/
def Claims.picksB (s : State) (w : Where) (cs : List Cand) (a : List Pc) (r : State) : Prop :=
  let m := s.modGroup w.pkg w.ctx w.group (fun x => { x with bFree := false })
  ∀ t, m.team? w.pkg w.ctx = some t →
    (firstBy Cand.before (cs.filter (fun k => !a.contains k.pc)) = none → r = m) ∧
    (∀ k, firstBy Cand.before (cs.filter (fun k => !a.contains k.pc)) = some k →
      ((∃ o, (t.group w.group).portA = some o ∧ k.ecls = some o.clause.ecls) → r = m) ∧
      ((∀ o, (t.group w.group).portA = some o → k.ecls ≠ some o.clause.ecls) →
        r = (Claims.counted m w cs k).startEntry w.pkg w.ctx w.group true k.pc))

end Sys2Proof.Machine

/-- R20 to R24, R80, R136: at PORT_PICK an idle port A takes the entry that it picks, and port B then picks among the same entries; an entry that
port A has taken begins once port B's clause has ended; while port A runs a clause, port B picks alone, once, after its own has ended; and ports
that are busy stay. A picked entry starts: inside its clause it goes on, and at a header without a wait its lanes stand at the first word of the
clause, unless the clause is of the class of the other port's, for which port A holds it and port B does not. -/
def Claims.PortPicks : Prop :=
  (∀ (w : Where) (s : State) (t : Team), s.team? w.pkg w.ctx = some t → t.stop = none → t.place ≠ none → (t.group w.group).vwait = false →
    w.group < t.tmpl.groups → exec (.portPick w) s = .next (s.pickPorts w.pkg w.ctx w.group)) ∧
  (∀ (w : Where) (s : State) (t : Team), s.team? w.pkg w.ctx = some t →
    let x := t.group w.group
    let cs := s.eligible w.pkg t w.group
    (∀ pc, x.pickA = some pc →
      (x.portB ≠ none → s.pickPorts w.pkg w.ctx w.group = s) ∧
      (x.portB = none → s.pickPorts w.pkg w.ctx w.group =
        (s.modGroup w.pkg w.ctx w.group (fun x => { x with pickA := none })).startEntry w.pkg w.ctx w.group false pc)) ∧
    (∀ o, x.pickA = none → x.portA = some o →
      (x.portB ≠ none ∨ x.bFree = false → s.pickPorts w.pkg w.ctx w.group = s) ∧
      (x.portB = none → x.bFree = true → Claims.picksB s w cs [o.pc] (s.pickPorts w.pkg w.ctx w.group))) ∧
    (x.pickA = none → x.portA = none →
      (Claims.bestA s w t = none → s.pickPorts w.pkg w.ctx w.group = s) ∧
      ∀ k, Claims.bestA s w t = some k →
        let m := (Claims.counted s w cs k).startEntry w.pkg w.ctx w.group false k.pc
        ∀ t', m.team? w.pkg w.ctx = some t' →
          ((t'.group w.group).portA = none ∨ (t'.group w.group).portB ≠ none → s.pickPorts w.pkg w.ctx w.group = m) ∧
          (∀ o, (t'.group w.group).portA = some o → (t'.group w.group).portB = none →
            Claims.picksB m w cs [k.pc, o.pc] (s.pickPorts w.pkg w.ctx w.group)))) ∧
  (∀ (w : Where) (s : State) (t : Team) (b : Bool) (pc : Pc) (k : Clause), s.team? w.pkg w.ctx = some t →
    ((t.group w.group).ent pc).mid pc = some k →
    s.startEntry w.pkg w.ctx w.group b pc = if (∃ o, (t.group w.group).port (!b) = some o ∧ o.clause.ecls = k.ecls) then
        (if b then s else s.modGroup w.pkg w.ctx w.group (fun x => { x with pickA := some pc }))
      else s.modGroup w.pkg w.ctx w.group (fun x => x.setPort b (some ⟨pc, k⟩))) ∧
  (∀ (u : Iss) (s : State) (t : Team) (b : Bool) (x : DWord) (h : Header), u.team s = some t → u.lanes = t.runLanes u.group u.pc →
    u.clause = ⟨u.pc, u.pc, 0, 0⟩ → ((t.group u.group).ent u.pc).mid u.pc = none → Code u s u.pc.toNat x →
    decodeHeader t.tmpl.bbc x = .ok h → h.wbe = false → (h.wrs = true → (t.group u.group).rwCount = 0) → h.ecls ≠ 5 →
    (∀ o, (t.group u.group).port (!b) = some o → o.clause.ecls ≠ h.ecls.toNat) →
    s.startEntry u.pkg u.ctx u.group b u.pc =
      ((u.lanes.foldl (fun s l => s.moveLane u.pkg u.ctx u.group l (u.pc + 8) (some (clauseOf u.pc h))) (u.keeps u.pc.toNat x s)).modTeam u.pkg u.ctx
        (fun t => (t.modGroup u.group (fun g => g.setPort b (some ⟨u.pc + 8, clauseOf u.pc h⟩))).sweepEnts u.group)))

/-- R17, R18, R90, R174, R246: a due park whose results have returned writes them; a result whose value is known waits for its park once it has
returned; a group of which no thread is left, and no result outstanding, retires; and a WAITM whose timeout has expired completes with reason 2. -/
def Claims.LaneEvents : Prop :=
  (∀ (w : Where) (pc : Pc) (s : State) (t : Team) (l : Nat), s.team? w.pkg w.ctx = some t → t.stop = none → t.place ≠ none →
    (t.group w.group).vwait = false → (t.runLanes w.group pc).filter (fun l => (t.thread w.group l).parkDue && (t.thread w.group l).settled) = [l] →
    (t.thread w.group l).settled = true → (t.thread w.group l).parkNow.2 = none →
    exec (.park w pc) s = .next (s.setThread w.pkg w.ctx w.group l (t.thread w.group l).parkNow.1)) ∧
  (∀ (w : Where) (l k : Nat) (s : State) (r : Pend), (s.thread w.pkg w.ctx w.group l).pend[k]? = some r → r.known = true →
    (∃ t, s.team? w.pkg w.ctx = some t ∧ t.place ≠ none) → exec (.deferredResultReturn w l k) s = .next (s.modThread w.pkg w.ctx w.group l (fun t =>
      { t with pend := t.pend.set k { r with ready := true } }))) ∧
  (∀ (w : Where) (s : State) (t : Team), s.team? w.pkg w.ctx = some t → w.group < t.tmpl.groups → t.stop = none →
    (t.group w.group).retired = false → (∀ l ∈ t.lanes, (t.thread w.group l).live = false ∧ (t.thread w.group l).pend = []) →
    t.suspended w.group = none →
    exec (.groupRetire w) s = .next (s.modGroup w.pkg w.ctx w.group (fun g =>
      { g with retired := true, portA := none, portB := none, pickA := none, bFree := false }))) ∧
  (∀ (w : Where) (l : Nat) (s : State) (t : Team) (m : Monitor) (d : Nat), s.team? w.pkg w.ctx = some t → t.stop = none → t.place ≠ none →
    (t.thread w.group l).st = .monitor m → m.deadline = some d → d ≤ (s.pkg w.pkg).cycles s.clock →
    exec (.waitmTimeout w l) s = .next ((s.modThread w.pkg w.ctx w.group l (fun x => x.answer x.pc [(2, false)] 0)).completeLane
      w.pkg w.ctx w.group l))

/-! ### Events: the Ringmaster -/

namespace Sys2Proof.Machine

/-- The message at the head of a mailbox, well formed, and what it asks for: the partition that its launch runs in, and the launch itself with the
template that it or its slot names. -/
structure Claims.Message (s : State) (p page : Nat) (m : List Byte) : Prop where
  head : (s.pkg p).mboxHead page = some m
  formed : msgMalformed (some page) m = false

/-- The partition of a message. -/
def Claims.part (page : Nat) (m : List Byte) : Nat := if page = 8 then blkByte m 33 % 8 else page

/-- A mailbox gives up its head. -/
def Claims.popped (s : State) (p page : Nat) : State := s.modPkg p (fun k => k.mboxPop page)

end Sys2Proof.Machine

/-- R280 to R282, R288 to R291: the head of a mailbox with TAG 0 launches its template: the launch is made where a record and the window have room, and the
message waits where they have none; a malformed message, or one whose template needs more than an empty core holds, is rejected with a record; a message with a
tag fires the armed slot of its tag, which is armed no more, and with no such slot it is dropped with TAG_UNARMED; and a launch that waited goes
ahead. -/
def Claims.Launches : Prop :=
  (∀ p page s m t rs s1, Claims.Message s p page m → blkLe m 0 4 = 0 →
    let part := Claims.part page m
    let x0 := msgLaunch m part (page == 8) page (BitVec.ofNat 64 (blkLe m 8 8))
    let x : Launch := { x0 with tmpl := t, regions := rs, prio := if blkByte m 5 = 15 then t.prio else blkByte m 5 }
    readLaunch (rmRead p { part := part, driver := page == 8 }) x0.template.toNat x0.arg.toNat (Claims.popped s p page) = (.ok (t, rs), s1) →
    (x.prio = 11 → page = 8) →
    (t.refused x.prio = true → exec (.launch p page) s = .next (s1.rejectMsg p x 0x08 none)) ∧
    (t.refused x.prio = false → (s1.pkg p).launchOk p (s1.pkg p).waitLaunch x = true → exec (.launch p page) s = .next (s1.launchFull p x)) ∧
    (t.refused x.prio = false → (s1.pkg p).launchOk p (s1.pkg p).waitLaunch x = false → exec (.launch p page) s = .next s)) ∧
  (∀ p page s m, (s.pkg p).mboxHead page = some m → blkLe m 0 4 = 0 → msgMalformed (some page) m = true →
    exec (.launch p page) s = .next ((Claims.popped s p page).rejectMsg p
      (msgLaunch m (Claims.part page m) (page == 8) page (BitVec.ofNat 64 (blkLe m 8 8))) 0x07 none)) ∧
  (∀ p page s m, Claims.Message s p page m → blkLe m 0 4 ≠ 0 →
    let tag : Word := BitVec.ofNat 32 (blkLe m 0 4)
    (((s.pkg p).mboxPop page).findSlot page tag false = none →
      exec (.slotFire p page) s = .next (((Claims.popped s p page).event p page (msgRec 0x09 (Claims.part page m) 0 (dataAt [(32, leBytes 4 tag.toNat),
        (36, leBytes 1 page), (56, leBytes 8 (BitVec.ofNat 64 (blkLe m 40 8)).toNat)]))).writeResult p
          (msgLaunch m (Claims.part page m) (page == 8) page 0) 0)) ∧
    (∀ sl r, ((s.pkg p).mboxPop page).findSlot page tag false = some sl →
      ((Claims.popped s p page).modPkg p (fun k => { k with slots := k.slots.filter (fun y => y.space != page || y.tag != tag) })).tryLaunch p
        (msgLaunch m sl.part sl.driver page sl.template) sl.prio true = some r →
      exec (.slotFire p page) s = .next r)) ∧
  (∀ p s before x after, (s.pkg p).nextLaunch p [] (s.pkg p).waitLaunch = some (before, x, after) →
    exec (.deferredLaunch p) s = .next ((s.modPkg p (fun k => { k with waitLaunch := before ++ after })).launchFull p x))

/-- R276 to R284: a launch that is made takes a free record, under the next instance; each earlier task of its stream in the window that overlaps a region of
it, one of the two being written, gives it an edge; its counter is NDEP and its edges, and with none it is READY in the FIFO of its level. -/
def Claims.LaunchMakes : Prop :=
  ∀ (s : State) p (x : Launch) ix, (s.pkg p).freeRec = some ix →
    let k := s.pkg p
    let q := k.seqAfter p (k.records.length + 1) k.seq
    let edges := k.records.filter (fun e => e.2.edgeTo x)
    let deps := x.ndep + edges.length
    let r : TRec := { inst := instOf p q, template := x.template, arg := x.arg, deps := deps, prio := x.prio, st := .waiting, cert := 3, stream := x.stream,
                      succ := [], parent := x.parent, part := x.part, driver := x.driver, tmpl := x.tmpl, regions := x.regions, cookie := x.cookie }
    (s.launchNow p x).1 = instOf p q ∧
    ((s.launchNow p x).2.pkg p).seq = q ∧
    tfind ((s.launchNow p x).2.pkg p).records ix = some (if deps = 0 then { r with st := .ready, deps := 0 } else r) ∧
    (deps = 0 → tget [] ((s.launchNow p x).2.pkg p).fifos x.prio = tget [] k.fifos x.prio ++ [ix]) ∧
    (deps ≠ 0 → ((s.launchNow p x).2.pkg p).fifos = k.fifos)

/-- R289: a message of 64 bytes joins its mailbox while that holds fewer than 256; one that finds it full sets OVF, any other write is dropped, each with a
record; and OVF is W1C. R351: the host's TAIL moves a ring on. -/
def Claims.Mailboxes : Prop :=
  (∀ p page bytes (s : State), (s.pkg p).ringReady = true → page ≤ 8 →
    (bytes.length = 64 → (tget [] (s.pkg p).mbox page).length < 256 →
      exec (.mboxMsg p page bytes) s = .next (s.modPkg p (fun k => { k with mbox := tput k.mbox page (tget [] k.mbox page ++ [bytes]) }))) ∧
    (bytes.length = 64 → 256 ≤ (tget [] (s.pkg p).mbox page).length →
      exec (.mboxMsg p page bytes) s = .next ((s.modPkg p (fun k => { k with mboxOvf := k.mboxOvf ||| ((1 : BitVec 9) <<< page) })).event p page
        (msgRec 0x0A (if page = 8 then 0xFF else page) 1 (dataAt [(32, leBytes 1 page)])))) ∧
    (bytes.length ≠ 64 → exec (.mboxMsg p page bytes) s = .next (s.event p page
      (msgRec 0x0A (if page = 8 then 0xFF else page) 0 (dataAt [(32, leBytes 1 page)]))))) ∧
  (∀ p page (v : Word) (s : State), (s.pkg p).ringReady = true → v.getLsbD 16 = true →
    exec (.mboxStatWrite p page v) s = .next (s.modPkg p (fun k => { k with mboxOvf := k.mboxOvf &&& ~~~ ((1 : BitVec 9) <<< page) }))) ∧
  (∀ p page v (s : State), page ≤ 8 →
    exec (.evrTail p page v) s = .next (s.modPkg p (fun k => k.setRing page ((k.ring page).setTail v))))

/-- R15, R18, R19, R35, R261, R279, R283 to R286: TEAM_DISPATCH makes the head of the level that R285 picks a resident team, its record RUNNING on its
cores; a team of which every group has retired and nothing is outstanding completes: its record is DONE, its completion counts at each
successor, and its resources are free; a DONE record whose certification is final and awaited by no CERTW retires, as every home learns; a failed team's
resources are free once its operations have ended; and so are those of a team that MIRROR stopped, whose task is READY again.
Where the model chose, log entries 36, 83, 85 say how. -/
def Obligations.Lives : Prop :=
  (∀ p core slot ctx (s : State) h ix r, (s.pkg p).pickLevel = some h → (s.pkg p).headOf h = some (ix, r) → r.ctx = none →
    (s.pkg p).canDispatch r core = true → (s.pkg p).slotFree core slot = true → (r.tmpl.pair = true → (s.pkg p).slotFree (core + 1) slot = true) →
    tfind (s.pkg p).teams ctx = none → ctx < 2 ^ 20 → (s.pkg p).ringReady = true →
    let cs := r.tmpl.coresAt core
    let s1 := s.putRec p ix { (r.addCores cs) with st := .running, cert := 0, ctx := some ctx, mirrorCore := none }
    let tm := newTeam r core slot ((s.pkg p).cycles s.clock) (r.tmpl.mirror || (s.pkg p).mirrorPolicy.getLsbD r.part)
    exec (.teamDispatch p core slot ctx) s = .next (cs.foldl (fun s c => (s.dropL1 p c).startSlice p c r.part)
      ((s1.modPkg p (fun k => { (k.dequeue h ix) with teams := tput k.teams ctx tm })).modPkg p (fun k => k.countDispatch h)))) ∧
  (∀ p ctx (s : State) t ix r, s.team? p ctx = some t → t.stop = none →
    (∀ g, g < t.tmpl.groups → (t.group g).retired = true ∧ (t.group g).rwCount = 0) → (s.pkg p).engineBusy ctx t = false → t.cpymHold = 0 →
    (s.pkg p).records.find? (fun e => e.2.inst == t.inst && e.2.st != .free) = some (ix, r) →
    let s1 := (s.putRec p ix { r with st := .done, tdone := (s.pkg p).cycles s.clock, cert := 0, ctx := none }).modPkg p (fun k => k.dequeue r.prio ix)
    exec (.taskComplete p ctx) s = .next ((r.succ.foldl (fun s i => s.applyDep p i) (s1.freeCtx p ctx t.inst)).certify p)) ∧
  (∀ p inst (s : State) r, (s.pkg p).rec? inst = some r → r.st = .done → r.cert = 1 ∨ r.cert = 2 → (∀ w ∈ (s.pkg p).certWaits, w.inst ≠ inst) →
    exec (.recordRetire p inst) s = .next (((s.modRec p inst (fun r => { r with st := .free })).retireAt p inst).modPkg p
      (fun k => k.sendAll p (.retire inst)))) ∧
  (∀ p ctx (s : State) t, s.team? p ctx = some t → (s.pkg p).engineBusy ctx t = false → t.cpymHold = 0 →
    (t.stop = some .failed →
      exec (.teamResourcesFree p ctx) s = .next ((s.modRec p t.inst (fun r => r.leave ctx)).freeStopped p ctx t)) ∧
    (t.stop = some .mirror → ∀ ix,
      (((s.modRec p t.inst (fun r => r.leave ctx)).freeStopped p ctx { t with stop := some .failed }).pkg p).findRec t.inst = some ix →
      exec (.mirrorRedispatch p ctx) s = .next
        (((s.modRec p t.inst (fun r => r.leave ctx)).freeStopped p ctx { t with stop := some .failed }).makeReady p ix)))

/-- R16 to R24, R80, R90, R136: what an idle port picks and how its entry starts, and what a lane and a group do by themselves.
Where the model chose, log entry 14 says how. -/
def Obligations.PortAndLaneEvents : Prop := Claims.PortPicks ∧ Claims.LaneEvents

/-- R276 to R291, R351: mailbox messages that launch or fire, the launches that are made, and the mailboxes themselves.
Where the model chose, log entries 13, 26, 27 say how. -/
def Obligations.LaunchesAndMailboxes : Prop := Claims.Launches ∧ Claims.LaunchMakes ∧ Claims.Mailboxes

/-! ### Events: the driver -/

namespace Sys2Proof.Machine

/-- A command at the head of the FIFO leaves it and ends with CMD_DONE: `s` is what its effect has given (R350, R380). -/
def Claims.ended (s : State) (p : Nat) (c : List Byte) (status : Nat) : State :=
  (s.modPkg p Package.cmdPop).event p 8 (cmdDone (cmdOp c) status (cmdCookie c))

end Sys2Proof.Machine

/-- R350, R278, R279: CANCEL fails a WAITING or READY task, FREE retires a FAILED record, and either refuses a record in another state with status 1; PREEMPT asks a
core for a pre-emption; SLICE sets a partition's time slice; DEAD declares a cell dead; SCRUB writes a poisoned line, which is in I from then on; DBGHALT
sets a partition's debug halt or ends it; an OP that is not assigned is refused with status 1; and the overflow bit of CMD.STAT is W1C. -/
def Claims.DriverCommands : Prop :=
  (∀ p (s : State) c ix r, (s.pkg p).cmdHead 1 = some c → (s.pkg p).recOf (cmdArg0 c) = some (ix, r) →
    (r.st = .waiting ∨ r.st = .ready → exec (.cancel p) s = .next (Claims.ended (((s.putRec p ix { r with st := .failed, fcode := 0 }).modPkg p
      (fun k => k.dequeue r.prio ix)).checkCerts p) p c 0)) ∧
    (r.st ≠ .waiting → r.st ≠ .ready → exec (.cancel p) s = .next (Claims.ended s p c 1))) ∧
  (∀ p (s : State) c ix r, (s.pkg p).cmdHead 2 = some c → (s.pkg p).recOf (cmdArg0 c) = some (ix, r) →
    (r.st = .failed → exec (.free p) s = .next (Claims.ended ((((s.putRec p ix { r with st := .free }).retireAt p r.inst).modPkg p
      (fun k => k.sendAll p (.retire r.inst))).checkCerts p) p c 0)) ∧
    (r.st ≠ .failed → exec (.free p) s = .next (Claims.ended s p c 1))) ∧
  (∀ p (s : State) c, (s.pkg p).cmdHead 3 = some c → cmdArg0 c % 512 < 384 →
    exec (.preempt p) s = .next (Claims.ended (s.modCore p (cmdArg0 c % 512) (fun x => { x with preempt := true })) p c 0)) ∧
  (∀ p (s : State) c, (s.pkg p).cmdHead 4 = some c → cmdPart c ≤ 7 →
    exec (.slice p) s = .next (Claims.ended (s.modPkg p (fun k => { k with slice := tput k.slice (cmdPart c) (cmdArg0 c) })) p c 0)) ∧
  (∀ p (s : State) c, (s.pkg p).cmdHead 7 = some c → (s.pkg p).cellMembers (cmdArg0 c % 64) ≠ [] →
    exec (.dead p) s = .next (Claims.ended (s.declareDead p (cmdArg0 c % 64) 1) p c 0)) ∧
  (∀ p host (s : State) c, (s.pkg p).cmdHead 8 = some c → cmdArg0 c % 128 = 0 → cmdArg0 c < 2 ^ 52 → homeOf (cmdArg0 c) = p →
    s.poisoned (cmdArg0 c) = true →
    exec (.scrub p host) s = .next (Claims.ended ((s.setDir (cmdArg0 c) ⟨0, 0, 0, .i, 0⟩).writeLine (cmdArg0 c) (padTo 128 host)) p c 0)) ∧
  (∀ p (s : State) c, (s.pkg p).cmdHead 9 = some c → cmdPart c ≤ 7 →
    let bit : BitVec 8 := (1 : BitVec 8) <<< cmdPart c
    exec (.dbghalt p) s = .next (Claims.ended (s.modPkg p (fun k =>
      { k with dbgh := if cmdArg0 c % 2 = 1 then k.dbgh ||| bit else k.dbgh &&& ~~~ bit })) p c 0)) ∧
  (∀ p (s : State) c cs, (s.pkg p).cmdFifo = c :: cs → cmdOp c = 0 ∨ 11 < cmdOp c →
    exec (.cmdBadOp p) s = .next (Claims.ended s p c 1)) ∧
  (∀ p (v : Word) (s : State), v.getLsbD 16 = true →
    exec (.cmdStatWrite p v) s = .next (s.modPkg p (fun k => { k with cmdOvf := false })))

/-- R74, R197, R263, R264, R311, R350: MIGRATE begins to lock the lines of its page, setting L on each line that has no copy left and recalling the
others first; once every line is locked the command leaves the FIFO, and it ends at the switch; ENDFWD ends the forwarding of an old page;
OBJDEL unlinks every place of an object, reports its holder, and wakes the TKWAITs parked on it; DBGCONT lets the halted lanes of a group go on,
each as a return to tx.pc does, and parked where a page is absent. -/
def Claims.DriverObjects : Prop :=
  (∀ p (s : State) c, (s.pkg p).cmdHead 5 = some c →
    let begun : Migr → Bool := fun m => !m.switched && m.old == cmdArg0 c && m.new == cmdArg1 c && m.locking
    ((s.pkg p).migrates p (cmdArg0 c) (cmdArg1 c) = true ∨ (s.pkg p).migr.any begun = true) →
    let s1 := if (s.pkg p).migr.any begun then s
      else s.modPkg p (fun k => { k with migr := k.migr ++ [⟨cmdArg0 c, cmdArg1 c, false, cmdCookie c, [], true⟩] })
    let s2 := (pageLines (cmdArg0 c)).foldl (fun s a => s.lockLine a) s1
    ((∀ a ∈ pageLines (cmdArg0 c), (s2.pkg p).lineStill a = true) → exec (.migrate p) s = .next (s2.modPkg p (fun k =>
      { k.cmdPop with migr := k.migr.map (fun m => { m with locking := false }) }))) ∧
    ((∃ a ∈ pageLines (cmdArg0 c), (s2.pkg p).lineStill a = false) → exec (.migrate p) s = .next s2)) ∧
  (∀ (s : State) a,
    (s.poisoned a = true ∨ s.locked a = true → s.lockLine a = s) ∧
    (s.poisoned a = false → s.locked a = false →
      ((s.pkg (homeOf a)).avail (llineOf a) true = true → s.lockLine a = s.setDir a ⟨0, 0, 0, .l, (s.dirOf a).dies⟩) ∧
      ((s.pkg (homeOf a)).avail (llineOf a) true = false → s.lockLine a = s.openWant ⟨a, true, 0⟩))) ∧
  (∀ p (s : State) c, (s.pkg p).cmdHead 6 = some c → (∃ m ∈ (s.pkg p).migr, m.switched = true ∧ m.old = cmdArg0 c) →
    exec (.endfwd p) s = .next (Claims.ended (s.modPkg p (fun k => { k with migr := k.migr.filter (fun m => m.old != cmdArg0 c) })) p c 0)) ∧
  (∀ p (s : State) c (o : Obj), (s.pkg p).cmdHead 10 = some c →
    let h : DWord := BitVec.ofNat 64 (cmdArg0 c)
    hBooth h ≤ 5 → tfind (s.die p (hBooth h)).objs (hObj h) = some o → o.live = true → o.gen = hGen h → hSeq h = 0 → o.part = cmdPart c →
    exec (.objdel p) s = .next (Claims.ended (((o.places.filter (fun x => x.holder)).foldl (fun s x => s.reportRemoved p (hBooth h) (hObj h) o x)
      (s.modDie p (hBooth h) (fun d => { d with objs := tput d.objs (hObj h) { o with places := [], live := false, skipping := false } }))).modPkg p
        (fun k => k.wakeObj (hBooth h) (hObj h))) p c 0)) ∧
  (∀ p (s : State) c ctx (t : Team), (s.pkg p).cmdHead 11 = some c →
    (s.pkg p).teams.find? (fun t => t.2.inst.toNat == cmdArg0 c && t.2.stop.isNone) = some (ctx, t) → t.place ≠ none →
    cmdArg1 c % 32 < t.tmpl.groups → t.haltedLanes (cmdArg1 c % 32) ≠ [] →
    exec (.dbgcont p) s = .next (Claims.ended ((t.haltedLanes (cmdArg1 c % 32)).foldl (fun s l =>
      if ((s.team? p ctx).bind (fun t => t.stop)).isSome then s else s.unhalt p ctx (cmdArg1 c % 32) l) s) p c 0)) ∧
  (∀ p ctx g l (s : State) (t : Team) (s1 : State), s.team? p ctx = some t →
    let x := t.thread g l
    (∀ cl, s.resumeAt p ctx (dieOf (t.coreOf g)) x.txPc x.txPc = (.at cl, s1) →
      s.unhalt p ctx g l = ((s1.modThread p ctx g l (fun x => { x with st := .runnable })).moveLane p ctx g l (x.txPc.setWidth 57) cl).modTeam p ctx
        (fun t => t.sweepEnts g)) ∧
    (∀ va t1, s.resumeAt p ctx (dieOf (t.coreOf g)) x.txPc x.txPc = (.bad .page va, s1) → s1.team? p ctx = some t1 →
      ((s.unhalt p ctx g l).thread p ctx g l).st = .cont va 4))

/-! ### Events: pre-emption, the Wheel and the Barker, page faults -/

/-- R295 to R299, R306: at the end of its time slice a core is asked for a pre-emption; the switch takes every resident team off its cores, at the same
program counters, as soon as their inactive banks are free; a load that waits for another package goes on to the team's Booth slot; the spill writes a team's context record and completes it; and the pre-empted head of the level that R285
picks goes on at a core that can hold it, FLAGS[4] of its record set where its own bank still stands. -/
def Claims.PreemptionEvents : Prop :=
  (∀ p core (s : State) t, (s.core p core).sliceEnd = some t → t ≤ s.time →
    exec (.sliceExpiry p core) s = .next (s.modCore p core (fun x => { x with preempt := true, sliceEnd := none }))) ∧
  (∀ p core (s : State), (s.core p core).preempt = true → (s.pkg p).maySwitch core = true →
    exec (.preemptSwitch p core) s = .next (s.switchOut p core)) ∧
  (∀ p ctx (s : State) t, s.team? p ctx = some t → (∀ e ∈ (s.pkg p).reqs, e.2.ctx = ctx → e.2.op = none) →
    ∃ b, (s.leaveCore p ctx).team? p ctx = some b ∧ b.place = none ∧ b.last = t.coreOf 0 ∧ b.switchedAt = (s.pkg p).cycles s.clock ∧
      b.recDone = false ∧ ∀ g l, b.thread g l = t.thread g l ∧ (b.group g).portA = none ∧ (b.group g).portB = none ∧ (b.group g).pickA = none) ∧
  (∀ p ctx g l ea (s : State) t (r : Req) sz spec d parts, s.team? p ctx = some t → t.mirror = false → r.lanes = [(l, ea)] →
    (∀ b ∈ parts, homeOf b.1 = p) →
    (s.redirect p ctx g l r (.ld sz spec d) parts).thread p ctx g l = { t.thread g l with
      pc := r.pc + 8, wait := some 0, parkDue := r.park, specFail := false, defCount := (t.thread g l).defCount + 1,
      pend := (t.thread g l).pend ++ [⟨d.toNat, false, sz.regs, [], false, 0, r.pc, false, (t.thread g l).undo, none⟩] }) ∧
  (∀ p ctx (s : State) t a, s.team? p ctx = some t → t.place = none → t.recDone = false → t.stop = none → s.bankWritten p ctx t = false →
    (s.pkg p).recPlace ctx t.recMap.size = some a →
    exec (.contextSpill p ctx) s = .next (({ s with mem := s.mem.put a (s.recBytes p ctx t false) } : State).modTeam p ctx
      (fun t => { t with recDone := true, recAddr := a }))) ∧
  (∀ p ctx core slot (s : State) t h ix r, (s.pkg p).pickLevel = some h → (s.pkg p).headOf h = some (ix, r) → s.team? p ctx = some t →
    r.ctx = some ctx → (s.pkg p).canResume ctx t core = true → (s.pkg p).slotFree core slot = true → t.tmpl.pair = false →
    (s.pkg p).ringReady = true → t.recDone = true →
    let own := (s.core p core).inactive.contains ctx && !(s.core p core).overwritten
    let s1 := ((s.putRec p ix (r.addCores [core])).modPkg p (fun k => k.dequeue h ix)).modPkg p (fun k => k.countDispatch h)
    let s2 := s1.setTeam p ctx { (t.fillHalted s1.mem) with place := some (core, slot), early := own }
    let s2 : State := if own then { s2 with mem := s2.mem.put t.recAddr (t.recHeader ctx true true) } else s2
    let s3 := ((s2.modCore p core (fun x => if own then x else { x with overwritten := true })).dropL1 p core).startSlice p core t.part
    exec (.teamResume p ctx core slot) s = .next ((((s3.modPkg p (fun k =>
      { k with cores := tmap (fun _ x => { x with inactive := x.inactive.filter (fun y => y != ctx) }) k.cores })).wakeResumed p ctx).mergeLate
        p ctx).enterCopies p))

/-- R279, R353, R355, R369: window k of a die's rotation of 1,280 µs is that of its core k: it takes the teams of a core that may be switched off it and
starts the scan, or waits for the core's bank; a scan runs for 18 µs; one that passes moves the core's horizon to the
clock at which it began; one that fails takes the core out of dispatch, and its records name the instances it may have spoilt; either way
certifications follow; and a core whose teams have had no sink event for BARK.INT is reported as hung, once an interval. -/
def Claims.WheelEvents : Prop :=
  (∀ p core (s : State), core < 384 → (s.pkg p).sdReady.getLsbD (16 + dieOf core) = true → (s.core p core).outOfDispatch = false →
    (s.core p core).scanning = none →
    (s.time + 1280000 - s.wheelOf p core) % 1280000 = 20000 * (core % 64) ∨ (s.core p core).windowLate = true →
    let s1 := s.modDie p (dieOf core) (fun d => { d with wheel := some (s.wheelOf p core) })
    ((s.pkg p).maySwitch core = true →
      exec (.wheelWindow p core) s = .next ((s1.switchOut p core).modCore p core (fun x =>
        { x with windowLate := false, scanning := some ((s.pkg p).cycles s.clock, s.time) }))) ∧
    ((s.pkg p).maySwitch core = false →
      exec (.wheelWindow p core) s = .next (s1.modCore p core (fun x => { x with windowLate := true })))) ∧
  (∀ p core (s : State), (s.core p core).windowLate = false →
    (s.time + 1280000 - s.wheelOf p core) % 1280000 ≠ 20000 * (core % 64) → exec (.wheelWindow p core) s = .next s) ∧
  (∀ p core (s : State) t t0, (s.core p core).scanning = some (t, t0) →
    (s.time < t0 + 18000 → exec (.scanPass p core) s = .next s ∧ exec (.scanFail p core) s = .next s) ∧
    (t0 + 18000 ≤ s.time →
      exec (.scanPass p core) s = .next ((s.modCore p core (fun x => { x with scanning := none, horizon := t, scans := sat 64 x.scans })).certify p) ∧
      exec (.scanFail p core) s = .next (((scanFailRecs core (((s.pkg p).spoilt core).length / 4 + 1) ((s.pkg p).spoilt core)).foldl
        (fun s r => s.event p 8 r) (s.modCore p core (fun x => { x with scanning := none, outOfDispatch := true }))).certify p))) ∧
  (∀ p core (s : State), (s.pkg p).residentOn core ≠ [] → (s.pkg p).barkInt ≠ 0 →
    (s.core p core).lastSink + (s.pkg p).barkInt.toNat * 1000 ≤ s.time → (∀ t ∈ (s.pkg p).residentOn core, t.2.haltedOn core = false) →
    let named := ((s.pkg p).residentOn core).take 6
    exec (.barkerTimeout p core) s = .next ((s.event p 8 { pkgRec 0x13 named.length (named.flatMap (fun t => leBytes 5 t.2.inst.toNat)) with
      core := core }).modCore p core (fun x => { x with lastSink := s.time, hangs := sat 64 x.hangs })))

/-- R294: the driver's answer to a pending fault is answered for every party: ACTION 0 lets each lane parked on the page run again at its instruction and each command go
on; ACTION 1 gives each such lane PERM at its instruction, or at tx.pc where its halt had ended, and ends each command; an answer with a reserved ACTION is dropped, with a record.
Where the model chose, log entry 55 says how. -/
def Obligations.FaultAnswers : Prop :=
  (∀ p resp (s : State), respAction resp = 0 → (s.pkg p).matches resp = true →
    (∀ x ∈ (s.pkg p).parked resp, (s.thread p x.1 x.2.1 x.2.2.1).st.continues = false) →
    ∃ t, exec (.faultReplay p resp) s = .next t ∧ t.mem = s.mem ∧ (t.pkg p).matches resp = false) ∧
  (∀ p resp (s : State) ctx tm g l va kind, respAction resp = 0 → (s.pkg p).matches resp = true → (s.pkg p).parked resp = [(ctx, g, l, va)] →
    s.team? p ctx = some tm → tm.part = respPart resp → (tm.thread g l).st = .page va kind →
    ∃ t b, exec (.faultReplay p resp) s = .next t ∧ t.team? p ctx = some b ∧ b.thread g l = { tm.thread g l with st := .runnable }) ∧
  (∀ p resp (s : State) ctx tm g l va, respAction resp = 1 → (s.pkg p).matches resp = true → (s.pkg p).parked resp = [(ctx, g, l, va)] →
    s.team? p ctx = some tm → tm.stop = none →
    let pc : DWord := if (tm.thread g l).st.continues then (tm.thread g l).txPc else (tm.thread g l).pc.setWidth 64
    let s1 := (s.modPkg p (fun k => k.answerFaults resp)).modThread p ctx g l (fun t => { t with st := .runnable })
    let s2 := (s1.trap p ctx g l ⟨0x06, pc, some va, some 0x30⟩).modTeam p ctx (fun t => t.sweepEnts g)
    (∀ e ∈ (s2.pkg p).teams, e.2.part = respPart resp → ∀ x ∈ e.2.copies, x.page.any (onPage resp) = false) →
    (∀ c ∈ (s2.pkg p).colls, c.part = respPart resp → c.page.any (onPage resp) = false) →
    exec (.faultFail p resp) s = .next s2) ∧
  (∀ p resp (s : State), 2 ≤ respAction resp →
    exec (.faultResponseReserved p resp) s = .next (s.event p 8 (pkgRec 0x15 1 (dataAt [(32, leBytes 8 resp.toNat)]))))

/-- R74, R197, R263, R264, R278, R279, R311, R350: the commands of the driver ring.
Where the model chose, log entries 67, 68, 86 say how. -/
def Obligations.DriverCommandsAndObjects : Prop := Claims.DriverCommands ∧ Claims.DriverObjects

/-- R279, R295 to R299, R353, R355, R369: pre-emption and its end, the diagnostic windows, and the hang alarm.
Where the model chose, log entries 32, 65, 66, 74, 75 say how. -/
def Obligations.PreemptionAndWheelEvents : Prop := Claims.PreemptionEvents ∧ Claims.WheelEvents

/-! ### Events: the engines -/

/-- R71, R210, R212, R222 to R224, R237: room in an engine lets re-issues in and an entered copy command of a resident team starts; a unit of its destination that has not
landed yet lands, whichever it is, within a scratchpad as bytes and a credit of them; a command that has moved all it has to, and whose lines are all answered, credits
what it has not, and ends, with its completion record where CW is not 0; the head of a matrix queue starts, one with a start check by that check; a vocabulary command that
has started takes its next unit; and a head that has started completes. Where the model chose, log entries 23, 53, 54 say how. -/
def Obligations.EngineEvents : Prop :=
  (∀ p ctx k (s : State) t, (s.enterCopies p).team? p ctx = some t → t.place ≠ none →
    exec (.copyStart p ctx k) s = .next ((s.enterCopies p).setTeam p ctx (t.modCopy k (fun x => if x.entered then { x with started := true } else x)))) ∧
  (∀ p ctx k u (s : State) t x, s.team? p ctx = some t → t.copies.find? (fun x => x.id == k) = some x → x.active = true → x.hasMoved u = false →
    copyRow u < (cdesc x.desc).rows →
    ((cdesc x.desc).sfmt = 0 → exec (.copyPieceWritten p ctx k u) s = .next (s.moveBytes p ctx t x (cdesc x.desc) u)) ∧
    ((cdesc x.desc).sfmt ≠ 0 → exec (.copyPieceWritten p ctx k u) s = .next (s.moveElem p ctx t x (cdesc x.desc) u))) ∧
  (∀ p ctx (s : State) t (x : Copy) u, s.team? p ctx = some t → x.kind = .cpy → (cdesc x.desc).dir = 3 → x.read = [] →
    let odd := t.onOdd x.group
    let d := cdesc x.desc
    let r := chunkSpan 16 1 (d.dstRow (copyRow u * d.xn)) d.xn (copyChunk u)
    let a := (d.srcRow (copyRow u * d.xn) + r.1) % 2 ^ 64
    let b := (d.dstRow (copyRow u * d.xn) + r.1) % 2 ^ 64
    r.2 ≠ 0 → r.2 ≤ 16 →
    s.moveBytes p ctx t x d u = ((s.setTeam p ctx (t.setScr odd ((t.scr odd).put b ((t.scr odd).bytes a r.2)))).unitDone p ctx x u r.2)) ∧
  (∀ p ctx k (s s1 : State) t x x1, s.team? p ctx = some t → t.copies.find? (fun x => x.id == k) = some x → x.started = true → x.page = none →
    x.lines = 0 → x.size ≤ x.pos → (cdesc x.desc).sfmt = 0 →
    s1 = s.creditPiece p ctx k (if x.ending then 0 else (cdesc x.desc).total - x.credited) →
    (s1.team? p ctx).bind (fun t => t.copies.find? (fun x => x.id == k)) = some x1 →
    ((cdesc x1.desc).cw = 0 → exec (.copyEnd p ctx k) s = .next (s1.copyFinish p ctx t x1 none)) ∧
    ((cdesc x1.desc).cw ≠ 0 → ∀ r, s1.writeRecord p (x1.who t) (some x1.die) (cdesc x1.desc).cw x1.written x1.outcome.1 x1.outcome.2.2.toNat
      x1.outcome.2.1.toNat = (none, r) → exec (.copyEnd p ctx k) s = .next (r.copyFinish p ctx t x1 none))) ∧
  (∀ p ctx odd (s : State) t m ms, s.team? p ctx = some t → t.place ≠ none → t.stop = none → (t.eng odd).mq = m :: ms → m.suspended = false →
    let s1 := s.modHead p ctx odd (fun m => { m with started := true })
    (m.started = false → m.op ≠ 0 →
      (m.op = 1 ∨ m.op = 2 → exec (.matrixCmdStart p ctx odd) s = .next (s1.startMml p ctx odd t m)) ∧
      (3 ≤ m.op → m.op < 0x0B → exec (.matrixCmdStart p ctx odd) s = .next s1) ∧
      (0x0B ≤ m.op → exec (.matrixCmdStart p ctx odd) s = .next (s1.startVocab p ctx odd t m))) ∧
    (m.started = true → m.prog < m.units → exec (.matrixCmdStart p ctx odd) s = .next (s.stepUnit p ctx odd t m)) ∧
    (m.started = true → m.op < 0x0B → exec (.matrixCmdComplete p ctx odd) s = .next (s.runMatrix p ctx odd t m)) ∧
    (m.started = true → 0x0B ≤ m.op → m.units = m.prog → exec (.matrixCmdComplete p ctx odd) s = .next (s.endVocab p ctx odd m)))

/-! ### Events: what arrives over the fabric -/

namespace Sys2Proof.Machine

/-- A flit arrives: the link is one of the 128, connected in the slot of fabric time, the flit is the next one on its way to this end, its FCRC agrees, it passes the
other checks of R335, and its link sequence number is the expected one (R337). -/
structure Claims.Arrives (s : State) (p i : Nat) (f : Flit) (fs : List Flit) : Prop where
  link : i < 128
  conn : ((s.pkg p).link i).conn = true
  slot : (s.pkg p).slotNo = s.slot
  wire : ((s.pkg p).link i).wire = f :: fs
  crc : f.intact ((s.pkg p).link i).ruse = true
  proto : f.protocol p = none
  seq : f.sequenced = true
  next : f.lseq = ((s.pkg p).link i).rxSeq

/-- The link has taken it: its source has been heard, LACK and credits count, the next number is expected, and a credit of its channel is owed (R336 to
R338, R341). -/
def Claims.arrived (s : State) (p i : Nat) (f : Flit) (fs : List Flit) : State :=
  let s1 := ((s.modLink p i (fun x => { x with wire := fs })).modPkg p (fun k => { k with heard := tput k.heard f.src s.time })).checkFirst p i f
  (s1.modLink p i (fun x =>
    { x.acked f.lack s1.time with credits := tput x.credits f.crch (tget 0 x.credits f.crch + f.crinc) })).modLink p i (fun x => { x with
      rxSeq := (x.rxSeq + 1) % 4096, dropping := false, owed := tput x.owed f.ch (tget 0 x.owed f.ch + 1), dueIdle := true })

/-- A flit arrives for this package from a live source, for the first time (R325, R327). -/
structure Claims.First (s : State) (p i : Nat) (f : Flit) (fs : List Flit) : Prop extends Claims.Arrives s p i f fs where
  own : f.dst = p
  live : ((Claims.arrived s p i f fs).pkg p).dead f.src = false
  new : (((Claims.arrived s p i f fs).pkg p).e2e? f.src).seen f.eseq = false

/-- Its end-to-end number has arrived; responses that the source has taken by now are no longer held for it (R325). -/
def Claims.noted (s : State) (p i : Nat) (f : Flit) (fs : List Flit) : State :=
  let s1 := Claims.arrived s p i f fs
  s1.modPkg p (fun k => { k with e2e := tput k.e2e f.src { ((s1.pkg p).e2e? f.src).mark f.eseq with
    held := ((s1.pkg p).e2e? f.src).held.filter (fun r => !((s1.pkg f.src).e2e? p).seen r.eseq) } })

/-- It has been performed; flits of the pair that waited for it follow (R344). -/
def Claims.follow (s : State) (p i : Nat) (f : Flit) (fs : List Flit) (x : State) : State :=
  (x.arrived f.src p f.eseq).performEarly (fun f s => s.performLine p f) ((((Claims.arrived s p i f fs).pkg p).e2e? f.src).early.length + 1) p f.src

/-- A flit about a line arrives, and none about that line which its source has sent before it is still missing (R344). -/
structure Claims.InTurn (s : State) (p i : Nat) (f : Flit) (fs : List Flit) : Prop extends Claims.First s p i f fs where
  line : f.body.line?.isSome = true
  turn : behind (((Claims.arrived s p i f fs).pkg f.src).e2e? p).sent f = false

/-- The request event of an operation. -/
def Claims.request (p i : Nat) : ReqOp → Instr
  | .gets => .gets p i
  | .getm => .getm p i
  | .wrh => .wrh p i
  | .red => .redReq p i
  | .wb => .wb p i
  | .eve => .eve p i

end Sys2Proof.Machine

/-- R316 to R318, R325, R344: a request that arrives in its turn reaches its line's home, and so do a recall at the member and its answer at the home; flits of the pair
that waited for it follow. One whose turn has not come waits. -/
def Claims.HomeEvents : Prop :=
  (∀ op p i (s : State) f fs, Claims.InTurn s p i f fs → f.body.reqOp? = some op →
    exec (Claims.request p i op) s = .next (Claims.follow s p i f fs ((Claims.noted s p i f fs).homeArrive p f))) ∧
  (∀ p i (s : State) f fs op a, Claims.InTurn s p i f fs → f.body = .snp op a →
    exec (.snp p i) s = .next (Claims.follow s p i f fs ((Claims.noted s p i f fs).snooped p f.src op a))) ∧
  (∀ p i (s : State) f fs a held dirty data, Claims.InTurn s p i f fs → f.body = .snpr a held dirty data →
    exec (.snpr p i) s = .next (Claims.follow s p i f fs ((Claims.noted s p i f fs).answerTxn p f.src a dirty data))) ∧
  (∀ op p i (s : State) f fs, Claims.First s p i f fs → f.body.reqOp? = some op →
    behind (((Claims.arrived s p i f fs).pkg f.src).e2e? p).sent f = true →
    exec (Claims.request p i op) s = .next ((Claims.noted s p i f fs).modPkg p (fun k => { k with e2e := tput k.e2e f.src { k.e2e? f.src with
      early := (k.e2e? f.src).early ++ [f] } })))

/-- R74, R316, R317, R320, R326, R329: what a home makes of a request as it arrives. A WB of an owner puts its data into memory and the line into I, and an EVE of an
exclusive one puts it into I. One that the Turnstile does not admit at that point is refused. Else it waits behind a transaction that is open on its line. One to a line in P
is answered with POISON, and a write of a locked line is held. At a line that no package holds, WRH writes its bytes, GETM makes the requester the owner, GETS gives an
exclusive copy where no die of the home holds the line and the requester's cell may write, else a read copy, and all are answered. -/
def Claims.HomeService : Prop :=
  ∀ (s : State) h (f : Flit) op a arg mask key keyed vals d, f.body = .req op a arg mask key keyed vals d → homeOf a = h →
    let k := s.pkg h
    let ll := llineOf a
    let e := k.dirAt ll
    let c := k.cell f.src
    (op = .wb → e.st = .m ∨ e.st = .e → s.homeArrive h f = ({ s with mem := s.mem.put (a / 128 * 128) d } : State).modPkg h (fun k =>
      k.setDir ll ⟨0, 0, 0, .i, e.dies⟩)) ∧
    (op = .eve → e.st = .e → s.homeArrive h f = s.modPkg h (fun k => k.setDir ll ⟨0, 0, 0, .i, e.dies⟩)) ∧
    (op ≠ .wb → op ≠ .eve →
      (k.admits a c op = false → s.homeArrive h f = s.respond f .refused 0 []) ∧
      (k.admits a c op = true → (tfind k.txns ll).isSome = true →
        s.homeArrive h f = s.modPkg h (fun k => { k with lineq := tput k.lineq ll (tget [] k.lineq ll ++ [f]) })) ∧
      (k.admits a c op = true → (tfind k.txns ll).isSome = false → s.forward a = a → k.walks.filter (fun w => w.1 == ll) = [] →
        (e.st = .p → s.homeArrive h f = s.respond f .poison 0 []) ∧
        (e.st = .l → op ≠ .gets → s.homeArrive h f = (s.modPkg h (fun k => { k with migr := k.migr.map (fun m =>
          if m.old / 65536 == a / 65536 then { m with held := m.held ++ [f] } else m) })).respond f .hold 0 []) ∧
        (e.st = .i → e.cells = 0 →
          (op = .wrh → s.homeArrive h f = (((s.modPkg h (fun k => k.setDir ll ⟨0, 0, 0, .i, 0⟩)).writeMask a mask d).wakeLine (lineOf a) 0).respond f .ack
            0 []) ∧
          (op = .getm → k.dirFull ll = false → f.src ≠ h → s.homeArrive h f = ((s.modPkg h (fun k => (k.dropL1Line (lineOf a)).setDir ll
            ⟨cellBit c, c, k.indexOf f.src, .m, 0⟩)).wakeAt h (lineOf a) 1).respond f .data 2 (s.homeLine a)) ∧
          (op = .gets → k.dirFull ll = false → f.src ≠ h → s.homeArrive h f =
            (if e.dies = 0 ∧ (tget 0 k.turn (localOf a / 2 ^ 21)).getLsbD (64 + c) = true then
              (s.modPkg h (fun k => k.setDir ll ⟨cellBit c, c, k.indexOf f.src, .e, 0⟩)).respond f .data 1 (s.homeLine a)
            else (s.modPkg h (fun k => k.setDir ll { e with st := .s, cells := cellBit c })).respond f .data 0 (s.homeLine a))))))

/-- R72, R165, R184, R203, R205, R227, R234, R288, R320, R322, R323, R326, R327, R329, R345: what a package makes of a response, a contribution, an abort token or a message that
arrives for it the first time; and what it makes of a request that has waited too long. -/
def Claims.ArrivalEvents : Prop :=
  (∀ p i (s : State) f fs re a grant data, Claims.InTurn s p i f fs →
    let n := Claims.noted s p i f fs
    let after (x : State) : Host.Outcome State Fault Refusal := .next (Claims.follow s p i f fs x)
    ((n.pkg p).findReq f.src re = none → homeOf a ≠ p → f.body = .rsp .data re a grant data →
      exec (.rspData p i) s = after (n.giveBack p (homeOf a) a grant data)) ∧
    (∀ key r, (n.pkg p).findReq f.src re = some (key, r) →
      (f.body = .rsp .data re a grant data →
        exec (.rspData p i) s = after (((n.modPkg p (fun k => k.install p a grant data)).dropReq p key).lateLine p r.ctx a)) ∧
      (f.body = .rsp .ack re a grant data → exec (.rspAck p i) s = after (n.ackReq p key r)) ∧
      (f.body = .rsp .refused re a grant data → exec (.rspRefused p i) s = after (n.failReq p key r 0x09 0)) ∧
      (f.body = .rsp .poison re a grant data → exec (.rspPoison p i) s = after (n.failReq p key r 0x08 0)) ∧
      (f.body = .rsp .hold re a grant data → exec (.rspHold p i) s = after n))) ∧
  (∀ p i (s : State) f fs, Claims.First s p i f fs →
    let n := Claims.noted s p i f fs
    let after (x : State) : Host.Outcome State Fault Refusal := .next (x.arrived f.src p f.eseq)
    (∀ g m key step src chunk par data, f.body = .coll g m key step src chunk par data →
      exec (.collContribution p i) s = after (n.collRecv p f.body)) ∧
    (∀ g m src par, f.body = .hello g m src par → exec (.collContribution p i) s = after (n.collRecv p f.body)) ∧
    (∀ g m rank cause steps, f.body = .abort g m rank cause steps → exec (.collAbortToken p i) s = after (n.collRecv p f.body)) ∧
    (f.body = .heartbeat → exec (.heartbeat p i) s = after n) ∧
    (∀ c, f.body = .death c → exec (.deathNotice p i) s = after (n.declareDead p c 2)) ∧
    (∀ inst, f.body = .retire inst → exec (.retireNotice p i) s = after (n.retireAt p inst)) ∧
    (∀ m r, f.body = .launch m → msgMalformed none m = false →
      n.fire p (blkByte m 33 % 16) (if blkByte m 33 % 16 < 8 then blkByte m 33 % 16 else 8) true m = some r → exec (.taggedLaunchMsg p i) s = after r) ∧
    (∀ inst part id, f.body = .tdec inst part id →
      (∀ r, n.tdecAt p part inst = some r → exec (.tdecMsg p i) s = after (r.send p f.src (.answer id 1))) ∧
      (n.tdecAt p part inst = none → exec (.tdecMsg p i) s = after (n.send p f.src (.answer id 2)))) ∧
    (∀ inst part id r, f.body = .certw inst part id → (n.pkg p).rec? inst = some r → r.part = part →
      (∀ b, r.verdict = some b → exec (.certwMsg p i) s = after (n.send p f.src (.answer id (if b then 1 else 0)))) ∧
      (r.verdict = none → exec (.certwMsg p i) s = after (n.modPkg p (fun k =>
        { k with certWaits := k.certWaits ++ [⟨inst, .remote f.src id⟩] }))))) ∧
  (∀ p r (s : State) q, tfind (s.pkg p).reqs r = some q → s.expired p q = true →
    (q.kind = .load ∨ q.kind = .spec ∨ q.kind = .own ∨ q.kind = .pref → exec (.remoteReadTimeout p r) s = .next (s.failReq p r q 0x0A 0)) ∧
    (q.kind = .write → exec (.remoteWriteTimeout p r) s = .next (s.failWrite p r q 1)) ∧
    (∀ id, q.kind = .cpyx id → exec (.remoteWriteTimeout p r) s = .next (s.failLine p r q id 0x0A)))

/-- R232 to R234, R327: a collective with a member in a dead cell aborts; a queued one begins; one that runs makes its next move; and one of which every step is complete
ends, without a completion record where CW is 0; an aborted one ends once every member has stopped, with what the steps that every member completed have brought. -/
def Claims.CollectiveEvents : Prop :=
  (∀ p h (s : State) c, (s.pkg p).coll? h = some c → c.ended = false → c.page = none → c.st ≠ .aborted →
    (∀ q, c.members.find? (fun q => (s.pkg p).dead q) = some q →
      exec (.collExchange p h) s = .next (s.modPkg p (fun k => k.abortColls p 0x0A (fun c => c.members.idxOf q) (fun c => c.handle == h)))) ∧
    ((∀ q ∈ c.members, (s.pkg p).dead q = false) → c.st = .queued → exec (.collExchange p h) s = .next (s.collBegin p c)) ∧
    ((∀ q ∈ c.members, (s.pkg p).dead q = false) → c.st ≠ .queued → exec (.collExchange p h) s = .next (s.collMove p c)) ∧
    (c.st = .running → c.steps = c.total → c.cw = 0 → exec (.collEnd p h) s = .next (s.collFinish p c none)) ∧
    (c.st = .running → c.steps = c.total → c.cw ≠ 0 → ∀ r, s.writeRecord p c.who none c.cw (c.stepBase + c.steps) 0 0 c.faddr.toNat = (none, r) →
      exec (.collEnd p h) s = .next (r.collFinish p c none))) ∧
  (∀ p h (s : State) c, (s.pkg p).coll? h = some c → c.ended = false → c.page = none → c.st = .aborted → (∀ q ∈ c.members, s.collStopped p c q = true) →
    let c' : Coll := { c with got := c.got.filter (fun x => decide (x.1 < s.collCommon c)) }
    (c.cw = 0 → exec (.collEnd p h) s = .next (s.collFinish p c' none)) ∧
    (c.cw ≠ 0 → ∀ r, s.writeRecord p c.who none c.cw (c.stepBase + s.collCommon c) c.status (c.abortRank + 256 * c.cause) c.faddr.toNat = (none, r) →
      exec (.collEnd p h) s = .next (r.collFinish p c' none)))

/-- R74, R316 to R320, R325, R326, R329, R344: requests, recalls and their answers that arrive, and what a home makes of a request.
Where the model chose, log entries 17, 21 say how. -/
def Obligations.HomeEventsAndService : Prop := Claims.HomeEvents ∧ Claims.HomeService

/-- R72, R165, R205, R227, R232 to R234, R288, R320 to R329, R345: the other flits that arrive, requests that wait too long, and collectives at work.
Where the model chose, log entries 21, 57, 79 say how. -/
def Obligations.ArrivalAndCollectiveEvents : Prop := Claims.ArrivalEvents ∧ Claims.CollectiveEvents

/-! ### Events: the driver's hand in coherence -/

namespace Sys2Proof.Machine

/-- A line of a page at its switch (R74, R311): its bytes, or its poison, stand at the new copy, nothing of it is left at the old one, and the monitors on it
wake. -/
def Claims.moveLine (p : Nat) (m : Migr) (s : State) (a : Nat) : State :=
  let b := m.new / 65536 * 65536 + a % 65536
  let s1 := s.writeLine b (s.homeLine a)
  let s2 := if s.poisoned a then s1.setDir b ⟨0, 0, 0, .p, 0⟩ else s1
  (s2.modPkg p (fun k => (k.dropL1Line (lineOf a)).setDir (llineOf a) ⟨0, 0, 0, .i, 0⟩)).wakeLine (lineOf a) 1

end Sys2Proof.Machine

/-- R312, R319, R321, R327, R328, R311, R357, R365, R366: new masks of a region hold from the write on, and each grant that they no longer allow is revoked: the cells that may not
read lose their copies, and an owner that may not write gives its line back, a line of which no cell holds a copy at once; the region is done when all its lines agree with the
masks and no recalls are outstanding, with a record; a migration with no leaf locked, all lines of which are locked and shared with nobody, switches, and the held writes have their
turn at the new place; a cell table with at most four members in each cell is taken, DEAD being W1C, and another is refused with a record; before the fabric dies are ready neither
register takes a write; a member that has been silent for 2 ms has its cell declared dead; and the walk passes a line, which goes to P where the dead cell owned it.
Where the model chose, log entries 31, 63, 86 say how. -/
def Obligations.CoherenceEvents : Prop :=
  (∀ p region (v : BitVec 128) (s : State),
    let s1 := s.modPkg p (fun k => { k with turn := tput k.turn region v,
                                            revoking := if k.revoking.contains region then k.revoking else k.revoking ++ [region] })
    ((s.pkg p).fabReady = true → exec (.turnstileWrite p region v) s = .next (((s1.pkg p).regionLines region).foldl (fun s e => s.revokeLine p e.1) s1)) ∧
    ((s.pkg p).fabReady = false → exec (.turnstileWrite p region v) s = .next s)) ∧
  (∀ h ll (s : State), (s.pkg h).walks.filter (fun w => w.1 == ll) = [] → (tfind (s.pkg h).txns ll).isSome = false → ((s.pkg h).dirAt ll).st ≠ .p →
    let e := (s.pkg h).dirAt ll
    let v := tget (0 : BitVec 128) (s.pkg h).turn (ll * 128 / 2 ^ 21)
    let lost := e.cells &&& ~~~ (v.extractLsb' 0 64)
    let down := e.st.owned && !(v.getLsbD (64 + e.ownc) && v.getLsbD e.ownc)
    let asks := (s.pkg h).asks h (cellsOf lost) .inval ++ if down && !lost.getLsbD e.ownc then (s.pkg h).asks h [e.ownc] .clean else []
    (lost = 0 → down = false → s.revokeLine h ll = s) ∧
    (lost ≠ 0 ∨ down = true → asks ≠ [] → s.revokeLine h ll = s.openTxn h ll (.revoke lost down) asks) ∧
    (lost ≠ 0 ∨ down = true → asks = [] → s.revokeLine h ll = s.revoked h ll lost down none)) ∧
  (∀ p region (s : State), (s.pkg p).revoking.contains region = true → (∀ x ∈ (s.pkg p).txns, x.1 * 128 / 2 ^ 21 ≠ region) →
    (∀ e ∈ (s.pkg p).regionLines region, (s.pkg p).dirAt e.1 = e.2 ∧ (s.pkg p).conforms e = true ∧ (s.pkg p).walks.filter (fun w => w.1 == e.1) = []) →
    exec (.turnstileDone p region) s = .next ((s.modPkg p (fun k => { k with revoking := k.revoking.filter (fun r => r != region) })).event p 8
      (pkgRec 0x0D 0 (dataAt [(32, leBytes 8 (region * 2 ^ 21))])))) ∧
  (∀ p page (s : State) m, (s.pkg p).migr.find? (fun m => !m.switched && !m.locking && m.old / 65536 == page) = some m → s.leafLocked m.old = false →
    (∀ a ∈ pageLines m.old, (s.pkg p).lineStill a = true ∧ ((s.pkg p).dirAt (llineOf a)).cells = 0) →
    exec (.migrationSwitch p page) s = .next ((m.held.foldl (fun s f => s.homeTurn p f)
      (((pageLines m.old).foldl (Claims.moveLine p m) s).modPkg p (fun k => { k with migr := k.migr.map (fun x =>
        if x.old = m.old then { x with switched := true, held := [] } else x) }))).event p 8
          (pkgRec 0x14 0 (dataAt [(32, leBytes 2 5), (56, leBytes 8 m.cookie.toNat)])))) ∧
  (∀ p off bytes (s : State),
    let tab := (bytes.zipIdx.filter (fun x => decide (off + x.2 < 256))).foldl (fun t x =>
      tput t (off + x.2) (cellWrite (tget 0 t (off + x.2)) x.1)) (s.pkg p).cellTab
    let k : Package := { s.pkg p with cellTab := tab }
    ((s.pkg p).fabReady = false → exec (.cellTableWrite p off bytes) s = .next s) ∧
    ((s.pkg p).fabReady = true → (∀ c, c < 64 → (k.cellMembers c).length ≤ 4) →
      ∃ t, exec (.cellTableWrite p off bytes) s = .next t ∧ t.mem = s.mem ∧ (∀ q, q ≠ p → t.pkg q = s.pkg q) ∧ (t.pkg p).cellTab = tab) ∧
    (∀ c, (s.pkg p).fabReady = true → (List.range 64).find? (fun c => decide (4 < (k.cellMembers c).length)) = some c →
      exec (.cellTableWrite p off bytes) s = .next (s.event p 8 (pkgRec 0x15 2 (dataAt [(32, leBytes 1 c)]))))) ∧
  (∀ p q (s : State), (s.pkg p).sched ≠ none → q ≠ p → (s.pkg p).member q = true → (s.pkg p).dead q = false →
    tget 0 (s.pkg p).heard q + 2000000 ≤ s.time → exec (.peerSilenceTimeout p q) s = .next (s.declareDead p ((s.pkg p).cell q) 0)) ∧
  (∀ p line (s : State), exec (.safetyNetWalk p line) s = .next (s.walkLine p line)) ∧
  (∀ h ll cell (s : State), (tfind (s.pkg h).txns ll).isSome = false → ((s.pkg h).dirAt ll).st.owned = true → ((s.pkg h).dirAt ll).ownc = cell →
    ((s.pkg h).dirAt ll).cells &&& ~~~ (cellBit cell) = 0 →
    s.walkEntry h ll cell = (s.modPkg h (fun k => { k.setDir ll { (s.pkg h).dirAt ll with st := .p, cells := 0 } with
      walks := k.walks.filter (fun w => w != (ll, cell)) })).wakeLine (lineOf (h * 2 ^ 44 + ll * 128)) 3)

/-! ### Events: the Carousel -/

/-- R331, R332, R335 to R346, R374, R375, R379: an IDLE counts, and a REPLAY has everything unacknowledged sent again; so has 2 µs without an advance of LACK; a flit whose FCRC
disagrees is dropped and counted; a flit for another package joins the queue for it as relayed; one of the 128 links connects to the peer of its slot; new flits stop at 8.5 µs, and at
9.5 µs the connection ends and what is not acknowledged returns to the queues; a link that may carry a flit takes a REPLAY first, then a flit to send again, then a new one; a
feed that is lost while its link is not connected is reported at once, and one that the connection uses stops the link until both ends stripe over those that are left; a feed that
has come back is used from the next connection; a valid schedule waits for its EPOCH, and then takes effect.
Where the model chose, log entries 58 to 61 and 94 say how. -/
def Obligations.LinkEvents : Prop :=
  (∀ p i (s : State) f fs, i < 128 → ((s.pkg p).link i).conn = true → (s.pkg p).slotNo = s.slot → ((s.pkg p).link i).wire = f :: fs →
    f.intact ((s.pkg p).link i).ruse = false →
    exec (.flitIdle p i) s = .next ((s.modLink p i (fun x => { x with wire := fs })).modLink p i (fun x =>
      { x with crcf := sat 32 x.crcf, dropping := true, dueReplay := x.dueReplay || !x.dropping }))) ∧
  (∀ p i (s : State) f fs, i < 128 → ((s.pkg p).link i).conn = true → (s.pkg p).slotNo = s.slot → ((s.pkg p).link i).wire = f :: fs →
    f.intact ((s.pkg p).link i).ruse = true → f.protocol p = none → f.sequenced = false →
    let s1 := ((s.modLink p i (fun x => { x with wire := fs })).modPkg p (fun k => { k with heard := tput k.heard f.src s.time })).checkFirst p i f
    let s2 := s1.modLink p i (fun x =>
      { x.acked f.lack s1.time with credits := tput x.credits f.crch (tget 0 x.credits f.crch + f.crinc) })
    (f.type = 0 → exec (.flitIdle p i) s = .next s2) ∧ (f.type = 7 → exec (.flitReplayRequest p i) s = .next (s2.modLink p i Link.replayAll))) ∧
  (∀ p i (s : State) f fs, Claims.Arrives s p i f fs → f.dst ≠ p → ((Claims.arrived s p i f fs).pkg p).dead f.src = false →
    exec (.relayedFlit p i) s = .next ((Claims.arrived s p i f fs).modPkg p (fun k =>
      { k with sendq := tput k.sendq (sqKey f.dst f.ch) (tget [] k.sendq (sqKey f.dst f.ch) ++ [{ f with hop := 1 }]) }))) ∧
  (∀ p i (s : State), ((s.pkg p).link i).conn = true → ((s.pkg p).link i).replay ≠ [] → ((s.pkg p).link i).ackAt + 2000 ≤ s.time →
    exec (.linkReplayTimeout p i) s = .next (s.modLink p i (fun x => { x.replayAll with ackAt := s.time }))) ∧
  (∀ p i (s : State) g, i < 128 → (s.pkg p).sched = some g → (s.pkg p).phase = .closed ∨ (s.pkg p).phase = .guard → s.intoSlot < 8500 →
    let s1 := s.modPkg p (fun k => { k with phase := .open_, slotNo := s.slot })
    (g.peer? p s.slot i = none → exec (.connectionStart p i) s = .next (s1.modLink p i (fun x => { x with conn := false, peer := 0 }))) ∧
    (∀ q, g.peer? p s.slot i = some q → q ≠ p → s.heartbeatDue p q g = false →
      ∃ t, exec (.connectionStart p i) s = .next t ∧ t.mem = s.mem ∧
        ((t.pkg p).link i).conn = true ∧ ((t.pkg p).link i).peer = q ∧ ((t.pkg p).link i).txSeq = 0 ∧ ((t.pkg p).link i).rxSeq = 0 ∧
        (((s.pkg p).link i).tlive ≠ 0 → ∃ f, ((t.pkg q).link i).wire = [f] ∧ f.type = 0))) ∧
  (∀ p (s : State), (s.pkg p).phase = .open_ → 8500 ≤ s.intoSlot →
    exec (.slotDrain p) s = .next (s.modPkg p (fun k => { k with phase := .drain }))) ∧
  (∀ p (s : State), (s.pkg p).phase = .drain → 9500 ≤ s.intoSlot →
    exec (.slotGuard p) s = .next (((s.pkg p).links.foldl (fun (s : State) l =>
      ((((s.lightDone p l.1).lostDone p l.1).unsend p l.1).modLink p l.1 (fun x =>
        { x with conn := false, idleOnly := false, dueIdle := false, dueReplay := false }))) s).modPkg p
        (fun k => { k with phase := .guard }))) ∧
  (∀ p i (s : State), ((s.pkg p).link i).live = true → ((s.pkg p).link i).idleOnly = false → (s.pkg p).slotNo = s.slot → s.intoSlot < 8500 →
    (s.pkg p).phase = .open_ →
    let l := (s.pkg p).link i
    (l.dueReplay = true → exec (.linkPick p i) s = .next ((s.modLink p i (fun x => { x with dueReplay := false })).putWire p i (localFlit p 7 l))) ∧
    (l.dueReplay = false → l.resend ≠ 0 → exec (.linkPick p i) s = .next (s.sendAgain p i)) ∧
    (l.dueReplay = false → l.resend = 0 → l.replay.length < 2048 → ∀ r, s.pickNew p i = some r → exec (.linkPick p i) s = .next r)) ∧
  (∀ p i fibre (s : State), i < 128 → ((s.pkg p).link i).tlive &&& feedBit (fibre % 4) ≠ 0 →
    let l := (s.pkg p).link i
    let live := l.tlive &&& ~~~ (feedBit (fibre % 4))
    let s1 := s.modLink p i (fun x => { x with tlive := live })
    (l.conn = false →
      let s2 := (s1.modLink p i (fun x => { x with light := sat 32 x.light })).event p 8 (pkgRec 0x10 0 (dataAt [(32, leBytes 2 i), (34, leBytes 1 (fibre % 4)), (35, leBytes 1 live.toNat), (36, leBytes 4 0)]))
      exec (.lightLoss p i fibre) s = .next (if live = 0 then s2.event p 8 (pkgRec 0x11 0 (dataAt [(32, leBytes 2 i), (34, leBytes 1 0)])) else s2)) ∧
    (l.conn = true → l.using &&& feedBit (fibre % 4) ≠ 0 → l.using &&& ~~~ (feedBit (fibre % 4)) ≠ 0 →
      exec (.lightLoss p i fibre) s = .next (((s1.modLink l.peer i (fun x => { x with rlive := live })).hitWire l.peer i (feedBit (fibre % 4))).modLink p i
        (fun x => { x with lost := x.lost ++ [(fibre % 4, live)] })))) ∧
  (∀ p i (s : State) x more, ((s.pkg p).link i).lost = x :: more → ((s.pkg p).link i).replay ≠ [] →
    let l := (s.pkg p).link i
    exec (.restripe p i) s = .next (((s.lightDone p i).modLink p i (fun y =>
      { y.replayAll with tuse := l.using, lost := [], lightLog := some (x.1, ((x :: more).getLastD x).2, 0) })).modLink l.peer i
        (fun y => { y with ruse := l.using }))) ∧
  (∀ p i fibre (s : State), i < 128 → ((s.pkg p).link i).conn = false →
    exec (.feedReturn p i fibre) s = .next (s.modLink p i (fun x => { x with tlive := x.tlive ||| feedBit fibre }))) ∧
  (∀ p bytes (s : State), (s.pkg p).fabReady = true →
    let img := SchedImage.parse bytes
    ((s.pkg p).validSched img = true → exec (.scheduleWrite p bytes) s = .next (s.modPkg p (fun k => { k with
      schedNext := addSched { img with epoch := if s.time ≤ img.epoch then img.epoch else (s.time + 79999) / 80000 * 80000 } k.schedNext }))) ∧
    ((s.pkg p).validSched img = false → exec (.scheduleWrite p bytes) s = .next (s.event p 8
      (pkgRec 0x15 3 (dataAt [(32, leBytes 4 img.sver.toNat)]))))) ∧
  (∀ p (s : State) g gs, (s.pkg p).schedNext = g :: gs → g.epoch ≤ s.time →
    exec (.scheduleEpoch p) s = .next (s.modPkg p (fun k => { k with
      sched := some g, schedNext := gs, heard := if k.sched.isSome then k.heard else (List.range 256).map (fun q => (q, g.epoch)) })))

/-! ### Events: the host -/

namespace Sys2Proof.Machine

/-- R5, R6, R289, R312, R347, R349, R350, R357: what the host reads in BAR0: SD.READY and SD.FAIL always; FRZ.CTL's FREEZE, which is written only, as 0; CMD.STAT, MBOX.STAT,
the cell table and LINKSTAT once their function is ready, and 0 before; DEG says that a link has fewer than 16 wavelengths in a direction. -/
def Claims.HostReads : Prop :=
  (∀ (s : State) p off n ms, s.agenda = .hostRead p off n :: ms → s.isStopped p = false →
    step s = .next ({ s.fresh with agenda := ms }.modPkg p (fun k => { k with hostRead := (List.range n).map (fun j => k.readReg (off + j)) }))) ∧
  (∀ (k : Package) j, j < 4 →
    k.readReg j = (leBytes 4 k.sdReady.toNat).getD j 0 ∧ k.readReg (4 + j) = (leBytes 4 k.sdFail.toNat).getD j 0 ∧
    k.readReg (0x010 + j) = (if j = 1 then BitVec.ofNat 8 k.dbgh.toNat else 0) ∧
    k.readReg (0x1040 + j) = (if k.ringReady then (leBytes 4 (64 - k.cmdFifo.length + (if k.cmdOvf then 2 ^ 16 else 0))).getD j 0 else 0) ∧
    (∀ page, page ≤ 8 → k.readReg (0x10040 + 0x1000 * page + j) = (if k.ringReady then
      (leBytes 4 (256 - (tget [] k.mbox page).length + (if k.mboxOvf.getLsbD page then 2 ^ 16 else 0))).getD j 0 else 0)) ∧
    (∀ q, q < 256 → k.readReg (0x100000 + q) = if k.fabReady then k.cellByte q else 0) ∧
    (∀ i, i < 128 → k.readReg (0x110000 + 4 * i + j) = if k.fabReady then (leBytes 4 (k.link i).stat).getD j 0 else 0) ∧
    (∀ off, k.fabReady = false → 0x100000 ≤ off → off < 0x120000 ∨ 0x123000 ≤ off → k.readReg off = 0)) ∧
  (∀ (k : Package) c i j, (c < 384 → j < 32 → k.readReg (0x120000 + 32 * c + j) = if k.sdReady.getLsbD (16 + c / 64) then
      (leBytes 8 (k.core c).corr ++ leBytes 8 (k.core c).scans ++ leBytes 8 (k.core c).mirr ++ leBytes 8 (k.core c).hangs).getD j 0 else 0) ∧
    (i < 128 → j < 16 → k.readReg (0x130000 + 16 * i + j) = if k.fabReady then
      (leBytes 8 (k.link i).rply ++ leBytes 4 (k.link i).crcf ++ leBytes 4 (k.link i).light).getD j 0 else 0)) ∧
  (∀ l : Link, l.deg = false ↔ l.tlive = 0xF ∧ l.rlive = 0xF)

end Sys2Proof.Machine

/-- R5, R130, R347 to R350, R357, R359, R371: the host reads registers; a read through BAR2 gives the host the bytes of the package's memory, and a write puts its bytes there, but neither
reaches beyond BAR2's size, which the host sets from 1 GiB to 2 TiB; a reset gives every register of the package its reset value; a function whose self-test ends has its bit set in
SD.READY or in SD.FAIL, once; a freeze stops the package; a thermal limit lowers the clock by 50 MHz, and at 800 MHz freezes the package, which loses its power, and its memory the
contents, 10 ms later; the driver writes registers.
Where the model chose, log entries 71 to 73, 93, 99 say how. -/
def Obligations.HostEvents : Prop :=
  Claims.HostReads ∧
  (∀ p off n (s : State), Quiet s p → (s.pkg p).migr = [] → p < 256 → off + n ≤ Config.installed → off + n ≤ 2 ^ (s.pkg p).bar2 → off + n ≤ 2 ^ 44 →
    exec (.bar2Read p off n) s = .next (s.modPkg p (fun k => { k with hostRead := s.mem.bytes (p * 2 ^ 44 + off) n }))) ∧
  (∀ p off (bytes : List Byte) (s : State), Quiet s p → (s.pkg p).migr = [] → p < 256 → off + bytes.length ≤ Config.installed →
    off + bytes.length ≤ 2 ^ (s.pkg p).bar2 → off + bytes.length ≤ 2 ^ 44 →
    bytes ≠ [] → off % 128 + bytes.length ≤ 128 → s.watchers (lineOf (p * 2 ^ 44 + off)) = [] →
    exec (.bar2Write p off bytes) s = .next { s.dropDies (p * 2 ^ 44 + off) with mem := s.mem.put (p * 2 ^ 44 + off) bytes }) ∧
  (∀ p off n (bytes : List Byte) (s : State),
    (2 ^ (s.pkg p).bar2 < off + n → exec (.bar2Read p off n) s = .next s) ∧
    (2 ^ (s.pkg p).bar2 < off + bytes.length → exec (.bar2Write p off bytes) s = .next s)) ∧
  (∀ (s : State) p n ms, s.agenda = .resizeBar p n :: ms → s.isStopped p = false →
    step s = .next ({ s.fresh with agenda := ms }.modPkg p (fun k => if 30 ≤ n ∧ n ≤ 41 then { k with bar2 := n } else k))) ∧
  (∀ p (s : State), exec (.packageReset p) s = .next (s.setPkg p { clock0 := s.clock })) ∧
  (∀ p bit ok (s : State), bit ≤ 27 → (s.pkg p).sdTested.getLsbD bit = false →
    let m : BitVec 32 := (1 : BitVec 32) <<< bit
    exec (.functionReady p bit ok) s = .next (s.modPkg p (fun k =>
      if ok then { k with sdTested := k.sdTested ||| m, sdReady := k.sdReady ||| m }
      else { k with sdTested := k.sdTested ||| m, sdFail := k.sdFail ||| m }))) ∧
  (∀ p (s : State), exec (.freeze p) s = .next (s.modPkg p Package.freeze)) ∧
  (∀ p (s : State), (s.pkg p).sdReady.getLsbD 26 = true →
    (800 < (s.pkg p).clockMHz → exec (.thermalLimit p) s = .next ((s.modPkg p (fun k => { k with clockMHz := k.clockMHz - 50 })).event p 8
      (thermalRec 0 ((s.pkg p).clockMHz - 50)))) ∧
    ((s.pkg p).clockMHz ≤ 800 → exec (.thermalLimit p) s = .next (((s.modPkg p (fun k => { k with freezeAt := some s.time })).event p 8
      (thermalRec 2 (s.pkg p).clockMHz)).modPkg p Package.freeze))) ∧
  (∀ p (s : State) t, (s.pkg p).freezeAt = some t → t + 10000000 ≤ s.time →
    exec (.powerRemove p) s = .next { (s.modPkg p (fun k => { k with poweredOff := true })) with mem := s.mem.filter (fun x => homeOf x.1 != p) }) ∧
  (∀ p off bytes (s : State), exec (.registerWrite p off bytes) s = .next (s.modPkg p (fun k => k.writeReg off bytes)))

namespace Sys2Proof.Machine

/-- A request that the security processor answers with `resp`, from the state `y` that it takes (log entry 40). -/
def Claims.answered (s : State) (p : Nat) (code : Byte) (r : SpdmReq) (y : Spdm) (resp : List Byte) : Host.Outcome State Fault Refusal :=
  .next (s.modPkg p (fun k => { k with spdm := y.answer code r resp }))

end Sys2Proof.Machine

/-- R358 (the layouts and codes of SPDM are PRESUMED, log entry 40): the security processor answers GET_VERSION with version 1.3 alone, from where it starts afresh;
GET_CAPABILITIES with certificates, challenges and signed measurements; NEGOTIATE_ALGORITHMS with SM2 and SM3-256; GET_DIGESTS, GET_CERTIFICATE, CHALLENGE and GET_MEASUREMENTS with
what slot 0 and the measurements hold, the last two signed over the messages so far with a fresh nonce; any other request with UnsupportedRequest. -/
def Obligations.Attestation : Prop :=
  ∀ p (s : State) (r : SpdmReq), (s.pkg p).sdReady.getLsbD 27 = true →
    let x := (s.pkg p).spdm
    exec (.getVersion p r) s = Claims.answered s p 0x84 r { response := x.response, version := true } [0x10, 0x04, 0, 0, 0, 1, 0x00, 0x13] ∧
    (x.version = true → ∃ ct dts mx, exec (.getCapabilities p r) s = Claims.answered { s with free := s.free + 3 } p 0xE1 r { x with caps := true }
      (spdmMsg 0x61 0 0 ([0] ++ leBytes 1 ct ++ leBytes 2 0 ++ leBytes 4 0x16 ++ leBytes 4 dts ++ leBytes 4 mx))) ∧
    (x.caps = true → offersSm r.body = true → exec (.negotiateAlgorithms p r) s = Claims.answered s p 0xE3 r { x with algs := true }
      (spdmMsg 0x63 0 0 (leBytes 2 36 ++ [1, 0] ++ leBytes 4 0x80 ++ leBytes 4 0x200 ++ leBytes 4 0x40 ++ leBytes 12 0 ++ leBytes 4 0))) ∧
    (x.algs = true →
      exec (.getDigests p r) s = Claims.answered s p 0x81 r x (spdmMsg 0x01 0 1 (Config.digest p 0)) ∧
      (r.param1 = 0 → leNat (r.body.take 2) < (Config.certificate p).length →
        exec (.getCertificate p r) s = Claims.answered s p 0x82 r x
          (spdmMsg 0x02 0 0 (certPart (Config.certificate p) (leNat (r.body.take 2)) (leNat ((r.body.drop 2).take 2))))) ∧
      (r.param1 = 0 →
        let m := spdmMsg 0x03 0 1 (Config.digest p 0 ++ Config.nonce s.free ++ leBytes 2 0 ++ (r.body.drop 32).take 8)
        exec (.challenge p r) s = Claims.answered { s with free := s.free + 1 } p 0x83 r x
          (m ++ Config.signature p (x.transcript ++ SpdmReq.bytes 0x83 r ++ m))) ∧
      (r.param1 = 0 → r.param2 = 0xFF →
        let bs := [1, 2, 3, 4, 5, 6, 7, 8].flatMap (measurement p)
        exec (.getMeasurements p r) s = Claims.answered { s with free := s.free + 1 } p 0xE0 r x
          (spdmMsg 0x60 0 0 (leBytes 1 8 ++ leBytes 3 bs.length ++ bs ++ Config.nonce s.free ++ leBytes 2 0 ++ r.body.take 8)))) ∧
    (∀ code, spdmCodes.contains code = false →
      exec (.spdmUnsupported p code r) s = Claims.answered s p code r x (spdmMsg 0x7F 0x07 code.toNat []))

/-! ### The machine as a whole -/

/-- R2, R22, R31, R81, R96, R130, R134, R354, R356 and log entries 2, 33: a step with no move due, or with the move of a port, decodes the word that its entry fetches and is exec
of the instruction at that state, whose cycle has passed and whose fetch has kept the word; a word that is no instruction raises its decode trap at every lane. A port that issues
nothing picks, an entry whose park is due parks, and a stopped package, or one that the space has no number for, faults. In a cycle of a group port A issues, then port B where both
hold an entry, and B reads other lanes as the cycle began. An error that strikes a lane of an instruction raises CHECK there and nothing else of it happens, but one bit alone is
corrected and counted; an error of memory poisons the line. An event of the agenda is exec of it. A step whose accesses found a line that is not ready has the recalls sent, and is
made again. -/
def Obligations.StepRuns : Prop :=
  (∀ (s : State) w b ms, (s.agenda = [] ∧ ms = [] ∧ w = s.cur ∧ b = s.curB) ∨ s.agenda = .issue w b :: ms →
    (s.isStopped w.pkg = true → step s = .fault (.stopped w.pkg)) ∧
    (s.isStopped w.pkg = false →
      let s1 : State := { ({ s.fresh with agenda := ms }.modPkg w.pkg (fun k => { k with issued := k.issued + 1 })) with cur := w, curB := b }
      (s1.iss? = none → step s = s1.settle (exec (.portPick w) s1)) ∧
      (∀ u, s1.iss? = some u → u.blocked s1 = true → step s = s1.settle (exec (.park w u.pc) s1)) ∧
      (∀ u tm wd, s1.iss? = some u → u.blocked s1 = false → u.team s1 = some tm → Code u s1 u.pc.toNat wd →
        (∀ i, decode (u.decCtx tm) wd = .ok i → step s = s1.settle (exec i (u.keeps u.pc.toNat wd s1))) ∧
        (∀ e, decode (u.decCtx tm) wd = .error e → step s = s1.settle (.next (u.decodeTrap e (u.keeps u.pc.toNat wd s1))))))) ∧
  (∀ (s : State) w ms, s.agenda = .cycle w :: ms → s.isStopped w.pkg = false →
    let s1 := { s.fresh with agenda := ms }.modPkg w.pkg (fun k => { k with issued := k.issued + 1 })
    ∀ s2, s1.issueAt w false = .next s2 →
      (s1.bothIssue w = false → step s = .next s2) ∧
      (s1.bothIssue w = true → ∀ t, ({ s2 with prior := some (s1.threadsOf w) }).issueAt w true = .next t → step s = .next { t with prior := none })) ∧
  (∀ (s : State) w b lane e ms, s.agenda = .upset w b lane e :: ms → s.isStopped w.pkg = false →
    let s1 : State := { ({ s.fresh with agenda := ms, upset := some (lane, e) }.modPkg w.pkg (fun k => { k with issued := k.issued + 1 })) with cur := w, curB := b }
    ∀ u tm wd i c, s1.iss? = some u → u.blocked s1 = false → u.team s1 = some tm → Code u s1 u.pc.toNat wd → decode (u.decCtx tm) wd = .ok i → i.ctl = some c →
      let x := u.keeps u.pc.toNat wd s1
      let hit := lane ∈ u.lanes ∧ (u.thread x lane).guard c = true ∧ e.strikes i (wd.extractLsb' 52 3).toNat = true
      (¬ hit → step s = s1.settle (exec i x)) ∧
      (hit → e = .single → step s = s1.settle (exec i (x.modCore u.pkg (tm.coreOf u.group) (fun y => { y with corr := sat 64 y.corr })))) ∧
      (hit → e ≠ .single → step s = s1.settle (.next (x.trap u.pkg u.ctx u.group lane ⟨0x14, u.pc64, none, none⟩)))) ∧
  (∀ (s : State) p line ms, s.agenda = .memError p line :: ms → s.isStopped p = false → homeOf (line * 128) = p → localOf (line * 128) < Config.installed →
    s.poisoned (line * 128) = false → s.locked (line * 128) = false → (s.pkg p).avail (llineOf (line * 128)) true = true →
    step s = .next ({ s.fresh with agenda := ms }.modPkg p (fun k => (k.dropL1Line line).setDir (llineOf (line * 128)) ⟨0, 0, 0, .p, 0⟩))) ∧
  (∀ (s : State) i ms, s.agenda = .event i :: ms → i.isWord = false → s.isStopped (evPkg i) = false →
    step s = { s.fresh with agenda := ms }.settle (exec i { s.fresh with agenda := ms })) ∧
  (∀ (s : State) c n ms, s.agenda = .tick c n :: ms → step s = .next { s.fresh with agenda := ms, clock := s.clock + c, time := s.time + n }) ∧
  (∀ s0 t : State, (t.wants = [] → s0.settle (.next t) = .next t) ∧
    (t.wants ≠ [] → s0.settle (.next t) = .next (t.wants.foldl (fun s w => s.openWant w) { s0 with wants := [] }))) ∧
  (∀ (s : State) p, 256 ≤ p → s.isStopped p = true)

/-- R40, R81, R85 to R88, R95, R133: words that the spec writes out, and the instructions that they are. -/
def Obligations.DecodedWords : Prop :=
  let c : Ctl := ⟨false, false, 0, false, 0⟩
  let sw : Ctl := ⟨false, true, 0, false, 0⟩
  decodeTableWord 64 0x4005600000000000 = some (.exit c) ∧
  decodeTableWord 64 0x4000A09048000300 = some (.iadd c .i32 false 9 9 (.imm 1)) ∧
  decodeTableWord 64 0x4004E00FFFFFF100 = some (.bra c (-8)) ∧
  decodeTableWord 64 0x46E0000000000100 = some (.trapImm ⟨false, false, 0, true, 5⟩ 0) ∧
  decodeTableWord 64 0x6030008010008120 = some (.ldOff sw .g .b32 false 8 2 64) ∧
  decodeTableWord 64 0x4030A09010560000 = some (.red c .g .i32 .add true none 9 2 21) ∧
  decodeTableWord 64 0x603081C0F0006000 = some (.atom sw .g .i32 .exch .plain 28 30 0) ∧
  decodeTableWord 64 0x4030210070000A22 = some (.stIdx c .g .b32 (some .space) 16 14 0) ∧
  decodeTableWord 64 0x604100A020000401 = some (.tkreq sw true 10 4 2) ∧
  decodeTableWord 64 0x4050200040300030 = some (.mml c .bf16 8 12) ∧
  decodeTableWord 64 0x4051A00080442400 = some (.vpjmrg c 16 17 18) ∧
  decodeTableWord 64 0x4060606000000900 = some (.ctlrdImm c 6 4) ∧
  decodeTableWord 64 0x602022E168000000 = some (.frsq sw .rne 46 45)

/-- R81 to R88, R95, R96: in a clause of its class, and where it stands last if it must, the word of every well-formed instruction decodes to it, with every
operand at every value that its encoding admits; and a word that decodes to an instruction is the instruction's own word. -/
def Obligations.DecodeAndEncodeAgree : Prop :=
  (∀ (i : Instr) (k : DecCtx), i.isWord = true → i.wf = true → k.regs = 512 → k.nbc = 48 → k.bbc = 32 → k.last = true →
      (i.fields.cls ≠ 0 → k.ecls = i.fields.cls.setWidth 4) → decode k (encode i) = .ok i) ∧
  (∀ (i : Instr) (k : DecCtx) (w : DWord), decode k w = .ok i → i.isWord = true ∧ encode i = w)

/-- R96, steps 1 to 7: what makes a header a CLAUSE trap, and the first checks of a word, in their order. -/
def Obligations.RefusedWords : Prop :=
  (∀ (k : DecCtx) (w : DWord), let f := Fields.unpack w
    (f.ver = 3 → decode k w = .error ⟨true, 7⟩) ∧
    (f.ver = 2 → decode k w = .error ⟨false, 1⟩) ∧
    (f.ver.toNat < 2 → classSize f.cls ≤ f.ix.toNat → decode k w = .error ⟨false, 2⟩) ∧
    (f.ver.toNat < 2 → f.ix.toNat < classSize f.cls → f.cls ≠ 0 → f.cls.setWidth 4 ≠ k.ecls → decode k w = .error ⟨true, 5⟩) ∧
    (f.ver.toNat < 2 → f.ix.toNat < classSize f.cls → (f.cls ≠ 0 → f.cls.setWidth 4 = k.ecls) → mustBeLast f.cls f.ix = true → k.last = false →
      decode k w = .error ⟨true, 6⟩)) ∧
  (∀ (bbc : Nat) (w : DWord), (w.toNat / 2 ^ 62 ≠ 3 → decodeHeader bbc w = .error ⟨true, 1⟩) ∧
    (w.toNat / 2 ^ 62 = 3 → 7 ≤ w.toNat / 2 ^ 54 % 16 → decodeHeader bbc w = .error ⟨true, 2⟩) ∧
    (∀ h, decodeHeader bbc w = .ok h → h.word = w ∧ h.ecls.toNat < 7 ∧ (h.wbe = true → h.wbb.toNat < bbc)))

/-- Log entry 1: every step keeps memory in its canonical form. -/
def Obligations.InvariantKept : Prop := ∀ s t : State, s.Inv → step s = .next t → t.Inv

/-- What reset leaves (R2, R42, R265, R312, R319, R347, R355, R357): the clock at 0, every function of the package still to be tested, 1,300 MHz, the default timeout and hang interval,
an empty cell table, links at their reset state, no team and no task; memory in its canonical form.
Where the model chose, log entries 1, 9 say how. -/
def Obligations.ResetState : Prop :=
  State.Inv State.reset ∧ State.reset.clock = 0 ∧
  ∀ p, let k := State.reset.pkg p
    k.sdReady = 0 ∧ k.sdFail = 0 ∧ k.frozen = false ∧ k.poweredOff = false ∧ k.clockMHz = 1300 ∧ k.barkInt = 100000 ∧
    (∀ part th, State.reset.readSel p part th .rtmo = 400) ∧ (∀ c, tget 0 k.cellTab c = 0) ∧ (∀ n, tget 0 k.turn n = 0) ∧
    k.records = [] ∧ k.teams = [] ∧ k.mbox = [] ∧ k.mboxOvf = 0 ∧ k.cmdFifo = [] ∧ k.dir = [] ∧ k.keys = [] ∧ k.colls = [] ∧
    k.bar2 = 41 ∧ (∀ i, (k.link i).tlive = 0xF ∧ (k.link i).rlive = 0xF ∧ (k.link i).conn = false ∧ (k.link i).deg = false) ∧
    (∀ c, State.reset.team? p c = none)

/-! ### Values -/

/-- R118, R122, R124: what integer words of 32-bit types give, as arithmetic of 32-bit words: sums, differences and products wrap; IMULH takes the upper half; a
shift takes the low eight bits of its amount, and one by the width or more gives zeros or the sign. -/
def Obligations.WordValues : Prop :=
  ∀ (c : Ctl) (d a b : Reg) (ty : IntTy), ty = .i32 ∨ ty = .n32 →
    let two (f : Word → Word → Word) : Thread → Thread := fun t => t.wrote d [(f (t.reg a) (t.reg b), t.flag a || t.flag b)] 0
    Claims.Gives (.iadd c ty false d a (.reg b)) c (two (· + ·)) ∧
    Claims.Gives (.isub c ty false d a (.reg b)) c (two (· - ·)) ∧
    Claims.Gives (.imul c ty false d a (.reg b)) c (two (· * ·)) ∧
    Claims.Gives (.imulh c ty d a (.reg b)) c (two (fun x y =>
      if ty = .n32 then BitVec.ofNat 32 (x.toNat * y.toNat / 2 ^ 32) else BitVec.ofInt 32 ((x.toInt * y.toInt) / 2 ^ 32))) ∧
    Claims.Gives (.imin c ty d a (.reg b)) c (two (fun x y =>
      if (if ty = .n32 then x.toNat ≤ y.toNat else x.toInt ≤ y.toInt) then x else y)) ∧
    Claims.Gives (.iadd c .n32 true d a (.reg b)) c (two (fun x y => if 2 ^ 32 ≤ x.toNat + y.toNat then -1 else x + y)) ∧
    Claims.Gives (.isub c .n32 true d a (.reg b)) c (two (fun x y => if x.toNat < y.toNat then 0 else x - y)) ∧
    Claims.Gives (.ishl c .b32 d a (.reg b)) c (two (fun x y => x <<< (y.toNat % 256))) ∧
    Claims.Gives (.ishr c .b32 d a (.reg b)) c (two (fun x y => x >>> (y.toNat % 256))) ∧
    Claims.Gives (.isar c .b32 d a (.reg b)) c (two (fun x y => x.sshiftRight (y.toNat % 256))) ∧
    Claims.Gives (.irot c .b32 d a (.reg b)) c (two (fun x y => x.rotateLeft (y.toNat % 256))) ∧
    Claims.Gives (.and c .b32 d a (.reg b)) c (two (· &&& ·)) ∧
    Claims.Gives (.or c .b32 d a (.reg b)) c (two (· ||| ·)) ∧
    Claims.Gives (.xor c .b32 d a (.reg b)) c (two (· ^^^ ·))

namespace Sys2Proof.Machine

/-- A value that is no NaN lies below another. -/
def Claims.below : FVal → FVal → Prop
  | .inf a, .inf b => a = true ∧ b = false
  | .inf a, .fin .. => a = true
  | .fin .., .inf b => b = false
  | .fin a m e, .fin b n g => (if a then -1 else 1) * (m : Int) * 2 ^ (e - min e g).toNat < (if b then -1 else 1) * (n : Int) * 2 ^ (g - min e g).toNat
  | _, _ => False

end Sys2Proof.Machine

/-- R144: FMIN and FMAX give one of their operands, −0 lying below +0; the other operand where exactly one is a NaN and the canonical NaN where both are;
IV for a signalling NaN, and no other flag. And a NaN result of FADD, FSUB, FMUL, FFMA, FRND and FSCALE is the canonical NaN of its format,
while a signalling NaN operand of theirs raises IV. -/
def Obligations.NaNResults : Prop :=
  ∀ (f : Fmt), f ∈ [fp64, fp32, fp16, fpBF16] →
    (∀ (least : Bool) (a b : Nat), let r := f.minMax least a b; let x := f.val a; let y := f.val b
      (Claims.below x y → r.1 = if least then a else b) ∧ (Claims.below y x → r.1 = if least then b else a) ∧
      (x.isNan = false → y.isNan = false → r.1 = a ∨ r.1 = b) ∧
      (a = f.zero true → b = f.zero false → r.1 = if least then a else b) ∧ (a = f.zero false → b = f.zero true → r.1 = if least then b else a) ∧
      (x.isNan = true → y.isNan = false → r.1 = b) ∧ (x.isNan = false → y.isNan = true → r.1 = a) ∧ (x.isNan = true → y.isNan = true → r.1 = f.nan) ∧
      r.2 = if x.isSnan || y.isSnan then flagIV else 0) ∧
    (∀ (rm : Rm) (sat : FSat) (a b e : Nat) (x : Bool) (n : Int),
      let rs : List (Nat × BitVec 5 × Bool) := [((fadd1 f rm sat a b).1, (fadd1 f rm sat a b).2, (f.val a).isSnan || (f.val b).isSnan),
        ((fsub1 f rm sat a b).1, (fsub1 f rm sat a b).2, (f.val a).isSnan || (f.val b).isSnan),
        ((fmul1 f rm sat a b).1, (fmul1 f rm sat a b).2, (f.val a).isSnan || (f.val b).isSnan),
        ((ffma1 f rm sat a b e).1, (ffma1 f rm sat a b e).2, (f.val a).isSnan || (f.val b).isSnan || (f.val e).isSnan),
        ((f.rnd rm x a).1, (f.rnd rm x a).2, (f.val a).isSnan), ((f.scale rm a n).1, (f.scale rm a n).2, (f.val a).isSnan)]
      ∀ r ∈ rs, ((f.val r.1).isNan = true → r.1 = f.nan) ∧ (r.2.2 = true → r.2.1.getLsbD 4 = true))

/-- R91, R94, R260: DEFERRED where a predicate result, TRAP, BRX or RET has a flagged source, and HAZARD where a lane that holds 16 deferred results issues another:
precise, at the handler, with no result. What tx.addr and tx.info hold is free (log entry 4). -/
def Obligations.OperandTraps : Prop :=
  ∀ c u l s tm, Handled u c l s tm →
    let traps (i : Instr) (code : Nat) : Prop := ∃ addr info t, exec i s = .next t ∧ Taken u l tm code u.pc64 addr info { s with free := s.free + 2 } t
    let T := u.thread s l
    (∀ ty cc pd a b, T.flags (srcs2 ty a b) = true → traps (.isetp c ty cc pd a b) 0x11) ∧
    (∀ ty cc pd a b, T.flags (.sized ty.wide a :: b.opnd ty.wide) = true → traps (.fsetp c ty cc pd a b) 0x11) ∧
    (∀ tt pd g pb, T.flags [.one g] = true → traps (.plop c tt pd (.reg g) pb) 0x11) ∧
    (∀ mask g, T.flags [.one g] = true → traps (.g2p c mask g) 0x11) ∧
    (∀ g, T.flags [.one g] = true → traps (.trapReg c g) 0x11) ∧
    (∀ g, T.flags [.pair g] = true → traps (.brx c g) 0x11 ∧ traps (.ret c g) 0x11) ∧
    (T.defCount = 16 →
      (∀ ty rm d a b, traps (.idiv c ty rm d a b) 0x03 ∧ traps (.irem c ty rm d a b) 0x03) ∧
      (∀ rm d a b, traps (.fdiv c rm d a b) 0x03) ∧
      (∀ rm d a, traps (.frcp c rm d a) 0x03 ∧ traps (.frsq c rm d a) 0x03 ∧ traps (.fsqrt c rm d a) 0x03 ∧ traps (.fexp2 c rm d a) 0x03 ∧
        traps (.flog2 c rm d a) 0x03 ∧ traps (.fsinpi c rm d a) 0x03 ∧ traps (.fcospi c rm d a) 0x03 ∧ traps (.ftanh c rm d a) 0x03))

/-- R58, R62, R183, R382: a plain LD or ST at an address that its size does not divide raises ALIGN, and else one in .s, .p or .l beyond the space raises PERM; both
precise, with tx.addr at the address, before any translation, and with no access made. What tx.info holds is free (log entry 4). -/
def Obligations.MemoryTraps : Prop :=
  ∀ c u l s tm, Handled u c l s tm → (u.thread s l).defCount < 16 →
    let T := u.thread s l
    ∀ (i : Instr) (sp : Space) (sz : Size) (ea : DWord),
      (∃ d a off, i = .ldOff c sp sz false d a off ∧ ea = T.pair a + off.signExtend 64 ∧ T.flags [.pair a] = false) ∨
      (∃ d a b, i = .ldIdx c sp sz .plain d a b ∧ ea = T.pair a + (T.reg b).signExtend 64 ∧ T.flags [.pair a, .one b] = false) ∨
      (∃ d a off, i = .stOff c sp sz d a off ∧ ea = T.pair a + off.signExtend 64 ∧ T.flags [sz.opnd d, .pair a] = false) ∨
      (∃ d a b, i = .stIdx c sp sz none d a b ∧ ea = T.pair a + (T.reg b).signExtend 64 ∧ T.flags [sz.opnd d, .pair a, .one b] = false) →
      let traps (code : Nat) : Prop := ∃ info t, exec i s = .next t ∧ Taken u l tm code u.pc64 ea info { s with free := s.free + 1 } t
      (ea.toNat % sz.bytes ≠ 0 → traps 0x04) ∧
      (ea.toNat % sz.bytes = 0 → sp ≠ .g → tm.spaceSize sp < ea.toNat + sz.bytes → traps 0x06)
end

