-- ==== Sys2Proof/Laws/Table.lean ====
section
/-! SUPPORT. Laws of keyed tables and of byte memories: a read after a write, what a write leaves alone, and the canonical
form of memory, which every write keeps (log entry 1). -/

namespace Sys2Proof

section Tables

variable {β : Type}

@[simp] theorem tget_nil (d : β) (k : Nat) : tget d [] k = d := rfl
@[simp] theorem tfind_nil (k : Nat) : tfind ([] : Table β) k = none := rfl

theorem tget_tput (d : β) (t : Table β) (k j : Nat) (v : β) :
    tget d (tput t k v) j = if j = k then v else tget d t j := by
  induction t with
  | nil => grind [tput, tget]
  | cons e t ih => obtain ⟨i, w⟩ := e; grind [tput, tget]

@[simp] theorem tget_tput_same (d : β) (t : Table β) (k : Nat) (v : β) : tget d (tput t k v) k = v := by
  simp [tget_tput]

theorem tget_tput_other (d : β) (t : Table β) {k j : Nat} (v : β) (h : j ≠ k) :
    tget d (tput t k v) j = tget d t j := by
  simp [tget_tput, h]

theorem tfind_tput (t : Table β) (k j : Nat) (v : β) :
    tfind (tput t k v) j = if j = k then some v else tfind t j := by
  induction t with
  | nil => grind [tput, tfind]
  | cons e t ih => obtain ⟨i, w⟩ := e; grind [tput, tfind]

@[simp] theorem tfind_tput_same (t : Table β) (k : Nat) (v : β) : tfind (tput t k v) k = some v := by
  simp [tfind_tput]

/-- A key set twice holds the later value. -/
theorem tput_tput (t : Table β) (k : Nat) (v w : β) : tput (tput t k v) k w = tput t k w := by
  induction t with
  | nil => simp [tput]
  | cons e t ih =>
    obtain ⟨j, x⟩ := e
    simp only [tput]
    by_cases h1 : j = k
    · simp [h1, tput]
    · by_cases h2 : k < j
      · simp [h1, h2, tput]
      · simp [h1, h2, tput, ih]

theorem tfind_tput_other (t : Table β) {k j : Nat} (v : β) (h : j ≠ k) : tfind (tput t k v) j = tfind t j := by
  simp [tfind_tput, h]

theorem tfind_tdel (t : Table β) (k j : Nat) : tfind (tdel t k) j = if j = k then none else tfind t j := by
  unfold tdel
  induction t with
  | nil => simp
  | cons e t ih => obtain ⟨i, w⟩ := e; grind [tfind]

theorem tget_of_tfind {d : β} {t : Table β} {k : Nat} {v : β} (h : tfind t k = some v) : tget d t k = v := by
  induction t with
  | nil => simp at h
  | cons e t ih =>
    obtain ⟨i, w⟩ := e
    simp only [tfind] at h
    simp only [tget]
    split at h <;> simp_all

theorem tget_of_tfind_none {d : β} {t : Table β} {k : Nat} (h : tfind t k = none) : tget d t k = d := by
  induction t with
  | nil => rfl
  | cons e t ih =>
    obtain ⟨i, w⟩ := e
    simp only [tfind] at h
    simp only [tget]
    split at h <;> simp_all

theorem tfind_tmap {γ : Type} (f : Nat → β → γ) (t : Table β) (k : Nat) :
    tfind (tmap f t) k = (tfind t k).map (f k) := by
  unfold tmap
  induction t with
  | nil => rfl
  | cons e t ih =>
    obtain ⟨i, w⟩ := e
    simp only [List.map_cons, tfind]
    split
    · subst i; rfl
    · exact ih

end Tables

/-! ### Memory -/

theorem Mem.above_mono {m : Mem} {a b : Nat} (h : a ≤ b) (hm : Mem.above b m = true) : Mem.above a m = true := by
  cases m with
  | nil => rfl
  | cons c t =>
    obtain ⟨i, v⟩ := c
    simp only [Mem.above, Bool.and_eq_true, decide_eq_true_eq] at hm ⊢
    exact ⟨⟨by omega, hm.1.2⟩, hm.2⟩

theorem Mem.above_set {m : Mem} {lo k : Nat} (v : Byte) (hm : Mem.above lo m = true) (hk : lo ≤ k) :
    Mem.above lo (m.set k v) = true := by
  induction m generalizing lo with
  | nil => simp only [Mem.set]; split <;> simp_all [Mem.above]
  | cons c t ih =>
    obtain ⟨i, w⟩ := c
    simp only [Mem.above, Bool.and_eq_true, decide_eq_true_eq] at hm
    obtain ⟨⟨h1, h2⟩, h3⟩ := hm
    simp only [Mem.set]
    split
    · subst i
      split
      · exact Mem.above_mono (by omega) h3
      · simp_all [Mem.above]
    · split
      · split
        · simp_all [Mem.above]
        · simp only [Mem.above, Bool.and_eq_true, decide_eq_true_eq]
          refine ⟨⟨hk, by simpa using ‹¬ v = 0›⟩, ⟨by omega, h2⟩, h3⟩
      · simp only [Mem.above, Bool.and_eq_true, decide_eq_true_eq]
        exact ⟨⟨h1, h2⟩, ih h3 (by omega)⟩

/-- A byte written keeps the canonical form. -/
theorem Mem.wf_set {m : Mem} (k : Nat) (v : Byte) (h : m.wf = true) : (m.set k v).wf = true :=
  Mem.above_set v h (Nat.zero_le _)

/-- Bytes written keep the canonical form. -/
theorem Mem.wf_put {m : Mem} (a : Nat) (bs : List Byte) (h : m.wf = true) : (m.put a bs).wf = true := by
  induction bs generalizing m a with
  | nil => exact h
  | cons b bs ih => exact ih (a + 1) (Mem.wf_set a b h)

/-- The empty memory is canonical. -/
theorem Mem.wf_nil : Mem.wf [] = true := rfl

theorem Mem.above_filter {m : Mem} {lo : Nat} (p : Host.Cell → Bool) (h : Mem.above lo m = true) :
    Mem.above lo (m.filter p) = true := by
  induction m generalizing lo with
  | nil => rfl
  | cons c t ih =>
    obtain ⟨i, w⟩ := c
    simp only [Mem.above, Bool.and_eq_true, decide_eq_true_eq] at h
    obtain ⟨⟨h1, h2⟩, h3⟩ := h
    by_cases hp : p (i, w) = true
    · simp only [List.filter_cons, hp, if_true, Mem.above, Bool.and_eq_true, decide_eq_true_eq]
      exact ⟨⟨h1, h2⟩, ih h3⟩
    · simp only [List.filter_cons, hp, Bool.false_eq_true, if_false]
      exact Mem.above_mono (by omega) (ih h3)

/-- A part of a memory is canonical. -/
theorem Mem.wf_filter {m : Mem} (p : Host.Cell → Bool) (h : m.wf = true) : Mem.wf (m.filter p) = true := Mem.above_filter p h

theorem Mem.byte_below {m : Mem} {lo k : Nat} (h : Mem.above lo m = true) (hk : k < lo) : m.byte k = 0 := by
  cases m with
  | nil => rfl
  | cons c t =>
    obtain ⟨i, w⟩ := c
    simp only [Mem.above, Bool.and_eq_true, decide_eq_true_eq] at h
    simp only [Mem.byte]
    rw [if_neg (by omega), if_pos (by omega)]

theorem Mem.byte_set_above {m : Mem} {lo : Nat} (k j : Nat) (v : Byte) (h : Mem.above lo m = true) :
    (m.set k v).byte j = if j = k then v else m.byte j := by
  induction m generalizing lo with
  | nil =>
    simp only [Mem.set]
    split
    · rename_i hv; subst hv; simp [Mem.byte]
    · simp only [Mem.byte]
      by_cases hj : j = k
      · simp [hj]
      · simp [hj, Ne.symm hj]
  | cons c t ih =>
    obtain ⟨i, w⟩ := c
    simp only [Mem.above, Bool.and_eq_true, decide_eq_true_eq] at h
    obtain ⟨⟨_, _⟩, h3⟩ := h
    simp only [Mem.set]
    by_cases hik : i = k
    · subst hik
      rw [if_pos rfl]
      by_cases hj : j = i
      · subst hj
        split
        · rename_i hv; subst hv; simp only [if_true]; exact Mem.byte_below h3 (by omega)
        · simp [Mem.byte]
      · rw [if_neg hj]
        simp only [Mem.byte, if_neg (Ne.symm hj)]
        split
        · by_cases hlt : j < i
          · rw [if_pos hlt]; exact Mem.byte_below h3 (by omega)
          · rw [if_neg hlt]
        · simp only [Mem.byte, if_neg (Ne.symm hj)]
    · rw [if_neg hik]
      by_cases hk : k < i
      · rw [if_pos hk]
        by_cases hj : j = k
        · subst hj
          split
          · rename_i hv; subst hv; simp only [Mem.byte, if_neg hik, if_pos hk, if_true]
          · simp [Mem.byte]
        · rw [if_neg hj]
          split
          · rfl
          · simp only [Mem.byte, if_neg (Ne.symm hj)]
            by_cases hl : j < k
            · rw [if_pos hl, if_neg (by omega), if_pos (by omega)]
            · rw [if_neg hl]
      · rw [if_neg hk]
        simp only [Mem.byte]
        by_cases hj : j = k
        · subst hj
          rw [if_neg hik, if_neg (by omega), ih h3, if_pos rfl]
          rw [if_pos rfl]
        · rw [if_neg hj]
          split
          · rfl
          · split
            · rfl
            · rw [ih h3, if_neg hj]

/-- A read of one byte after a write of one byte. -/
theorem Mem.byte_set {m : Mem} (k j : Nat) (v : Byte) (h : m.wf = true) :
    (m.set k v).byte j = if j = k then v else m.byte j := Mem.byte_set_above k j v h

/-- Bytes written from an address: an address outside them reads as before. -/
theorem Mem.byte_put_outside {m : Mem} (a j : Nat) (bs : List Byte) (h : m.wf = true) (hj : j < a ∨ a + bs.length ≤ j) :
    (m.put a bs).byte j = m.byte j := by
  induction bs generalizing m a with
  | nil => rfl
  | cons b bs ih =>
    simp only [List.length_cons] at hj
    simp only [Mem.put]
    rw [ih (a + 1) (Mem.wf_set a b h) (by omega), Mem.byte_set a j b h, if_neg (by omega)]

/-- Bytes written from an address read back. -/
theorem Mem.byte_put_inside {m : Mem} (a n : Nat) (bs : List Byte) (h : m.wf = true) (hn : n < bs.length) :
    (m.put a bs).byte (a + n) = bs.getD n 0 := by
  induction bs generalizing m a n with
  | nil => simp at hn
  | cons b bs ih =>
    simp only [Mem.put]
    cases n with
    | zero =>
      rw [Mem.byte_put_outside (a + 1) (a + 0) bs (Mem.wf_set a b h) (by omega), Nat.add_zero, Mem.byte_set a a b h, if_pos rfl]
      rfl
    | succ n =>
      have := ih (m := m.set a b) (a + 1) n (Mem.wf_set a b h) (by simpa using hn)
      rw [show a + (n + 1) = a + 1 + n by omega, this]
      rfl

/-- Two canonical memories that read alike are equal. -/
theorem Mem.ext_above {m n : Mem} {lo : Nat} (hm : Mem.above lo m = true) (hn : Mem.above lo n = true)
    (h : ∀ k, m.byte k = n.byte k) : m = n := by
  induction m generalizing n lo with
  | nil =>
    cases n with
    | nil => rfl
    | cons c t =>
      obtain ⟨i, w⟩ := c
      simp only [Mem.above, Bool.and_eq_true, decide_eq_true_eq] at hn
      have := h i
      simp only [Mem.byte, if_true] at this
      exact absurd this.symm (by simpa using hn.1.2)
  | cons c t ih =>
    obtain ⟨i, w⟩ := c
    have hm' := hm
    simp only [Mem.above, Bool.and_eq_true, decide_eq_true_eq] at hm
    cases n with
    | nil =>
      have := h i
      simp only [Mem.byte, if_true] at this
      exact absurd this (by simpa using hm.1.2)
    | cons d u =>
      obtain ⟨j, x⟩ := d
      have hn' := hn
      simp only [Mem.above, Bool.and_eq_true, decide_eq_true_eq] at hn
      have hi := h i
      have hj := h j
      simp only [Mem.byte, if_true] at hi hj
      have hij : i = j := by
        rcases Nat.lt_trichotomy i j with hl | he | hl
        · rw [if_neg (by omega), if_pos hl] at hi
          exact absurd hi (by simpa using hm.1.2)
        · exact he
        · rw [if_neg (by omega), if_pos hl] at hj
          exact absurd hj.symm (by simpa using hn.1.2)
      subst hij
      rw [if_pos rfl] at hi
      subst hi
      congr 1
      refine ih hm.2 hn.2 (fun k => ?_)
      have hk := h k
      simp only [Mem.byte] at hk
      by_cases hki : i = k
      · subst hki
        rw [Mem.byte_below hm.2 (by omega), Mem.byte_below hn.2 (by omega)]
      · rw [if_neg hki, if_neg hki] at hk
        by_cases hl : k < i
        · rw [Mem.byte_below hm.2 (by omega), Mem.byte_below hn.2 (by omega)]
        · rwa [if_neg hl, if_neg hl] at hk

/-- Equal memories are equal data. -/
theorem Mem.ext {m n : Mem} (hm : m.wf = true) (hn : n.wf = true) (h : ∀ k, m.byte k = n.byte k) : m = n :=
  Mem.ext_above hm hn h

end Sys2Proof
end

