-- ==== Sys2Proof/Laws/State.lean ====
section
/-! SUPPORT. Laws of the state's accessors: what each update gives at each reading, so that no proof unfolds a record update. -/

namespace Sys2Proof.Machine

/-! ### Packages -/

section Packages

variable (s : State) (p q : Nat) (k : Package) (f : Package → Package)

@[simp] theorem State.setPkg_mem : (s.setPkg p k).mem = s.mem := rfl
@[simp] theorem State.setPkg_clock : (s.setPkg p k).clock = s.clock := rfl
@[simp] theorem State.setPkg_time : (s.setPkg p k).time = s.time := rfl
@[simp] theorem State.setPkg_free : (s.setPkg p k).free = s.free := rfl
@[simp] theorem State.setPkg_agenda : (s.setPkg p k).agenda = s.agenda := rfl
@[simp] theorem State.setPkg_cur : (s.setPkg p k).cur = s.cur := rfl
@[simp] theorem State.setPkg_curB : (s.setPkg p k).curB = s.curB := rfl
@[simp] theorem State.setPkg_prior : (s.setPkg p k).prior = s.prior := rfl
@[simp] theorem State.setPkg_wants : (s.setPkg p k).wants = s.wants := rfl
@[simp] theorem State.setPkg_upset : (s.setPkg p k).upset = s.upset := rfl
@[simp] theorem State.modPkg_mem : (s.modPkg p f).mem = s.mem := rfl
@[simp] theorem State.modPkg_clock : (s.modPkg p f).clock = s.clock := rfl
@[simp] theorem State.modPkg_time : (s.modPkg p f).time = s.time := rfl
@[simp] theorem State.modPkg_free : (s.modPkg p f).free = s.free := rfl
@[simp] theorem State.modPkg_agenda : (s.modPkg p f).agenda = s.agenda := rfl
@[simp] theorem State.modPkg_cur : (s.modPkg p f).cur = s.cur := rfl
@[simp] theorem State.modPkg_curB : (s.modPkg p f).curB = s.curB := rfl
@[simp] theorem State.modPkg_prior : (s.modPkg p f).prior = s.prior := rfl
@[simp] theorem State.modPkg_wants : (s.modPkg p f).wants = s.wants := rfl
@[simp] theorem State.modPkg_upset : (s.modPkg p f).upset = s.upset := rfl
@[simp] theorem State.event_mem (page : Nat) (r : Rec) : (s.event p page r).mem = s.mem := rfl

theorem State.pkg_setPkg : (s.setPkg p k).pkg q = if q = p then k else s.pkg q := tget_tput _ _ _ _ _
@[simp] theorem State.pkg_setPkg_same : (s.setPkg p k).pkg p = k := by simp [State.pkg_setPkg]
theorem State.pkg_modPkg : (s.modPkg p f).pkg q = if q = p then f (s.pkg p) else s.pkg q := State.pkg_setPkg _ _ _ _
@[simp] theorem State.pkg_modPkg_same : (s.modPkg p f).pkg p = f (s.pkg p) := by simp [State.pkg_modPkg]
theorem State.pkg_modPkg_other (h : q ≠ p) : (s.modPkg p f).pkg q = s.pkg q := by simp [State.pkg_modPkg, h]

theorem State.sameWorld_modPkg : SameWorld s (s.modPkg p f) := ⟨rfl, rfl, rfl, rfl, rfl, rfl, rfl, rfl, rfl, rfl⟩

end Packages

theorem SameWorld.refl (s : State) : SameWorld s s := ⟨rfl, rfl, rfl, rfl, rfl, rfl, rfl, rfl, rfl, rfl⟩
theorem SameWorld.trans {s t u : State} (h : SameWorld s t) (k : SameWorld t u) : SameWorld s u :=
  ⟨k.mem.trans h.mem, k.clock.trans h.clock, k.time.trans h.time, k.free.trans h.free, k.agenda.trans h.agenda,
    k.cur.trans h.cur, k.curB.trans h.curB, k.prior.trans h.prior, k.wants.trans h.wants, k.upset.trans h.upset⟩

/-! ### Teams, groups and threads -/

section Teams

variable (s : State) (p c : Nat)

theorem State.team?_setTeam (q d : Nat) (t : Team) :
    (s.setTeam p c t).team? q d = if q = p ∧ d = c then some t else s.team? q d := by
  simp only [State.team?, State.setTeam, State.pkg_modPkg]
  by_cases h : q = p
  · subst h; simp [tfind_tput]
  · simp [h]

@[simp] theorem State.team?_setTeam_same (t : Team) : (s.setTeam p c t).team? p c = some t := by
  simp [State.team?_setTeam]

theorem State.pkg_setTeam (q : Nat) (t : Team) :
    (s.setTeam p c t).pkg q = if q = p then { s.pkg p with teams := tput (s.pkg p).teams c t } else s.pkg q :=
  State.pkg_modPkg _ _ _ _

theorem State.modTeam_some {t : Team} (f : Team → Team) (h : s.team? p c = some t) : s.modTeam p c f = s.setTeam p c (f t) := by
  simp [State.modTeam, h]
theorem State.modTeam_none (f : Team → Team) (h : s.team? p c = none) : s.modTeam p c f = s := by
  simp [State.modTeam, h]

theorem State.team?_modTeam (f : Team → Team) : (s.modTeam p c f).team? p c = (s.team? p c).map f := by
  cases h : s.team? p c with
  | none => simp [State.modTeam_none, h]
  | some t => simp [State.modTeam_some _ _ _ _ h]

theorem State.sameWorld_modTeam (f : Team → Team) : SameWorld s (s.modTeam p c f) := by
  unfold State.modTeam
  split
  · exact State.sameWorld_modPkg _ _ _
  · exact SameWorld.refl _

@[simp] theorem State.modTeam_mem (f : Team → Team) : (s.modTeam p c f).mem = s.mem := (State.sameWorld_modTeam s p c f).mem

end Teams

theorem Team.group_setGroup (t : Team) (g h : Nat) (x : Group) : (t.setGroup g x).group h = if h = g then x else t.group h :=
  tget_tput _ _ _ _ _
@[simp] theorem Team.group_setGroup_same (t : Team) (g : Nat) (x : Group) : (t.setGroup g x).group g = x := by
  simp [Team.group_setGroup]
theorem Team.group_modGroup (t : Team) (g h : Nat) (f : Group → Group) :
    (t.modGroup g f).group h = if h = g then f (t.group g) else t.group h := Team.group_setGroup _ _ _ _
@[simp] theorem Team.group_modGroup_same (t : Team) (g : Nat) (f : Group → Group) : (t.modGroup g f).group g = f (t.group g) := by
  simp [Team.group_modGroup]
@[simp] theorem Team.shell_setGroup (t : Team) (g : Nat) (x : Group) : (t.setGroup g x).shell = t.shell := rfl
@[simp] theorem Team.shell_modGroup (t : Team) (g : Nat) (f : Group → Group) : (t.modGroup g f).shell = t.shell := rfl

theorem Group.thread_setThread (x : Group) (l m : Nat) (t : Thread) :
    (x.setThread l t).thread m = if m = l then t else x.thread m := tget_tput _ _ _ _ _
theorem Group.thread_modThread (x : Group) (l m : Nat) (f : Thread → Thread) :
    (x.modThread l f).thread m = if m = l then f (x.thread l) else x.thread m := Group.thread_setThread _ _ _ _
@[simp] theorem Group.shell_setThread (x : Group) (l : Nat) (t : Thread) : (x.setThread l t).shell = x.shell := rfl
@[simp] theorem Group.shell_modThread (x : Group) (l : Nat) (f : Thread → Thread) : (x.modThread l f).shell = x.shell := rfl

theorem Group.shell_arrive (x : Group) (pc : Pc) (n : Nat) (y : Bool) (cl : Option Clause) :
    (x.arrive pc n y cl).shell = x.shell := by
  unfold Group.arrive; split <;> rfl
theorem Group.thread_arrive (x : Group) (pc : Pc) (n : Nat) (y : Bool) (cl : Option Clause) (l : Nat) :
    (x.arrive pc n y cl).thread l = x.thread l := by
  unfold Group.arrive; split <;> rfl

/-- The thread of a group of a team that is there. -/
theorem State.thread_of_team {s : State} {p c : Nat} {t : Team} (h : s.team? p c = some t) (g l : Nat) :
    s.thread p c g l = t.thread g l := by simp [State.thread, h]

/-! ### Frames -/

theorem OnlyGroup.refl {s : State} {p c g : Nat} {t : Team} (h : s.team? p c = some t) : OnlyGroup p c g s s :=
  ⟨SameWorld.refl s, fun _ _ => rfl, rfl, fun _ => rfl, fun _ _ => rfl, t, t, h, h, rfl, rfl, fun _ _ => rfl⟩

theorem OnlyGroup.trans {s t u : State} {p c g : Nat} (h : OnlyGroup p c g s t) (k : OnlyGroup p c g t u) : OnlyGroup p c g s u := by
  obtain ⟨a, b, ha, hb, h1, h2, h3⟩ := h.team
  obtain ⟨b', d, hb', hd, k1, k2, k3⟩ := k.team
  obtain rfl : b = b' := by rw [hb] at hb'; exact Option.some.inj hb'
  exact ⟨h.world.trans k.world, fun q hq => (k.others q hq).trans (h.others q hq), k.pkg.trans h.pkg,
    fun d => (k.dies d).trans (h.dies d), fun d hd => (k.teams d hd).trans (h.teams d hd),
    a, d, ha, hd, k1.trans h1, k2.trans h2, fun x hx => (k3 x hx).trans (h3 x hx)⟩

/-- A group changed but for its shell. -/
theorem OnlyGroup.setTeam {s : State} {p c g : Nat} {a b : Team} (h : s.team? p c = some a) (h1 : b.shell = a.shell)
    (h2 : (b.group g).shell = (a.group g).shell) (h3 : ∀ x, x ≠ g → b.group x = a.group x) :
    OnlyGroup p c g s (s.setTeam p c b) := by
  refine ⟨⟨rfl, rfl, rfl, rfl, rfl, rfl, rfl, rfl, rfl, rfl⟩, fun q hq => ?_, ?_, fun d => ?_, fun d hd => ?_, a, b, h, by simp, h1, h2, h3⟩
  · rw [State.pkg_setTeam, if_neg hq]
  · rw [State.pkg_setTeam, if_pos rfl]; rfl
  · simp only [State.die, State.pkg_setTeam, if_true]; rfl
  · rw [State.team?_setTeam]; simp [hd]

theorem OnlyGroup.modGroup {s : State} {p c g : Nat} {a : Team} (h : s.team? p c = some a) (f : Group → Group)
    (hf : (f (a.group g)).shell = (a.group g).shell) : OnlyGroup p c g s (s.modGroup p c g f) := by
  unfold State.modGroup
  rw [State.modTeam_some _ _ _ _ h]
  exact OnlyGroup.setTeam h rfl (by simpa using hf) (fun x hx => by simp [Team.group_modGroup, hx])

end Sys2Proof.Machine
end

