-- ==== Sys2Proof/Laws/Issue.lean ====
section
/-! SUPPORT. What the issue of one instruction word can do: the law of words whose effect at a lane is on that lane's thread alone, with
their frame, and its instances for words with a fixed-latency, a deferred or a predicate result. -/

namespace Sys2Proof.Machine

theorem Team.nodup_runLanes (t : Team) (g : Nat) (pc : Pc) : (t.runLanes g pc).Nodup :=
  List.Nodup.sublist List.filter_sublist List.nodup_range

/-- What `iss?` says of the state. -/
theorem State.iss?_team {s : State} {u : Iss} (h : s.iss? = some u) :
    ∃ t, s.team? u.pkg u.ctx = some t ∧ t.stop = none ∧ t.place.isSome = true ∧ u.lanes = t.runLanes u.group u.pc := by
  unfold State.iss? at h
  split at h
  · simp at h
  · rename_i t ht
    split at h
    · simp at h
    · rename_i hs
      split at h
      · simp at h
      · obtain rfl := Option.some.inj h
        refine ⟨t, ht, ?_, ?_, rfl⟩ <;> cases hx : t.stop <;> cases hy : t.place <;> simp_all

theorem State.iss?_nodup {s : State} {u : Iss} (h : s.iss? = some u) : u.lanes.Nodup := by
  obtain ⟨t, _, _, _, hl⟩ := State.iss?_team h
  rw [hl]; exact t.nodup_runLanes _ _

/-! ### Lanes that move and park -/

section Moves

variable {s : State} {p c g : Nat} {a : Team}

theorem State.modGroup_some (h : s.team? p c = some a) (f : Group → Group) :
    s.modGroup p c g f = s.setTeam p c (a.modGroup g f) := by
  unfold State.modGroup; rw [State.modTeam_some _ _ _ _ h]

theorem State.thread_modGroup (h : s.team? p c = some a) (f : Group → Group) (l : Nat) :
    (s.modGroup p c g f).thread p c g l = (f (a.group g)).thread l := by
  rw [State.modGroup_some h, State.thread_of_team (State.team?_setTeam_same _ _ _ _), Team.thread]; simp

theorem State.thread_modThread (h : s.team? p c = some a) (f : Thread → Thread) (l m : Nat) :
    (s.modThread p c g l f).thread p c g m = if m = l then f (s.thread p c g l) else s.thread p c g m := by
  unfold State.modThread
  rw [State.thread_modGroup h, Group.thread_modThread, State.thread_of_team h, State.thread_of_team h]; rfl

theorem OnlyGroup.modThread (h : s.team? p c = some a) (f : Thread → Thread) (l : Nat) :
    OnlyGroup p c g s (s.modThread p c g l f) := OnlyGroup.modGroup h _ rfl

theorem OnlyGroup.moveLane (h : s.team? p c = some a) (l : Nat) (pc : Pc) (cl : Option Clause) :
    OnlyGroup p c g s (s.moveLane p c g l pc cl) :=
  OnlyGroup.modGroup h _ (by simp [Group.shell_arrive])

theorem State.thread_moveLane (h : s.team? p c = some a) (l m : Nat) (pc : Pc) (cl : Option Clause) :
    (s.moveLane p c g l pc cl).thread p c g m = if m = l then { s.thread p c g l with pc := pc } else s.thread p c g m := by
  unfold State.moveLane
  rw [State.thread_modGroup h]
  simp only [Group.thread_arrive, Group.thread_modThread]
  rw [State.thread_of_team h, State.thread_of_team h]; rfl

end Moves

theorem OnlyGroup.team_some {s t : State} {p c g : Nat} (h : OnlyGroup p c g s t) : ∃ b, t.team? p c = some b := by
  obtain ⟨_, b, _, hb, _⟩ := h.team; exact ⟨b, hb⟩

/-- Outside a region no result is stopped at a park. -/
theorem Thread.put_noRegion {t : Thread} (h : t.region = none) (k : Nat) (v : Word × Bool) :
    t.put k v = some { t with regs := tput t.regs k v.1, dfb := tput t.dfb k v.2 } := by
  simp [Thread.put, Thread.logReg, h]

theorem Thread.putFrom_noRegion {t : Thread} (h : t.region = none) (k : Nat) (vs : List (Word × Bool)) :
    ∃ u, t.putFrom k vs = some u ∧ u.region = none := by
  induction vs generalizing t k with
  | nil => exact ⟨t, rfl, h⟩
  | cons v vs ih =>
    simp only [Thread.putFrom, Thread.put_noRegion h]
    exact ih (t := { t with regs := tput t.regs k v.1, dfb := tput t.dfb k v.2 }) h (k + 1)

theorem Thread.putRun_noRegion {t : Thread} (h : t.region = none) (d : Reg) (vs : List (Word × Bool)) :
    ∃ u, t.putRun d vs = some u ∧ u.region = none := by
  unfold Thread.putRun
  split
  · exact ⟨t, rfl, h⟩
  · exact Thread.putFrom_noRegion h _ vs

@[simp] theorem Thread.raise_zero (t : Thread) : t.raise 0 = t := by cases t; simp [Thread.raise]

theorem Thread.region_setPred (t : Thread) (p : PredIx) (b : Bool) : (t.setPred p b).region = t.region := by
  unfold Thread.setPred; split <;> rfl

theorem Thread.landAll_noRegion {t : Thread} (h : t.region = none) (rs : List Pend) :
    (t.landAll rs).2 = none ∧ (t.landAll rs).1.region = none := by
  induction rs generalizing t with
  | nil => exact ⟨rfl, h⟩
  | cons r rs ih =>
    simp only [Thread.landAll, Thread.land]
    split
    · rename_i u hu
      apply ih
      split at hu
      · obtain rfl := Option.some.inj hu
        exact (Thread.region_setPred _ _ _).trans h
      · split at hu
        · obtain ⟨v, hv, hr⟩ := Thread.putRun_noRegion h (BitVec.ofNat 9 r.dst) r.vals
          rw [hv] at hu; simp only [Option.map_some] at hu
          obtain rfl := Option.some.inj hu
          exact hr
        · obtain ⟨v, hv, hr⟩ := Thread.putRun_noRegion h (BitVec.ofNat 9 r.dst) r.vals.dropLast
          rw [hv] at hu; simp only [Option.map_some] at hu
          obtain rfl := Option.some.inj hu
          exact (Thread.region_setPred _ _ _).trans hr
    · rename_i hu
      split at hu
      · simp at hu
      · split at hu
        · obtain ⟨v, hv, hr⟩ := Thread.putRun_noRegion h (BitVec.ofNat 9 r.dst) r.vals
          rw [hv] at hu; simp at hu
        · obtain ⟨v, hv, hr⟩ := Thread.putRun_noRegion h (BitVec.ofNat 9 r.dst) r.vals.dropLast
          rw [hv] at hu; simp at hu

theorem Thread.parkNow_noRegion {t : Thread} (h : t.region = none) : t.parkNow.2 = none ∧ t.parkNow.1.region = none := by
  have := Thread.landAll_noRegion h t.pend
  unfold Thread.parkNow
  split
  · rename_i u hu; rw [hu] at this; exact ⟨rfl, this.2⟩
  · rename_i r hr; rw [hr] at this; cases this.1

/-- What a park writes: registers, their deferred-fault bits, predicates and flags, and the undo log of a region. -/
structure Thread.Rest (t x : Thread) : Prop where
  pc : x.pc = t.pc
  st : x.st = t.st
  m : x.m = t.m
  pm : x.pm = t.pm
  inh : x.inh = t.inh
  wait : x.wait = t.wait
  txPc : x.txPc = t.txPc
  yielded : x.yielded = t.yielded

theorem Thread.Rest.refl (t : Thread) : t.Rest t := ⟨rfl, rfl, rfl, rfl, rfl, rfl, rfl, rfl⟩
theorem Thread.Rest.trans {a b d : Thread} (h : a.Rest b) (k : b.Rest d) : a.Rest d :=
  ⟨k.pc.trans h.pc, k.st.trans h.st, k.m.trans h.m, k.pm.trans h.pm, k.inh.trans h.inh, k.wait.trans h.wait, k.txPc.trans h.txPc,
    k.yielded.trans h.yielded⟩

theorem Thread.putRun_rest {t x : Thread} {d : Reg} {vs : List (Word × Bool)} (h : t.putRun d vs = some x) : t.Rest x := by
  unfold Thread.putRun at h
  split at h
  · obtain rfl := Option.some.inj h; exact .refl _
  · revert h
    generalize d.toNat = k
    induction vs generalizing t k with
    | nil => intro h; obtain rfl := Option.some.inj h; exact .refl _
    | cons v vs ih =>
      intro h
      simp only [Thread.putFrom, Thread.put] at h
      split at h
      · cases h
      · rename_i y hy
        split at hy
        · cases hy
        · rename_i z hz
          obtain rfl := Option.some.inj hy
          have hzr : t.Rest z := by
            unfold Thread.logReg at hz
            split at hz
            · obtain rfl := Option.some.inj hz; exact .refl _
            · split at hz
              · obtain rfl := Option.some.inj hz; exact .refl _
              · split at hz
                · cases hz
                · obtain rfl := Option.some.inj hz; exact ⟨rfl, rfl, rfl, rfl, rfl, rfl, rfl, rfl⟩
          have : z.Rest { z with regs := tput z.regs k v.1, dfb := tput z.dfb k v.2 } := ⟨rfl, rfl, rfl, rfl, rfl, rfl, rfl, rfl⟩
          exact (hzr.trans this).trans (ih _ h)

theorem Thread.land_rest {t x : Thread} {r : Pend} (h : t.land r = some x) : t.Rest x := by
  unfold Thread.land at h
  split at h
  · obtain rfl := Option.some.inj h
    unfold Thread.setPred
    split <;> exact ⟨rfl, rfl, rfl, rfl, rfl, rfl, rfl, rfl⟩
  · split at h
    · obtain ⟨y, hp, rfl⟩ := Option.map_eq_some_iff.1 h
      exact (Thread.putRun_rest hp).trans ⟨rfl, rfl, rfl, rfl, rfl, rfl, rfl, rfl⟩
    · obtain ⟨y, hp, rfl⟩ := Option.map_eq_some_iff.1 h
      exact (Thread.putRun_rest hp).trans (by unfold Thread.setPred; split <;> exact ⟨rfl, rfl, rfl, rfl, rfl, rfl, rfl, rfl⟩)

theorem Thread.landAll_rest (t : Thread) (rs : List Pend) : t.Rest (t.landAll rs).1 := by
  induction rs generalizing t with
  | nil => exact .refl _
  | cons r rs ih =>
    simp only [Thread.landAll]
    split
    · rename_i x hx; exact (Thread.land_rest hx).trans (ih _)
    · exact .refl _

theorem Thread.revert_rest (t : Thread) (r : Pend) : t.Rest (t.revert r) := by
  unfold Thread.revert; split <;> exact ⟨rfl, rfl, rfl, rfl, rfl, rfl, rfl, rfl⟩

theorem Thread.cleared_rest (t : Thread) : t.Rest t.cleared := ⟨rfl, rfl, rfl, rfl, rfl, rfl, rfl, rfl⟩

theorem Thread.parkNow_rest (t : Thread) : t.Rest t.parkNow.1 := by
  unfold Thread.parkNow
  split
  · rename_i u hu
    have := t.landAll_rest t.pend
    rw [hu] at this
    exact this.trans u.cleared_rest
  · rename_i r hr
    exact ((t.revert_rest r).trans (Thread.landAll_rest _ _)).trans (Thread.cleared_rest _)

/-- A second park writes nothing. -/
theorem Thread.parkNow_parkNow (t : Thread) : t.parkNow.1.parkNow.1 = t.parkNow.1 := by
  have : ∀ x : Thread, x.pend = [] → x.defCount = 0 → x.parkDue = false → x.parkNow.1 = x := by
    intro x h1 h2 h3
    unfold Thread.parkNow
    rw [h1]
    cases x
    simp_all [Thread.landAll, Thread.cleared]
  have h : t.parkNow.1.pend = [] ∧ t.parkNow.1.defCount = 0 ∧ t.parkNow.1.parkDue = false := by
    unfold Thread.parkNow; split <;> exact ⟨rfl, rfl, rfl⟩
  exact this _ h.1 h.2.1 h.2.2

theorem Thread.parked_rest (t : Thread) (b : Bool) : (t.parked b).pc = t.pc := by
  unfold Thread.parked
  split
  · split
    · exact t.parkNow_rest.pc
    · rfl
  · rfl

section Parks

variable {s : State} {p c g : Nat} {a : Team}

theorem State.parkLane_none (s : State) (p c g l : Nat) (h : (s.thread p c g l).parkNow.2 = none) :
    s.parkLane p c g l = s.setThread p c g l ((s.thread p c g l).parked true) := by
  unfold State.parkLane Thread.parked
  simp only [if_true]
  split
  · split
    · rename_i x hx; rw [hx]
    · rename_i x r hx; rw [hx] at h; simp at h
  · rfl

theorem State.parkLane_eq (s : State) (p c g l : Nat) (h : (s.thread p c g l).region = none) :
    s.parkLane p c g l = s.setThread p c g l ((s.thread p c g l).parked true) :=
  State.parkLane_none s p c g l (Thread.parkNow_noRegion h).1

theorem Iss.finish_done (u : Iss) (park : Bool) (l : Nat) (ht : s.team? u.pkg u.ctx = some a)
    (hr : (u.thread s l).region = none) :
    OnlyGroup u.pkg u.ctx u.group s (u.finish park l .done s) ∧
      ∀ m, u.thread (u.finish park l .done s) m =
        if m = l then ({ u.thread s l with pc := u.next } : Thread).parked park else u.thread s m := by
  have h1 := OnlyGroup.moveLane (g := u.group) ht l u.next u.nextClause
  have h2 := State.thread_moveLane (g := u.group) ht l
  obtain ⟨b, hb⟩ := h1.team_some
  simp only [Iss.finish, Iss.thread] at *
  cases park with
  | false =>
    refine ⟨h1, fun m => ?_⟩
    simp only [Bool.false_eq_true, if_false]
    rw [h2]; simp [Thread.parked]
  | true =>
    simp only [if_true]
    have hl : ((s.moveLane u.pkg u.ctx u.group l u.next u.nextClause).thread u.pkg u.ctx u.group l).region = none := by
      rw [h2]; simpa using hr
    rw [State.parkLane_eq _ _ _ _ _ hl]
    refine ⟨h1.trans (OnlyGroup.modThread hb _ l), fun m => ?_⟩
    unfold State.setThread
    rw [State.thread_modThread hb]
    by_cases hm : m = l
    · subst hm; simp [h2]
    · simp [hm, h2]

end Parks

/-! ### The issue -/

section Shells

variable {a b : Team} (h : b.shell = a.shell)
include h

theorem Team.stop_of_shell : b.stop = a.stop := (congrArg Team.stop h : b.shell.stop = a.shell.stop)
theorem Team.tmpl_of_shell : b.tmpl = a.tmpl := (congrArg Team.tmpl h : b.shell.tmpl = a.shell.tmpl)
theorem Team.place_of_shell : b.place = a.place := (congrArg Team.place h : b.shell.place = a.shell.place)
theorem Team.mirror_of_shell : b.mirror = a.mirror := (congrArg Team.mirror h : b.shell.mirror = a.shell.mirror)
theorem Team.inst_of_shell : b.inst = a.inst := (congrArg Team.inst h : b.shell.inst = a.shell.inst)
theorem Team.arg_of_shell : b.arg = a.arg := (congrArg Team.arg h : b.shell.arg = a.shell.arg)

end Shells

theorem Group.thread_ents (x : Group) (e : Table Ent) (l : Nat) : ({ x with ents := e } : Group).thread l = x.thread l := rfl

/-- What frames keep of the team. -/
theorem OnlyGroup.alive {s t : State} {u : Iss} (h : OnlyGroup u.pkg u.ctx u.group s t) : u.alive t = u.alive s := by
  obtain ⟨a, b, ha, hb, h1, _⟩ := h.team
  have : b.stop = a.stop := Team.stop_of_shell h1
  simp [Iss.alive, Iss.team, ha, hb, this]

theorem OnlyGroup.nregs {s t : State} {u : Iss} (h : OnlyGroup u.pkg u.ctx u.group s t) : u.nregs t = u.nregs s := by
  obtain ⟨a, b, ha, hb, h1, _⟩ := h.team
  have : b.tmpl = a.tmpl := Team.tmpl_of_shell h1
  simp [Iss.nregs, Iss.team, ha, hb, this]

theorem OnlyGroup.before {s t : State} {u : Iss} (h : OnlyGroup u.pkg u.ctx u.group s t) (k : Pre) (th : Thread) :
    u.before k t th = u.before k s th := by
  unfold Iss.before; rw [h.nregs]

theorem OnlyGroup.stamp {s : State} {u : Iss} {a : Team} (h : s.team? u.pkg u.ctx = some a) :
    OnlyGroup u.pkg u.ctx u.group s (u.stamp s) := OnlyGroup.modGroup h _ rfl

theorem Iss.thread_stamp {s : State} {u : Iss} {a : Team} (h : s.team? u.pkg u.ctx = some a) (l : Nat) :
    u.thread (u.stamp s) l = u.thread s l := by
  unfold Iss.stamp Iss.thread
  rw [State.thread_modGroup h, State.thread_of_team h]; rfl

theorem OnlyGroup.portNext {s : State} {u : Iss} {a : Team} (h : s.team? u.pkg u.ctx = some a) :
    OnlyGroup u.pkg u.ctx u.group s (u.portNext s) ∧ ∀ l, u.thread (u.portNext s) l = u.thread s l := by
  unfold Iss.portNext Iss.team
  rw [h]
  simp only
  constructor
  · apply OnlyGroup.setTeam h
    · rfl
    · simp only [Team.sweepEnts, Team.group_modGroup_same]
      split
      · simp only [Group.setPort]; split <;> rfl
      · simp only [Group.freePort]; split <;> rfl
    · intro x hx; simp [Team.sweepEnts, Team.group_modGroup, hx]
  · intro l
    unfold Iss.thread
    rw [State.thread_of_team (State.team?_setTeam_same _ _ _ _), State.thread_of_team h]
    simp only [Team.thread, Team.sweepEnts, Team.group_modGroup_same]
    split
    · simp only [Group.setPort]; split <;> rfl
    · simp only [Group.freePort]; split <;> rfl

/-- A lane's YIELD mark goes where it has left the clause's last word. -/
def Thread.unyield (th : Thread) (last : Pc) : Thread := { th with yielded := th.yielded && !(th.pc != last) }

theorem Thread.unyield_unyield (th : Thread) (last : Pc) : (th.unyield last).unyield last = th.unyield last := by
  simp [Thread.unyield]

/-- The YIELD marks are taken at the end of the clause. -/
theorem Team.markYields_spec (t : Team) (g : Nat) (last : Pc) (L : List Nat) :
    (t.markYields g last L).shell = t.shell ∧ ((t.markYields g last L).group g).shell = (t.group g).shell ∧
      (∀ x, x ≠ g → (t.markYields g last L).group x = t.group x) ∧
      ∀ l, (t.markYields g last L).thread g l =
        if l ∈ L then (t.thread g l).unyield last else t.thread g l := by
  induction L generalizing t with
  | nil => simp [Team.markYields]
  | cons m L ih =>
    simp only [Team.markYields, List.foldl_cons]
    generalize hv : (if ((t.thread g m).yielded && (t.thread g m).pc != last) = true then _ else t) = v
    have key : v.shell = t.shell ∧ (v.group g).shell = (t.group g).shell ∧ (∀ x, x ≠ g → v.group x = t.group x) ∧
        ∀ l, v.thread g l = if l = m then (t.thread g l).unyield last else t.thread g l := by
      subst hv
      split
      · rename_i hy
        simp only [Bool.and_eq_true] at hy
        refine ⟨by simp, by simp; rfl, fun x hx => by simp [Team.group_modGroup, hx], fun l => ?_⟩
        simp only [Team.thread, Team.group_modGroup_same]
        rw [Group.thread_ents, Group.thread_modThread]
        split
        · rename_i hlm
          rw [hlm]
          have h2 := hy.2
          simp only [Team.thread] at h2
          simp only [Thread.unyield, h2, Bool.not_true, Bool.and_false]
        · rfl
      · rename_i hy
        refine ⟨rfl, rfl, fun _ _ => rfl, fun l => ?_⟩
        split
        · rename_i hlm
          subst hlm
          generalize t.thread g l = th at hy
          cases th
          simp only [Thread.unyield]
          simp only [Thread.mk.injEq, true_and, and_true]
          revert hy
          cases ‹Bool› <;> simp_all
        · rfl
    obtain ⟨i1, i2, i3, i4⟩ := ih v
    obtain ⟨k1, k2, k3, k4⟩ := key
    simp only [Team.markYields] at i1 i2 i3 i4
    refine ⟨i1.trans k1, i2.trans k2, fun x hx => (i3 x hx).trans (k3 x hx), fun l => ?_⟩
    rw [i4, k4]
    by_cases h1 : l = m <;> by_cases h2 : l ∈ L <;> simp [h1, h2, Thread.unyield_unyield]

theorem OnlyGroup.markYields {s : State} {u : Iss} {a : Team} (h : s.team? u.pkg u.ctx = some a) :
    OnlyGroup u.pkg u.ctx u.group s (s.modTeam u.pkg u.ctx (fun t => t.markYields u.group u.pc u.lanes)) ∧
      ∀ l, u.thread (s.modTeam u.pkg u.ctx (fun t => t.markYields u.group u.pc u.lanes)) l =
        if l ∈ u.lanes then (u.thread s l).unyield u.pc else u.thread s l := by
  rw [State.modTeam_some _ _ _ _ h]
  obtain ⟨h1, h2, h3, h4⟩ := a.markYields_spec u.group u.pc u.lanes
  refine ⟨OnlyGroup.setTeam h h1 h2 h3, fun l => ?_⟩
  unfold Iss.thread
  rw [State.thread_of_team (State.team?_setTeam_same _ _ _ _), State.thread_of_team h, h4]

theorem Package.signal_spec (k : Package) (v : Nat) (on : Bool) :
    (k.signal v on).shell = k.shell ∧ (k.signal v on).teams = k.teams ∧ (k.signal v on).dies = k.dies := by
  unfold Package.signal; split <;> exact ⟨rfl, rfl, rfl⟩

theorem Package.postFaults_spec (fs : List PFault) (k : Package) :
    (fs.foldl (fun k f => k.postFault f) k).shell = k.shell ∧ (fs.foldl (fun k f => k.postFault f) k).teams = k.teams ∧
      (fs.foldl (fun k f => k.postFault f) k).dies = k.dies := by
  induction fs generalizing k with
  | nil => exact ⟨rfl, rfl, rfl⟩
  | cons f fs ih =>
    obtain ⟨h1, h2, h3⟩ := ih (k.postFault f)
    have hp : (k.postFault f).shell = k.shell ∧ (k.postFault f).teams = k.teams ∧ (k.postFault f).dies = k.dies := by
      unfold Package.postFault Package.setFltRing
      exact ⟨(Package.signal_spec _ _ _).1, (Package.signal_spec _ _ _).2.1, (Package.signal_spec _ _ _).2.2⟩
    exact ⟨h1.trans hp.1, h2.trans hp.2.1, h3.trans hp.2.2⟩

theorem OnlyGroup.flushFaults {s : State} {u : Iss} {a : Team} (die : Nat) (h : s.team? u.pkg u.ctx = some a) :
    OnlyGroup u.pkg u.ctx u.group s (s.flushFaults u.pkg die) ∧
      ∀ l, u.thread (s.flushFaults u.pkg die) l = u.thread s l := by
  unfold State.flushFaults
  simp only
  split
  · exact ⟨OnlyGroup.refl h, fun _ => rfl⟩
  · generalize hfs : (s.die u.pkg die).faults.filter (fun f => !f.written) = fs
    obtain ⟨h1, h2, h3⟩ := Package.postFaults_spec fs (s.pkg u.pkg)
    have ht : ∀ q d, ((s.modPkg u.pkg (fun k => fs.foldl (fun k f => k.postFault f) k)).modDie u.pkg die (fun d =>
        { d with faults := d.faults.map (fun f => { f with written := true }) })).team? q d = s.team? q d := by
      intro q d
      simp only [State.team?, State.modDie, State.pkg_modPkg]
      split
      · rename_i hq; subst hq; simp [Package.setDie, h2]
      · rfl
    constructor
    · refine ⟨⟨rfl, rfl, rfl, rfl, rfl, rfl, rfl, rfl, rfl, rfl⟩, fun q hq => ?_, ?_, fun d => ?_, fun d _ => ht _ _, a, a, h, (ht _ _).trans h,
        rfl, rfl, fun _ _ => rfl⟩
      · simp [State.modDie, State.pkg_modPkg, hq]
      · simp only [State.modDie, State.pkg_modPkg, if_true]
        exact h1
      · simp only [State.die, State.modDie, State.pkg_modPkg, if_true, Package.setDie, Package.die]
        rw [tget_tput, h3]
        split
        · rename_i hd; subst hd; rfl
        · rfl
    · intro l
      unfold Iss.thread State.thread
      rw [ht]

/-- What a lane that has its turn does, where the word's effect is on its own thread. -/
def Thread.step (th : Thread) (u : Iss) (c : Ctl) (park : Bool) (F : Thread → Thread) : Thread :=
  if th.guard c then ({ F th with pc := u.next } : Thread).parked park
  else ({ th with pc := u.next } : Thread).parked park

theorem Thread.step_pc (th : Thread) (u : Iss) (c : Ctl) (park : Bool) (F : Thread → Thread) : (th.step u c park F).pc = u.next := by
  unfold Thread.step; split <;> simp [Thread.parked_rest]

theorem Iss.next_ne (u : Iss) : (u.next != u.pc) = true := by
  simp only [Iss.next, bne_iff_ne, ne_eq]
  bv_omega

theorem Iss.ends_next (u : Iss) : u.ends u.next = u.isLast := by simp [Iss.ends, u.next_ne]

/-- A body whose effect at a lane is on that lane's thread. -/
def LocalAt (u : Iss) (c : Ctl) (k : Pre) (body : Iss → Nat → State → State × LaneEnd) (F : Nat → Thread → Thread) (s : State)
    (l : Nat) : Prop :=
  (u.thread s l).guard c = true →
    u.before k s (u.thread s l) = none ∧ (F l (u.thread s l)).region = none ∧
      ∀ t, OnlyGroup u.pkg u.ctx u.group s t → u.thread t l = u.thread s l →
        ∃ t', body u l t = (t', .done) ∧ OnlyGroup u.pkg u.ctx u.group t t' ∧
          ∀ m, u.thread t' m = if m = l then F l (u.thread s l) else u.thread t m

/-- A lane's thread set. -/
theorem Iss.setThread_only {t : State} {u : Iss} {a : Team} (h : t.team? u.pkg u.ctx = some a) (l : Nat) (x : Thread) :
    OnlyGroup u.pkg u.ctx u.group t (u.setThread t l x) ∧
      ∀ m, u.thread (u.setThread t l x) m = if m = l then x else u.thread t m :=
  ⟨OnlyGroup.modThread h _ l, fun m => State.thread_modThread h _ l m⟩

/-- A body that sets its lane's thread. -/
theorem OnlyGroup.bySet {s t : State} {u : Iss} {l : Nat} {x : Thread} {r : State × LaneEnd}
    (h : OnlyGroup u.pkg u.ctx u.group s t) (hr : r = (u.setThread t l x, .done)) :
    ∃ t', r = (t', .done) ∧ OnlyGroup u.pkg u.ctx u.group t t' ∧ ∀ m, u.thread t' m = if m = l then x else u.thread t m := by
  obtain ⟨b, hb⟩ := h.team_some
  exact ⟨_, hr, Iss.setThread_only hb l x⟩

section Run

variable {s : State} {u : Iss} {c : Ctl} {k : Pre} {body : Iss → Nat → State → State × LaneEnd} {F : Nat → Thread → Thread}

theorem Iss.lane_local {t : State} (l : Nat) (hs : OnlyGroup u.pkg u.ctx u.group s t) (ha : u.alive s = true)
    (ht : u.thread t l = u.thread s l) (hr : (u.thread s l).region = none) (hb : LocalAt u c k body F s l) :
    OnlyGroup u.pkg u.ctx u.group s (u.lane c k body t l) ∧
      ∀ m, u.thread (u.lane c k body t l) m =
        if m = l then (u.thread s l).step u c (c.park || k.force) (F l) else u.thread t m := by
  obtain ⟨b, hb'⟩ := hs.team_some
  unfold Iss.lane
  rw [hs.alive, ha, ht]
  simp only [if_true]
  unfold Thread.step
  by_cases hg : (u.thread s l).guard c = true
  · rw [hg]
    obtain ⟨h1, h2, h3⟩ := hb hg
    simp only [Bool.not_true, Bool.false_eq_true, if_false]
    rw [hs.before, h1]
    simp only
    obtain ⟨t', he, o1, e1⟩ := h3 t hs ht
    rw [he]
    simp only
    obtain ⟨d, hd⟩ := o1.team_some
    obtain ⟨o2, e2⟩ := Iss.finish_done u (c.park || k.force) l hd (by rw [e1]; simpa using h2)
    refine ⟨(hs.trans o1).trans o2, fun m => ?_⟩
    rw [e2]
    split
    · rename_i hm; subst hm; rw [e1]; simp
    · rename_i hm; rw [e1, if_neg hm]
  · rw [Bool.not_eq_true] at hg
    rw [hg]
    simp only [Bool.not_false, if_true]
    obtain ⟨o2, e2⟩ := Iss.finish_done u (c.park || k.force) l hb' (by rw [ht]; exact hr)
    refine ⟨hs.trans o2, fun m => ?_⟩
    rw [e2, ht]; rfl

theorem Iss.lanes_local (L : List Nat) (hn : L.Nodup) {t : State} (hs : OnlyGroup u.pkg u.ctx u.group s t) (ha : u.alive s = true)
    (ht : ∀ l ∈ L, u.thread t l = u.thread s l) (hr : ∀ l ∈ L, (u.thread s l).region = none)
    (hb : ∀ l ∈ L, LocalAt u c k body F s l) :
    OnlyGroup u.pkg u.ctx u.group s (L.foldl (fun s l => u.lane c k body s l) t) ∧
      ∀ m, u.thread (L.foldl (fun s l => u.lane c k body s l) t) m =
        if m ∈ L then (u.thread s m).step u c (c.park || k.force) (F m) else u.thread t m := by
  induction L generalizing t with
  | nil => exact ⟨hs, fun m => by simp⟩
  | cons l L ih =>
    obtain ⟨hl, hn⟩ := List.nodup_cons.1 hn
    obtain ⟨o1, e1⟩ := Iss.lane_local (t := t) l hs ha (ht l (by simp)) (hr l (by simp)) (hb l (by simp))
    obtain ⟨o2, e2⟩ := ih hn (t := u.lane c k body t l) o1
      (fun m hm => by rw [e1, if_neg (by rintro rfl; exact hl hm)]; exact ht m (by simp [hm])) (fun m hm => hr m (by simp [hm]))
      (fun m hm => hb m (by simp [hm]))
    simp only [List.foldl_cons]
    refine ⟨o2, fun m => ?_⟩
    rw [e2]
    by_cases h1 : m ∈ L
    · simp [h1]
    · rw [if_neg h1, e1]
      by_cases h2 : m = l
      · simp [h2]
      · simp [h1, h2]

/-- THE LAW of words whose effect at a lane is on that lane's thread alone. -/
theorem Iss.run_local (hi : s.iss? = some u) (hr : ∀ l ∈ u.lanes, (u.thread s l).region = none)
    (hb : ∀ l ∈ u.lanes, LocalAt u c k body F (u.stamp s) l) :
    OnlyGroup u.pkg u.ctx u.group s (u.run c k body s) ∧
      ∀ l, u.thread (u.run c k body s) l =
        if l ∈ u.lanes then
          let x := (u.thread s l).step u c (c.park || k.force) (F l)
          { x with yielded := x.yielded && !u.isLast }
        else u.thread s l := by
  obtain ⟨a, ha, hstop, _, _⟩ := State.iss?_team hi
  have o0 := OnlyGroup.stamp (u := u) ha
  have e0 := Iss.thread_stamp (u := u) ha
  have hal : u.alive (u.stamp s) = true := by rw [o0.alive]; simp [Iss.alive, Iss.team, ha, hstop]
  obtain ⟨b0, hb0⟩ := o0.team_some
  obtain ⟨o1, e1⟩ := Iss.lanes_local (s := u.stamp s) u.lanes (State.iss?_nodup hi) (OnlyGroup.refl hb0) hal (fun _ _ => rfl)
    (fun l hl => by rw [e0]; exact hr l hl) hb
  unfold Iss.run
  simp only
  generalize hs1 : u.lanes.foldl (fun s l => u.lane c k body s l) (u.stamp s) = s1 at o1 e1
  obtain ⟨b1, hb1⟩ := o1.team_some
  generalize hs2 : (if u.isLast then s1.modTeam u.pkg u.ctx (fun t => t.markYields u.group u.pc u.lanes) else s1) = s2
  have key : OnlyGroup u.pkg u.ctx u.group s1 s2 ∧
      ∀ l, u.thread s2 l = if l ∈ u.lanes then { u.thread s1 l with yielded := (u.thread s1 l).yielded && !u.ends (u.thread s1 l).pc }
        else u.thread s1 l := by
    subst hs2
    split
    · rename_i hlast
      obtain ⟨o, e⟩ := OnlyGroup.markYields (u := u) hb1
      exact ⟨o, fun l => by rw [e]; simp [hlast, Iss.ends, Thread.unyield]⟩
    · rename_i hlast
      refine ⟨OnlyGroup.refl hb1, fun l => ?_⟩
      split <;> simp [hlast, Iss.ends]
  obtain ⟨o2, e2⟩ := key
  obtain ⟨b2, hb2⟩ := o2.team_some
  obtain ⟨o3, e3⟩ := OnlyGroup.portNext (u := u) hb2
  obtain ⟨b3, hb3⟩ := o3.team_some
  obtain ⟨o4, e4⟩ := OnlyGroup.flushFaults (u := u) (u.die s2) hb3
  refine ⟨(((o0.trans o1).trans o2).trans o3).trans o4, fun l => ?_⟩
  rw [e4, e3, e2, e1]
  split
  · simp only [e0, Thread.step_pc, Iss.ends_next]
  · exact e0 l

/-- The law for a meaning that never waits at issue. -/
theorem State.issue_local (hi : Issues u s) (hr : NoRegion u s) (hk : k.force = false)
    (hb : ∀ l ∈ u.lanes, LocalAt u c k body F (u.stamp s) l) :
    ∃ t, s.issue c k body = .next t ∧ Did u c F s t := by
  obtain ⟨h1, h2⟩ := hi
  obtain ⟨o, e⟩ := Iss.run_local h1 hr hb
  refine ⟨u.run c k body s, ?_, o, fun l => ?_⟩
  · simp [State.issue, State.issueHold, h1, h2]
  · have := e l
    simp only [Iss.thread] at this
    rw [this]
    unfold Thread.issued
    split
    · simp only [Thread.step, hk, Bool.or_false, Thread.leave, Thread.goTo]
      rw [Iss.ends_next]
      split <;> rfl
    · rfl

end Run

/-! ### Words with a result at a lane -/

section Results

variable {s : State} {u : Iss} {c : Ctl}

theorem Iss.thread_stamp' (hi : s.iss? = some u) (l : Nat) : u.thread (u.stamp s) l = u.thread s l := by
  obtain ⟨a, ha, _⟩ := State.iss?_team hi; exact Iss.thread_stamp ha l

theorem Iss.write_noRegion {t : State} (l : Nat) (d : Reg) (vs : List (Word × Bool)) (fl : BitVec 5)
    (h : (u.thread t l).region = none) :
    u.write l d vs fl t = (u.setThread t l ((u.thread t l).wrote d vs fl), .done) ∧ ((u.thread t l).wrote d vs fl).region = none := by
  obtain ⟨x, hx, hr⟩ := Thread.putRun_noRegion (t := (u.thread t l).raise fl) h d vs
  simp [Iss.write, Thread.wrote, hx, hr]

theorem Iss.before_none {k : Pre} (t : Thread) (h : k.regs = fun _ _ => []) (hf : t.flags k.reads = false)
    (hc : k.counts = true → t.defCount < 16) : u.before k s t = none := by
  unfold Iss.before
  rw [h]
  simp only [regCheck, List.all_nil, Bool.not_true, Bool.false_eq_true, if_false, hf]
  cases hk : k.counts with
  | false => simp
  | true => have := hc hk; simp [Nat.not_le.2 this]

/-- A word with a fixed-latency register result. -/
theorem State.fixed_next (hi : Issues u s) (hr : NoRegion u s) (d : Reg) (os : List Opnd) (f : Thread → List Word × BitVec 5) :
    ∃ t, s.fixed c d os f = .next t ∧
      Did u c (fun _ th => th.wrote d ((f th).1.map (fun w => (w, th.flags os))) (f th).2) s t := by
  apply State.issue_local hi hr rfl
  intro l hl hg
  have hl' : (u.thread (u.stamp s) l).region = none := by rw [Iss.thread_stamp' hi.1]; exact hr l hl
  refine ⟨Iss.before_none _ rfl rfl (by simp), (Iss.write_noRegion l d _ _ hl').2, fun t ho ht => ho.bySet ?_⟩
  simp only [ht]
  have := (Iss.write_noRegion (t := t) (u := u) l d ((f (u.thread (u.stamp s) l)).1.map (fun w => (w, (u.thread (u.stamp s) l).flags os)))
    (f (u.thread (u.stamp s) l)).2 (by rw [ht]; exact hl')).1
  rw [this, ht]

/-- A word with a deferred register result. -/
theorem State.deferred_next (hi : Issues u s) (hr : NoRegion u s) (hc : ∀ l ∈ u.active c s, (u.thread s l).defCount < 16) (d : Reg)
    (os : List Opnd) (f : Thread → List Word × BitVec 5) :
    ∃ t, s.deferred c d os f = .next t ∧
      Did u c (fun _ th => th.defer u.pc d.toNat false ((f th).1.map (fun w => (w, th.flags os))) (f th).2) s t := by
  apply State.issue_local hi hr rfl
  intro l hl hg
  rw [Iss.thread_stamp' hi.1] at hg
  have hl' : (u.thread (u.stamp s) l).region = none := by rw [Iss.thread_stamp' hi.1]; exact hr l hl
  refine ⟨Iss.before_none _ rfl rfl (fun _ => ?_), hl', fun t ho ht => ho.bySet ?_⟩
  · rw [Iss.thread_stamp' hi.1]; exact hc l (List.mem_filter.2 ⟨hl, hg⟩)
  · simp only [Iss.defer, ht]

/-- A word with a fixed-latency predicate result. -/
theorem State.fixedPred_next (hi : Issues u s) (hr : NoRegion u s) (pd : PredIx) (os : List Opnd)
    (hf : ∀ l ∈ u.active c s, (u.thread s l).flags os = false) (f : Thread → Bool × BitVec 5) :
    ∃ t, s.fixedPred c pd os f = .next t ∧ Did u c (fun _ th => (th.setPred pd (f th).1).raise (f th).2) s t := by
  apply State.issue_local hi hr rfl
  intro l hl hg
  rw [Iss.thread_stamp' hi.1] at hg
  have hl' : (u.thread (u.stamp s) l).region = none := by rw [Iss.thread_stamp' hi.1]; exact hr l hl
  refine ⟨Iss.before_none _ rfl ?_ (by simp), (Thread.region_setPred _ _ _).trans hl', fun t ho ht => ho.bySet ?_⟩
  · rw [Iss.thread_stamp' hi.1]; exact hf l (List.mem_filter.2 ⟨hl, hg⟩)
  · simp only [ht]

end Results

end Sys2Proof.Machine
end

