-- ==== Sys2Proof/Laws/One.lean ====
section
/-! SUPPORT. The law of a word that one lane issues: what its own effect gives, and that the end of the word (the lane's move and park, the
port, the marks of YIELD and the fault records) changes nothing else. -/

namespace Sys2Proof.Machine

section One

variable {s m : State} {u : Iss} {c : Ctl} {k : Pre} {l : Nat} {body : Iss → Nat → State → State × LaneEnd}

/-- The end of a word, after its lanes. -/
theorem Iss.tail_frame {a : Team} (h : m.team? u.pkg u.ctx = some a) :
    let m1 := if u.isLast then m.modTeam u.pkg u.ctx (fun t => t.markYields u.group u.pc u.lanes) else m
    let t := (u.portNext m1).flushFaults u.pkg (u.die m1)
    OnlyGroup u.pkg u.ctx u.group m t ∧
      ∀ x, u.thread t x =
        if x ∈ u.lanes then { u.thread m x with yielded := (u.thread m x).yielded && !u.ends (u.thread m x).pc } else u.thread m x := by
  intro m1 t
  have key : OnlyGroup u.pkg u.ctx u.group m m1 ∧ ∀ x, u.thread m1 x =
      if x ∈ u.lanes then { u.thread m x with yielded := (u.thread m x).yielded && !u.ends (u.thread m x).pc } else u.thread m x := by
    simp only [m1]
    split
    · rename_i hlast
      obtain ⟨o, e⟩ := OnlyGroup.markYields (u := u) h
      exact ⟨o, fun l => by rw [e]; simp [hlast, Iss.ends, Thread.unyield]⟩
    · rename_i hlast
      refine ⟨OnlyGroup.refl h, fun l => ?_⟩
      split <;> simp [hlast, Iss.ends]
  obtain ⟨o1, e1⟩ := key
  obtain ⟨b1, hb1⟩ := o1.team_some
  obtain ⟨o2, e2⟩ := OnlyGroup.portNext (u := u) hb1
  obtain ⟨b2, hb2⟩ := o2.team_some
  obtain ⟨o3, e3⟩ := OnlyGroup.flushFaults (u := u) (u.die m1) hb2
  exact ⟨(o1.trans o2).trans o3, fun x => by rw [e3, e2, e1]⟩

theorem Lone.team (h : Lone u c l s) : ∃ a, s.team? u.pkg u.ctx = some a ∧ a.stop = none := by
  obtain ⟨a, ha, hs, _⟩ := State.iss?_team h.issues.1; exact ⟨a, ha, hs⟩

theorem Lone.stamped (h : Lone u c l s) : OnlyGroup u.pkg u.ctx u.group s (u.stamp s) ∧ ∀ x, u.thread (u.stamp s) x = u.thread s x := by
  obtain ⟨a, ha, _⟩ := h.team
  exact ⟨OnlyGroup.stamp ha, fun x => Iss.thread_stamp ha x⟩

/-- The one lane has its turn, from a state `r` that differs from the start at most in the group. -/
theorem Lone.run {r : State} (h : Lone u c l s) (o0 : OnlyGroup u.pkg u.ctx u.group s r) (ht : u.thread r l = u.thread s l)
    (hk : u.before k s (u.thread s l) = none) {e : LaneEnd} (hb : body u l (u.stamp r) = (m, e)) :
    let n := u.finish (c.park || k.force) l e m
    let n1 := if u.isLast then n.modTeam u.pkg u.ctx (fun t => t.markYields u.group u.pc u.lanes) else n
    u.run c k body r = (u.portNext n1).flushFaults u.pkg (u.die n1) := by
  obtain ⟨a, ha, hstop⟩ := h.team
  obtain ⟨b, hb0⟩ := o0.team_some
  have o := o0.trans (OnlyGroup.stamp (u := u) hb0)
  have e0 : u.thread (u.stamp r) l = u.thread s l := by rw [Iss.thread_stamp hb0, ht]
  have hal : u.alive (u.stamp r) = true := by rw [o.alive]; simp [Iss.alive, Iss.team, ha, hstop]
  have hbf : u.before k (u.stamp r) (u.thread s l) = none := by rw [o.before]; exact hk
  unfold Iss.run
  simp only [h.lanes, List.foldl_cons, List.foldl_nil, Iss.lane, hal, if_true, e0, h.guard, Bool.not_true, Bool.false_eq_true, if_false,
    hbf, hb]

/-- How the one lane of an entry ends a word: its thread where the park after it has stopped nothing. -/
theorem Iss.finish_go (u : Iss) (park : Bool) (l : Nat) (pc : Pc) {cl : Option Clause} {a : Team} (hm : m.team? u.pkg u.ctx = some a)
    (hr : park = true → ({ u.thread m l with pc := pc } : Thread).parkNow.2 = none) :
    let n := m.moveLane u.pkg u.ctx u.group l pc cl
    let n := if park then n.parkLane u.pkg u.ctx u.group l else n
    OnlyGroup u.pkg u.ctx u.group m n ∧
      ∀ x, u.thread n x = if x = l then ({ u.thread m l with pc := pc } : Thread).parked park else u.thread m x := by
  have h1 := OnlyGroup.moveLane (g := u.group) hm l pc cl
  have h2 := State.thread_moveLane (g := u.group) hm l
  obtain ⟨b, hb⟩ := h1.team_some
  simp only [Iss.thread] at *
  cases park with
  | false => exact ⟨h1, fun x => by simp only [Bool.false_eq_true, if_false]; rw [h2]; simp [Thread.parked]⟩
  | true =>
    simp only [if_true]
    have hl : ((m.moveLane u.pkg u.ctx u.group l pc cl).thread u.pkg u.ctx u.group l).parkNow.2 = none := by
      rw [h2]; simpa using hr rfl
    rw [State.parkLane_none _ _ _ _ _ hl]
    refine ⟨h1.trans (OnlyGroup.modThread hb _ l), fun x => ?_⟩
    unfold State.setThread
    rw [State.thread_modThread hb]
    by_cases hx : x = l
    · subst hx; simp [h2]
    · simp [hx, h2]

/-- THE LAW of a word whose own effect at its one lane gives `m`, and which goes on or transfers. -/
theorem Lone.ends {r : State} (h : Lone u c l s) (o0 : OnlyGroup u.pkg u.ctx u.group s r) (ht : u.thread r l = u.thread s l)
    (hk : u.before k s (u.thread s l) = none) {e : LaneEnd} {pc : Pc} (he : (e = .done ∧ pc = u.next) ∨ e = .go pc)
    (hb : body u l (u.stamp r) = (m, e)) {a : Team} (hm : m.team? u.pkg u.ctx = some a) {park : Bool}
    (hp : (c.park || k.force) = park) (hr : park = true → ({ u.thread m l with pc := pc } : Thread).parkNow.2 = none) :
    After u l pc park m (u.run c k body r) := by
  subst hp
  rw [h.run o0 ht hk hb]
  have key : OnlyGroup u.pkg u.ctx u.group m (u.finish (c.park || k.force) l e m) ∧
      ∀ x, u.thread (u.finish (c.park || k.force) l e m) x =
        if x = l then ({ u.thread m l with pc := pc } : Thread).parked (c.park || k.force) else u.thread m x := by
    rcases he with ⟨rfl, rfl⟩ | rfl
    · exact Iss.finish_go (cl := u.nextClause) u _ l u.next hm hr
    · exact Iss.finish_go (cl := none) u _ l pc hm hr
  obtain ⟨o1, e1⟩ := key
  obtain ⟨b1, hb1⟩ := o1.team_some
  obtain ⟨o2, e2⟩ := Iss.tail_frame (u := u) hb1
  refine ⟨o1.trans o2, fun x => ?_⟩
  have := e2 x
  simp only [Iss.thread] at this
  rw [this]
  have h1 := e1 x
  simp only [Iss.thread] at h1
  rw [h1, h.lanes]
  by_cases hx : x = l
  · subst hx; simp [Thread.goTo, Thread.parked_rest]
  · simp [hx]

/-- The law where the word goes on. -/
theorem Lone.done (h : Lone u c l s) (hk : u.before k s (u.thread s l) = none) (hb : body u l (u.stamp s) = (m, .done))
    {a : Team} (hm : m.team? u.pkg u.ctx = some a) (hr : (u.thread m l).region = none) {park : Bool} (hp : (c.park || k.force) = park) :
    After u l u.next park m (u.run c k body s) := by
  obtain ⟨b, hb', _⟩ := h.team
  exact h.ends (OnlyGroup.refl hb') rfl hk (.inl ⟨rfl, rfl⟩) hb hm hp (fun _ => (Thread.parkNow_noRegion (by exact hr)).1)

/-- The same for a transfer. -/
theorem Lone.go (h : Lone u c l s) (hk : u.before k s (u.thread s l) = none) {pc : Pc} (hb : body u l (u.stamp s) = (m, .go pc))
    {a : Team} (hm : m.team? u.pkg u.ctx = some a) (hr : (u.thread m l).region = none) {park : Bool} (hp : (c.park || k.force) = park) :
    After u l pc park m (u.run c k body s) := by
  obtain ⟨b, hb', _⟩ := h.team
  exact h.ends (OnlyGroup.refl hb') rfl hk (.inr rfl) hb hm hp (fun _ => (Thread.parkNow_noRegion (by exact hr)).1)

/-- The same where the lane has left its entry or stays in it. -/
theorem Lone.left (h : Lone u c l s) (hk : u.before k s (u.thread s l) = none) {e : LaneEnd} (he : e = .left ∨ e = .parked)
    (hb : body u l (u.stamp s) = (m, e)) {a : Team} (hm : m.team? u.pkg u.ctx = some a) :
    Stays u m (u.run c k body s) := by
  obtain ⟨b, hb', _⟩ := h.team
  rw [h.run (OnlyGroup.refl hb') rfl hk hb]
  have : u.finish (c.park || k.force) l e m = m := by rcases he with rfl | rfl <;> rfl
  simp only [this]
  obtain ⟨o, e⟩ := Iss.tail_frame (u := u) hm
  exact ⟨o, e⟩

/-- The same where the lane waits in the word: a park that follows it is due. -/
theorem Lone.waits {r : State} (h : Lone u c l s) (o0 : OnlyGroup u.pkg u.ctx u.group s r) (ht : u.thread r l = u.thread s l)
    (hk : u.before k s (u.thread s l) = none) (hb : body u l (u.stamp r) = (m, .waiting))
    {a : Team} (hm : m.team? u.pkg u.ctx = some a) :
    Stays u (if c.park || k.force then m.modThread u.pkg u.ctx u.group l (fun t => { t with parkDue := true }) else m)
      (u.run c k body r) := by
  rw [h.run o0 ht hk hb]
  have : u.finish (c.park || k.force) l .waiting m =
      if c.park || k.force then m.modThread u.pkg u.ctx u.group l (fun t => { t with parkDue := true }) else m := rfl
  simp only [this]
  have hm' : ∃ b, (if c.park || k.force then m.modThread u.pkg u.ctx u.group l (fun t => { t with parkDue := true }) else m).team? u.pkg u.ctx
      = some b := by
    split
    · exact (OnlyGroup.modThread hm _ l).team_some
    · exact ⟨a, hm⟩
  obtain ⟨b, hb'⟩ := hm'
  obtain ⟨o, e⟩ := Iss.tail_frame (u := u) hb'
  exact ⟨o, e⟩

/-- A word that never waits at issue. -/
theorem Issues.issue (h : Issues u s) : s.issue c k body = .next (u.run c k body s) := by
  simp [State.issue, State.issueHold, h.1, h.2]

theorem Issues.issueHold (h : Issues u s) {hold : Iss → State → Option State} (hh : hold u s = none) :
    s.issueHold c k hold body = .next (u.run c k body s) := by
  simp [State.issueHold, h.1, h.2, hh]

end One

end Sys2Proof.Machine
end

