-- ==== Sys2Proof/Laws/Xl.lean ====
section
/-! SUPPORT. What reading memory, walks and held translations depend on, and that a held translation leaves the state as it is. -/

namespace Sys2Proof.Machine

/-- What accesses read of a package: its directory and DIES bits, transactions and walks owed, copies, migrations, Turnstile, tables, keys and
L1s. -/
def Package.view (k : Package) : Package :=
  { dir := k.dir, tagDies := k.tagDies, txns := k.txns, walks := k.walks, copies := k.copies, migr := k.migr, turn := k.turn,
    cellTab := k.cellTab, ptroot := k.ptroot, ptrootWalk := k.ptrootWalk, keys := k.keys, cores := k.cores }

theorem Package.dirAt_view (k : Package) (ll : Nat) : k.view.dirAt ll = k.dirAt ll := rfl
theorem Package.avail_view (k : Package) (ll : Nat) (w : Bool) : k.view.avail ll w = k.avail ll w := rfl
theorem Package.member_view (k : Package) (q : Nat) : k.view.member q = k.member q := rfl
theorem Package.dead_view (k : Package) (q : Nat) : k.view.dead q = k.dead q := rfl
theorem Package.cell_view (k : Package) (q : Nat) : k.view.cell q = k.cell q := rfl
theorem Package.admits_view (k : Package) (a c : Nat) (op : ReqOp) : k.view.admits a c op = k.admits a c op := rfl
theorem Package.checkTr_view (k : Package) (p va : Nat) (acc : Access) (tr : PageTr) :
    k.view.checkTr p va acc tr = k.checkTr p va acc tr := by
  unfold Package.checkTr Package.inSpace; rw [Package.member_view]

/-- What memory accesses read is the same: memory, what they read of every package, and the dies' TLBs. -/
structure SameMem (s t : State) : Prop where
  mem : t.mem = s.mem
  free : t.free = s.free
  pkg : ∀ q, (t.pkg q).view = (s.pkg q).view
  die : ∀ q d, (t.die q d).shell = (s.die q d).shell

theorem SameMem.refl (s : State) : SameMem s s := ⟨rfl, rfl, fun _ => rfl, fun _ _ => rfl⟩
theorem SameMem.trans {s t u : State} (h : SameMem s t) (k : SameMem t u) : SameMem s u :=
  ⟨k.mem.trans h.mem, k.free.trans h.free, fun q => (k.pkg q).trans (h.pkg q), fun q d => (k.die q d).trans (h.die q d)⟩

/-- A package changed but for what accesses read of it. -/
theorem SameMem.modPkg (s : State) (p : Nat) (f : Package → Package) (h1 : (f (s.pkg p)).view = (s.pkg p).view)
    (h2 : (f (s.pkg p)).dies = (s.pkg p).dies) : SameMem s (s.modPkg p f) := by
  refine ⟨rfl, rfl, fun q => ?_, fun q d => ?_⟩
  · rw [State.pkg_modPkg]; split
    · rename_i h; subst h; exact h1
    · rfl
  · simp only [State.die, State.pkg_modPkg]; split
    · rename_i h; subst h; simp only [Package.die, h2]
    · rfl

theorem Package.view_of_shell {k j : Package} (h : k.shell = j.shell) : k.view = j.view :=
  (congrArg Package.view h : k.shell.view = j.shell.view)

theorem OnlyGroup.sameMem {p c g : Nat} {s t : State} (h : OnlyGroup p c g s t) : SameMem s t := by
  refine ⟨h.world.mem, h.world.free, fun q => ?_, fun q d => ?_⟩
  · by_cases hq : q = p
    · subst hq; exact Package.view_of_shell h.pkg
    · rw [h.others q hq]
  · by_cases hq : q = p
    · subst hq; exact h.dies d
    · simp only [State.die, h.others q hq]

section Frames

variable {s t : State} (h : SameMem s t)
include h

theorem SameMem.of {α : Type} (f : Package → α) (hf : ∀ k, f k.view = f k) (q : Nat) : f (t.pkg q) = f (s.pkg q) := by
  rw [← hf, h.pkg, hf]

theorem SameMem.dirOf (a : Nat) : t.dirOf a = s.dirOf a :=
  h.of (fun k => k.dirAt (llineOf a)) (fun k => k.dirAt_view _) _

theorem SameMem.poisoned (a : Nat) : t.poisoned a = s.poisoned a := by unfold State.poisoned; rw [h.dirOf]

theorem SameMem.memberAt (q cell ix : Nat) : (t.pkg q).memberAt cell ix = (s.pkg q).memberAt cell ix :=
  h.of (fun k => k.memberAt cell ix) (fun _ => rfl) _

theorem SameMem.ownerCopy (a : Nat) : t.ownerCopy a = s.ownerCopy a := by
  unfold State.ownerCopy
  simp only [h.dirOf, h.memberAt]
  split
  · generalize (s.pkg (homeOf a)).memberAt _ _ = q
    exact h.of (fun k => tfind k.copies (lineOf a)) (fun _ => rfl) _
  · rfl

theorem SameMem.peek (a : Nat) : t.peek a = s.peek a := by
  unfold State.peek
  have : (t.pkg (homeOf a)).dir = (s.pkg (homeOf a)).dir := h.of Package.dir (fun _ => rfl) _
  rw [this, h.ownerCopy, h.mem]

theorem SameMem.peekN (a n : Nat) : t.peekN a n = s.peekN a n := by
  induction n generalizing a with
  | zero => rfl
  | succ n ih => simp only [State.peekN, ih, h.peek]

theorem SameMem.peekLe (a n : Nat) : t.peekLe a n = s.peekLe a n := by simp only [State.peekLe, h.peekN]

theorem SameMem.forward (a : Nat) : t.forward a = s.forward a := by
  unfold State.forward
  have : (t.pkg (homeOf a)).migr = (s.pkg (homeOf a)).migr := h.of Package.migr (fun _ => rfl) _
  rw [this]

theorem SameMem.pte (p va level e : Nat) : t.pte p va level e = s.pte p va level e := by
  unfold State.pte; rw [h.forward, h.poisoned, h.peekLe]

theorem SameMem.walkFrom (p va level base : Nat) (seen : List Nat) : t.walkFrom p va level base seen = s.walkFrom p va level base seen := by
  induction level generalizing base seen with
  | zero => rw [State.walkFrom, State.walkFrom, h.pte]
  | succ n ih => rw [State.walkFrom, State.walkFrom, h.pte]; simp only [ih]

theorem SameMem.walk (p part va : Nat) : t.walk p part va = s.walk p part va := by
  unfold State.walk
  have : (t.pkg p).walkRoot part = (s.pkg p).walkRoot part := h.of (fun k => k.walkRoot part) (fun _ => rfl) _
  simp only [this, h.walkFrom]

theorem SameMem.checkTr (p va : Nat) (acc : Access) (tr : PageTr) : (t.pkg p).checkTr p va acc tr = (s.pkg p).checkTr p va acc tr :=
  h.of (fun k => k.checkTr p va acc tr) (fun k => k.checkTr_view _ _ _ _) _

theorem SameMem.avail (q ll : Nat) (w : Bool) : (t.pkg q).avail ll w = (s.pkg q).avail ll w :=
  h.of (fun k => k.avail ll w) (fun k => k.avail_view _ _) _

theorem SameMem.homeFault (p a : Nat) (w : Bool) : t.homeFault p a w = s.homeFault p a w := by
  have h1 : ∀ q, (t.pkg p).dead q = (s.pkg p).dead q := fun q => h.of (fun k => k.dead q) (fun k => k.dead_view q) _
  have h2 : ∀ q j, (t.pkg q).cell j = (s.pkg q).cell j := fun q j => h.of (fun k => k.cell j) (fun k => k.cell_view j) _
  have h3 : ∀ q c op, (t.pkg q).admits a c op = (s.pkg q).admits a c op :=
    fun q c op => h.of (fun k => k.admits a c op) (fun k => k.admits_view a c op) _
  unfold State.homeFault
  simp only [h.poisoned, h1, h2, h3]

theorem SameMem.served {p a : Nat} (k : Served s p a) : Served t p a := ⟨by rw [h.avail]; exact k.1, by rw [h.homeFault]; exact k.2⟩

theorem SameMem.tlb (p d : Nat) : (t.die p d).tlb = (s.die p d).tlb :=
  (congrArg Die.tlb (h.die p d) : (t.die p d).shell.tlb = (s.die p d).shell.tlb)

theorem SameMem.held {p part die va : Nat} {acc : Access} {tr : PageTr} (k : Held s p part die va acc tr) : Held t p part die va acc tr :=
  ⟨by rw [h.tlb]; exact k.held, by rw [h.walk]; exact k.walk, by rw [h.checkTr]; exact k.check, by rw [h.forward, h.peekLe]; exact k.dirty⟩

end Frames

/-- A held translation is used, and leaves no trace. -/
theorem Held.translate {s : State} {p part die va : Nat} {acc : Access} {tr : PageTr} (h : Held s p part die va acc tr) :
    s.translate p part die va acc = (.ok tr, s) := by
  obtain ⟨h1, h2, h3, h4⟩ := h
  unfold State.translate
  simp only [Option.map_eq_some_iff] at h1
  obtain ⟨e, he, rfl⟩ := h1
  rw [he]
  simp only [h2, if_true, State.useTr, h3]
  split
  · rename_i ha
    have : acc = .write ∨ acc = .atom := by cases acc <;> simp_all
    unfold State.setPteBit
    rw [if_pos (h4 this)]
  · rfl

section Fetch

variable {s : State} {u : Iss} {va : Nat} {w : DWord}

theorem Iss.part_of {a : Team} (h : u.team s = some a) : u.part s = a.part := by simp [Iss.part, h]

/-- A fetch of held code keeps the word, and does nothing else. -/
theorem Code.fetch (h : Code u s va w) {a : Team} (ha : u.team s = some a) :
    ∃ tr, s.fetch u.pkg u.ctx (u.die s) va = (.ok tr, w, u.keeps va w s) := by
  obtain ⟨⟨tr, h1, h2, h3⟩, h4⟩ := h
  refine ⟨tr, ?_⟩
  rw [Iss.part_of ha] at h1
  have ha' : s.team? u.pkg u.ctx = some a := ha
  unfold State.fetch
  rw [ha']
  have hn : s.need (s.forward (tr.at va)) false (u.die s) = s := by unfold State.need; rw [if_pos h2.1]
  simp only [h1.translate, hn, h2.2, ← h3]
  have hw : wordChoices (tget [] a.icache va) w = [w] := by
    rcases h4 a ha with h | h <;> rw [h] <;> simp [wordChoices]
  simp [hw, Iss.keeps]

theorem Iss.die_of {s t : State} {p c g : Nat} (h : OnlyGroup p c g s t) (hp : u.pkg = p) (hc : u.ctx = c) : u.die t = u.die s := by
  subst hp hc
  obtain ⟨a, b, ha, hb, h1, _⟩ := h.team
  have : b.coreOf u.group = a.coreOf u.group :=
    (congrArg (fun t => Team.coreOf t u.group) h1 : b.shell.coreOf u.group = a.shell.coreOf u.group)
  simp [Iss.die, Iss.team, ha, hb, this]

/-- Held code stays so where accesses read the same and the team is the same but for its groups. -/
theorem SameMem.code {t : State} (h : SameMem s t) {a b : Team} (ha : u.team s = some a) (hb : u.team t = some b) (h1 : b.shell = a.shell)
    (k : Code u s va w) : Code u t va w := by
  have e1 : b.part = a.part := (congrArg Team.part h1 : b.shell.part = a.shell.part)
  have e2 : b.icache = a.icache := (congrArg Team.icache h1 : b.shell.icache = a.shell.icache)
  have e3 : b.coreOf u.group = a.coreOf u.group :=
    (congrArg (fun t => Team.coreOf t u.group) h1 : b.shell.coreOf u.group = a.shell.coreOf u.group)
  have e4 : u.die t = u.die s := by simp [Iss.die, ha, hb, e3]
  obtain ⟨⟨tr, k1, k2, k3⟩, k4⟩ := k
  refine ⟨⟨tr, ?_, by rw [h.forward]; exact h.served k2, by rw [h.forward, h.peekLe]; exact k3⟩, ?_⟩
  · rw [e4, Iss.part_of (a := b) hb, e1, ← Iss.part_of (u := u) (a := a) ha]; exact h.held k1
  · intro tm htm
    obtain rfl : b = tm := by rw [hb] at htm; exact Option.some.inj htm
    rw [e2]
    exact k4 a ha

theorem OnlyGroup.code {t : State} (h : OnlyGroup u.pkg u.ctx u.group s t) (k : Code u s va w) : Code u t va w := by
  obtain ⟨a, b, ha, hb, h1, _⟩ := h.team
  exact h.sameMem.code (a := a) (b := b) ha hb h1 k

end Fetch

end Sys2Proof.Machine
end

