-- ==== Sys2Proof/Laws/Place.lean ====
section
/-! SUPPORT. Where a class 3 access of one lane goes, and the law of a class 3 word that one lane issues: no wait, then its act. -/

namespace Sys2Proof.Machine

section Single

variable {u : Iss} {c : Ctl} {l : Nat} {s : State} {tm : Team}

theorem Team.visLane_single (h : tm.mirror = false) (hl : l < tm.width) : tm.visLane l = l := by
  simp [Team.visLane, Team.vis, h, Nat.not_le.2 hl]
theorem Team.partner_single (h : tm.mirror = false) : tm.partner l = none := by simp [Team.partner, h]

theorem Lone.inWidth (h : Lone u c l s) (ht : u.team s = some tm) : l < tm.width := by
  obtain ⟨a, ha, _, _, hl⟩ := State.iss?_team h.issues.1
  obtain rfl : a = tm := by rw [Iss.team, ha] at ht; exact Option.some.inj ht
  have : l ∈ u.lanes := by rw [h.lanes]; simp
  rw [hl] at this
  simp only [Team.runLanes, Team.lanes, List.mem_filter, List.mem_range] at this
  exact this.1

/-- The team of a state in which only the group has changed. -/
theorem OnlyGroup.teamOf {t : State} (o : OnlyGroup u.pkg u.ctx u.group s t) (ht : u.team s = some tm) :
    ∃ b, u.team t = some b ∧ b.shell = tm.shell := by
  obtain ⟨a, b, ha, hb, hs, _⟩ := o.team
  obtain rfl : a = tm := by rw [Iss.team, ha] at ht; exact Option.some.inj ht
  exact ⟨b, hb, hs⟩

theorem Iss.pairAgrees_single {β : Type} [DecidableEq β] (ht : u.team s = some tm) (hm : tm.mirror = false) (f : Thread → β) :
    u.pairAgrees c l f s = true := by
  simp [Iss.pairAgrees, ht, Team.partner_single hm]

theorem Iss.once_single {park : Bool} {f : State → State × LaneEnd} {r : State} {e : LaneEnd} (ht : u.team s = some tm)
    (hm : tm.mirror = false) (hl : l < tm.width) (hf : f s = (r, e)) (hr : ∀ t, u.team r = some t → t.mirror = false) :
    u.once park l f s = (r, e) := by
  unfold Iss.once
  rw [ht]
  simp only [Team.visLane_single hm hl, if_true, hf]
  unfold Iss.pairUp
  cases h : u.team r with
  | none => rfl
  | some t => simp [Team.partner_single (hr t h)]

end Single

section Places

variable {u : Iss} {l : Nat} {s : State} {tm : Team} {sp : Space} {ea : Thread → DWord} {n : Nat} {acc : Access} {rm : Remote}

/-- An access of one of the team's own spaces. -/
theorem Iss.locate_own {al : Nat} (ht : u.team s = some tm) (hs : sp ≠ .g) (ha : (ea (u.thread s l)).toNat % al = 0)
    (hn : (ea (u.thread s l)).toNat + n ≤ tm.spaceSize sp) :
    u.locate (.fixed sp ea al n acc rm) l s = (.own (ea (u.thread s l)).toNat n, s) := by
  simp [Iss.locate, MemReq.fixed, ht, ha, hs, Nat.not_lt.2 hn]

theorem State.pieces_one {a : Nat} (hn : 0 < n) (ha : a % 128 + n ≤ 128) : s.pieces (n / 128 + 2) a n = [(s.forward a, n)] := by
  have hk : min n (128 - a % 128) = n := by omega
  have h0 : n ≠ 0 := by omega
  rw [State.pieces, State.pieces]
  simp [hk, h0]

/-- An access of one line of global memory. -/
theorem Iss.locate_line {a : Nat} (ht : u.team s = some tm) (hr : (u.thread s l).region = none)
    (h : OnLine u s tm (ea (u.thread s l)) n acc a) :
    ∃ fmt, u.locate (.fixed .g ea n n acc rm) l s = (.mem [(a, n)] fmt, s) := by
  obtain ⟨h1, h2, h3, tr, h4, h5, h6⟩ := h
  refine ⟨tr.fmt, ?_⟩
  subst h5
  have h7 : ¬ 2 ^ 57 ≤ (ea (u.thread s l)).toNat := by omega
  unfold Iss.locate
  simp only [MemReq.fixed, ht, h1, ne_eq, not_true_eq_false, if_false, if_true, h7, h4.translate, hr, State.pieces_one h3 h6, Bool.false_eq_true]

theorem Iss.waitAll_own {c : Ctl} {m : MemReq} {spec : Bool} {op : Nat → Option LateOp} {k w : Nat} (ht : u.team s = some tm) :
    u.waitAll c m spec op [(l, .own k w)] s = (s, false) := by
  simp [Iss.waitAll, ht]

theorem Quiet.avail {p ll : Nat} {w : Bool} (h : Quiet s p) : (s.pkg p).avail ll w = true := by
  unfold Package.avail; rw [h.1, h.2]

theorem Quiet.homeWait {p die a : Nat} {w : Bool} (h : Quiet s p) : s.homeWait p die a w = none := by
  unfold State.homeWait; rw [if_pos h.avail]

/-- A read, or an access that needs ownership, of a line that is ready. -/
theorem Iss.waitAll_ready {c : Ctl} {spec : Bool} {op : Nat → Option LateOp} {a fmt : Nat} {al : Nat} (ht : u.team s = some tm)
    (hrm : rm = .read ∨ rm = .own) (hf : (u.thread s l).specFail = false) (h : Ready u s (rm == .own) a) :
    u.waitAll c (.fixed .g ea al n acc rm) spec op [(l, .mem [(a, n)] fmt)] s = (s, false) := by
  have hw : u.waitPiece c (.fixed .g ea al n acc rm) spec (op fmt) l [(a, n)] (s, false) (a, n) = (s, false) := by
    unfold Iss.waitPiece
    simp only [MemReq.fixed]
    split
    · rename_i hh
      rw [(h.home hh).homeWait]
      rcases hrm with rfl | rfl <;> rfl
    · rename_i hh
      obtain ⟨h1, h2, cp, h3, h4⟩ := h.away hh
      have h5 : (rm != .own || cp.excl) = true := by rcases hrm with rfl | rfl <;> simp_all
      rcases hrm with rfl | rfl <;> simp_all [Iss.wantLine]
  unfold Iss.waitAll
  rw [ht]
  simp only [List.foldl_cons, List.foldl_nil, hw]
  rcases hrm with rfl | rfl <;> simp [MemReq.fixed]

/-- A write at home. -/
theorem Iss.waitAll_home {c : Ctl} {spec : Bool} {op : Nat → Option LateOp} {a fmt : Nat} {al : Nat} (ht : u.team s = some tm) (hh : homeOf a = u.pkg) (hq : Quiet s u.pkg) :
    u.waitAll c (.fixed .g ea al n acc .write) spec op [(l, .mem [(a, n)] fmt)] s = (s, false) := by
  unfold Iss.waitAll
  rw [ht]
  simp [Iss.waitPiece, MemReq.fixed, hh, hq.homeWait]

/-- A write sent to another package. -/
theorem Iss.waitAll_away {c : Ctl} {spec : Bool} {op : Nat → Option LateOp} {a fmt : Nat} {al : Nat} (ht : u.team s = some tm) (hh : homeOf a ≠ u.pkg)
    (hc : (tm.group u.group).rwCount < 4095) :
    u.waitAll c (.fixed .g ea al n acc .write) spec op [(l, .mem [(a, n)] fmt)] s = (s, false) := by
  unfold Iss.waitAll
  rw [ht]
  simp [Iss.waitPiece, MemReq.fixed, hh]
  omega

/-- A lane has no failed write held against it. -/
theorem Iss.heldFails_nil {s : State} (ht : u.team s = some tm) (hf : ∀ f ∈ (tm.group u.group).fails, f.lane ≠ tm.visLane l) :
    u.heldFails s l = [] := by
  simp only [Iss.heldFails, ht, List.filter_eq_nil_iff, beq_iff_eq]
  exact hf

end Places

section Law

variable {u : Iss} {c : Ctl} {l : Nat} {s : State} {tm : Team} {k : Pre} {m : MemReq} {skip : Thread → Bool} {x : MemAct} {loc : Loc}

/-- THE LAW of a class 3 word of one lane outside mirror mode: its place found, nothing to wait for, it acts. -/
theorem Lone.mem (h : Lone u c l s) (ht : u.team s = some tm) (hm : tm.mirror = false) (hk : u.before k s (u.thread s l) = none)
    (hs : skip (u.thread s l) = false) (h1 : x.first u (u.thread s l) = none)
    (hrel : x.rel = true → (tm.group u.group).rwCount = 0 ∧ u.heldFails s l = [])
    (hl : u.locate m l s = (loc, s)) (hw : u.waitAll c m x.spec x.late [(l, loc)] s = (s, false)) (hw' : x.wait u l loc s = false)
    (hloc : (∃ ps f, loc = .mem ps f) ∨ ∃ a n, loc = .own a n)
    {r : State} {e : LaneEnd} (hact : x.act u l loc (u.stamp s) = (r, e)) (hr : ∀ t, u.team r = some t → t.mirror = false) :
    s.issueMem c k m skip x = .next (u.run c k (x.lane c m [(l, loc)] s) s) ∧ x.lane c m [(l, loc)] s u l (u.stamp s) = (r, e) := by
  have hvis : tm.vis = tm.width := by simp [Team.vis, hm]
  have hlt := h.inWidth ht
  have hv0 : u.visLane s l = l := by simp [Iss.visLane, ht, Team.visLane_single hm hlt]
  have hset : u.performers c s = [l] := by
    simp [Iss.performers, Iss.active, h.lanes, h.guard, hv0]
  have hal : u.alone c s l = false := by simp [Iss.alone, ht, Team.partner_single hm]
  constructor
  · unfold State.issueMem
    have hrel' : (x.rel && (tm.group u.group).rwCount != 0) = false := by
      cases hx : x.rel with
      | false => rfl
      | true => simp [(hrel hx).1]
    rw [h.issues.1]
    simp only [ht, h.issues.2, hrel', Bool.or_false, Bool.false_eq_true, if_false, hset]
    have : List.filter (fun l => (u.before k s (u.thread s l)).isNone && !skip (u.thread s l) && (x.first u (u.thread s l)).isNone) [l] = [l] := by
      simp [hk, hs, h1]
    rw [this]
    simp [Iss.locateAll, hl, hw, hw']
  · obtain ⟨o, e0⟩ := h.stamped
    obtain ⟨b, hb, hbs⟩ := o.teamOf ht
    have hbm : b.mirror = false := by rw [Team.mirror_of_shell hbs]; exact hm
    have hbw : b.width = tm.width := by unfold Team.width; rw [Team.tmpl_of_shell hbs]
    have hv : u.visLane (u.stamp s) l = l := by
      simp [Iss.visLane, hb, Team.visLane_single hbm (by rw [hbw]; exact hlt)]
    have hst : (if x.rel then u.storeFault (u.heldFails s l) else none) = none := by
      cases hx : x.rel with
      | false => rfl
      | true => simp [(hrel hx).2, Iss.storeFault]
    have hon := Iss.once_single (u := u) (park := c.park) hb hbm (by rw [hbw]; exact hlt) hact hr
    unfold MemAct.lane
    simp only [hal, hv, h1, hst, tfind, if_true, Iss.pairAgrees_single (c := c) ht hm (x.same loc), Bool.not_true, Bool.and_false,
      Bool.false_eq_true, if_false]
    rcases hloc with ⟨ps, f, rfl⟩ | ⟨a, n, rfl⟩ <;> exact hon

end Law

end Sys2Proof.Machine

namespace Sys2Proof.Machine

/-- What reading bytes depends on is the same: memory, directories, copies and cell tables. -/
structure SameData (s t : State) : Prop where
  mem : t.mem = s.mem
  pkg : ∀ q, (t.pkg q).dir = (s.pkg q).dir ∧ (t.pkg q).copies = (s.pkg q).copies ∧ (t.pkg q).cellTab = (s.pkg q).cellTab

/-- A die's bit in a directory that holds no entry. -/
theorem Package.dir_setDies {k : Package} {ll : Nat} (h : k.dir = []) (d : BitVec 6) :
    (k.setDir ll { k.dirAt ll with dies := d }).dir = [] ∧ (k.setDir ll { k.dirAt ll with dies := d }).copies = k.copies ∧
      (k.setDir ll { k.dirAt ll with dies := d }).cellTab = k.cellTab := by
  have he : k.dirAt ll = ⟨0, 0, 0, .i, tget 0 k.tagDies ll⟩ := by unfold Package.dirAt; rw [h]; rfl
  rw [he]
  simp [Package.setDir, Package.setTag, h, tdel]

theorem SameData.refl (s : State) : SameData s s := ⟨rfl, fun _ => ⟨rfl, rfl, rfl⟩⟩
theorem SameData.trans {s t u : State} (h : SameData s t) (k : SameData t u) : SameData s u :=
  ⟨k.mem.trans h.mem, fun q => ⟨(k.pkg q).1.trans (h.pkg q).1, (k.pkg q).2.1.trans (h.pkg q).2.1, (k.pkg q).2.2.trans (h.pkg q).2.2⟩⟩

theorem SameMem.data {s t : State} (h : SameMem s t) : SameData s t :=
  ⟨h.mem, fun q => ⟨h.of Package.dir (fun _ => rfl) q, h.of Package.copies (fun _ => rfl) q, h.of Package.cellTab (fun _ => rfl) q⟩⟩

/-- A package changed but for its data. -/
theorem SameData.modPkg (s : State) (p : Nat) (f : Package → Package) (h1 : (f (s.pkg p)).dir = (s.pkg p).dir)
    (h2 : (f (s.pkg p)).copies = (s.pkg p).copies) (h3 : (f (s.pkg p)).cellTab = (s.pkg p).cellTab) : SameData s (s.modPkg p f) := by
  refine ⟨rfl, fun q => ?_⟩
  rw [State.pkg_modPkg]
  split
  · rename_i h; subst h; exact ⟨h1, h2, h3⟩
  · exact ⟨rfl, rfl, rfl⟩

theorem SameData.modCore (s : State) (p c : Nat) (f : Core → Core) : SameData s (s.modCore p c f) := SameData.modPkg _ _ _ rfl rfl rfl

section Data

variable {s t : State} (h : SameData s t)
include h

theorem SameData.dirOf (a : Nat) : (t.dirOf a).st = (s.dirOf a).st ∧ (t.dirOf a).ownc = (s.dirOf a).ownc ∧
    (t.dirOf a).ownp = (s.dirOf a).ownp := by
  unfold State.dirOf Package.dirAt; rw [(h.pkg _).1]; split <;> exact ⟨rfl, rfl, rfl⟩

theorem SameData.memberAt (q cell ix : Nat) : (t.pkg q).memberAt cell ix = (s.pkg q).memberAt cell ix := by
  have : ∀ k j : Package, k.cellTab = j.cellTab → k.memberAt cell ix = j.memberAt cell ix := fun k j h => by
    simp only [Package.memberAt, Package.cellMembers, Package.member, Package.cell, Package.cellByte, h]
  exact this _ _ (h.pkg q).2.2

theorem SameData.ownerCopy (a : Nat) : t.ownerCopy a = s.ownerCopy a := by
  obtain ⟨h1, h2, h3⟩ := h.dirOf a
  unfold State.ownerCopy
  simp only [h1, h2, h3, h.memberAt, (h.pkg _).2.1]

theorem SameData.peek (a : Nat) : t.peek a = s.peek a := by
  unfold State.peek
  rw [(h.pkg _).1, h.ownerCopy, h.mem]

theorem SameData.peekN (a n : Nat) : t.peekN a n = s.peekN a n := by
  induction n generalizing a with
  | zero => rfl
  | succ n ih => simp only [State.peekN, ih, h.peek]

theorem SameData.seen (p a n : Nat) : t.seen p a n = s.seen p a n := by
  unfold State.seen
  rw [h.peekN, (h.pkg p).2.1]

end Data

theorem Quiet.poisoned {s : State} {p a : Nat} (h : Quiet s p) (ha : homeOf a = p) : s.poisoned a = false := by
  unfold State.poisoned State.dirOf Package.dirAt
  rw [ha, h.1]; rfl

/-- A quiet home gives memory's bytes. -/
theorem Quiet.peekN {s : State} {p a n : Nat} (h : Quiet s p) (ha : ∀ k, k < n → homeOf (a + k) = p) : s.peekN a n = s.mem.bytes a n := by
  induction n generalizing a with
  | zero => rfl
  | succ n ih =>
    simp only [State.peekN, Mem.bytes]
    rw [ih (fun k hk => by have := ha (k + 1) (by omega); rwa [Nat.add_assoc, Nat.add_comm 1 k])]
    have : s.peek a = s.mem.byte a := by
      unfold State.peek
      have := ha 0 (by omega)
      rw [Nat.add_zero] at this
      rw [this, h.1]
    rw [this]

theorem Quiet.same {s t : State} {p : Nat} (h : Quiet s p) (k : SameMem s t) : Quiet t p := by
  have h1 := k.of (fun k => (k.dir, k.txns)) (fun _ => rfl) p
  simp only [Prod.mk.injEq] at h1
  exact ⟨h1.1.trans h.1, h1.2.trans h.2⟩

/-- A ready line is served. -/
theorem Ready.served {u : Iss} {s t : State} {l a n : Nat} {own : Bool} (h : Ready u s own a) (k : SameMem s t) (ea : DWord) :
    u.unserved l ea [(a, n)] t = none := by
  have hp : (t.pkg u.pkg).dead (homeOf a) = (s.pkg u.pkg).dead (homeOf a) := k.of (fun k => k.dead (homeOf a)) (fun k => k.dead_view _) _
  unfold Iss.unserved State.badLine Package.deadHome
  by_cases hh : homeOf a = u.pkg
  · have := ((h.home hh).same k).poisoned hh
    simp [hh, this]
  · have := (h.away hh).1
    simp [hh, hp, this]

/-- Bytes of one line read through an L1 that agrees. -/
theorem State.loadPiece_fresh {s : State} {p core a n : Nat}
    (h : ∀ cells, tfind (s.core p core).l1 (lineOf a) = some cells → cells.bytes a n = s.seen p a n) :
    (s.loadPiece p core a n).1 = s.seen p a n := by
  unfold State.loadPiece
  cases hx : tfind (s.core p core).l1 (lineOf a) with
  | none => rfl
  | some c => simp [h c hx]

/-- What an acquire and an L1 fill leave of the group's team. -/
theorem State.team?_modCore (s : State) (p core q c : Nat) (f : Core → Core) : (s.modCore p core f).team? q c = s.team? q c := by
  simp only [State.team?, State.modCore, State.pkg_modPkg]
  split
  · rename_i h; subst h; rfl
  · rfl

theorem State.thread_modCore (s : State) (p core q c g l : Nat) (f : Core → Core) : (s.modCore p core f).thread q c g l = s.thread q c g l := by
  simp only [State.thread, State.team?_modCore]

theorem Iss.acquire_frame (u : Iss) (sc : Option Scope) (s : State) :
    (∀ q c, (u.acquire sc s).team? q c = s.team? q c) ∧ SameData s (u.acquire sc s) ∧
      ∀ tm, u.team s = some tm → (u.acquire sc s).core u.pkg (tm.coreOf u.group) = s.core u.pkg (tm.coreOf u.group) ∨
        ((u.acquire sc s).core u.pkg (tm.coreOf u.group)).l1 = [] := by
  unfold Iss.acquire
  split
  · rename_i tm sc' ht
    split
    · refine ⟨fun q c => State.team?_modCore _ _ _ _ _ _, SameData.modCore _ _ _ _, fun tm' ht' => .inr ?_⟩
      obtain rfl : tm = tm' := by rw [ht] at ht'; exact Option.some.inj ht'
      simp [State.core, State.dropL1, State.modCore, Package.core, Package.setCore]
    · exact ⟨fun _ _ => rfl, SameData.refl _, fun _ _ => .inl rfl⟩
  · exact ⟨fun _ _ => rfl, SameData.refl _, fun _ _ => .inl rfl⟩

end Sys2Proof.Machine
end

