-- ==== Sys2Proof/Laws/Poke.lean ====
section
/-! SUPPORT. What a write at a quiet home is: the bytes, and nothing else; and the frames of monitors, L1 copies and sinks. -/

namespace Sys2Proof.Machine

theorem mem_tput {β : Type} {t : Table β} {k : Nat} {v : β} {e : Nat × β} (h : e ∈ tput t k v) : e = (k, v) ∨ e ∈ t := by
  induction t with
  | nil => simpa [tput] using h
  | cons x t ih =>
    obtain ⟨j, w⟩ := x
    simp only [tput] at h
    split at h
    · rcases List.mem_cons.1 h with h | h
      · exact .inl h
      · exact .inr (List.mem_cons_of_mem _ h)
    · split at h
      · rcases List.mem_cons.1 h with h | h
        · exact .inl h
        · exact .inr h
      · rcases List.mem_cons.1 h with h | h
        · exact .inr (by rw [h]; exact List.mem_cons_self)
        · rcases ih h with h | h
          · exact .inl h
          · exact .inr (List.mem_cons_of_mem _ h)

theorem mem_of_tfind {β : Type} {t : Table β} {k : Nat} {v : β} (h : tfind t k = some v) : (k, v) ∈ t := by
  induction t with
  | nil => simp at h
  | cons x t ih =>
    obtain ⟨j, w⟩ := x
    simp only [tfind] at h
    split at h
    · rename_i hj; subst hj; obtain rfl := Option.some.inj h; exact List.mem_cons_self
    · exact List.mem_cons_of_mem _ (ih h)

/-- A value of a table is there, or it is the default. -/
theorem tget_mem {β : Type} (d : β) (t : Table β) (k : Nat) : (k, tget d t k) ∈ t ∨ tget d t k = d := by
  cases h : tfind t k with
  | none => exact .inr (tget_of_tfind_none h)
  | some v => rw [tget_of_tfind h]; exact .inl (mem_of_tfind h)

/-- A thread watches a line. -/
def Thread.watches (t : Thread) (line : Nat) : Bool :=
  match t.st with
  | .monitor m => m.line == line
  | _ => false

/-- No thread of a resident team watches a line. -/
def Unwatched (s : State) (line : Nat) : Prop :=
  ∀ pk ∈ s.pkgs, ∀ tm ∈ pk.2.teams, tm.2.place.isSome = true → ∀ gr ∈ tm.2.groups, ∀ th ∈ gr.2.threads, th.2.watches line = false

theorem State.watchers_nil {s : State} {line : Nat} : s.watchers line = [] ↔ Unwatched s line := by
  unfold State.watchers Unwatched
  simp only [List.flatMap_eq_nil_iff, List.mem_filter, and_imp, List.map_eq_nil_iff, List.filter_eq_nil_iff]
  constructor
  · intro h pk hpk tm htm hp gr hgr th hth
    have := h pk hpk tm htm hp gr hgr th hth
    unfold Thread.watches
    revert this
    cases th.2.st <;> simp
  · intro h pk hpk tm htm hp gr hgr th hth
    have := h pk hpk tm htm hp gr hgr th hth
    unfold Thread.watches at this
    revert this
    cases th.2.st <;> simp

theorem Unwatched.withMem {s : State} {line : Nat} (h : Unwatched s line) (m : Mem) : Unwatched { s with mem := m } line := h

theorem Unwatched.modPkg {s : State} {line : Nat} (h : Unwatched s line) (p : Nat) (f : Package → Package)
    (hf : (f (s.pkg p)).teams = (s.pkg p).teams) : Unwatched (s.modPkg p f) line := by
  intro pk hpk
  rcases mem_tput hpk with rfl | hpk
  · simp only
    rw [hf]
    rcases tget_mem {} s.pkgs p with hm | hd
    · exact h _ hm
    · intro tm htm
      unfold State.pkg at htm
      rw [hd] at htm
      simp at htm
  · exact h pk hpk

theorem Unwatched.modCore {s : State} {line : Nat} (h : Unwatched s line) (p c : Nat) (f : Core → Core) : Unwatched (s.modCore p c f) line :=
  h.modPkg _ _ rfl

/-- A group changed but for its threads. -/
theorem Unwatched.modGroup {s : State} {line : Nat} (h : Unwatched s line) (p c g : Nat) (f : Group → Group)
    (hf : ∀ x, (f x).threads = x.threads) : Unwatched (s.modGroup p c g f) line := by
  unfold State.modGroup State.modTeam
  split
  · rename_i a ha
    intro pk hpk
    rcases mem_tput hpk with rfl | hpk
    · intro tm htm
      rcases mem_tput htm with rfl | htm
      · intro hp gr hgr
        have ha' := mem_of_tfind ha
        have hpk' : (p, s.pkg p) ∈ s.pkgs := by
          rcases tget_mem {} s.pkgs p with hm | hd
          · exact hm
          · unfold State.pkg at ha'; rw [hd] at ha'; simp at ha'
        have base := h _ hpk' _ ha' hp
        rcases mem_tput hgr with rfl | hgr
        · intro th hth
          simp only at hth
          rw [hf] at hth
          rcases tget_mem {} a.groups g with hm | hd
          · exact base _ hm th hth
          · unfold Team.group at hth; rw [hd] at hth; simp at hth
        · exact base gr hgr
      · rcases tget_mem {} s.pkgs p with hm | hd
        · exact h _ hm tm htm
        · unfold State.pkg at htm; rw [hd] at htm; simp at htm
    · exact h pk hpk
  · exact h

theorem Unwatched.stamp {s : State} {line : Nat} (h : Unwatched s line) (u : Iss) : Unwatched (u.stamp s) line :=
  h.modGroup _ _ _ _ (fun _ => rfl)

theorem Unwatched.wakeLine {s : State} {line : Nat} (h : Unwatched s line) (r : Nat) : s.wakeLine line r = s := by
  unfold State.wakeLine; rw [State.watchers_nil.2 h]; rfl

theorem Quiet.need {s : State} {p a die : Nat} {w : Bool} (hq : Quiet s p) (ha : homeOf a = p) : s.need a w die = s := by
  unfold State.need; rw [ha, if_pos hq.avail]

theorem Package.teams_setDir (k : Package) (ll : Nat) (e : DirEnt) : (k.setDir ll e).teams = k.teams := by
  unfold Package.setDir; split <;> rfl

theorem Unwatched.dropDies {s : State} {line : Nat} (h : Unwatched s line) (a : Nat) : Unwatched (s.dropDies a) line := by
  apply h.modPkg
  unfold Package.dropDies
  simp only
  split
  · rfl
  · exact Package.teams_setDir _ _ _

theorem State.dropDies_mem (s : State) (a : Nat) : (s.dropDies a).mem = s.mem := rfl

/-- A write within one line of a quiet home is the bytes, no die keeping a copy, and nothing else. -/
theorem Quiet.poke {s : State} {p a : Nat} {bs : List Byte} (hq : Quiet s p) (ha : homeOf a = p) (hw : Unwatched s (lineOf a))
    (h0 : 0 < bs.length) (hn : a % 128 + bs.length ≤ 128) : s.poke a bs = { s.dropDies a with mem := s.mem.put a bs } := by
  have hk : bs.length ≤ 128 - a % 128 := by omega
  unfold State.poke
  cases bs with
  | nil => simp at h0
  | cons b bs =>
    rw [State.pokeFuel]
    simp only [List.isEmpty_cons, Bool.false_eq_true, if_false]
    rw [List.take_of_length_le hk, List.drop_of_length_le hk]
    have : ∀ n s a, State.pokeFuel n s a [] = s := by intro n s a; cases n <;> simp [State.pokeFuel]
    rw [this]
    unfold State.writeLine
    simp only [hq.need ha, State.dropDies_mem]
    rw [((hw.dropDies a).withMem _).wakeLine]

end Sys2Proof.Machine
end

