-- ==== Sys2Proof/Laws/Access.lean ====
section
/-! SUPPORT. What the parts of a load and of a store leave: a pending result, the team's spaces, the L1, and the bytes stored piece by piece. -/

namespace Sys2Proof.Machine

theorem leBytes_length (n v : Nat) : (leBytes n v).length = n := by
  induction n generalizing v with
  | zero => rfl
  | succ n ih => simp [leBytes, ih]

theorem Thread.storeBytes_length (t : Thread) (sz : Size) (d : Reg) : (t.storeBytes sz d).length = sz.bytes := by
  unfold Thread.storeBytes
  rw [List.length_take, List.length_flatMap]
  simp only [leBytes_length]
  cases sz <;> rfl

theorem State.forward_mod (s : State) (a : Nat) : s.forward a % 128 = a % 128 := by
  unfold State.forward
  split
  · omega
  · rfl

section

variable {u : Iss} {c : Ctl} {l : Nat} {s : State} {tm : Team}

theorem OnLine.fits {ea : DWord} {n a : Nat} {acc : Access} (h : OnLine u s tm ea n acc a) : a % 128 + n ≤ 128 := by
  obtain ⟨_, _, _, tr, _, h5, h6⟩ := h
  subst h5; rw [State.forward_mod]; exact h6

theorem State.team?_sink (m : State) (p core q d : Nat) : (m.sink p core).team? q d = m.team? q d := State.team?_modCore _ _ _ _ _ _

/-- What the stamp of the entry keeps of the team. -/
theorem Lone.stampTeam (h : Lone u c l s) (ht : u.team s = some tm) (hm : tm.mirror = false) :
    ∃ b, u.team (u.stamp s) = some b ∧ b.shell = tm.shell ∧ b.mirror = false ∧ b.coreOf u.group = tm.coreOf u.group ∧ l < b.width ∧
      (∀ sp, b.spaceMem u.group l sp = tm.spaceMem u.group l sp) := by
  obtain ⟨b, hb, hs⟩ := h.stamped.1.teamOf ht
  have hbm : b.mirror = false := by rw [Team.mirror_of_shell hs]; exact hm
  have hbw : b.width = tm.width := by unfold Team.width; rw [Team.tmpl_of_shell hs]
  have hl := h.inWidth ht
  refine ⟨b, hb, hs, hbm, (congrArg (fun t => Team.coreOf t u.group) hs : b.shell.coreOf u.group = tm.shell.coreOf u.group),
    by rw [hbw]; exact hl, fun sp => ?_⟩
  cases sp with
  | g => rfl
  | s => exact (congrArg (fun t => Team.spaceMem t u.group l .s) hs : b.shell.spaceMem u.group l .s = tm.shell.spaceMem u.group l .s)
  | p => exact (congrArg (fun t => Team.spaceMem t u.group l .p) hs : b.shell.spaceMem u.group l .p = tm.shell.spaceMem u.group l .p)
  | l =>
    have hv1 := Team.visLane_single (tm := tm) hm hl
    have hv2 := Team.visLane_single (tm := b) hbm (by rw [hbw]; exact hl)
    have := h.stamped.2 l
    simp only [Iss.thread] at this
    rw [State.thread_of_team hb, State.thread_of_team (t := tm) ht] at this
    simp only [Team.spaceMem, hv1, hv2, this]

/-- The end of a load from a state with the same teams: its result pends at the lane. -/
theorem Alone.load_end {m : State} {d : Reg} {vs : List (Word × Bool)} {fl : BitVec 5} (h : Alone u c l s)
    (ht : ∀ q d, m.team? q d = (u.stamp s).team? q d) :
    u.defer l d vs fl m = (u.setThread m l ((u.thread s l).defer u.pc d.toNat false vs fl), .done) ∧
      (∃ b, (u.setThread m l ((u.thread s l).defer u.pc d.toNat false vs fl)).team? u.pkg u.ctx = some b) ∧
      (u.thread (u.setThread m l ((u.thread s l).defer u.pc d.toNat false vs fl)) l).region = none ∧
      (∀ t, u.team (u.stamp s) = some t → t.mirror = false →
        ∀ t', u.team (u.setThread m l ((u.thread s l).defer u.pc d.toNat false vs fl)) = some t' → t'.mirror = false) := by
  obtain ⟨o, e⟩ := h.stamped
  have hth : u.thread m l = u.thread s l := by
    rw [← e l]; simp only [Iss.thread, State.thread, ht]
  obtain ⟨b, hb⟩ := o.team_some
  have hb' : m.team? u.pkg u.ctx = some b := by rw [ht, hb]
  obtain ⟨o1, e1⟩ := Iss.setThread_only (u := u) hb' l ((u.thread s l).defer u.pc d.toNat false vs fl)
  refine ⟨?_, o1.team_some, ?_, ?_⟩
  · simp [Iss.defer, hth]
  · rw [e1]; simp only [if_true, Thread.defer]; exact h.region
  · intro t htm hm t' ht'
    obtain ⟨x, y, hx, hy, hs, _⟩ := o1.team
    obtain rfl : y = t' := by rw [Iss.team, hy] at ht'; exact Option.some.inj ht'
    rw [Team.mirror_of_shell hs]
    obtain rfl : x = t := by rw [ht] at hx; rw [Iss.team, hx] at htm; exact Option.some.inj htm
    exact hm

/-- What a change of the team's spaces leaves of its lanes. -/
theorem State.setSpace_frame (m : State) {b : Team} (hb : m.team? u.pkg u.ctx = some b) (hm : b.mirror = false) (hl : l < b.width)
    (sp : Space) (f : Mem → Mem) :
    let r := m.modTeam u.pkg u.ctx (fun x => x.setSpaceMem u.group l (f (x.spaceMem u.group l sp)) sp)
    (∃ b', r.team? u.pkg u.ctx = some b' ∧ b'.mirror = false ∧ b'.width = b.width ∧ b'.coreOf u.group = b.coreOf u.group) ∧
      (∃ m', u.thread r l = { u.thread m l with lmem := m' }) ∧ r.mem = m.mem := by
  intro r
  have hr : r = m.setTeam u.pkg u.ctx (b.setSpaceMem u.group l (f (b.spaceMem u.group l sp)) sp) := State.modTeam_some _ _ _ _ hb
  have ht : r.team? u.pkg u.ctx = some (b.setSpaceMem u.group l (f (b.spaceMem u.group l sp)) sp) := by rw [hr]; simp
  refine ⟨⟨_, ht, ?_⟩, ?_, by rw [hr]; rfl⟩
  · cases sp <;> simp only [Team.setSpaceMem] <;> (try split) <;> first | exact ⟨hm, rfl, rfl⟩ | exact ⟨hm, trivial, trivial⟩
  · simp only [Iss.thread]
    rw [State.thread_of_team ht, State.thread_of_team hb]
    cases sp with
    | g => exact ⟨_, rfl⟩
    | s => simp only [Team.setSpaceMem]; split <;> exact ⟨_, rfl⟩
    | p => simp only [Team.setSpaceMem]; split <;> exact ⟨_, rfl⟩
    | l =>
      simp only [Team.setSpaceMem, Team.thread, Team.group_modGroup_same, Group.thread_modThread, Team.visLane_single hm hl, if_true]
      exact ⟨_, rfl⟩

/-- A package changed but for its teams. -/
theorem State.team?_modPkg (s : State) (p : Nat) (f : Package → Package) (h : (f (s.pkg p)).teams = (s.pkg p).teams) (q d : Nat) :
    (s.modPkg p f).team? q d = s.team? q d := by
  simp only [State.team?, State.pkg_modPkg]
  split
  · rename_i hq; subst hq; rw [h]
  · rfl

theorem State.team?_addDie (s : State) (a die q d : Nat) : (s.addDie a die).team? q d = s.team? q d := by
  apply State.team?_modPkg
  unfold Package.addDie
  simp only
  split
  · rfl
  · exact Package.teams_setDir _ _ _

theorem State.team?_dropDies (s : State) (a q d : Nat) : (s.dropDies a).team? q d = s.team? q d := by
  apply State.team?_modPkg
  unfold Package.dropDies
  simp only
  split
  · rfl
  · exact Package.teams_setDir _ _ _

/-- The teams and the memory are kept. -/
def Keeps (s t : State) : Prop := (∀ q d, t.team? q d = s.team? q d) ∧ t.mem = s.mem
theorem Keeps.refl (s : State) : Keeps s s := ⟨fun _ _ => rfl, rfl⟩
theorem Keeps.trans {s t u : State} (h : Keeps s t) (k : Keeps t u) : Keeps s u := ⟨fun q d => (k.1 q d).trans (h.1 q d), k.2.trans h.2⟩

theorem State.fillL1_frame (s : State) (p core a : Nat) : Keeps s (s.fillL1 p core a) := by
  unfold State.fillL1
  simp only
  split
  · exact ⟨fun q d => (State.team?_addDie _ _ _ _ _).trans (State.team?_modCore _ _ _ _ _ _), rfl⟩
  · exact ⟨fun q d => State.team?_modCore _ _ _ _ _ _, rfl⟩

theorem State.mixUnits_frame (fuel : Nat) (a : Nat) (old now : List Byte) (s : State) : Keeps s (State.mixUnits fuel a old now s).2 := by
  induction fuel generalizing a old now s with
  | zero => exact .refl _
  | succ n ih =>
    unfold State.mixUnits
    simp only
    split
    · exact .refl _
    · split
      · exact ih _ _ _ _
      · exact Keeps.trans ⟨fun _ _ => rfl, rfl⟩ (ih _ _ _ _)

/-- Reading through an L1 keeps the teams and the memory. -/
theorem State.loadPiece_frame (s : State) (p core a n : Nat) : Keeps s (s.loadPiece p core a n).2 := by
  unfold State.loadPiece
  cases hx : tfind (s.core p core).l1 (lineOf a) with
  | none => exact State.fillL1_frame _ _ _ _
  | some cc =>
    simp only
    split
    · exact .refl _
    · split
      · exact (State.mixUnits_frame _ _ _ _ _).trans (State.fillL1_frame _ _ _ _)
      · exact State.mixUnits_frame _ _ _ _ _

theorem State.loadPieces_frame (s : State) (p core : Nat) (ps : List (Nat × Nat)) :
    Keeps s (s.loadPieces p core ps).2 := by
  induction ps generalizing s with
  | nil => exact ⟨fun _ _ => rfl, rfl⟩
  | cons x ps ih =>
    obtain ⟨a, n⟩ := x
    obtain ⟨h1, h2⟩ := State.loadPiece_frame s p core a n
    obtain ⟨i1, i2⟩ := ih (s.loadPiece p core a n).2
    simp only [State.loadPieces]
    exact ⟨fun q d => (i1 q d).trans (h1 q d), i2.trans h2⟩

/-- Lines of a quiet home that are not poisoned are served. -/
theorem Quiet.served {t : State} (hq : Quiet t u.pkg) {ps : List (Nat × Nat)} (hh : ∀ x ∈ ps, homeOf x.1 = u.pkg) (ea : DWord) :
    u.unserved l ea ps t = none ∧ t.badLine u.pkg ps = false := by
  have h1 : t.badLine u.pkg ps = false := by
    unfold State.badLine
    rw [List.any_eq_false]
    intro x hx
    simp [hq.poisoned (hh x hx)]
  have h2 : (t.pkg u.pkg).deadHome u.pkg ps = false := by
    unfold Package.deadHome
    rw [List.any_eq_false]
    intro x hx
    simp [hh x hx]
  exact ⟨by simp [Iss.unserved, h1, h2], h1⟩

/-- Lines of a quiet home are waited for by no access. -/
theorem Iss.waitAll_quiet {c : Ctl} {m : MemReq} {spec : Bool} {op : Nat → Option LateOp} {ps : List (Nat × Nat)} {fmt : Nat} (ht : u.team s = some tm) (hq : Quiet s u.pkg)
    (hh : ∀ x ∈ ps, homeOf x.1 = u.pkg) : u.waitAll c m spec op [(l, .mem ps fmt)] s = (s, false) := by
  have h1 : ∀ x ∈ ps, u.waitPiece c m spec (op fmt) l ps (s, false) x = (s, false) := by
    intro x hx
    unfold Iss.waitPiece
    simp only [hh x hx, if_true, hq.homeWait]
    split <;> rfl
  have h2 : ∀ qs : List (Nat × Nat), (∀ x ∈ qs, u.waitPiece c m spec (op fmt) l ps (s, false) x = (s, false)) →
      qs.foldl (u.waitPiece c m spec (op fmt) l ps) (s, false) = (s, false) := by
    intro qs
    induction qs with
    | nil => intro _; rfl
    | cons x ps ih =>
      intro h
      rw [List.foldl_cons, h x (by simp)]
      exact ih (fun y hy => h y (by simp [hy]))
  have h3 : (ps.filter (fun x => homeOf x.1 != u.pkg)) = [] := by
    rw [List.filter_eq_nil_iff]
    intro x hx
    simp [hh x hx]
  unfold Iss.waitAll
  rw [ht]
  simp [h2 ps h1, h3]

end

end Sys2Proof.Machine
end

