-- ==== Sys2Proof/Laws/Dispatch.lean ====
section
/-! SUPPORT. Each arm of `exec`, as an equation. -/

namespace Sys2Proof.Machine

@[simp] theorem exec_nop (s : State) :
    ∀ c , exec (.nop c) s = execNop c s := fun _ => rfl
@[simp] theorem exec_mov (s : State) :
    ∀ c ty d a , exec (.mov c ty d a) s = execMov c ty d a s := fun _ _ _ _ => rfl
@[simp] theorem exec_movi (s : State) :
    ∀ c ty d imm , exec (.movi c ty d imm) s = execMovi c ty d imm s := fun _ _ _ _ => rfl
@[simp] theorem exec_movhi (s : State) :
    ∀ c d a b , exec (.movhi c d a b) s = execMovhi c d a b s := fun _ _ _ _ => rfl
@[simp] theorem exec_sel (s : State) :
    ∀ c ty d a b p , exec (.sel c ty d a b p) s = execSel c ty d a b p s := fun _ _ _ _ _ _ => rfl
@[simp] theorem exec_iadd (s : State) :
    ∀ c ty sat d a b , exec (.iadd c ty sat d a b) s = execIadd c ty sat d a b s := fun _ _ _ _ _ _ => rfl
@[simp] theorem exec_isub (s : State) :
    ∀ c ty sat d a b , exec (.isub c ty sat d a b) s = execIsub c ty sat d a b s := fun _ _ _ _ _ _ => rfl
@[simp] theorem exec_imul (s : State) :
    ∀ c ty sat d a b , exec (.imul c ty sat d a b) s = execImul c ty sat d a b s := fun _ _ _ _ _ _ => rfl
@[simp] theorem exec_imulh (s : State) :
    ∀ c ty d a b , exec (.imulh c ty d a b) s = execImulh c ty d a b s := fun _ _ _ _ _ => rfl
@[simp] theorem exec_imad (s : State) :
    ∀ c ty sat d a b e , exec (.imad c ty sat d a b e) s = execImad c ty sat d a b e s := fun _ _ _ _ _ _ _ => rfl
@[simp] theorem exec_imadw (s : State) :
    ∀ c ty d a b e , exec (.imadw c ty d a b e) s = execImadw c ty d a b e s := fun _ _ _ _ _ _ => rfl
@[simp] theorem exec_idiv (s : State) :
    ∀ c ty rm d a b , exec (.idiv c ty rm d a b) s = execIdiv c ty rm d a b s := fun _ _ _ _ _ _ => rfl
@[simp] theorem exec_irem (s : State) :
    ∀ c ty rm d a b , exec (.irem c ty rm d a b) s = execIrem c ty rm d a b s := fun _ _ _ _ _ _ => rfl
@[simp] theorem exec_iabs (s : State) :
    ∀ c ty sat d a , exec (.iabs c ty sat d a) s = execIabs c ty sat d a s := fun _ _ _ _ _ => rfl
@[simp] theorem exec_ineg (s : State) :
    ∀ c ty sat d a , exec (.ineg c ty sat d a) s = execIneg c ty sat d a s := fun _ _ _ _ _ => rfl
@[simp] theorem exec_imin (s : State) :
    ∀ c ty d a b , exec (.imin c ty d a b) s = execImin c ty d a b s := fun _ _ _ _ _ => rfl
@[simp] theorem exec_imax (s : State) :
    ∀ c ty d a b , exec (.imax c ty d a b) s = execImax c ty d a b s := fun _ _ _ _ _ => rfl
@[simp] theorem exec_ishl (s : State) :
    ∀ c ty d a b , exec (.ishl c ty d a b) s = execIshl c ty d a b s := fun _ _ _ _ _ => rfl
@[simp] theorem exec_ishr (s : State) :
    ∀ c ty d a b , exec (.ishr c ty d a b) s = execIshr c ty d a b s := fun _ _ _ _ _ => rfl
@[simp] theorem exec_isar (s : State) :
    ∀ c ty d a b , exec (.isar c ty d a b) s = execIsar c ty d a b s := fun _ _ _ _ _ => rfl
@[simp] theorem exec_irot (s : State) :
    ∀ c ty d a b , exec (.irot c ty d a b) s = execIrot c ty d a b s := fun _ _ _ _ _ => rfl
@[simp] theorem exec_and (s : State) :
    ∀ c ty d a b , exec (.and c ty d a b) s = execAnd c ty d a b s := fun _ _ _ _ _ => rfl
@[simp] theorem exec_or (s : State) :
    ∀ c ty d a b , exec (.or c ty d a b) s = execOr c ty d a b s := fun _ _ _ _ _ => rfl
@[simp] theorem exec_xor (s : State) :
    ∀ c ty d a b , exec (.xor c ty d a b) s = execXor c ty d a b s := fun _ _ _ _ _ => rfl
@[simp] theorem exec_not (s : State) :
    ∀ c ty d a , exec (.not c ty d a) s = execNot c ty d a s := fun _ _ _ _ => rfl
@[simp] theorem exec_andn (s : State) :
    ∀ c ty d a b , exec (.andn c ty d a b) s = execAndn c ty d a b s := fun _ _ _ _ _ => rfl
@[simp] theorem exec_bfx (s : State) :
    ∀ c ty d a b , exec (.bfx c ty d a b) s = execBfx c ty d a b s := fun _ _ _ _ _ => rfl
@[simp] theorem exec_bfi (s : State) :
    ∀ c ty d a b e , exec (.bfi c ty d a b e) s = execBfi c ty d a b e s := fun _ _ _ _ _ _ => rfl
@[simp] theorem exec_popc (s : State) :
    ∀ c ty d a , exec (.popc c ty d a) s = execPopc c ty d a s := fun _ _ _ _ => rfl
@[simp] theorem exec_clz (s : State) :
    ∀ c ty d a , exec (.clz c ty d a) s = execClz c ty d a s := fun _ _ _ _ => rfl
@[simp] theorem exec_ctz (s : State) :
    ∀ c ty d a , exec (.ctz c ty d a) s = execCtz c ty d a s := fun _ _ _ _ => rfl
@[simp] theorem exec_brev (s : State) :
    ∀ c ty d a , exec (.brev c ty d a) s = execBrev c ty d a s := fun _ _ _ _ => rfl
@[simp] theorem exec_prmb (s : State) :
    ∀ c d a b , exec (.prmb c d a b) s = execPrmb c d a b s := fun _ _ _ _ => rfl
@[simp] theorem exec_lea (s : State) :
    ∀ c ty sh d a b , exec (.lea c ty sh d a b) s = execLea c ty sh d a b s := fun _ _ _ _ _ _ => rfl
@[simp] theorem exec_isetp (s : State) :
    ∀ c ty cc pd a b , exec (.isetp c ty cc pd a b) s = execIsetp c ty cc pd a b s := fun _ _ _ _ _ _ => rfl
@[simp] theorem exec_plop (s : State) :
    ∀ c tt pd a pb , exec (.plop c tt pd a pb) s = execPlop c tt pd a pb s := fun _ _ _ _ _ => rfl
@[simp] theorem exec_p2g (s : State) :
    ∀ c d , exec (.p2g c d) s = execP2g c d s := fun _ _ => rfl
@[simp] theorem exec_g2p (s : State) :
    ∀ c mask g , exec (.g2p c mask g) s = execG2p c mask g s := fun _ _ _ => rfl
@[simp] theorem exec_sread (s : State) :
    ∀ c d v , exec (.sread c d v) s = execSread c d v s := fun _ _ _ => rfl
@[simp] theorem exec_bra (s : State) :
    ∀ c imm , exec (.bra c imm) s = execBra c imm s := fun _ _ => rfl
@[simp] theorem exec_brx (s : State) :
    ∀ c g , exec (.brx c g) s = execBrx c g s := fun _ _ => rfl
@[simp] theorem exec_call (s : State) :
    ∀ c g imm , exec (.call c g imm) s = execCall c g imm s := fun _ _ _ => rfl
@[simp] theorem exec_ret (s : State) :
    ∀ c g , exec (.ret c g) s = execRet c g s := fun _ _ => rfl
@[simp] theorem exec_exit (s : State) :
    ∀ c , exec (.exit c) s = execExit c s := fun _ => rfl
@[simp] theorem exec_yield (s : State) :
    ∀ c , exec (.yield c) s = execYield c s := fun _ => rfl
@[simp] theorem exec_chkd (s : State) :
    ∀ c pair g imm , exec (.chkd c pair g imm) s = execChkd c pair g imm s := fun _ _ _ _ => rfl
@[simp] theorem exec_fadd (s : State) :
    ∀ c ty rm sat d a b , exec (.fadd c ty rm sat d a b) s = execFadd c ty rm sat d a b s := fun _ _ _ _ _ _ _ => rfl
@[simp] theorem exec_fsub (s : State) :
    ∀ c ty rm sat d a b , exec (.fsub c ty rm sat d a b) s = execFsub c ty rm sat d a b s := fun _ _ _ _ _ _ _ => rfl
@[simp] theorem exec_fmul (s : State) :
    ∀ c ty rm sat d a b , exec (.fmul c ty rm sat d a b) s = execFmul c ty rm sat d a b s := fun _ _ _ _ _ _ _ => rfl
@[simp] theorem exec_ffma (s : State) :
    ∀ c ty rm sat d a b e , exec (.ffma c ty rm sat d a b e) s = execFfma c ty rm sat d a b e s := fun _ _ _ _ _ _ _ _ => rfl
@[simp] theorem exec_fmin (s : State) :
    ∀ c ty d a b , exec (.fmin c ty d a b) s = execFmin c ty d a b s := fun _ _ _ _ _ => rfl
@[simp] theorem exec_fmax (s : State) :
    ∀ c ty d a b , exec (.fmax c ty d a b) s = execFmax c ty d a b s := fun _ _ _ _ _ => rfl
@[simp] theorem exec_fsetp (s : State) :
    ∀ c ty cc pd a b , exec (.fsetp c ty cc pd a b) s = execFsetp c ty cc pd a b s := fun _ _ _ _ _ _ => rfl
@[simp] theorem exec_fclass (s : State) :
    ∀ c ty d a , exec (.fclass c ty d a) s = execFclass c ty d a s := fun _ _ _ _ => rfl
@[simp] theorem exec_frnd (s : State) :
    ∀ c ty rm x d a , exec (.frnd c ty rm x d a) s = execFrnd c ty rm x d a s := fun _ _ _ _ _ _ => rfl
@[simp] theorem exec_fcvt (s : State) :
    ∀ c dst src rm d a b , exec (.fcvt c dst src rm d a b) s = execFcvt c dst src rm d a b s := fun _ _ _ _ _ _ _ => rfl
@[simp] theorem exec_icvt (s : State) :
    ∀ c f2i flt int rm d a , exec (.icvt c f2i flt int rm d a) s = execIcvt c f2i flt int rm d a s := fun _ _ _ _ _ _ _ => rfl
@[simp] theorem exec_fscale (s : State) :
    ∀ c ty rm d a b , exec (.fscale c ty rm d a b) s = execFscale c ty rm d a b s := fun _ _ _ _ _ _ => rfl
@[simp] theorem exec_shfl (s : State) :
    ∀ c wide mode d a b , exec (.shfl c wide mode d a b) s = execShfl c wide mode d a b s := fun _ _ _ _ _ _ => rfl
@[simp] theorem exec_vote (s : State) :
    ∀ c mode d pa , exec (.vote c mode d pa) s = execVote c mode d pa s := fun _ _ _ _ => rfl
@[simp] theorem exec_gred (s : State) :
    ∀ c ty op rm d a , exec (.gred c ty op rm d a) s = execGred c ty op rm d a s := fun _ _ _ _ _ _ => rfl
@[simp] theorem exec_gscan (s : State) :
    ∀ c ty op rm d a , exec (.gscan c ty op rm d a) s = execGscan c ty op rm d a s := fun _ _ _ _ _ _ => rfl
@[simp] theorem exec_rand (s : State) :
    ∀ c stream d a b , exec (.rand c stream d a b) s = execRand c stream d a b s := fun _ _ _ _ _ => rfl
@[simp] theorem exec_frcp (s : State) :
    ∀ c rm d a , exec (.frcp c rm d a) s = execFrcp c rm d a s := fun _ _ _ _ => rfl
@[simp] theorem exec_frsq (s : State) :
    ∀ c rm d a , exec (.frsq c rm d a) s = execFrsq c rm d a s := fun _ _ _ _ => rfl
@[simp] theorem exec_fsqrt (s : State) :
    ∀ c rm d a , exec (.fsqrt c rm d a) s = execFsqrt c rm d a s := fun _ _ _ _ => rfl
@[simp] theorem exec_fdiv (s : State) :
    ∀ c rm d a b , exec (.fdiv c rm d a b) s = execFdiv c rm d a b s := fun _ _ _ _ _ => rfl
@[simp] theorem exec_fexp2 (s : State) :
    ∀ c rm d a , exec (.fexp2 c rm d a) s = execFexp2 c rm d a s := fun _ _ _ _ => rfl
@[simp] theorem exec_flog2 (s : State) :
    ∀ c rm d a , exec (.flog2 c rm d a) s = execFlog2 c rm d a s := fun _ _ _ _ => rfl
@[simp] theorem exec_fsinpi (s : State) :
    ∀ c rm d a , exec (.fsinpi c rm d a) s = execFsinpi c rm d a s := fun _ _ _ _ => rfl
@[simp] theorem exec_fcospi (s : State) :
    ∀ c rm d a , exec (.fcospi c rm d a) s = execFcospi c rm d a s := fun _ _ _ _ => rfl
@[simp] theorem exec_ftanh (s : State) :
    ∀ c rm d a , exec (.ftanh c rm d a) s = execFtanh c rm d a s := fun _ _ _ _ => rfl
@[simp] theorem exec_ldOff (s : State) :
    ∀ c sp sz spec d a off , exec (.ldOff c sp sz spec d a off) s = execLdOff c sp sz spec d a off s := fun _ _ _ _ _ _ _ => rfl
@[simp] theorem exec_ldIdx (s : State) :
    ∀ c sp sz ord d a b , exec (.ldIdx c sp sz ord d a b) s = execLdIdx c sp sz ord d a b s := fun _ _ _ _ _ _ _ => rfl
@[simp] theorem exec_stOff (s : State) :
    ∀ c sp sz d a off , exec (.stOff c sp sz d a off) s = execStOff c sp sz d a off s := fun _ _ _ _ _ _ => rfl
@[simp] theorem exec_stIdx (s : State) :
    ∀ c sp sz rel d a b , exec (.stIdx c sp sz rel d a b) s = execStIdx c sp sz rel d a b s := fun _ _ _ _ _ _ _ => rfl
@[simp] theorem exec_ldeOff (s : State) :
    ∀ c cn d a off , exec (.ldeOff c cn d a off) s = execLdeOff c cn d a off s := fun _ _ _ _ _ => rfl
@[simp] theorem exec_ldeIdx (s : State) :
    ∀ c sp cn fmt d a b , exec (.ldeIdx c sp cn fmt d a b) s = execLdeIdx c sp cn fmt d a b s := fun _ _ _ _ _ _ _ => rfl
@[simp] theorem exec_steOff (s : State) :
    ∀ c cn d a off , exec (.steOff c cn d a off) s = execSteOff c cn d a off s := fun _ _ _ _ _ => rfl
@[simp] theorem exec_steIdx (s : State) :
    ∀ c sp cn fmt d a b , exec (.steIdx c sp cn fmt d a b) s = execSteIdx c sp cn fmt d a b s := fun _ _ _ _ _ _ _ => rfl
@[simp] theorem exec_atom (s : State) :
    ∀ c sp ty op ord d a b , exec (.atom c sp ty op ord d a b) s = execAtom c sp ty op ord d a b s := fun _ _ _ _ _ _ _ _ => rfl
@[simp] theorem exec_red (s : State) :
    ∀ c sp ty op key rel d a b , exec (.red c sp ty op key rel d a b) s = execRed c sp ty op key rel d a b s := fun _ _ _ _ _ _ _ _ _ => rfl
@[simp] theorem exec_fence (s : State) :
    ∀ c kind sc , exec (.fence c kind sc) s = execFence c kind sc s := fun _ _ _ => rfl
@[simp] theorem exec_waitm (s : State) :
    ∀ c sc d a b t , exec (.waitm c sc d a b t) s = execWaitm c sc d a b t s := fun _ _ _ _ _ _ => rfl
@[simp] theorem exec_prefOff (s : State) :
    ∀ c sz a off , exec (.prefOff c sz a off) s = execPrefOff c sz a off s := fun _ _ _ _ => rfl
@[simp] theorem exec_prefIdx (s : State) :
    ∀ c sz a b , exec (.prefIdx c sz a b) s = execPrefIdx c sz a b s := fun _ _ _ _ => rfl
@[simp] theorem exec_cmntOff (s : State) :
    ∀ c sz op a off , exec (.cmntOff c sz op a off) s = execCmntOff c sz op a off s := fun _ _ _ _ _ => rfl
@[simp] theorem exec_cmntIdx (s : State) :
    ∀ c sz op a b , exec (.cmntIdx c sz op a b) s = execCmntIdx c sz op a b s := fun _ _ _ _ _ => rfl
@[simp] theorem exec_rbeg (s : State) :
    ∀ c d a , exec (.rbeg c d a) s = execRbeg c d a s := fun _ _ _ => rfl
@[simp] theorem exec_rcmt (s : State) :
    ∀ c , exec (.rcmt c) s = execRcmt c s := fun _ => rfl
@[simp] theorem exec_rabt (s : State) :
    ∀ c , exec (.rabt c) s = execRabt c s := fun _ => rfl
@[simp] theorem exec_nbinit (s : State) :
    ∀ c n , exec (.nbinit c n) s = execNbinit c n s := fun _ _ => rfl
@[simp] theorem exec_nbarv (s : State) :
    ∀ c n b , exec (.nbarv c n b) s = execNbarv c n b s := fun _ _ _ => rfl
@[simp] theorem exec_nbsync (s : State) :
    ∀ c n b , exec (.nbsync c n b) s = execNbsync c n b s := fun _ _ _ => rfl
@[simp] theorem exec_bbinit (s : State) :
    ∀ c n b , exec (.bbinit c n b) s = execBbinit c n b s := fun _ _ _ => rfl
@[simp] theorem exec_bbexp (s : State) :
    ∀ c n b , exec (.bbexp c n b) s = execBbexp c n b s := fun _ _ _ => rfl
@[simp] theorem exec_bbarv (s : State) :
    ∀ c n b , exec (.bbarv c n b) s = execBbarv c n b s := fun _ _ _ => rfl
@[simp] theorem exec_bbwait (s : State) :
    ∀ c n , exec (.bbwait c n) s = execBbwait c n s := fun _ _ => rfl
@[simp] theorem exec_bbtest (s : State) :
    ∀ c pd n , exec (.bbtest c pd n) s = execBbtest c pd n s := fun _ _ _ => rfl
@[simp] theorem exec_tkreq (s : State) :
    ∀ c yld d a pk , exec (.tkreq c yld d a pk) s = execTkreq c yld d a pk s := fun _ _ _ _ _ => rfl
@[simp] theorem exec_tktry (s : State) :
    ∀ c pd a , exec (.tktry c pd a) s = execTktry c pd a s := fun _ _ _ => rfl
@[simp] theorem exec_tkwait (s : State) :
    ∀ c a , exec (.tkwait c a) s = execTkwait c a s := fun _ _ => rfl
@[simp] theorem exec_tkgive (s : State) :
    ∀ c a b , exec (.tkgive c a b) s = execTkgive c a b s := fun _ _ _ => rfl
@[simp] theorem exec_tkswap (s : State) :
    ∀ c pd a b , exec (.tkswap c pd a b) s = execTkswap c pd a b s := fun _ _ _ _ => rfl
@[simp] theorem exec_tkaban (s : State) :
    ∀ c a , exec (.tkaban c a) s = execTkaban c a s := fun _ _ => rfl
@[simp] theorem exec_tkrel (s : State) :
    ∀ c a , exec (.tkrel c a) s = execTkrel c a s := fun _ _ => rfl
@[simp] theorem exec_boothStep (s : State) :
    ∀ p die obj , exec (.boothStep p die obj) s = execBoothStep p die obj s := fun _ _ _ => rfl
@[simp] theorem exec_tkinfo (s : State) :
    ∀ c d a , exec (.tkinfo c d a) s = execTkinfo c d a s := fun _ _ _ => rfl
@[simp] theorem exec_honew (s : State) :
    ∀ c d a , exec (.honew c d a) s = execHonew c d a s := fun _ _ _ => rfl
@[simp] theorem exec_hodel (s : State) :
    ∀ c a , exec (.hodel c a) s = execHodel c a s := fun _ _ => rfl
@[simp] theorem exec_tspawn (s : State) :
    ∀ c n d a b e , exec (.tspawn c n d a b e) s = execTspawn c n d a b e s := fun _ _ _ _ _ _ => rfl
@[simp] theorem exec_tdec (s : State) :
    ∀ c a , exec (.tdec c a) s = execTdec c a s := fun _ _ => rfl
@[simp] theorem exec_tarm (s : State) :
    ∀ c a b e , exec (.tarm c a b e) s = execTarm c a b e s := fun _ _ _ _ => rfl
@[simp] theorem exec_tdisarm (s : State) :
    ∀ c pd a , exec (.tdisarm c pd a) s = execTdisarm c pd a s := fun _ _ _ => rfl
@[simp] theorem exec_certw (s : State) :
    ∀ c pd a , exec (.certw c pd a) s = execCertw c pd a s := fun _ _ _ => rfl
@[simp] theorem exec_wbld (s : State) :
    ∀ c a b e , exec (.wbld c a b e) s = execWbld c a b e s := fun _ _ _ _ => rfl
@[simp] theorem exec_mml (s : State) :
    ∀ c af a b , exec (.mml c af a b) s = execMml c af a b s := fun _ _ _ _ => rfl
@[simp] theorem exec_mmlg (s : State) :
    ∀ c af a b t , exec (.mmlg c af a b t) s = execMmlg c af a b t s := fun _ _ _ _ _ => rfl
@[simp] theorem exec_accz (s : State) :
    ∀ c a , exec (.accz c a) s = execAccz c a s := fun _ _ => rfl
@[simp] theorem exec_accrd (s : State) :
    ∀ c n d a , exec (.accrd c n d a) s = execAccrd c n d a s := fun _ _ _ _ => rfl
@[simp] theorem exec_accst (s : State) :
    ∀ c fmt rm int a b e , exec (.accst c fmt rm int a b e) s = execAccst c fmt rm int a b e s := fun _ _ _ _ _ _ _ => rfl
@[simp] theorem exec_cpy (s : State) :
    ∀ c a , exec (.cpy c a) s = execCpy c a s := fun _ _ => rfl
@[simp] theorem exec_cpym (s : State) :
    ∀ c a , exec (.cpym c a) s = execCpym c a s := fun _ _ => rfl
@[simp] theorem exec_cpyx (s : State) :
    ∀ c a , exec (.cpyx c a) s = execCpyx c a s := fun _ _ => rfl
@[simp] theorem exec_coll (s : State) :
    ∀ c d a , exec (.coll c d a) s = execColl c d a s := fun _ _ _ => rfl
@[simp] theorem exec_collq (s : State) :
    ∀ c d a , exec (.collq c d a) s = execCollq c d a s := fun _ _ _ => rfl
@[simp] theorem exec_vpjinit (s : State) :
    ∀ c a b e , exec (.vpjinit c a b e) s = execVpjinit c a b e s := fun _ _ _ _ => rfl
@[simp] theorem exec_vpj (s : State) :
    ∀ c a , exec (.vpj c a) s = execVpj c a s := fun _ _ => rfl
@[simp] theorem exec_vpjmrg (s : State) :
    ∀ c a b e , exec (.vpjmrg c a b e) s = execVpjmrg c a b e s := fun _ _ _ _ => rfl
@[simp] theorem exec_vpjfin (s : State) :
    ∀ c a b , exec (.vpjfin c a b) s = execVpjfin c a b s := fun _ _ _ => rfl
@[simp] theorem exec_vsamp (s : State) :
    ∀ c a , exec (.vsamp c a) s = execVsamp c a s := fun _ _ => rfl
@[simp] theorem exec_vpjbwd (s : State) :
    ∀ c a , exec (.vpjbwd c a) s = execVpjbwd c a s := fun _ _ => rfl
@[simp] theorem exec_vtopk (s : State) :
    ∀ c a , exec (.vtopk c a) s = execVtopk c a s := fun _ _ => rfl
@[simp] theorem exec_vsmax (s : State) :
    ∀ c a , exec (.vsmax c a) s = execVsmax c a s := fun _ _ => rfl
@[simp] theorem exec_trapReg (s : State) :
    ∀ c a , exec (.trapReg c a) s = execTrapReg c a s := fun _ _ => rfl
@[simp] theorem exec_trapImm (s : State) :
    ∀ c imm , exec (.trapImm c imm) s = execTrapImm c imm s := fun _ _ => rfl
@[simp] theorem exec_rtt (s : State) :
    ∀ c , exec (.rtt c) s = execRtt c s := fun _ => rfl
@[simp] theorem exec_tmaskReg (s : State) :
    ∀ c a , exec (.tmaskReg c a) s = execTmaskReg c a s := fun _ _ => rfl
@[simp] theorem exec_tmaskImm (s : State) :
    ∀ c imm , exec (.tmaskImm c imm) s = execTmaskImm c imm s := fun _ _ => rfl
@[simp] theorem exec_ctlrdReg (s : State) :
    ∀ c d b , exec (.ctlrdReg c d b) s = execCtlrdReg c d b s := fun _ _ _ => rfl
@[simp] theorem exec_ctlrdImm (s : State) :
    ∀ c d sel , exec (.ctlrdImm c d sel) s = execCtlrdImm c d sel s := fun _ _ _ => rfl
@[simp] theorem exec_ctlwrReg (s : State) :
    ∀ c d b , exec (.ctlwrReg c d b) s = execCtlwrReg c d b s := fun _ _ _ => rfl
@[simp] theorem exec_ctlwrImm (s : State) :
    ∀ c d sel , exec (.ctlwrImm c d sel) s = execCtlwrImm c d sel s := fun _ _ _ => rfl
@[simp] theorem exec_tlbiPage (s : State) :
    ∀ c a , exec (.tlbiPage c a) s = execTlbiPage c a s := fun _ _ => rfl
@[simp] theorem exec_tlbiAll (s : State) :
    ∀ c , exec (.tlbiAll c) s = execTlbiAll c s := fun _ => rfl
@[simp] theorem exec_bkpt (s : State) :
    ∀ c n , exec (.bkpt c n) s = execBkpt c n s := fun _ _ => rfl
@[simp] theorem exec_evrec (s : State) :
    ∀ c a b , exec (.evrec c a b) s = execEvrec c a b s := fun _ _ _ => rfl
@[simp] theorem exec_teamResourcesFree (s : State) :
    ∀ p ctx , exec (.teamResourcesFree p ctx) s = execTeamResourcesFree p ctx s := fun _ _ => rfl
@[simp] theorem exec_mirrorRedispatch (s : State) :
    ∀ p ctx , exec (.mirrorRedispatch p ctx) s = execMirrorRedispatch p ctx s := fun _ _ => rfl
@[simp] theorem exec_teamDispatch (s : State) :
    ∀ p core slot ctx , exec (.teamDispatch p core slot ctx) s = execTeamDispatch p core slot ctx s := fun _ _ _ _ => rfl
@[simp] theorem exec_portPick (s : State) :
    ∀ w , exec (.portPick w) s = execPortPick w s := fun _ => rfl
@[simp] theorem exec_deferredResultReturn (s : State) :
    ∀ w lane k , exec (.deferredResultReturn w lane k) s = execDeferredResultReturn w lane k s := fun _ _ _ => rfl
@[simp] theorem exec_park (s : State) :
    ∀ w pc , exec (.park w pc) s = execPark w pc s := fun _ _ => rfl
@[simp] theorem exec_groupRetire (s : State) :
    ∀ w , exec (.groupRetire w) s = execGroupRetire w s := fun _ => rfl
@[simp] theorem exec_taskComplete (s : State) :
    ∀ p ctx , exec (.taskComplete p ctx) s = execTaskComplete p ctx s := fun _ _ => rfl
@[simp] theorem exec_recordRetire (s : State) :
    ∀ p inst , exec (.recordRetire p inst) s = execRecordRetire p inst s := fun _ _ => rfl
@[simp] theorem exec_deferredLaunch (s : State) :
    ∀ p , exec (.deferredLaunch p) s = execDeferredLaunch p s := fun _ => rfl
@[simp] theorem exec_mboxMsg (s : State) :
    ∀ p page bytes , exec (.mboxMsg p page bytes) s = execMboxMsg p page bytes s := fun _ _ _ => rfl
@[simp] theorem exec_mboxStatWrite (s : State) :
    ∀ p page v , exec (.mboxStatWrite p page v) s = execMboxStatWrite p page v s := fun _ _ _ => rfl
@[simp] theorem exec_launch (s : State) :
    ∀ p page , exec (.launch p page) s = execLaunch p page s := fun _ _ => rfl
@[simp] theorem exec_slotFire (s : State) :
    ∀ p page , exec (.slotFire p page) s = execSlotFire p page s := fun _ _ => rfl
@[simp] theorem exec_cancel (s : State) :
    ∀ p , exec (.cancel p) s = execCancel p s := fun _ => rfl
@[simp] theorem exec_free (s : State) :
    ∀ p , exec (.free p) s = execFree p s := fun _ => rfl
@[simp] theorem exec_preempt (s : State) :
    ∀ p , exec (.preempt p) s = execPreempt p s := fun _ => rfl
@[simp] theorem exec_slice (s : State) :
    ∀ p , exec (.slice p) s = execSlice p s := fun _ => rfl
@[simp] theorem exec_migrate (s : State) :
    ∀ p , exec (.migrate p) s = execMigrate p s := fun _ => rfl
@[simp] theorem exec_endfwd (s : State) :
    ∀ p , exec (.endfwd p) s = execEndfwd p s := fun _ => rfl
@[simp] theorem exec_dead (s : State) :
    ∀ p , exec (.dead p) s = execDead p s := fun _ => rfl
@[simp] theorem exec_scrub (s : State) :
    ∀ p host , exec (.scrub p host) s = execScrub p host s := fun _ _ => rfl
@[simp] theorem exec_dbghalt (s : State) :
    ∀ p , exec (.dbghalt p) s = execDbghalt p s := fun _ => rfl
@[simp] theorem exec_objdel (s : State) :
    ∀ p , exec (.objdel p) s = execObjdel p s := fun _ => rfl
@[simp] theorem exec_dbgcont (s : State) :
    ∀ p , exec (.dbgcont p) s = execDbgcont p s := fun _ => rfl
@[simp] theorem exec_cmdBadOp (s : State) :
    ∀ p , exec (.cmdBadOp p) s = execCmdBadOp p s := fun _ => rfl
@[simp] theorem exec_cmdStatWrite (s : State) :
    ∀ p v , exec (.cmdStatWrite p v) s = execCmdStatWrite p v s := fun _ _ => rfl
@[simp] theorem exec_sliceExpiry (s : State) :
    ∀ p core , exec (.sliceExpiry p core) s = execSliceExpiry p core s := fun _ _ => rfl
@[simp] theorem exec_preemptSwitch (s : State) :
    ∀ p core , exec (.preemptSwitch p core) s = execPreemptSwitch p core s := fun _ _ => rfl
@[simp] theorem exec_contextSpill (s : State) :
    ∀ p ctx , exec (.contextSpill p ctx) s = execContextSpill p ctx s := fun _ _ => rfl
@[simp] theorem exec_teamResume (s : State) :
    ∀ p ctx core slot , exec (.teamResume p ctx core slot) s = execTeamResume p ctx core slot s := fun _ _ _ _ => rfl
@[simp] theorem exec_wheelWindow (s : State) :
    ∀ p core , exec (.wheelWindow p core) s = execWheelWindow p core s := fun _ _ => rfl
@[simp] theorem exec_scanPass (s : State) :
    ∀ p core , exec (.scanPass p core) s = execScanPass p core s := fun _ _ => rfl
@[simp] theorem exec_scanFail (s : State) :
    ∀ p core , exec (.scanFail p core) s = execScanFail p core s := fun _ _ => rfl
@[simp] theorem exec_barkerTimeout (s : State) :
    ∀ p core , exec (.barkerTimeout p core) s = execBarkerTimeout p core s := fun _ _ => rfl
@[simp] theorem exec_waitmTimeout (s : State) :
    ∀ w lane , exec (.waitmTimeout w lane) s = execWaitmTimeout w lane s := fun _ _ => rfl
@[simp] theorem exec_faultReplay (s : State) :
    ∀ p resp , exec (.faultReplay p resp) s = execFaultReplay p resp s := fun _ _ => rfl
@[simp] theorem exec_faultFail (s : State) :
    ∀ p resp , exec (.faultFail p resp) s = execFaultFail p resp s := fun _ _ => rfl
@[simp] theorem exec_faultResponseReserved (s : State) :
    ∀ p resp , exec (.faultResponseReserved p resp) s = execFaultResponseReserved p resp s := fun _ _ => rfl
@[simp] theorem exec_copyStart (s : State) :
    ∀ p ctx k , exec (.copyStart p ctx k) s = execCopyStart p ctx k s := fun _ _ _ => rfl
@[simp] theorem exec_copyPieceWritten (s : State) :
    ∀ p ctx k n , exec (.copyPieceWritten p ctx k n) s = execCopyPieceWritten p ctx k n s := fun _ _ _ _ => rfl
@[simp] theorem exec_copyEnd (s : State) :
    ∀ p ctx k , exec (.copyEnd p ctx k) s = execCopyEnd p ctx k s := fun _ _ _ => rfl
@[simp] theorem exec_matrixCmdStart (s : State) :
    ∀ p ctx odd , exec (.matrixCmdStart p ctx odd) s = execMatrixCmdStart p ctx odd s := fun _ _ _ => rfl
@[simp] theorem exec_matrixCmdComplete (s : State) :
    ∀ p ctx odd , exec (.matrixCmdComplete p ctx odd) s = execMatrixCmdComplete p ctx odd s := fun _ _ _ => rfl
@[simp] theorem exec_collExchange (s : State) :
    ∀ p h , exec (.collExchange p h) s = execCollExchange p h s := fun _ _ => rfl
@[simp] theorem exec_collContribution (s : State) :
    ∀ p link , exec (.collContribution p link) s = execCollContribution p link s := fun _ _ => rfl
@[simp] theorem exec_collAbortToken (s : State) :
    ∀ p link , exec (.collAbortToken p link) s = execCollAbortToken p link s := fun _ _ => rfl
@[simp] theorem exec_collEnd (s : State) :
    ∀ p h , exec (.collEnd p h) s = execCollEnd p h s := fun _ _ => rfl
@[simp] theorem exec_gets (s : State) :
    ∀ p link , exec (.gets p link) s = execGets p link s := fun _ _ => rfl
@[simp] theorem exec_getm (s : State) :
    ∀ p link , exec (.getm p link) s = execGetm p link s := fun _ _ => rfl
@[simp] theorem exec_wrh (s : State) :
    ∀ p link , exec (.wrh p link) s = execWrh p link s := fun _ _ => rfl
@[simp] theorem exec_redReq (s : State) :
    ∀ p link , exec (.redReq p link) s = execRedReq p link s := fun _ _ => rfl
@[simp] theorem exec_wb (s : State) :
    ∀ p link , exec (.wb p link) s = execWb p link s := fun _ _ => rfl
@[simp] theorem exec_eve (s : State) :
    ∀ p link , exec (.eve p link) s = execEve p link s := fun _ _ => rfl
@[simp] theorem exec_snp (s : State) :
    ∀ p link , exec (.snp p link) s = execSnp p link s := fun _ _ => rfl
@[simp] theorem exec_snpr (s : State) :
    ∀ p link , exec (.snpr p link) s = execSnpr p link s := fun _ _ => rfl
@[simp] theorem exec_rspData (s : State) :
    ∀ p link , exec (.rspData p link) s = execRspData p link s := fun _ _ => rfl
@[simp] theorem exec_rspAck (s : State) :
    ∀ p link , exec (.rspAck p link) s = execRspAck p link s := fun _ _ => rfl
@[simp] theorem exec_rspRefused (s : State) :
    ∀ p link , exec (.rspRefused p link) s = execRspRefused p link s := fun _ _ => rfl
@[simp] theorem exec_rspPoison (s : State) :
    ∀ p link , exec (.rspPoison p link) s = execRspPoison p link s := fun _ _ => rfl
@[simp] theorem exec_rspHold (s : State) :
    ∀ p link , exec (.rspHold p link) s = execRspHold p link s := fun _ _ => rfl
@[simp] theorem exec_remoteReadTimeout (s : State) :
    ∀ p r , exec (.remoteReadTimeout p r) s = execRemoteReadTimeout p r s := fun _ _ => rfl
@[simp] theorem exec_remoteWriteTimeout (s : State) :
    ∀ p r , exec (.remoteWriteTimeout p r) s = execRemoteWriteTimeout p r s := fun _ _ => rfl
@[simp] theorem exec_migrationSwitch (s : State) :
    ∀ p page , exec (.migrationSwitch p page) s = execMigrationSwitch p page s := fun _ _ => rfl
@[simp] theorem exec_turnstileWrite (s : State) :
    ∀ p region v , exec (.turnstileWrite p region v) s = execTurnstileWrite p region v s := fun _ _ _ => rfl
@[simp] theorem exec_turnstileDone (s : State) :
    ∀ p region , exec (.turnstileDone p region) s = execTurnstileDone p region s := fun _ _ => rfl
@[simp] theorem exec_cellTableWrite (s : State) :
    ∀ p off bytes , exec (.cellTableWrite p off bytes) s = execCellTableWrite p off bytes s := fun _ _ _ => rfl
@[simp] theorem exec_peerSilenceTimeout (s : State) :
    ∀ p q , exec (.peerSilenceTimeout p q) s = execPeerSilenceTimeout p q s := fun _ _ => rfl
@[simp] theorem exec_safetyNetWalk (s : State) :
    ∀ p line , exec (.safetyNetWalk p line) s = execSafetyNetWalk p line s := fun _ _ => rfl
@[simp] theorem exec_heartbeat (s : State) :
    ∀ p link , exec (.heartbeat p link) s = execHeartbeat p link s := fun _ _ => rfl
@[simp] theorem exec_deathNotice (s : State) :
    ∀ p link , exec (.deathNotice p link) s = execDeathNotice p link s := fun _ _ => rfl
@[simp] theorem exec_retireNotice (s : State) :
    ∀ p link , exec (.retireNotice p link) s = execRetireNotice p link s := fun _ _ => rfl
@[simp] theorem exec_taggedLaunchMsg (s : State) :
    ∀ p link , exec (.taggedLaunchMsg p link) s = execTaggedLaunchMsg p link s := fun _ _ => rfl
@[simp] theorem exec_flitIdle (s : State) :
    ∀ p link , exec (.flitIdle p link) s = execFlitIdle p link s := fun _ _ => rfl
@[simp] theorem exec_flitReplayRequest (s : State) :
    ∀ p link , exec (.flitReplayRequest p link) s = execFlitReplayRequest p link s := fun _ _ => rfl
@[simp] theorem exec_linkReplayTimeout (s : State) :
    ∀ p link , exec (.linkReplayTimeout p link) s = execLinkReplayTimeout p link s := fun _ _ => rfl
@[simp] theorem exec_connectionStart (s : State) :
    ∀ p link , exec (.connectionStart p link) s = execConnectionStart p link s := fun _ _ => rfl
@[simp] theorem exec_slotDrain (s : State) :
    ∀ p , exec (.slotDrain p) s = execSlotDrain p s := fun _ => rfl
@[simp] theorem exec_slotGuard (s : State) :
    ∀ p , exec (.slotGuard p) s = execSlotGuard p s := fun _ => rfl
@[simp] theorem exec_linkPick (s : State) :
    ∀ p link , exec (.linkPick p link) s = execLinkPick p link s := fun _ _ => rfl
@[simp] theorem exec_lightLoss (s : State) :
    ∀ p link fibre , exec (.lightLoss p link fibre) s = execLightLoss p link fibre s := fun _ _ _ => rfl
@[simp] theorem exec_restripe (s : State) :
    ∀ p link , exec (.restripe p link) s = execRestripe p link s := fun _ _ => rfl
@[simp] theorem exec_feedReturn (s : State) :
    ∀ p link fibre , exec (.feedReturn p link fibre) s = execFeedReturn p link fibre s := fun _ _ _ => rfl
@[simp] theorem exec_scheduleWrite (s : State) :
    ∀ p img , exec (.scheduleWrite p img) s = execScheduleWrite p img s := fun _ _ => rfl
@[simp] theorem exec_scheduleEpoch (s : State) :
    ∀ p , exec (.scheduleEpoch p) s = execScheduleEpoch p s := fun _ => rfl
@[simp] theorem exec_bar2Read (s : State) :
    ∀ p off n , exec (.bar2Read p off n) s = execBar2Read p off n s := fun _ _ _ => rfl
@[simp] theorem exec_bar2Write (s : State) :
    ∀ p off bytes , exec (.bar2Write p off bytes) s = execBar2Write p off bytes s := fun _ _ _ => rfl
@[simp] theorem exec_packageReset (s : State) :
    ∀ p , exec (.packageReset p) s = execPackageReset p s := fun _ => rfl
@[simp] theorem exec_functionReady (s : State) :
    ∀ p bit ok , exec (.functionReady p bit ok) s = execFunctionReady p bit ok s := fun _ _ _ => rfl
@[simp] theorem exec_freeze (s : State) :
    ∀ p , exec (.freeze p) s = execFreeze p s := fun _ => rfl
@[simp] theorem exec_thermalLimit (s : State) :
    ∀ p , exec (.thermalLimit p) s = execThermalLimit p s := fun _ => rfl
@[simp] theorem exec_powerRemove (s : State) :
    ∀ p , exec (.powerRemove p) s = execPowerRemove p s := fun _ => rfl
@[simp] theorem exec_getVersion (s : State) :
    ∀ p r , exec (.getVersion p r) s = execGetVersion p r s := fun _ _ => rfl
@[simp] theorem exec_getCapabilities (s : State) :
    ∀ p r , exec (.getCapabilities p r) s = execGetCapabilities p r s := fun _ _ => rfl
@[simp] theorem exec_negotiateAlgorithms (s : State) :
    ∀ p r , exec (.negotiateAlgorithms p r) s = execNegotiateAlgorithms p r s := fun _ _ => rfl
@[simp] theorem exec_getDigests (s : State) :
    ∀ p r , exec (.getDigests p r) s = execGetDigests p r s := fun _ _ => rfl
@[simp] theorem exec_getCertificate (s : State) :
    ∀ p r , exec (.getCertificate p r) s = execGetCertificate p r s := fun _ _ => rfl
@[simp] theorem exec_challenge (s : State) :
    ∀ p r , exec (.challenge p r) s = execChallenge p r s := fun _ _ => rfl
@[simp] theorem exec_getMeasurements (s : State) :
    ∀ p r , exec (.getMeasurements p r) s = execGetMeasurements p r s := fun _ _ => rfl
@[simp] theorem exec_spdmUnsupported (s : State) :
    ∀ p code r , exec (.spdmUnsupported p code r) s = execSpdmUnsupported p code r s := fun _ _ _ => rfl
@[simp] theorem exec_registerWrite (s : State) :
    ∀ p off bytes , exec (.registerWrite p off bytes) s = execRegisterWrite p off bytes s := fun _ _ _ => rfl
@[simp] theorem exec_relayedFlit (s : State) :
    ∀ p link , exec (.relayedFlit p link) s = execRelayedFlit p link s := fun _ _ => rfl
@[simp] theorem exec_tdecMsg (s : State) :
    ∀ p link , exec (.tdecMsg p link) s = execTdecMsg p link s := fun _ _ => rfl
@[simp] theorem exec_certwMsg (s : State) :
    ∀ p link , exec (.certwMsg p link) s = execCertwMsg p link s := fun _ _ => rfl
@[simp] theorem exec_evrTail (s : State) :
    ∀ p page v , exec (.evrTail p page v) s = execEvrTail p page v s := fun _ _ _ => rfl

end Sys2Proof.Machine
end

