-- ==== Sys2Proof/Laws/Effect.lean ====
section
/-! SUPPORT. The law of a class 4 to 6 word that one lane issues outside mirror mode: its act, once, on a team that keeps its lane. -/

namespace Sys2Proof.Machine

/-- A later state of a word keeps the issuing team, outside mirror mode, and the lane's thread. -/
structure Kept (u : Iss) (l : Nat) (s m : State) : Prop where
  team : ∃ b, u.team m = some b ∧ b.mirror = false ∧ l < b.width
  thread : u.thread m l = u.thread s l

theorem State.team?_withMem (m : State) (x : Mem) (q d : Nat) : ({ m with mem := x } : State).team? q d = m.team? q d := rfl

theorem State.team?_putRec (m : State) (p ix : Nat) (r : TRec) (q d : Nat) : (m.putRec p ix r).team? q d = m.team? q d := by
  unfold State.putRec
  rw [State.team?_withMem, State.team?_modPkg]
  rfl

theorem State.team?_makeReady (m : State) (p ix : Nat) (q d : Nat) : (m.makeReady p ix).team? q d = m.team? q d := by
  unfold State.makeReady
  split
  · rfl
  · rw [State.team?_modPkg]
    · exact State.team?_putRec _ _ _ _ _ _
    · rfl

theorem State.team?_addSucc (m : State) (p ix : Nat) (r : TRec) (i : BitVec 40) (q d : Nat) : (m.addSucc p ix r i).team? q d = m.team? q d := by
  unfold State.addSucc
  rw [State.team?_withMem, State.team?_putRec]

theorem State.team?_foldl {α : Type} (L : List α) (f : State → α → State) (m : State) (q d : Nat)
    (hf : ∀ n x, (f n x).team? q d = n.team? q d) : (L.foldl f m).team? q d = m.team? q d := by
  induction L generalizing m with
  | nil => rfl
  | cons x L ih => rw [List.foldl_cons, ih, hf]

/-- A launch touches no team. -/
theorem State.team?_launchNow (m : State) (p : Nat) (x : Launch) (q d : Nat) : (m.launchNow p x).2.team? q d = m.team? q d := by
  have base : ∀ n (r : List (Nat × TRec)) i, (r.foldl (fun s e => s.addSucc p e.1 e.2 i) (m.modPkg p (fun k => { k with seq := n }))).team? q d =
      m.team? q d := by
    intro n r i
    rw [State.team?_foldl _ _ _ _ _ (fun _ _ => State.team?_addSucc _ _ _ _ _ _ _), State.team?_modPkg]
    rfl
  simp only [State.launchNow]
  cases (m.pkg p).freeRec with
  | none => rfl
  | some ix =>
    simp only
    split
    · rw [State.team?_makeReady, State.team?_putRec, base]
    · rw [State.team?_putRec, base]

/-- A record posted touches no team. -/
theorem Package.teams_postRec (k : Package) (page : Nat) (r : Rec) : (k.postRec page r).teams = k.teams := by
  unfold Package.postRec Package.setRing Package.signal; split <;> rfl

/-- Outside a region a fault of a pending result has nothing to bring back. -/
theorem Thread.undo_none {t : Thread} (h : t.region = none) : t.undo = none := by simp [Thread.undo, h]

theorem State.team?_request (m : State) (p : Nat) (t : Team) (r : Req) (b : Body) (q d : Nat) :
    (m.request p t r b).team? q d = m.team? q d := by
  simp only [State.team?, State.request, State.pkg_modPkg, Package.sendAs]
  split
  · rename_i h; subst h; rfl
  · rfl

section Effect

variable {u : Iss} {c : Ctl} {l : Nat} {s m : State} {tm : Team} {k : Pre} {f : Iss → Nat → State → State × LaneEnd}

theorem Kept.there (h : Kept u l s m) : ∃ b, m.team? u.pkg u.ctx = Option.some b := by
  obtain ⟨b, hb, _⟩ := h.team; exact ⟨b, hb⟩

theorem Kept.sameTeams {n : State} (h : Kept u l s m) (ht : n.team? u.pkg u.ctx = m.team? u.pkg u.ctx) : Kept u l s n := by
  obtain ⟨b, hb, h1⟩ := h.team
  refine ⟨⟨b, ?_, h1⟩, ?_⟩
  · rw [Iss.team] at *; rw [ht, hb]
  · rw [← h.thread]; simp only [Iss.thread, State.thread, ht]

theorem Kept.modPkg (h : Kept u l s m) (p : Nat) (g : Package → Package) (ht : (g (m.pkg p)).teams = (m.pkg p).teams) :
    Kept u l s (m.modPkg p g) := by
  refine h.sameTeams ?_
  simp only [State.team?, State.pkg_modPkg]
  split
  · rename_i hq; subst hq; rw [ht]
  · rfl

theorem Kept.modCore (h : Kept u l s m) (p core : Nat) (g : Core → Core) : Kept u l s (m.modCore p core g) :=
  h.sameTeams (State.team?_modCore _ _ _ _ _ _)
theorem Kept.sink (h : Kept u l s m) (p core : Nat) : Kept u l s (m.sink p core) := h.modCore _ _ _
theorem Kept.dropL1 (h : Kept u l s m) (p core : Nat) : Kept u l s (m.dropL1 p core) := h.modCore _ _ _
theorem Kept.acquire (h : Kept u l s m) (sc : Option Scope) : Kept u l s (u.acquire sc m) := h.sameTeams ((Iss.acquire_frame u sc m).1 _ _)
theorem Kept.choose (h : Kept u l s m) (n : Nat) : Kept u l s (m.choose n).2 := h.sameTeams rfl

/-- A change of the issuing team that keeps its groups and its template. -/
theorem Kept.modTeam (h : Kept u l s m) (g : Team → Team) (hg : ∀ t : Team, (g t).group u.group = t.group u.group)
    (hm : ∀ t : Team, (g t).mirror = t.mirror) (hw : ∀ t : Team, (g t).width = t.width) :
    Kept u l s (m.modTeam u.pkg u.ctx g) := by
  obtain ⟨b, hb, h1, h2⟩ := h.team
  have e := State.modTeam_some m u.pkg u.ctx g hb
  have ht : u.team (m.modTeam u.pkg u.ctx g) = Option.some (g b) := by rw [e]; exact State.team?_setTeam_same _ _ _ _
  refine ⟨⟨_, ht, by rw [hm]; exact h1, by rw [hw]; exact h2⟩, ?_⟩
  rw [← h.thread]
  simp only [Iss.thread]
  rw [State.thread_of_team ht, State.thread_of_team hb, Team.thread, hg]; rfl

/-- A change of the issuing group that keeps the lane. -/
theorem Kept.modGroup (h : Kept u l s m) (g : Group → Group) (hg : ∀ x : Group, (g x).thread l = x.thread l) :
    Kept u l s (m.modGroup u.pkg u.ctx u.group g) := by
  obtain ⟨b, hb, h1, h2⟩ := h.team
  have e := State.modTeam_some m u.pkg u.ctx (fun t => t.modGroup u.group g) hb
  have ht : u.team (m.modGroup u.pkg u.ctx u.group g) = Option.some (b.modGroup u.group g) := by
    unfold State.modGroup; rw [e]; exact State.team?_setTeam_same _ _ _ _
  refine ⟨⟨_, ht, h1, h2⟩, ?_⟩
  rw [← h.thread]
  simp only [Iss.thread]
  rw [State.thread_of_team ht, State.thread_of_team hb, Team.thread, Team.group_modGroup_same, hg]; rfl

theorem Kept.stamp (h : Lone u c l s) (ht : u.team s = some tm) (hm : tm.mirror = false) : Kept u l s (u.stamp s) := by
  obtain ⟨b, hb, _, hbm, _, hl, _⟩ := h.stampTeam ht hm
  exact ⟨⟨b, hb, hbm, hl⟩, h.stamped.2 l⟩

/-- The lane's thread changed: the team is kept. -/
theorem Kept.setThread (h : Kept u l s m) (x : Thread) :
    (∃ b, u.team (u.setThread m l x) = some b ∧ b.mirror = false ∧ l < b.width) ∧ u.thread (u.setThread m l x) l = x := by
  obtain ⟨b, hb, h1, h2⟩ := h.team
  obtain ⟨o, e⟩ := Iss.setThread_only (u := u) hb l x
  obtain ⟨b', hb', hs⟩ := o.teamOf hb
  refine ⟨⟨b', hb', by rw [Team.mirror_of_shell hs]; exact h1, ?_⟩, by rw [e, if_pos rfl]⟩
  have : b'.width = b.width := by unfold Team.width; rw [Team.tmpl_of_shell hs]
  rw [this]; exact h2

/-- THE LAW of a word performed once. -/
theorem Alone.effect {β : Type} [DecidableEq β] {same : Thread → β} {e : LaneEnd} (h : Alone u c l s) (ht : u.team s = some tm)
    (hm : tm.mirror = false) (hb : f u l (u.stamp s) = (m, e)) (hr : ∀ t, u.team m = some t → t.mirror = false) :
    (fun (u : Iss) l s' => if u.pairAgrees c l same s then u.once c.park l (f u l) s' else (s', .trap u.mirrorTrap)) u l (u.stamp s) =
      (m, e) := by
  obtain ⟨b, hb', _, hbm, _, hl, _⟩ := h.stampTeam ht hm
  simp only [Iss.pairAgrees_single ht hm, if_true]
  exact Iss.once_single hb' hbm hl hb hr

/-- Where the act ends in a state that keeps the lane. -/
theorem Alone.effect_kept {same : Thread → List DWord} (h : Alone u c l s) (ht : u.team s = some tm) (hm : tm.mirror = false)
    (hk : u.before k s (u.thread s l) = none) (hb : f u l (u.stamp s) = (m, .done)) (hx : Kept u l s m) :
    ∃ t, s.effect c k same f = .next t ∧ After u l u.next (c.park || k.force) m t := by
  obtain ⟨b, hb', hbm, _⟩ := hx.team
  refine ⟨_, h.issues.issue, h.done hk (h.effect ht hm hb ?_) hb' ?_ rfl⟩
  · intro t ht'; rw [hb'] at ht'; obtain rfl := Option.some.inj ht'; exact hbm
  · rw [hx.thread]; exact h.region

/-- Where it leaves a pending result at the lane. -/
theorem Alone.effect_defer {same : Thread → List DWord} (h : Alone u c l s) (ht : u.team s = some tm) (hm : tm.mirror = false)
    (hk : u.before k s (u.thread s l) = none) (x : Thread) (hxr : x.region = none) (hb : f u l (u.stamp s) = (u.setThread m l x, .done))
    (hx : Kept u l s m) :
    ∃ t, s.effect c k same f = .next t ∧ After u l u.next (c.park || k.force) (u.setThread m l x) t := by
  obtain ⟨⟨b, hb', hbm, _⟩, hth⟩ := hx.setThread x
  refine ⟨_, h.issues.issue, h.done hk (h.effect ht hm hb ?_) hb' ?_ rfl⟩
  · intro t ht'; rw [hb'] at ht'; obtain rfl := Option.some.inj ht'; exact hbm
  · rw [hth]; exact hxr

/-- Where the lane parks in the word. -/
theorem Alone.effect_waits {same : Thread → List DWord} (h : Alone u c l s) (ht : u.team s = some tm) (hm : tm.mirror = false)
    (hk : u.before k s (u.thread s l) = none) (x : Thread) (hb : f u l (u.stamp s) = (u.setThread m l x, .waiting)) (hx : Kept u l s m) :
    ∃ t, s.effect c k same f = .next t ∧
      Stays u (if c.park || k.force then (u.setThread m l x).modThread u.pkg u.ctx u.group l (fun t => { t with parkDue := true })
        else u.setThread m l x) t := by
  obtain ⟨⟨b, hb', hbm, _⟩, _⟩ := hx.setThread x
  obtain ⟨a, ha, _⟩ := h.toLone.team
  refine ⟨_, h.issues.issue, h.waits (OnlyGroup.refl ha) rfl hk (h.effect ht hm hb ?_) hb'⟩
  intro t ht'; rw [hb'] at ht'; obtain rfl := Option.some.inj ht'; exact hbm

/-- Where the lane stays in the word, or has left its entry. -/
theorem Alone.effect_left {same : Thread → List DWord} (h : Alone u c l s) (ht : u.team s = some tm) (hm : tm.mirror = false)
    (hk : u.before k s (u.thread s l) = none) (x : Thread) {e : LaneEnd} (he : e = .left ∨ e = .parked)
    (hb : f u l (u.stamp s) = (u.setThread m l x, e)) (hx : Kept u l s m) :
    ∃ t, s.effect c k same f = .next t ∧ Stays u (u.setThread m l x) t := by
  obtain ⟨⟨b, hb', hbm, _⟩, _⟩ := hx.setThread x
  refine ⟨_, h.issues.issue, h.toLone.left hk he (h.effect ht hm hb ?_) hb'⟩
  intro t ht'; rw [hb'] at ht'; obtain rfl := Option.some.inj ht'; exact hbm

/-! ### Other ways to say what a word leaves -/

theorem SameWorld.symm {a b : State} (h : SameWorld a b) : SameWorld b a :=
  ⟨h.mem.symm, h.clock.symm, h.time.symm, h.free.symm, h.agenda.symm, h.cur.symm, h.curB.symm, h.prior.symm, h.wants.symm,
    h.upset.symm⟩

theorem OnlyGroup.symm {p d g : Nat} {a b : State} (h : OnlyGroup p d g a b) : OnlyGroup p d g b a := by
  obtain ⟨x, y, hx, hy, h1, h2, h3⟩ := h.team
  exact ⟨h.world.symm, fun q hq => (h.others q hq).symm, h.pkg.symm, fun d => (h.dies d).symm, fun d hd => (h.teams d hd).symm,
    y, x, hy, hx, h1.symm, h2.symm, fun z hz => (h3 z hz).symm⟩

theorem Stays.of {a b t : State} (h : Stays u a t) (o : OnlyGroup u.pkg u.ctx u.group a b)
    (e : ∀ x, b.thread u.pkg u.ctx u.group x = a.thread u.pkg u.ctx u.group x) : Stays u b t :=
  ⟨o.symm.trans h.1, fun x => by rw [h.2 x, e]⟩

theorem After.of {a b t : State} {pc : Pc} {park : Bool} (h : After u l pc park a t) (o : OnlyGroup u.pkg u.ctx u.group a b)
    (e : ∀ x, b.thread u.pkg u.ctx u.group x = a.thread u.pkg u.ctx u.group x) : After u l pc park b t :=
  ⟨o.symm.trans h.1, fun x => by rw [h.2 x, e, e]⟩

theorem Lone.due (h : Lone u c l s) : (u.thread s l).parkDue = false ∧ (u.thread s l).wait = none := by
  have := h.issues.2
  simp only [Iss.blocked, h.lanes, List.any_cons, List.any_nil, Bool.or_false, Bool.or_eq_false_iff] at this
  exact ⟨this.2, by simpa using this.1⟩

/-- A park that is due may be marked together with the lane's new state. -/
theorem Iss.due_set {a : Team} (ha : m.team? u.pkg u.ctx = some a) {g : Thread → Thread}
    (hg : ∀ y b, { g y with parkDue := b } = g { y with parkDue := b }) {y : Thread} {park : Bool} (hy : y.parkDue = false) (x : Nat) :
    (u.setThread m l (g { y with parkDue := park })).thread u.pkg u.ctx u.group x =
      (if park then (u.setThread m l (g y)).modThread u.pkg u.ctx u.group l (fun t => { t with parkDue := true })
        else u.setThread m l (g y)).thread u.pkg u.ctx u.group x := by
  obtain ⟨o1, e1⟩ := Iss.setThread_only (u := u) ha l (g y)
  have e2 := (Iss.setThread_only (u := u) ha l (g { y with parkDue := park })).2
  obtain ⟨b1, hb1⟩ := o1.team_some
  simp only [Iss.thread] at e1 e2
  rw [e2]
  cases park with
  | true =>
    simp only [if_true]
    rw [State.thread_modThread hb1, e1, e1]
    by_cases hl : x = l
    · simp only [if_pos hl, if_true, hg]
    · simp [hl]
  | false =>
    simp only [Bool.false_eq_true, if_false]
    rw [e1]
    have : { y with parkDue := false } = y := by cases y; simp_all
    rw [this]

/-- Where the lane parks in the word, in a state of its own. -/
theorem Alone.effect_parks {same : Thread → List DWord} (h : Alone u c l s) (ht : u.team s = some tm) (hm : tm.mirror = false)
    (hk : u.before k s (u.thread s l) = none) (g : Thread → Thread) (hg : ∀ y b, { g y with parkDue := b } = g { y with parkDue := b })
    (hb : f u l (u.stamp s) = (m.modThread u.pkg u.ctx u.group l g, .waiting)) (hx : Kept u l s m) :
    ∃ t, s.effect c k same f = .next t ∧
      Stays u (u.setThread m l (g { u.thread s l with parkDue := c.park || k.force })) t := by
  obtain ⟨b, hbt⟩ := hx.there
  have e0 : m.modThread u.pkg u.ctx u.group l g = u.setThread m l (g (u.thread s l)) := by
    simp only [Iss.setThread, State.setThread, State.modThread, State.modGroup_some hbt, Team.modGroup, Group.modThread]
    have : (b.group u.group).thread l = u.thread s l := by
      rw [← hx.thread]; simp only [Iss.thread]; rw [State.thread_of_team hbt]; rfl
    rw [this]
  rw [e0] at hb
  obtain ⟨t, h1, h2⟩ := h.effect_waits ht hm hk _ hb hx
  refine ⟨t, h1, h2.of ?_ ?_⟩
  · obtain ⟨o1, _⟩ := Iss.setThread_only (u := u) hbt l (g (u.thread s l))
    obtain ⟨o2, _⟩ := Iss.setThread_only (u := u) hbt l (g { u.thread s l with parkDue := c.park || k.force })
    obtain ⟨b1, hb1⟩ := o1.team_some
    split
    · exact (OnlyGroup.modThread hb1 _ l).symm.trans (o1.symm.trans o2)
    · exact o1.symm.trans o2
  · exact fun x => Iss.due_set hbt hg h.toLone.due.1 x

/-- A change of a thread that is known. -/
theorem State.modThread_eq {a : Team} (h : m.team? u.pkg u.ctx = some a) (g : Thread → Thread) :
    m.modThread u.pkg u.ctx u.group l g = u.setThread m l (g (u.thread m l)) := by
  simp only [Iss.setThread, State.setThread, State.modThread, State.modGroup_some h, Team.modGroup, Group.modThread]
  have : (a.group u.group).thread l = u.thread m l := by
    simp only [Iss.thread]; rw [State.thread_of_team h]; rfl
  rw [this]

theorem State.setTeam_setTeam (p d : Nat) (a b : Team) : (m.setTeam p d a).setTeam p d b = m.setTeam p d b := by
  simp only [State.setTeam, State.modPkg, State.setPkg, State.pkg]
  simp only [tget_tput_same, tput_tput]

/-- A thread set twice. -/
theorem Iss.setThread_setThread {a : Team} (h : m.team? u.pkg u.ctx = some a) (x y : Thread) :
    u.setThread (u.setThread m l x) l y = u.setThread m l y := by
  have e : ∀ z, u.setThread m l z = m.setTeam u.pkg u.ctx (a.modGroup u.group (fun g => g.modThread l (fun _ => z))) := fun z => by
    simp only [Iss.setThread, State.setThread, State.modThread, State.modGroup_some h]
  rw [e x, e y]
  simp only [Iss.setThread, State.setThread, State.modThread, State.modGroup_some (State.team?_setTeam_same _ _ _ _),
    State.setTeam_setTeam]
  simp only [Team.modGroup, Team.setGroup, Team.group, Group.modThread, Group.setThread, tget_tput_same, tput_tput]

/-! ### Words that release at .space, and task instructions -/

/-- Where nothing is out and nothing failed, a release at .space is performed at once (R72, R185). -/
theorem Alone.release_run {β : Type} [DecidableEq β] {same : Thread → β} {e : LaneEnd}
    {g : Iss → Nat → State → State × LaneEnd} (h : Alone u c l s)
    (ht : u.team s = some tm) (hm : tm.mirror = false) (hf : (tm.group u.group).fails = [])
    (hb : g u l (u.stamp s) = (m, e)) (hr : ∀ t, u.team m = some t → t.mirror = false) :
    (fun (u : Iss) l s' => if u.pairAgrees c l same s then u.once c.park l (u.release l (g u l)) s' else (s', .trap u.mirrorTrap))
      u l (u.stamp s) = (m, e) := by
  obtain ⟨b, hb', _, hbm, _, hl, _⟩ := h.stampTeam ht hm
  have hff : (b.group u.group).fails = [] := by
    obtain ⟨x, y, hx, hy, _, h2, _⟩ := h.stamped.1.team
    obtain rfl : x = tm := by rw [Iss.team, hx] at ht; exact Option.some.inj ht
    obtain rfl : y = b := by rw [Iss.team, hy] at hb'; exact Option.some.inj hb'
    rw [← hf]; exact (congrArg Group.fails h2 : (y.group u.group).shell.fails = (x.group u.group).shell.fails)
  simp only [Iss.pairAgrees_single ht hm, if_true]
  refine Iss.once_single hb' hbm hl ?_ hr
  unfold Iss.release
  rw [Iss.heldFails_nil hb' (by simp [hff])]
  exact hb

theorem Iss.releaseHold_none (ht : u.team s = some tm) (hz : (tm.group u.group).rwCount = 0) : u.releaseHold c s = false := by
  simp [Iss.releaseHold, ht, hz]

/-! ### Lanes that complete a wait -/

/-- A lane that completes its wait without a park: it runs at the next word, and the rest of the group keeps its threads. -/
theorem State.completeLane_spec {r : State} {p d g j : Nat} {a : Team} (h : r.team? p d = some a) (hd : (a.thread g j).parkDue = false) :
    OnlyGroup p d g r (r.completeLane p d g j) ∧
      (∀ x, x ≠ j → (r.completeLane p d g j).thread p d g x = a.thread g x) ∧
      ∃ y, (r.completeLane p d g j).thread p d g j =
        { a.thread g j with st := .runnable, pc := (a.thread g j).pc + 8, yielded := y } := by
  unfold State.completeLane
  rw [h]
  have hdue : ((a.group g).thread j).parkDue = false := hd
  simp only [hdue, Bool.not_false, if_true]
  generalize hcl : ((a.group g).ent ((a.group g).thread j).pc).clause = cl
  generalize clauseEnds cl ((a.group g).thread j).pc = last
  generalize hp0 : ((a.group g).thread j).pc = pc0
  have o1 := OnlyGroup.modThread (g := g) h (fun t => { t with st := .runnable, parkDue := false }) j
  have e1 := State.thread_modThread (g := g) h (fun t => { t with st := .runnable, parkDue := false }) j
  generalize r.modThread p d g j (fun t => { t with st := .runnable, parkDue := false }) = r1 at o1 e1 ⊢
  obtain ⟨b1, h1⟩ := o1.team_some
  have o2 := OnlyGroup.moveLane (g := g) h1 j (pc0 + 8) (if last then none else cl)
  have e2 := fun x => State.thread_moveLane (g := g) h1 j x (pc0 + 8) (if last then none else cl)
  generalize r1.moveLane p d g j (pc0 + 8) (if last then none else cl) = r2 at o2 e2 ⊢
  obtain ⟨b2, h2⟩ := o2.team_some
  have key : OnlyGroup p d g r2 (if last then r2.modTeam p d (fun t => t.markYields g pc0 [j]) else r2) ∧
      ∀ x, (if last then r2.modTeam p d (fun t => t.markYields g pc0 [j]) else r2).thread p d g x =
        if x = j then { r2.thread p d g j with yielded := (r2.thread p d g j).yielded && !(last && (r2.thread p d g j).pc != pc0) }
        else r2.thread p d g x := by
    cases last with
    | false =>
      simp only [Bool.false_eq_true, if_false, Bool.false_and, Bool.not_false, Bool.and_true]
      exact ⟨OnlyGroup.refl h2, fun x => by split <;> simp_all⟩
    | true =>
      simp only [if_true, Bool.true_and]
      rw [State.modTeam_some _ _ _ _ h2]
      obtain ⟨m1, m2, m3, m4⟩ := Team.markYields_spec b2 g pc0 [j]
      refine ⟨OnlyGroup.setTeam h2 m1 m2 m3, fun x => ?_⟩
      rw [State.thread_of_team (State.team?_setTeam_same _ _ _ _), m4, State.thread_of_team h2, State.thread_of_team h2]
      simp only [List.mem_singleton]
      split
      · rename_i hx; rw [hx]; simp [Thread.unyield]
      · rfl
  generalize (if last then r2.modTeam p d (fun t => t.markYields g pc0 [j]) else r2) = r3 at key ⊢
  obtain ⟨o3, e3⟩ := key
  obtain ⟨b3, h3⟩ := o3.team_some
  have o4 : OnlyGroup p d g r3 (r3.modTeam p d (fun t => t.sweepEnts g)) := by
    rw [State.modTeam_some _ _ _ _ h3]
    refine OnlyGroup.setTeam h3 rfl ?_ ?_
    · simp only [Team.sweepEnts, Team.group_modGroup_same]; rfl
    · intro x hx; simp [Team.sweepEnts, Team.group_modGroup, hx]
  have e4 : ∀ x, (r3.modTeam p d (fun t => t.sweepEnts g)).thread p d g x = r3.thread p d g x := fun x => by
    rw [State.modTeam_some _ _ _ _ h3, State.thread_of_team (State.team?_setTeam_same _ _ _ _), State.thread_of_team h3]
    simp only [Team.thread, Team.sweepEnts, Team.group_modGroup_same]; rfl
  have ha : ∀ x, r.thread p d g x = a.thread g x := fun x => State.thread_of_team h g x
  refine ⟨((o1.trans o2).trans o3).trans o4, fun x hx => ?_, ?_⟩
  · rw [e4, e3, if_neg hx, e2, if_neg hx, e1, if_neg hx, ha]
  · have hp : (a.thread g j).pc = pc0 := hp0
    refine ⟨(a.thread g j).yielded && !(last && (pc0 + 8) != pc0), ?_⟩
    rw [e4, e3, if_pos rfl]
    simp only [e2, e1, ha, if_true, hd, hp]

/-- The other groups of the team. -/
theorem OnlyGroup.thread_other {p d g x j : Nat} {a b : State} (h : OnlyGroup p d g a b) (hx : x ≠ g) :
    b.thread p d x j = a.thread p d x j := by
  obtain ⟨y, z, hy, hz, _, _, h3⟩ := h.team
  rw [State.thread_of_team hy, State.thread_of_team hz, Team.thread, h3 x hx]; rfl

end Effect

end Sys2Proof.Machine
end

