-- ==== Sys2Proof/Laws/Group.lean ====
section
/-! SUPPORT. The law of a group instruction: its issue as a whole, the queueing of its command, and the end of its word at every lane. -/

namespace Sys2Proof.Machine

section Group

variable {u : Iss} {c : Ctl} {l : Nat} {s m X : State} {tm : Team} {os : List Opnd}

/-- A state in which the same entry issues, its threads as they were. -/
structure SameEntry (u : Iss) (s m : State) : Prop where
  cur : m.cur = s.cur
  curB : m.curB = s.curB
  team : ∃ a b, u.team s = some a ∧ u.team m = some b ∧ b.stop = a.stop ∧ b.place = a.place ∧ b.tmpl = a.tmpl ∧ b.mirror = a.mirror ∧
    b.group u.group = a.group u.group

theorem SameEntry.refl (h : u.team s = some tm) : SameEntry u s s := ⟨rfl, rfl, tm, tm, h, h, rfl, rfl, rfl, rfl, rfl⟩

theorem SameEntry.trans {n : State} (h : SameEntry u s m) (k : SameEntry u m n) : SameEntry u s n := by
  obtain ⟨h1, h2, a, b, ha, hb, e1, e2, e3, e4, e5⟩ := h
  obtain ⟨k1, k2, b', d, hb', hd, f1, f2, f3, f4, f5⟩ := k
  obtain rfl : b = b' := by rw [hb] at hb'; exact Option.some.inj hb'
  exact ⟨k1.trans h1, k2.trans h2, a, d, ha, hd, f1.trans e1, f2.trans e2, f3.trans e3, f4.trans e4, f5.trans e5⟩

theorem SameEntry.calm (h : u.team s = some tm) (k : Calm s m) : SameEntry u s m :=
  ⟨k.cur, k.curB, tm, tm, h, by rw [Iss.team, k.teams]; exact h, rfl, rfl, rfl, rfl, rfl⟩

theorem SameEntry.iss (h : SameEntry u s m) (hi : s.iss? = some u) : m.iss? = some u := by
  obtain ⟨h1, h2, a, b, ha, hb, e1, e2, e3, e4, e5⟩ := h
  have hp : u.pkg = s.cur.pkg ∧ u.ctx = s.cur.ctx ∧ u.group = s.cur.group := by
    unfold State.iss? at hi
    split at hi
    · cases hi
    · split at hi
      · cases hi
      · split at hi
        · cases hi
        · obtain rfl := Option.some.inj hi; exact ⟨rfl, rfl, rfl⟩
  obtain ⟨p1, p2, p3⟩ := hp
  have ha' : s.team? s.cur.pkg s.cur.ctx = some a := by rw [← p1, ← p2]; exact ha
  have hb' : m.team? s.cur.pkg s.cur.ctx = some b := by rw [← p1, ← p2]; exact hb
  have hr : ∀ pc, b.runLanes s.cur.group pc = a.runLanes s.cur.group pc := fun pc => by
    simp only [Team.runLanes, Team.lanes, Team.width, e3, Team.thread, ← p3, e5]
  unfold State.iss? at hi ⊢
  rw [ha'] at hi
  rw [h1, h2, hb']
  simp only [e1, e2, ← p3, e5] at hi ⊢
  rw [← hi]
  split
  · rfl
  · simp only [p3, hr]

theorem SameEntry.thread (h : SameEntry u s m) (j : Nat) : u.thread m j = u.thread s j := by
  obtain ⟨_, _, a, b, ha, hb, _, _, _, _, e⟩ := h
  simp only [Iss.thread]
  rw [State.thread_of_team ha, State.thread_of_team hb, Team.thread, e]; rfl

/-- A change of the team that keeps what the entry needs. -/
theorem SameEntry.modTeam (h : u.team m = some tm) (f : Team → Team) (h1 : (f tm).stop = tm.stop) (h2 : (f tm).place = tm.place)
    (h3 : (f tm).tmpl = tm.tmpl) (h4 : (f tm).mirror = tm.mirror) (h5 : (f tm).group u.group = tm.group u.group) :
    SameEntry u m (m.modTeam u.pkg u.ctx f) := by
  have e := State.modTeam_some m u.pkg u.ctx f h
  refine ⟨by rw [e]; rfl, by rw [e]; rfl, tm, f tm, h, by rw [e]; exact State.team?_setTeam_same _ _ _ _, h1, h2, h3, h4, h5⟩

theorem Calm.trans {a b d : State} (h : Calm a b) (k : Calm b d) : Calm a d :=
  ⟨fun q e => (k.teams q e).trans (h.teams q e), k.cur.trans h.cur, k.curB.trans h.curB⟩
theorem Calm.refl (a : State) : Calm a a := ⟨fun _ _ => rfl, rfl, rfl⟩

/-- A change that no lane sees: quiet homes stay quiet, watched by nobody where nobody watched, and addresses lead where they led. -/
structure Mild (s t : State) : Prop extends Calm s t where
  quiet : ∀ q, Quiet s q → Quiet t q
  watch : ∀ line, Unwatched s line → Unwatched t line
  fwd : ∀ a, t.forward a = s.forward a

theorem Mild.refl (s : State) : Mild s s := ⟨Calm.refl s, fun _ h => h, fun _ h => h, fun _ => rfl⟩
theorem Mild.trans {n : State} (h : Mild s m) (k : Mild m n) : Mild s n :=
  ⟨h.toCalm.trans k.toCalm, fun q x => k.quiet q (h.quiet q x), fun q x => k.watch q (h.watch q x), fun a => (k.fwd a).trans (h.fwd a)⟩

/-- A package changed but for its teams, its migrations and a directory that is empty. -/
theorem Mild.modPkg (s : State) (p : Nat) (f : Package → Package) (h1 : (f (s.pkg p)).teams = (s.pkg p).teams)
    (h2 : (s.pkg p).dir = [] → (f (s.pkg p)).dir = []) (h3 : (f (s.pkg p)).txns = (s.pkg p).txns)
    (h4 : (f (s.pkg p)).migr = (s.pkg p).migr) : Mild s (s.modPkg p f) := by
  refine ⟨⟨fun q d => State.team?_modPkg s p f h1 q d, rfl, rfl⟩, fun q k => ?_, fun line k => k.modPkg p f h1, fun a => ?_⟩
  · unfold Quiet
    rw [State.pkg_modPkg]
    split
    · rename_i hq; subst hq; exact ⟨h2 k.1, h3.trans k.2⟩
    · exact k
  · have : ((s.modPkg p f).pkg (homeOf a)).migr = (s.pkg (homeOf a)).migr := by
      rw [State.pkg_modPkg]
      split
      · rename_i hq; rw [h4, hq]
      · rfl
    simp only [State.forward, this]

theorem Mild.withMem (s : State) (m : Mem) : Mild s { s with mem := m } := ⟨⟨fun _ _ => rfl, rfl, rfl⟩, fun _ h => h, fun _ h => h, fun _ => rfl⟩

theorem Mild.dropDies (s : State) (a : Nat) : Mild s (s.dropDies a) := by
  apply Mild.modPkg <;> unfold Package.dropDies <;> simp only <;> split
  · rfl
  · exact Package.teams_setDir _ _ _
  · exact fun h => h
  · exact fun h => (Package.dir_setDies h 0).1
  · rfl
  · unfold Package.setDir; split <;> rfl
  · rfl
  · unfold Package.setDir; split <;> rfl

theorem Mild.lockable (h : Mild s m) {ps : List PageTr} (k : Lockable s ps) : Lockable m ps := by
  intro tr htr
  rw [h.fwd]
  exact ⟨h.quiet _ (k tr htr).1, State.watchers_nil.2 (h.watch _ (State.watchers_nil.1 (k tr htr).2))⟩

/-- The LOCK bit of a leaf entry at a quiet home that nobody watches. -/
theorem State.lockBit_mild (s : State) (p leaf : Nat) (hq : Quiet s (homeOf (s.forward (leaf + 7))))
    (hw : Unwatched s (lineOf (s.forward (leaf + 7)))) : Mild s (s.lockBit p leaf) := by
  unfold State.lockBit
  simp only
  split
  · exact Mild.refl s
  · rw [hq.poke rfl hw (by simp) (by simp only [List.length_singleton]; omega)]
    exact (Mild.dropDies s _).trans (Mild.withMem _ _)

/-- Pages locked at quiet homes wake no lane. -/
theorem lockPages_calm (p die : Nat) (on : Bool) (ps : List PageTr) (h : Lockable s ps) : Calm s (s.lockPages p die on ps) := by
  suffices H : ∀ ps (s : State), Lockable s ps → Mild s (s.lockPages p die on ps) from (H ps s h).toCalm
  intro ps
  induction ps with
  | nil => intro s _; exact Mild.refl s
  | cons t ps ih =>
    intro s h
    unfold State.lockPages
    rw [List.foldl_cons]
    generalize hf : (fun d : Die => ({ d with locks := _ } : Die)) = f
    have h1 : Mild s (s.modDie p die f) := Mild.modPkg _ _ _ rfl (fun x => x) rfl rfl
    have h2 := h1.lockable h t (by simp)
    have h3 := h1.trans (State.lockBit_mild _ p t.leaf h2.1 (State.watchers_nil.1 h2.2))
    exact h3.trans (ih _ (fun tr htr => h3.lockable h tr (by simp [htr])))

/-- A queued command keeps the entry. -/
theorem Iss.enqueue_entry (u : Iss) (m : MCmd) {r : State} (h : u.team r = some tm) (hl : Lockable r m.pages) : SameEntry u r (u.enqueue m r) := by
  have hc := lockPages_calm (s := r) u.pkg (u.die r) true m.pages hl
  have ht : u.team (r.lockPages u.pkg (u.die r) true m.pages) = some tm := by rw [Iss.team, hc.teams]; exact h
  refine (SameEntry.calm h hc).trans ?_
  have hset : ∀ (t : Team) odd e, (t.setEng odd e).stop = t.stop ∧ (t.setEng odd e).place = t.place ∧ (t.setEng odd e).tmpl = t.tmpl ∧
      (t.setEng odd e).mirror = t.mirror ∧ (t.setEng odd e).group u.group = t.group u.group := by
    intro t odd e; cases odd <;> exact ⟨rfl, rfl, rfl, rfl, rfl⟩
  unfold Iss.enqueue
  obtain ⟨e1, e2, e3, e4, e5⟩ := hset tm (tm.onOdd u.group) _
  exact SameEntry.modTeam ht _ e1 e2 e3 e4 e5

variable {cnt : Bool} {f : Iss → Team → List Word → State → GEnd × State}

/-- The lanes that issue are the entry's. -/
theorem Whole.lanes (h : Whole u c l s tm os) : ∀ j, j ∈ u.lanes ↔ j ∈ tm.entVis u.group u.pc := by
  intro j
  obtain ⟨a, ha, _, _, hl⟩ := State.iss?_team h.issues.1
  obtain rfl : a = tm := by have := h.team; rw [Iss.team, ha] at this; exact Option.some.inj this
  have hth : ∀ j, u.thread s j = a.thread u.group j := fun j => State.thread_of_team ha _ _
  have hvis : a.vis = a.width := by simp [Team.vis, h.single]
  rw [hl]
  constructor
  · intro hj
    simp only [Team.runLanes, List.mem_filter, Bool.and_eq_true] at hj
    simp only [Team.entVis, Team.entLanes, List.mem_filter, Bool.and_eq_true, hvis, decide_eq_true_eq]
    refine ⟨⟨hj.1, ?_, hj.2.2⟩, by simpa [Team.lanes] using hj.1⟩
    have := hj.2.1
    simp only [Thread.runs, beq_iff_eq] at this
    simp [Thread.live, this]
  · intro hj
    have hr := (h.runs j hj).1
    rw [hth] at hr
    simp only [Team.entVis, Team.entLanes, List.mem_filter, Bool.and_eq_true] at hj
    simp only [Team.runLanes, List.mem_filter, Bool.and_eq_true]
    exact ⟨hj.1.1, hr, hj.1.2.2⟩

theorem Whole.noRegion (h : Whole u c l s tm os) : NoRegion u s := fun j hj => (h.runs j ((h.lanes j).1 hj)).2.2

/-- THE LAW of its issue: its own part, once. -/
theorem Whole.issue (h : Whole u c l s tm os) (hc : cnt = true → ∀ j ∈ u.lanes, (u.thread s j).defCount < 16) :
    s.issueGroup c cnt os f = .next (u.groupEnd c s (f u tm ((u.thread s l).opnds os) s)) := by
  unfold State.issueGroup
  have ht := h.team
  rw [h.issues.1]
  simp only [ht]
  have h1 : (u.blocked s || (tm.group u.group).vwait || (tm.entVis u.group u.pc).any (fun l => !(u.thread s l).runs)) = false := by
    rw [h.issues.2, h.idle]
    simp only [Bool.false_or]
    rw [List.any_eq_false]
    intro j hj
    simp [(h.runs j hj).1]
  rw [h1]
  simp only [Bool.false_eq_true, if_false]
  have hf := h.first
  cases he : tm.entVis u.group u.pc with
  | nil => rw [he] at hf; simp at hf
  | cons j rest =>
    rw [he] at hf
    obtain rfl : j = l := by simpa using hf
    have hg : ∀ x ∈ tm.entVis u.group u.pc, (u.thread s x).guard c = true := fun x hx => (h.runs x hx).2.1
    rw [he] at hg
    have h2 : ((j :: rest).any (fun l => (u.thread s l).guard c)) = true := by
      simp [hg j (by simp)]
    have h3 : ((j :: rest).all (fun l => (u.thread s l).guard c)) = true := by
      rw [List.all_eq_true]; exact hg
    have h4 : ((j :: rest) != tm.liveVis u.group) = false := by rw [← h.all, he]; simp
    rw [h2, h3, h4]
    simp only [Bool.not_true, Bool.or_self, Bool.false_eq_true, if_false]
    unfold Iss.issueOnce
    simp only [h.fresh, h.plain, Bool.false_eq_true, if_false]
    have h5 : (cnt && u.lanes.any (fun l => decide (16 ≤ (u.thread s l).defCount))) = false := by
      cases cnt with
      | false => rfl
      | true =>
        simp only [Bool.true_and]
        rw [List.any_eq_false]
        intro x hx
        have := hc rfl x hx
        simp; omega
    rw [h5]
    simp only [Bool.false_eq_true, if_false]
    rw [Iss.pairAgrees_single ht h.single]
    simp [h.drained]

/-- The end of the word at every lane, from a state in which the same entry issues; `F` has been done to each lane's thread before. -/
theorem Iss.allEnd_did {M X : State} {F : Nat → Thread → Thread} (hi : X.iss? = some u) (hr : NoRegion u X)
    (ho : OnlyGroup u.pkg u.ctx u.group M X) (he : ∀ j, u.thread X j = if j ∈ u.lanes then F j (u.thread M j) else u.thread M j)
    (hg : ∀ j ∈ u.lanes, (u.thread M j).guard c = true) :
    Did u c F M (u.allEnd c (fun _ _ s => (s, .done)) X) := by
  have hc' : ∃ c' : Ctl, c' = { c with pneg := false, pred := 0 } ∧ c'.park = c.park ∧ ∀ x : Thread, x.guard c' = true :=
    ⟨_, rfl, rfl, fun x => by simp [Thread.guard, Thread.pred]⟩
  obtain ⟨c', hc', hpark, hgt⟩ := hc'
  have hloc : ∀ j ∈ u.lanes, LocalAt u c' {} (fun _ _ s => (s, .done)) (fun _ t => t) (u.stamp X) j := by
    intro j hj _
    obtain ⟨a, ha, _⟩ := State.iss?_team hi
    refine ⟨Iss.before_none _ rfl rfl (by simp), ?_, fun t ot et => ⟨t, rfl, OnlyGroup.refl ot.team_some.choose_spec, fun m => ?_⟩⟩
    · rw [Iss.thread_stamp ha]; exact hr j hj
    · split
      · rename_i hm; rw [hm, et]
      · rfl
  obtain ⟨o, e⟩ := Iss.run_local (k := {}) hi hr hloc
  unfold Iss.allEnd
  rw [← hc']
  refine ⟨ho.trans o, fun j => ?_⟩
  have h1 := e j
  have h2 := he j
  have h3 := hg j
  simp only [Iss.thread] at h1 h2 h3
  rw [h1, h2]
  generalize M.thread u.pkg u.ctx u.group j = y at h3 ⊢
  unfold Thread.issued
  by_cases hj : j ∈ u.lanes
  · simp only [hj, if_true, Thread.step, hgt, h3 hj, hpark, Bool.or_false, Thread.leave, Thread.goTo, Iss.ends_next]
  · simp only [hj, if_false]

/-- A group instruction whose own part retires it, from a state in which the same entry issues. -/
theorem Whole.retire {cnt : Bool} {f : Iss → Team → List Word → State → GEnd × State} (h : Whole u c l s tm os)
    (hc : cnt = true → ∀ j ∈ u.lanes, (u.thread s j).defCount < 16) {M : State} {F : Nat → Thread → Thread}
    (hf : f u tm ((u.thread s l).opnds os) s = (.done, X)) (he : SameEntry u s M) (ho : OnlyGroup u.pkg u.ctx u.group M X)
    (hi : X.iss? = some u) (hr : NoRegion u X)
    (hX : ∀ j, u.thread X j = if j ∈ u.lanes then F j (u.thread M j) else u.thread M j) :
    ∃ t, s.issueGroup c cnt os f = .next t ∧ Did u c F M t := by
  refine ⟨_, h.issue hc, ?_⟩
  rw [hf]
  refine Iss.allEnd_did hi hr ho hX ?_
  intro j hj
  rw [he.thread]
  exact (h.runs j ((h.lanes j).1 hj)).2.1

/-- One that leaves the lanes as they were. -/
theorem Whole.retireSame {cnt : Bool} {f : Iss → Team → List Word → State → GEnd × State} (h : Whole u c l s tm os)
    (hc : cnt = true → ∀ j ∈ u.lanes, (u.thread s j).defCount < 16)
    (hf : f u tm ((u.thread s l).opnds os) s = (.done, m)) (he : SameEntry u s m) :
    ∃ t, s.issueGroup c cnt os f = .next t ∧ Did u c (fun _ th => th) m t := by
  have he' := he
  obtain ⟨_, _, a, b, ha, hb, _⟩ := he'
  refine h.retire (M := m) (F := fun _ th => th) hc hf he (OnlyGroup.refl hb) (he.iss h.issues.1) ?_ ?_
  · intro j hj; rw [he.thread]; exact h.noRegion j hj
  · intro j; split <;> rfl

/-- A lane's thread changed, where it runs as before: the same entry issues. -/
theorem Iss.setThread_iss {j : Nat} {y : Thread} (hi : m.iss? = some u) (h1 : y.st = (u.thread m j).st) (h2 : y.pc = (u.thread m j).pc) :
    (u.setThread m j y).iss? = some u := by
  obtain ⟨a, ha, _⟩ := State.iss?_team hi
  have hp : u.pkg = m.cur.pkg ∧ u.ctx = m.cur.ctx ∧ u.group = m.cur.group := by
    have h := hi
    unfold State.iss? at h
    split at h
    · cases h
    · split at h
      · cases h
      · split at h
        · cases h
        · obtain rfl := Option.some.inj h; exact ⟨rfl, rfl, rfl⟩
  obtain ⟨p1, p2, p3⟩ := hp
  have he : u.setThread m j y = m.setTeam u.pkg u.ctx (a.modGroup u.group (fun x => x.modThread j (fun _ => y))) := by
    simp only [Iss.setThread, State.setThread, State.modThread]
    exact State.modGroup_some ha _
  have hth : u.thread m j = a.thread u.group j := State.thread_of_team ha _ _
  have hc : (u.setThread m j y).cur = m.cur ∧ (u.setThread m j y).curB = m.curB := by rw [he]; exact ⟨rfl, rfl⟩
  have ht : (u.setThread m j y).team? m.cur.pkg m.cur.ctx = some (a.modGroup u.group (fun x => x.modThread j (fun _ => y))) := by
    rw [he, ← p1, ← p2]; exact State.team?_setTeam_same _ _ _ _
  have hr : ∀ pc, (a.modGroup u.group (fun x => x.modThread j (fun _ => y))).runLanes u.group pc = a.runLanes u.group pc := by
    intro pc
    unfold Team.runLanes
    refine List.filter_congr ?_
    intro i _
    have : (a.modGroup u.group (fun x => x.modThread j (fun _ => y))).thread u.group i = if i = j then y else a.thread u.group i := by
      unfold Team.thread
      rw [Team.group_modGroup_same, Group.thread_modThread]
    rw [this]
    split
    · rename_i hj; subst hj
      simp only [Thread.runs, h1, h2, hth]
    · rfl
  have hi' := hi
  rw [p1, p2] at ha
  unfold State.iss? at hi ⊢
  rw [ha] at hi
  rw [hc.1, hc.2, ht, ← hi]
  simp only [← p3, hr, Team.group_modGroup_same]
  rfl

/-- Each lane's thread changed in turn, the lanes running as before. -/
theorem Iss.each_lane {s0 : State} (hi : s0.iss? = some u) (G : Nat → Thread → Thread) (step : State → Nat → State)
    (hG : ∀ j th, (G j th).st = th.st ∧ (G j th).pc = th.pc)
    (hs : ∀ x j, OnlyGroup u.pkg u.ctx u.group s0 x → step x j = u.setThread x j (G j (u.thread x j))) (L : List Nat) (hn : L.Nodup) :
    OnlyGroup u.pkg u.ctx u.group s0 (L.foldl step s0) ∧ (L.foldl step s0).iss? = some u ∧
      ∀ j, u.thread (L.foldl step s0) j = if j ∈ L then G j (u.thread s0 j) else u.thread s0 j := by
  obtain ⟨a, ha, _⟩ := State.iss?_team hi
  suffices H : ∀ (L : List Nat) (x : State), L.Nodup → OnlyGroup u.pkg u.ctx u.group s0 x → x.iss? = some u →
      OnlyGroup u.pkg u.ctx u.group s0 (L.foldl step x) ∧ (L.foldl step x).iss? = some u ∧
      ∀ j, u.thread (L.foldl step x) j = if j ∈ L then G j (u.thread x j) else u.thread x j from H L s0 hn (OnlyGroup.refl ha) hi
  intro L
  induction L with
  | nil => intro x _ o hx; exact ⟨o, hx, fun j => by simp⟩
  | cons i L ih =>
    intro x hn o hx
    rw [List.nodup_cons] at hn
    obtain ⟨b, hb⟩ := o.team_some
    rw [List.foldl_cons, hs x i o]
    obtain ⟨o1, e1⟩ := Iss.setThread_only (u := u) hb i (G i (u.thread x i))
    obtain ⟨o2, e2, e3⟩ := ih _ hn.2 (o.trans o1) (Iss.setThread_iss hx (hG _ _).1 (hG _ _).2)
    refine ⟨o2, e2, fun j => ?_⟩
    rw [e3, e1]
    by_cases hj : j = i
    · subst hj; simp [hn.1]
    · simp [hj]

/-- A group instruction whose own part changes each lane of the entry and retires it. -/
theorem Whole.retireEach {cnt : Bool} {f : Iss → Team → List Word → State → GEnd × State} (h : Whole u c l s tm os)
    (hc : cnt = true → ∀ j ∈ u.lanes, (u.thread s j).defCount < 16) {M : State} (he : SameEntry u s M) (G : Nat → Thread → Thread)
    (step : State → Nat → State) (hG : ∀ j th, (G j th).st = th.st ∧ (G j th).pc = th.pc ∧ (G j th).region = th.region)
    (hs : ∀ x j, OnlyGroup u.pkg u.ctx u.group M x → step x j = u.setThread x j (G j (u.thread x j)))
    (hf : f u tm ((u.thread s l).opnds os) s = (.done, u.lanes.foldl step M)) :
    ∃ t, s.issueGroup c cnt os f = .next t ∧ Did u c G M t := by
  obtain ⟨o, hi, e⟩ := Iss.each_lane (he.iss h.issues.1) G step (fun j th => ⟨(hG j th).1, (hG j th).2.1⟩) hs u.lanes
    (State.iss?_nodup h.issues.1)
  refine h.retire hc hf he o hi ?_ e
  intro j hj
  rw [e, if_pos hj, (hG _ _).2.2, he.thread]
  exact h.noRegion j hj

theorem Team.onOdd_shell {a b : Team} (h : b.shell = a.shell) (g : Nat) : b.onOdd g = a.onOdd g :=
  (congrArg (fun t => Team.onOdd t g) h : b.shell.onOdd g = a.shell.onOdd g)
theorem Team.eng_shell {a b : Team} (h : b.shell = a.shell) (o : Bool) : b.eng o = a.eng o :=
  (congrArg (fun t => Team.eng t o) h : b.shell.eng o = a.shell.eng o)

theorem Iss.enqueue_team {r : State} (u : Iss) (m : MCmd) (h : u.team r = some tm) (hl : Lockable r m.pages) :
    ∃ b, u.team (u.enqueue m r) = some b ∧ (b.eng (tm.onOdd u.group)).claim = true ∧
      (b.eng (tm.onOdd u.group)).mq = (tm.eng (tm.onOdd u.group)).mq ++ [{ m with die := u.die r }] := by
  have hc := lockPages_calm (s := r) u.pkg (u.die r) true m.pages hl
  have ht : u.team (r.lockPages u.pkg (u.die r) true m.pages) = some tm := by rw [Iss.team, hc.teams]; exact h
  unfold Iss.enqueue
  simp only
  rw [State.modTeam_some _ _ _ _ ht]
  refine ⟨_, State.team?_setTeam_same _ _ _ _, ?_⟩
  cases ho : tm.onOdd u.group
  · cases hcl : tm.engE.claim <;> simp [Team.eng, Team.setEng, hcl]
  · cases hcl : tm.engO.claim <;> simp [Team.eng, Team.setEng, hcl]


theorem State.modGroup_shell {p d g : Nat} {a : Team} (h : m.team? p d = some a) (f : Group → Group) :
    ∃ b, (m.modGroup p d g f).team? p d = some b ∧ b.shell = a.shell := by
  refine ⟨a.modGroup g f, ?_, rfl⟩
  unfold State.modGroup
  rw [State.modTeam_some _ _ _ _ h, State.team?_setTeam_same]

theorem Iss.groupWaits_shell {a : Team} (u : Iss) (c : Ctl) (h : u.team m = some a) :
    ∃ b, u.team (u.groupWaits c m) = some b ∧ b.shell = a.shell := by
  obtain ⟨b1, h1, e1⟩ := State.modGroup_shell h (fun x => { x with ents := tput x.ents u.pc.toNat { x.ent u.pc with stamp := (m.pkg u.pkg).cycles m.clock } }) (g := u.group)
  obtain ⟨b2, h2, e2⟩ := State.modGroup_shell h1 (fun g => { g.idlePorts with vwait := true }) (g := u.group)
  unfold Iss.groupWaits
  simp only
  split
  · suffices H : ∀ (L : List Nat) (x : State) (y : Team), u.team x = some y → y.shell = a.shell →
        ∃ b, u.team (L.foldl (fun s l => s.modThread u.pkg u.ctx u.group l (fun t => { t with parkDue := true })) x) = some b ∧ b.shell = a.shell from
      H _ _ b2 h2 (e2.trans e1)
    intro L
    induction L with
    | nil => intro x y hx hy; exact ⟨y, hx, hy⟩
    | cons j L ih =>
      intro x y hx hy
      rw [List.foldl_cons]
      obtain ⟨b3, h3, e3⟩ := State.modGroup_shell hx (fun z => z.modThread j (fun t => { t with parkDue := true })) (g := u.group)
      exact ih _ b3 h3 (e3.trans hy)
  · exact ⟨b2, h2, e2.trans e1⟩

theorem bbFail_none (u : Iss) {v : Nat} (h : v / 2 ^ 31 = 1 → v / 2 ^ 26 % 32 < tm.tmpl.bbc) :
    u.bbFail tm (v / 2 ^ 31 == 1) (v / 2 ^ 26 % 32) v = none := by
  unfold Iss.bbFail
  rw [if_neg]
  simp only [Bool.and_eq_true, beq_iff_eq, decide_eq_true_eq]
  rintro ⟨p, q⟩
  have := h p
  omega

theorem failIf_none {b : Bool} {r v : Nat} (h : b = false) : u.failIf b r v = none := by subst h; rfl
theorem scratchFail_none {off n : Nat} (h : off + n ≤ tm.tmpl.scratch) : u.scratchFail tm off n = none := by
  unfold Iss.scratchFail; rw [if_neg (by omega)]
theorem vocabFail_none {fs : List (Option GFail)} (h : ∀ f ∈ fs, f = none) : vocabFail fs = none := by
  have : fs.filterMap id = [] := by rw [List.filterMap_eq_nil_iff]; intro a ha; exact h a ha
  unfold vocabFail
  rw [this]; rfl
theorem firstFail_none {fs : List (Option GFail)} (h : ∀ f ∈ fs, f = none) : firstFail fs = none := by
  induction fs with
  | nil => rfl
  | cons f fs ih =>
    obtain rfl := h f (by simp)
    exact ih (fun g hg => h g (by simp [hg]))

theorem Whole.queues {held : Bool} {check : Iss → Team → List Word → State → Except GFail MCmd × State} {r : State} {m : MCmd}
    (h : Whole u c l s tm os) (hq : u.mayQueue tm s = true) (hk : check u tm ((u.thread s l).opnds os) s = (.ok m, r)) (hc : Calm s r)
    (hl : Lockable r m.pages) :
    ∃ t b, s.issueGroup c false os (fun u tm ops s => u.queueCmd tm held (check u tm ops) s) = .next t ∧ u.team t = some b ∧
      (b.eng (tm.onOdd u.group)).claim = true ∧
      (b.eng (tm.onOdd u.group)).mq = (tm.eng (tm.onOdd u.group)).mq ++ [{ m with die := u.die r }] ∧
      (held = false → Did u c (fun _ th => th) (u.enqueue m r) t) ∧ (held = true → t = u.groupWaits c (u.enqueue m r)) := by
  have hr : u.team r = some tm := by rw [Iss.team, hc.teams]; exact h.team
  have he : SameEntry u s (u.enqueue m r) := (SameEntry.calm h.team hc).trans (Iss.enqueue_entry u m hr hl)
  obtain ⟨b0, hb0, e1, e2⟩ := Iss.enqueue_team u m hr hl
  have hqc : u.queueCmd tm held (check u tm ((u.thread s l).opnds os)) s = (if held then .held else .done, u.enqueue m r) := by
    simp [Iss.queueCmd, hq, hk]
  cases held with
  | false =>
    obtain ⟨t, ht, hd⟩ := h.retireSame (cnt := false) (f := fun u tm ops s => u.queueCmd tm false (check u tm ops) s) (by simp)
      (by simpa using hqc) he
    obtain ⟨b, hb, hs⟩ := hd.1.teamOf hb0
    refine ⟨t, b, ht, hb, ?_, ?_, fun _ => hd, by simp⟩
    · rw [Team.eng_shell hs]; exact e1
    · rw [Team.eng_shell hs]; exact e2
  | true =>
    have hi := h.issue (cnt := false) (f := fun u tm ops s => u.queueCmd tm true (check u tm ops) s) (by simp)
    simp only [hqc, if_true] at hi
    obtain ⟨b, hb, hs⟩ := Iss.groupWaits_shell u c hb0
    refine ⟨_, b, hi, hb, ?_, ?_, by simp, fun _ => rfl⟩
    · rw [Team.eng_shell hs]; exact e1
    · rw [Team.eng_shell hs]; exact e2

end Group

end Sys2Proof.Machine
end

