-- ==== Sys2Proof/Laws/Trap.lean ====
section
/-! SUPPORT. The law of a word whose one lane takes a trap that its handler takes. -/

namespace Sys2Proof.Machine

section Trap

variable {u : Iss} {c : Ctl} {l : Nat} {s m : State} {tm : Team} {k : Pre} {body : Iss → Nat → State → State × LaneEnd}

theorem Lone.runs (h : Lone u c l s) : (u.thread s l).st = .runnable := by
  obtain ⟨a, ha, _, _, hl⟩ := State.iss?_team h.issues.1
  have hm : l ∈ a.runLanes u.group u.pc := by rw [← hl, h.lanes]; simp
  have ht : u.thread s l = a.thread u.group l := State.thread_of_team ha _ _
  simp only [Team.runLanes, List.mem_filter, Bool.and_eq_true] at hm
  rw [ht]
  simpa [Thread.runs] using hm.2.1

/-- THE LAW of a trap that the handler takes: its own part has given `m`, whose lane runs outside a region and is not masked. -/
theorem Lone.trapped {b : Team} {r : State} {tr : Trap} {addr info : DWord} (h : Lone u c l s) (o0 : OnlyGroup u.pkg u.ctx u.group s r)
    (h0 : u.thread r l = u.thread s l) (hk : u.before k s (u.thread s l) = none) (hb : body u l (u.stamp r) = (m, .trap tr)) (hm : u.team m = some b)
    (hs : b.stop = none) (hh : b.tmpl.handler ≠ 0) (hrun : (u.thread m l).st = .runnable) (hreg : (u.thread m l).region = none)
    (hmask : (u.thread m l).m = false) (h10 : tr.code ≠ 0x10) (h14 : tr.code ≠ 0x14) (ha : tr.addr = some addr) (hi : tr.info = some info) :
    Taken u l b tr.code tr.pc addr info m (u.run c k body r) := by
  rw [h.run o0 h0 hk hb]
  have hal : u.alive m = true := by simp [Iss.alive, hm, hs]
  have hun : (u.thread m l).unwatch = u.thread m l := by unfold Thread.unwatch; rw [hrun]
  have hpn := Thread.parkNow_noRegion hreg
  generalize hP : (u.thread m l).parkNow.1 = P at hpn
  have hPm : P.m = false := by rw [← hP]; rw [(u.thread m l).parkNow_rest.m]; exact hmask
  have hPm' : (u.thread m l).parkNow.1.m = false := by rw [hP]; exact hPm
  obtain ⟨o1, e1⟩ := Iss.setThread_only (u := u) hm l P
  obtain ⟨b1, hb1, hs1⟩ := o1.teamOf hm
  have hfin : u.finish (c.park || k.force) l (.trap tr) m =
      ((u.setThread m l P).moveLane u.pkg u.ctx u.group l (b.tmpl.handler.setWidth 57) none).modThread u.pkg u.ctx u.group l
        (fun t => t.enter tr.code tr.pc addr info) := by
    simp only [Iss.finish, hal, if_true, State.trap]
    have e0 : m.thread u.pkg u.ctx u.group l = u.thread m l := rfl
    rw [e0, hun]
    have hpk : (u.thread m l).parkNow = (P, none) := by rw [← hP, ← hpn.1]
    rw [hpk]
    simp only
    unfold State.dispose
    have hb1' : (m.setThread u.pkg u.ctx u.group l P).team? u.pkg u.ctx = some b1 := hb1
    rw [hb1']
    simp only [ha, hi, State.trapDetail]
    have hth : b1.thread u.group l = P := by
      have := e1 l
      rw [if_pos rfl] at this
      rw [← this]
      exact (State.thread_of_team hb1 _ _).symm
    have c1 : (tr.code == 0x10) = false := by simp [h10]
    have c2 : (tr.code == 0x14) = false := by simp [h14]
    have c3 : (b1.tmpl.handler == 0) = false := by rw [Team.tmpl_of_shell hs1]; simpa using hh
    rw [hth, c1, c2, c3, hPm]
    simp only [Bool.or_self, Bool.false_eq_true, if_false, Team.tmpl_of_shell hs1]
    rfl
  rw [hfin]
  obtain ⟨b2, hb2⟩ := o1.team_some
  have o2 := OnlyGroup.moveLane (g := u.group) hb2 l (b.tmpl.handler.setWidth 57) none
  have e2 := State.thread_moveLane (g := u.group) hb2 l
  obtain ⟨b3, hb3⟩ := o2.team_some
  have o3 := OnlyGroup.modThread (g := u.group) hb3 (fun t => t.enter tr.code tr.pc addr info) l
  have e3 := State.thread_modThread (g := u.group) hb3 (fun t => t.enter tr.code tr.pc addr info) l
  obtain ⟨b4, hb4⟩ := o3.team_some
  obtain ⟨o4, e4⟩ := Iss.tail_frame (u := u) hb4
  refine ⟨((o1.trans o2).trans o3).trans o4, fun x => ?_⟩
  have e4' := e4 x
  simp only [Iss.thread] at e4' e1
  rw [e4', e3, e2, e2, e1, e1, h.lanes]
  by_cases hx : x = l
  · subst hx
    simp only [List.mem_singleton, if_true, Thread.enter, ← hP, Bool.false_and]
    simp only [Iss.thread]
  · simp [hx]

end Trap

end Sys2Proof.Machine
end

