-- ==== Sys2Proof/Tests/Slice0.lean ====
section
/-! SUPPORT. Tests, as named theorems. First, for every statement with hypotheses, and for each of its clauses, a concrete state that meets them;
then words of the spec and what they decode to, ill-formed instructions that well-formedness refuses, and single steps with results worked out from the spec. -/

namespace Sys2Proof.Tests

open Sys2Proof Sys2Proof.Machine

/-! ### Small states -/

/-- An unguarded word, and one under p1. -/
def tC : Ctl := ⟨false, false, 0, false, 0⟩
def tG : Ctl := ⟨false, false, 0, false, 1⟩

/-- A clause of one word at 0x48. -/
def tK : Clause := ⟨0x40, 0x48, 0, 0⟩

/-- What issues: lane 0 of group 0 of context 0 at the word. -/
def tU : Iss := ⟨0, 0, 0, 0x48, tK, [0]⟩

/-- A lane at the word, with registers. -/
def tL (regs : Table Word := []) : Thread := { regs := regs, pc := 0x48 }

/-- A group of which only lane 0 lives, port A at the word. -/
def tGroup (th : Thread) : Group :=
  { threads := (0, th) :: (List.range 15).map (fun l => (l + 1, ({ st := .exited } : Thread))), ents := [(0x48, ⟨0, false, some tK⟩)],
    portA := some ⟨0x48, tK⟩ }

/-- Its team, resident on core 0, with every barrier and a handler. -/
def tTeam (th : Thread) : Team :=
  { inst := 1, template := 0, arg := 0, part := 0, prio := 0, stream := 0, driver := false, mirror := false,
    tmpl := { width := 16, groups := 1, regs := 512, nbc := 48, bbc := 32, scratch := 65536, lmem := 64, handler := 0x80 },
    place := some (0, 0), groups := [(0, tGroup th)] }

/-- Memory: a header at 0x80, and tables that map the first GiB of partition 0 to a page, whose leaf holds `hi` above its flags. -/
def tMem (hi : Mem := []) : Mem := [(0x87, 0xC0), (0x1000, 0x21), (0x1001, 0x20), (0x2000, 0x21), (0x2001, 0x30), (0x3000, 0x7F)] ++ hi

/-- The translation of that leaf: FMT and the space address of its page. -/
def tTr (fmt : Nat := 0) (pa : Nat := 0) : PageTr := ⟨0, 2 ^ 30, pa, fmt, 0, true, true, true, 0x3000⟩

/-- A package that holds the team and that translation; packages 0 and 1 are members, of cells 0 and 1. -/
def tPkg (tm : Team) (tr : PageTr := tTr) : Package :=
  { ptrootWalk := [(0, 0x1000)], dies := [(0, { tlb := [⟨0, tr⟩] })], teams := [(0, tm)], cellTab := [(0, 0x80), (1, 0x81)] }

/-- The machine with that package alone. -/
def tS (tm : Team) (k : Package := tPkg tm) (m : Mem := tMem) : State := { pkgs := [(0, k)], mem := m }
/-- The machine with one lane. -/
def tOne (th : Thread) : State := tS (tTeam th)

/-! ### Words at the lanes that issue -/

/-- `IntegerResults`, `BitResults`, `NopAndYield`, `FloatResults`, `WordValues`, the first two clauses of `SystemRegisters`. -/
theorem test_issues : Issues tU (tOne tL) ∧ NoRegion tU (tOne tL) := ⟨⟨by decide, by decide⟩, by unfold NoRegion; decide⟩

/-- `PredicateResults`: the flagged register is not a source. -/
theorem test_pred_sources : ∀ l ∈ tU.active tC (tOne { tL with dfb := [(5, true)] }),
    (tU.thread (tOne { tL with dfb := [(5, true)] }) l).flags (srcs2 .i32 4 (.reg 6)) = false := by decide

/-- `DeferredResults`: fifteen results are outstanding. -/
theorem test_deferred_room : Issues tU (tOne { tL with defCount := 15 }) ∧
    ∀ l ∈ tU.active tC (tOne { tL with defCount := 15 }), (tU.thread (tOne { tL with defCount := 15 }) l).defCount < 16 :=
  ⟨⟨by decide, by decide⟩, by decide⟩

/-- `SpecialValues`, `RandomWords`. -/
theorem test_team_there : tU.team (tOne tL) = some (tTeam tL) := by decide

/-- A mirrored group: lanes 0 and 8 are a pair. -/
def tPair (a b : Thread) : State :=
  let none (i : Nat) : Table Thread := (List.range 7).map (fun l => (l + i, { st := .exited }))
  tS { tTeam a with mirror := true, groups := [(0, { tGroup a with threads := (0, a) :: none 1 ++ (8, b) :: none 9 })] }

/-- Its word at both lanes. -/
def tU2 : Iss := { tU with lanes := [0, 8] }

/-- `ShuffleAndVote`, `ReduceAndScan`: a pair of lanes agrees on what they read. -/
theorem test_pair_agrees : Issues tU2 (tPair (tL [(4, 7)]) (tL [(4, 7)])) ∧
    ∀ l ∈ (tU2.active tC (tPair (tL [(4, 7)]) (tL [(4, 7)]))),
      tU2.pairAgrees tC l (fun t => (t.val true 4, t.src32 (.imm 1))) (tPair (tL [(4, 7)]) (tL [(4, 7)])) = true :=
  ⟨⟨by decide, by decide⟩, by decide⟩

/-- `ShuffleAndVote`: a ballot of 64 lanes writes a pair. -/
theorem test_ballot_pair : tU.vis (tS { tTeam tL with tmpl := { (tTeam tL).tmpl with width := 64 } }) = 64 ∧ regCheck 512 [.pair 8] = none := by
  decide

/-! ### Transfers -/

/-- A team that has fetched nothing. -/
theorem tKept {u : Iss} {s : State} (t : Team) (h : u.team s = some t) (hi : t.icache = []) (va : Nat) (w : DWord) :
    ∀ tm, u.team s = some tm → tget [] tm.icache va = [] ∨ tget [] tm.icache va = [w] := by
  intro tm h'
  rw [h] at h'
  obtain rfl := Option.some.inj h'
  exact Or.inl (by rw [hi]; rfl)

/-- The handler's header, as held code. -/
theorem test_code : Code tU (tOne tL) 0x80 0xC000000000000000 :=
  ⟨⟨tTr, ⟨by decide, by decide, by decide, by decide⟩, ⟨by decide, by decide⟩, by decide⟩, tKept (tTeam tL) (by decide) rfl _ _⟩

/-- One lane issues outside every region. -/
theorem test_alone : Alone tU tC 0 (tOne tL) := ⟨⟨⟨by decide, by decide⟩, by decide, by decide⟩, by decide⟩

/-- `Transfers`: BRA and CALL to the header eight words on; BRX and RET through a pair; CHKD of a flagged register, and of another. -/
theorem test_target : Claims.Target tU (tOne tL) (tU.label 8) 0xC000000000000000 := ⟨by decide, by decide, test_code, by decide⟩
theorem test_target_pair : (tU.thread (tOne (tL [(4, 0x80)])) 0).flags [.pair 4] = false ∧ (tU.thread (tOne (tL [(4, 0x80)])) 0).pair 4 = tU.label 8 ∧
    tU.pairAgrees tC 0 (fun t => t.pair 4) (tOne (tL [(4, 0x80)])) = true := by decide
theorem test_chkd_cases : (tU.thread (tOne { tL with dfb := [(5, true)] }) 0).flagN 4 2 = true ∧ (tU.thread (tOne tL) 0).flagN 4 2 = false := by decide

/-! ### Class 3 -/

/-- A lane that holds an address in g4:g5 and 7 in g6. -/
def tA (ea : Word) : Thread := tL [(4, ea), (6, 7)]

/-- What a memory word finds: fifteen results are out. -/
theorem test_ready3 (ea : Word) (h : ea = 0x7C ∨ ea = 65532 ∨ ea = 0x78) :
    Claims.Ready3 tU tC 0 (tOne { tA ea with defCount := 15 }) (tTeam { tA ea with defCount := 15 }) [.pair 4, .one 6] := by
  rcases h with rfl | rfl | rfl <;>
    exact ⟨⟨⟨⟨by decide, by decide⟩, by decide, by decide⟩, by decide⟩, by decide, by decide, by decide, by decide, by decide⟩

/-- `LoadResults`, `StoreEffects`, `AtomicsAndReductions` in .s: the last word of the scratchpad, which holds .s alone in a team that is no pair. -/
theorem test_last_word_s : ((tA 65532).pair 4).toNat % Size.b32.bytes = 0 ∧
    ((tA 65532).pair 4).toNat + Size.b32.bytes ≤ (tTeam (tA 65532)).spaceSize .s := by decide

/-- The last word of a line, through the leaf. -/
theorem test_on_line (acc : Access) : OnLine tU (tOne (tA 0x7C)) (tTeam (tA 0x7C)) ((tA 0x7C).pair 4) 4 acc 0x7C := by
  cases acc <;> exact ⟨by decide, by decide, by decide, tTr, ⟨by decide, by decide, by decide, by decide⟩, by decide, by decide⟩
theorem test_quiet : Quiet (tOne (tA 0x7C)) 0 := ⟨by decide, by decide⟩
theorem test_ready (own : Bool) : Ready tU (tOne (tA 0x7C)) own 0x7C := ⟨fun _ => test_quiet, fun h => absurd (by decide) h⟩
theorem test_fresh : Fresh tU (tOne (tA 0x7C)) 0x7C 4 := by intro cells h; cases h
theorem test_no_watchers : (tOne (tA 0x7C)).watchers (lineOf 0x7C) = [] := by decide

/-- The machine whose leaf maps to package 1, and which holds line 0 of it, exclusively. -/
def tFar (th : Thread) : State :=
  tS (tTeam th) { tPkg (tTeam th) (tTr 0 (2 ^ 44)) with copies := [(2 ^ 37, ⟨true, false, List.replicate 128 0⟩)] } (tMem [(0x3005, 0x10)])

/-- The same of a line of another package: a held copy serves loads and atomics; a store to it goes out, as the last that the count admits. -/
theorem test_on_line_far (acc : Access) : OnLine tU (tFar (tA 0x7C)) (tTeam (tA 0x7C)) ((tA 0x7C).pair 4) 4 acc (2 ^ 44 + 0x7C) := by
  cases acc <;> exact ⟨by decide, by decide, by decide, tTr 0 (2 ^ 44), ⟨by decide, by decide, by decide, by decide⟩, by decide, by decide⟩
theorem test_ready_far (own : Bool) : Ready tU (tFar (tA 0x7C)) own (2 ^ 44 + 0x7C) :=
  ⟨fun h => absurd h (by decide), fun _ => ⟨by decide, by decide, ⟨true, false, List.replicate 128 0⟩, by decide, fun _ => rfl⟩⟩
theorem test_store_far : homeOf (2 ^ 44 + 0x7C) ≠ 0 ∧ ((tFar (tA 0x7C)).pkg 0).dead (homeOf (2 ^ 44 + 0x7C)) = false ∧
    (({ tGroup (tA 0x7C) with rwCount := 4094 } : Group).rwCount < 4095) := by decide

/-- `LoadResults`: an LD.spec with a flagged address. -/
theorem test_spec_flagged : (tU.thread (tOne { tA 0x7C with dfb := [(4, true)] }) 0).flags [.pair 4] = true := by decide

/-- `StoreEffects`, `AtomicsAndReductions`: a release at .cell, with nothing out. -/
theorem test_release_ready : relWide .g (some .cell) = true ∧ ((tTeam (tA 0x7C)).group 0).rwCount = 0 ∧ ((tTeam (tA 0x7C)).group 0).fails = [] := by
  decide

/-- The machine whose page holds elements of a format. -/
def tElem (th : Thread) (fmt : Nat) : State := tS (tTeam th) (tPkg (tTeam th) (tTr fmt)) (tMem [(0x3007, BitVec.ofNat 8 (8 * fmt))])

/-- `ElementAccesses` in .g: two FP32 elements on both sides of the end of a line, which read 0; and one block of I4X. -/
theorem test_elems (acc : Access) : Claims.Elems tU (tElem (tA 0x7C) 1) (tTeam (tA 0x7C)) 0x7C 2 8 acc (tTr 1) [(0x7C, 4), (0x80, 4)] := by
  cases acc <;> exact ⟨by decide, ⟨by decide, by decide, by decide, by decide⟩, by decide, by decide, by decide, by decide, by decide, by decide, by decide,
    ⟨by decide, by decide⟩⟩
theorem test_elems_loaded : elemsLoad 1 2 ((tElem (tA 0x7C) 1).loadPieces 0 0 [(0x7C, 4), (0x80, 4)]).1 = some ([0, 0], 0) := by decide
theorem test_elems_block : Claims.Elems tU (tElem (tA 0) 9) (tTeam (tA 0)) 0 128 8 .read (tTr 9) [(0, 80)] :=
  ⟨by decide, ⟨by decide, by decide, by decide, by decide⟩, by decide, by decide, by decide, by decide, by decide, by decide, by decide, ⟨by decide, by decide⟩⟩
theorem test_elems_block_loaded : (elemsLoad 9 128 (List.replicate 80 0)).isSome = true := by decide +kernel

/-- `ElementAccesses` in .s: the last two FP64 elements, unflagged. -/
theorem test_elems_s : (65520 : Nat) % elemSize 8 = 0 ∧ 65520 + elemBytes 8 2 ≤ (tTeam tL).spaceSize .s ∧ tL.flags [elemOpnd 8 2 8] = false ∧
    elemsLoad 8 2 (((tTeam tL).spaceMem 0 0 .s).bytes 65520 16) = some ([0, 0], 0) := by decide

/-- `AtomicsAndReductions`: a key that the table does not hold, and one that it does. -/
theorem test_key_room : ({ keyPool := ⟨0, 8⟩ } : Package).keyFull (redKey 1 3) = false ∧
    ({ keyPool := ⟨0, 8⟩, keys := [(redKey 1 3, 1)] } : Package).keyFull (redKey 1 3) = false := by decide

/-- `FenceAndWait`: a word that is equal, and one that differs. -/
theorem test_wait_words : BitVec.ofNat 64 (leNat ((tOne (tA 0x78)).seen 0 0x78 8)) = (0 : DWord) ∧
    OnLine tU (tOne (tA 0x78)) (tTeam (tA 0x78)) ((tA 0x78).pair 4) 8 .read 0x78 :=
  ⟨by decide, by decide, by decide, by decide, tTr, ⟨by decide, by decide, by decide, by decide⟩, by decide, by decide⟩

/-- `CacheOperations`: an address that is not aligned, one beyond 57 bits, and a line that no copy is held of. -/
theorem test_pref_dropped : ((0x7D : DWord).toNat % Size.b32.bytes ≠ 0) ∧ 2 ^ 57 ≤ (0x200000000000000 : DWord).toNat ∧
    tfind ((tS (tTeam tL) (tPkg (tTeam tL) (tTr 0 (2 ^ 44)))).pkg 0).copies (lineOf (2 ^ 44 + 0x7C)) = none := by decide

/-- `Regions`: the last target that 57 bits hold; a region with nothing open or failed; and one whose target is the header. -/
theorem test_region_target : ((tL [(4, 0xFFFFFFF8), (5, 0x1FFFFFF)]).pair 4).toNat = 2 ^ 57 - 8 ∧
    ((tL [(4, 0xFFFFFFF8), (5, 0x1FFFFFF)]).pair 4).toNat % 8 = 0 := by decide
def tR : Region := ⟨0x80, 6, 0, [], 0, []⟩
theorem test_region_closes : Lone tU tC 0 (tOne { tL with region := some tR }) ∧ tR.fails = [] ∧
    tU.regionOpen (tOne { tL with region := some tR }) 0 = false := ⟨⟨⟨by decide, by decide⟩, by decide, by decide⟩, by decide, by decide⟩
theorem test_region_target_code : Code tU (tOne { tL with region := some tR }) tR.target.toNat 0xC000000000000000 :=
  ⟨⟨tTr, ⟨by decide, by decide, by decide, by decide⟩, ⟨by decide, by decide⟩, by decide⟩, tKept (tTeam { tL with region := some tR }) (by decide) rfl _ _⟩

/-! ### Class 4 -/

/-- A word of one lane whose operands are not flagged. -/
theorem test_ticket (th : Thread) (h : th = tL ∨ th = tL [(4, 0x80)] ∨ th = tL [(6, 0x30B)]) :
    Claims.Ticket tU tC 0 (tOne th) (tTeam th) [.one 6, .pair 4] := by
  rcases h with rfl | rfl | rfl <;> exact ⟨⟨⟨⟨by decide, by decide⟩, by decide, by decide⟩, by decide⟩, by decide, by decide, by decide⟩

/-- A team of which lane 1 waits at the word in a state of its own. -/
def tTwo (a b : Thread) : Team :=
  { tTeam a with groups := [(0, { tGroup a with threads := (0, a) :: (1, b) :: (List.range 14).map (fun l => (l + 2, ({ st := .exited } : Thread))) })] }

/-- `NamedBarriers`: nobody waits on barrier 3; the greatest count, not reached and reached, with a thread that waits; a count of one. -/
theorem test_nbinit : Alone tU tC 0 (tOne tL) ∧ (tTeam tL).inState (· == .nbar 3) = [] := ⟨test_alone, by decide⟩
theorem test_nb_count : (tL [(6, 2048)]).flags ((Src.reg 6).opnd false) = false ∧ 1 ≤ ((tL [(6, 2048)]).src32 (.reg 6)).toInt ∧
    ((tL [(6, 2048)]).src32 (.reg 6)).toInt ≤ 2048 ∧ ((tTeam tL).nbar 3).cnt = 0 ∧ ((tTeam tL).nbar 3).arr + 1 ≠ 2048 ∧
    ((tTeam tL).nbar 3).arr + 1 = (tL.src32 (.imm 1)).toNat := by decide
theorem test_nb_last : let t := { tTwo (tL [(6, 2048)]) { tL with st := .nbar 3 } with nb := [(3, ⟨false, 2048, 2047⟩)] }
    Alone tU tC 0 (tS t) ∧ (t.nbar 3).cnt = 2048 ∧ (t.nbar 3).arr + 1 = 2048 ∧ t.inState (· == .nbar 3) = [(0, 1)] ∧ (t.thread 0 1).parkDue = false :=
  ⟨⟨⟨⟨by decide, by decide⟩, by decide, by decide⟩, by decide⟩, by decide, by decide, by decide, by decide⟩

/-- `ByteBarriers`: nobody waits; the least and the greatest counts; a full sum of bytes; the last arrival; a completed phase and one that is not. -/
theorem test_bb_idle : ∀ g, (tTeam tL).bbPcs g 31 = [] := by
  intro g; by_cases h : g = 0
  · subst h; decide
  · unfold Team.bbPcs
    have : (tTeam tL).group g = {} := by
      unfold Team.group; show tget _ [(0, tGroup tL)] g = _; unfold tget; rw [if_neg (fun e => h e.symm)]; rfl
    simp only [Team.lanes, Team.thread, this]; decide
theorem test_bb_counts : (tL [(6, 65535)]).flags [.one 6] = false ∧ ((tL [(6, 65535)]).reg 6).toInt = 65535 ∧ ((tL [(6, 0)]).reg 6).toInt = 0 := by decide
theorem test_bb_bytes : ((tTeam tL).bbar 31).bytes + ((tL [(6, 0x7FFFFFFF)]).src32 (.reg 6)).toInt ≤ 2 ^ 31 - 1 ∧
    (tL.src32 (.imm 0)).toInt ≤ ((tTeam tL).bbar 31).arr := by decide
theorem test_bb_phases : ({ phase := true } : BBar).phase ≠ ((tTeam tL).group 0).gwp.getLsbD 31 ∧
    ((tTeam tL).bbar 31).phase = ((tTeam tL).group 0).gwp.getLsbD 31 := by decide

/-- An object of generation 1 with places, as object 2 of Booth 5, and a lane that holds handles of its places in g4:g5 and g6:g7. -/
def tObj (ps : List Place) : Obj := ⟨1, 3, false, true, 0, ps⟩
def tH (th : Thread) (ps : List Place) : State :=
  tS (tTeam th) { tPkg (tTeam th) with dies := [(5, { objs := [(2, tObj ps)] })] }
/-- The lane's place with a sequence number: holding, or waiting. -/
def tP (seq : BitVec 24) (hold : Bool) : Place := ⟨seq, !hold, hold, false, true, 0, 0⟩
/-- A pair's two registers. -/
def tHand (h : DWord) (r : Nat) : Table Word := [(r, h.extractLsb' 0 32), (r + 1, h.extractLsb' 32 32)]

/-- `TicketBarriers`: an object with no place, and one with two, joined by its handle. -/
theorem test_object (ps : List Place) : Claims.Object tU (tH tL ps) (handleOf 5 2 0 1) (tObj ps) :=
  ⟨by decide, rfl, rfl, rfl, rfl⟩
theorem test_join : hSeq (handleOf 5 2 0 1) = 0 ∧ ((tL (tHand (handleOf 5 2 0 1) 4)).pair 4) = handleOf 5 2 0 1 ∧
    (tObj [tP 1 true, tP 2 false]).places.length < 2 ^ 20 - 1 ∧ ((tH tL [tP 1 true, tP 2 false]).die 0 5).places < boothStorage := by decide
/-- The same: the lane's holding place, first, and its waiting place, second. -/
theorem test_mine_holds : Claims.Mine tU (tH tL [tP 1 true, tP 2 false]) 0 (handleOf 5 2 1 1) (tObj [tP 1 true, tP 2 false]) 0 (tP 1 true) :=
  ⟨⟨by decide, rfl, rfl, by decide, rfl⟩, rfl, by decide, fun j y h => absurd h (Nat.not_lt_zero j), rfl, by decide⟩
theorem test_mine_waits : Claims.Mine tU (tH tL [tP 1 true, tP 2 false]) 0 (handleOf 5 2 2 1) (tObj [tP 1 true, tP 2 false]) 1 (tP 2 false) :=
  ⟨⟨by decide, rfl, rfl, by decide, rfl⟩, rfl, by decide, fun j y h e => by
    have : j = 0 := by omega
    subst this; cases e; decide, rfl, by decide⟩
/-- The same: the identity of lane 0 of group 0 of the task 1. -/
theorem test_identity : Claims.Identity (tH tL []) 0 0 1 0 (tTeam tL) :=
  ⟨by decide, by decide, by decide, by decide, by decide⟩
/-- The same: a waiting place and a yieldable waiting one behind it, by handles of one object. -/
theorem test_swap : tU.place 0 (handleOf 5 2 2 1) (tH tL [tP 1 false, tP 2 false]) = .ok (tObj [tP 1 false, tP 2 false], 1, tP 2 false) ∧
    hBooth (handleOf 5 2 2 1) = hBooth (handleOf 5 2 1 1) ∧ hObj (handleOf 5 2 2 1) = hObj (handleOf 5 2 1 1) := ⟨rfl, by decide, by decide⟩
/-- The same: after a release the second place is the first, and its owner waits in TKWAIT. -/
theorem test_release_next : (tObj [tP 1 true, tP 2 false]).places.filter (fun x => x.seq != 1) = [tP 2 false] ∧ (tP 2 false).abandoned = false := by decide
theorem test_grant_wakes : let s := tS (tTeam { tL with st := .ticket (handleOf 5 2 2 1) })
    (tP 2 true).holder = true ∧ ((s.team? 0 0).map (fun t => (t.place.isSome, t.mirror, (t.thread 0 0).st))) = some (true, false, .ticket (handleOf 5 2 2 1)) := by
  decide

/-- `BoothObjects`: an object there; the caller's own Booth, and the last one; an object with no place. -/
theorem test_booth_step : tfind ((tH tL []).die 0 5).objs 2 = some (tObj []) := by decide
theorem test_honew : ((tL [(6, 7)]).reg 6).toNat < 8 ∧ ((tL [(6, 7)]).reg 6).toNat ≠ 6 ∧ ((tL [(6, 5)]).reg 6).toNat ≠ 6 ∧
    ((tH tL []).die 0 5).objs.length < 2 ^ 21 := by decide

/-- A record of the lane's task. -/
def tRec (st : RecSt) (deps cert : Nat) : TRec :=
  { inst := 5, template := 0, arg := 0, deps := deps, prio := 0, st := st, cert := cert, stream := 0, succ := [], part := 0, driver := false, tmpl := {} }
def tRecs (r : TRec) : State := tS (tTeam (tL [(4, 5)])) { tPkg (tTeam (tL [(4, 5)])) with records := [(3, r)] }

/-- `RecordInstructions`: the last dependency, and another; a verdict, and none; a record of package 1. -/
theorem test_record (r : TRec) (h : r = tRec .waiting 1 3 ∨ r = tRec .waiting 2 3 ∨ r = tRec .done 1 1) : Claims.Record (tRecs r) 0 5 3 r := by
  rcases h with rfl | rfl | rfl <;> (show _ = _; decide)
theorem test_record_named : ((tL [(4, 5)]).pair 4).extractLsb' 40 24 = 0 ∧ (((tL [(4, 5)]).pair 4).extractLsb' 32 8).toNat = 0 ∧
    (tRec .waiting 1 3).part = (tTeam tL).part ∧ 0 < (tRec .waiting 1 3).deps ∧ (tRec .done 0 1).verdict = some true ∧
    (tRec .done 0 0).verdict = none := by decide
theorem test_record_away : (((tL [(4, 5), (5, 1)]).pair 4).extractLsb' 32 8).toNat = 1 ∧ ((tOne tL).pkg 0).member 1 = true ∧
    ((tOne tL).pkg 0).dead 1 = false := by decide

/-- `LaunchSlots`: the least privileged level of both kinds of message, and level 11 of driver work. -/
theorem test_slot_flags : (0x30A : Word) &&& 0xFFFFFCF0 = 0 ∧ (0x30A : Word).extractLsb' 8 2 ≠ 0 ∧ ((0x30A : Word).extractLsb' 0 4).toNat ≤ 10 ∧
    ((0x10B : Word).extractLsb' 0 4).toNat = 11 ∧ ({ tTeam tL with prio := 11 } : Team).prio = 11 := by decide
theorem test_slot_room : ∀ x ∈ ((tOne tL).pkg 0).slots, ¬ (x.space = (tTeam tL).tagSpace ∧ x.tag = 7) := by decide

/-- Memory with a template record at 0x200: 16 lanes, one group, 32 registers, and `nbc` named barriers. -/
def tTmplMem (nbc : Byte) : Mem :=
  [(0x87, 0xC0), (0x206, 16), (0x207, 1), (0x208, 32)] ++ (if nbc = 0 then [] else [(0x20A, nbc)]) ++
    [(0x1000, 0x21), (0x1001, 0x20), (0x2000, 0x21), (0x2001, 0x30), (0x3000, 0x7F)]
/-- A lane that spawns it, and the template as read. -/
def tSpawn : Thread := tL [(4, 0x200), (6, 0x300), (8, 10)]
def tTmpl (nbc : Nat) : Tmpl := { nbc := nbc }

/-- A later state with the same teams of its one package. -/
theorem tSame {s r : State} (k x : Package) (hs : s.pkgs = [(0, k)]) (hr : r.pkgs = [(0, x)]) (h : x.teams = k.teams) (q d : Nat) :
    r.team? q d = s.team? q d := by
  unfold State.team? State.pkg; rw [hs, hr]; unfold tget; split
  · rw [h]
  · rfl

/-- `Spawn`: a template that fits an empty core below level 11 to its last barrier, and one that does not. -/
def tReads (nbc : Byte) : State := tS (tTeam tSpawn) (tPkg (tTeam tSpawn)) (tTmplMem nbc)
theorem test_spawn_reads (nbc : Byte) (h : nbc = 46 ∨ nbc = 47) : ∃ r, Claims.Reads tU tC (tReads nbc) 0 0x200 0x300 (tTmpl nbc.toNat) [] r :=
  ⟨(readLaunch (tU.loadVas tC (tTeam tSpawn) 0) 0x200 0x300 (tReads nbc)).2, fun tm h' => by
    rcases h with rfl | rfl <;>
    · have : tm = tTeam tSpawn := Option.some.inj (Eq.trans h'.symm (by decide))
      subst this; rfl, by
    rcases h with rfl | rfl <;> exact tSame (tPkg (tTeam tSpawn)) _ rfl rfl rfl⟩
theorem test_spawn_reads_stamped (nbc : Byte) (h : nbc = 46 ∨ nbc = 47) :
    ∃ r, Claims.Reads tU tC (tU.stamp (tReads nbc)) 0 0x200 0x300 (tTmpl nbc.toNat) [] r :=
  ⟨(readLaunch (tU.loadVas tC (tTeam tSpawn) 0) 0x200 0x300 (tU.stamp (tReads nbc))).2, fun tm h' => by
    have e : tm = ((tU.stamp (tReads nbc)).team? 0 0).getD (tTeam tSpawn) := by rw [show (tU.stamp (tReads nbc)).team? 0 0 = some tm from h']; rfl
    subst e
    rcases h with rfl | rfl <;> rfl, by
    rcases h with rfl | rfl <;> exact tSame ((tU.stamp (tReads _)).pkg 0) _ rfl rfl rfl⟩
theorem test_spawn_fits : (tTmpl 46).refused 10 = false ∧ (tTmpl 47).refused 10 = true ∧ (tTmpl 48).refused 11 = false ∧
    (tSpawn.reg 8).toNat = 10 ∧ (tSpawn.pair 6).toNat % 8 = 0 := by decide
/-- The same: a launch that has its record, and one that waits for one. -/
def tLaunch : Launch :=
  { template := 0x200, arg := 0x300, prio := 10, stream := 0, ndep := 0, part := 0, driver := false, tmpl := tTmpl 46, regions := [], parent := 1,
    cookie := 0, result := none, page := 0, asker := some (.lane 0 0 0 1) }
theorem test_launch_ok : ({ recPool := ⟨0x10000, 128⟩ } : Package).launchOk 0 [] tLaunch = true ∧ ({} : Package).launchOk 0 [] tLaunch = false := by decide

/-! ### Class 5 -/

/-- A group of one lane issues as a whole. -/
theorem test_whole : Whole tU tC 0 (tOne tL) (tTeam tL) [.one 6] ∧ tU.mayQueue (tTeam tL) (tOne tL) = true :=
  ⟨⟨⟨by decide, by decide⟩, by decide, by decide, by decide, by decide, by decide, by decide, by decide, by decide, by decide⟩, by decide⟩
/-- The same with seven commands in the queue of its own claim. -/
theorem test_whole_queue : let m : MCmd := { pc := 0x40, op := 3, mod := 0, group := 0, ops := [0] }
    let t := { tTeam tL with engE := { claim := true, mq := List.replicate 7 m } }
    Whole tU tC 0 (tS t) t [.one 6] ∧ tU.mayQueue t (tS t) = true :=
  ⟨⟨⟨by decide, by decide⟩, by decide, by decide, by decide, by decide, by decide, by decide, by decide, by decide, by decide⟩, by decide⟩

/-- A command's checks pass, what they leave is calm, and the pages can be locked. -/
def tPasses (s : State) (x : Except GFail MCmd × State) : Prop := ∃ m, x.1 = .ok m ∧ Calm s x.2 ∧ Lockable x.2 m.pages

/-- A team with bytes in its scratchpad, in a machine whose page holds FP16 or FP32 elements. -/
def tScr (sc : Mem) : Team := { tTeam tL with scrE := sc }
def tSc (sc : Mem) (fmt : Nat) : State := tS (tScr sc) (tPkg (tScr sc) (tTr fmt)) (tMem [(0x3007, BitVec.ofNat 8 (8 * fmt))])
theorem tCalm (s r : State) (k x : Package) (hs : s.pkgs = [(0, k)]) (hr : r.pkgs = [(0, x)]) (h : x.teams = k.teams) (hc : r.cur = s.cur)
    (hb : r.curB = s.curB) : Calm s r := ⟨tSame k x hs hr h, hc, hb⟩

/-- `MatrixCommands`: the last row and format byte of ACCZ; the last rows of ACCRD; ACCST of FP32 rows at the top of the scratchpad; a WBLD that ends with
the buffer; an MML of one step from the scratchpad, and from a page; an MMLG of one group. -/
theorem test_accz : tPasses (tOne tL) (checkAccz tU (tTeam tL) [0xFFFF] (tOne tL)) :=
  ⟨_, rfl, tCalm _ _ _ _ rfl rfl rfl rfl rfl, by intro tr h; cases h⟩
theorem test_accrd_rows : (0x3C3F : Word).toNat &&& 0xFFF0C0C0 = 0 ∧ (0x3C3F : Word).toNat / 2 ^ 8 % 64 + 2 ^ (2 : BitVec 2).toNat ≤ 64 ∧
    ∀ j ∈ tU.lanes, (tU.thread (tOne { tL with defCount := 15 }) j).defCount < 16 := by decide
theorem test_accst_top : (256 : Word).toNat < 2 ^ 20 ∧ (0x9F : Word).toNat < 2 ^ 8 ∧ (0x9F : Word).toNat / 32 % 4 = 0 ∧ (49152 : Word).toNat % 16 = 0 ∧
    (256 : Word).toNat % 2 ^ 16 % 16 = 0 ∧ 64 * elemSize StFmt.f32.code.toNat ≤ (256 : Word).toNat % 2 ^ 16 ∧
    (0x9F : Word).toNat % 32 < (tTeam tL).tmpl.bbc ∧
    (49152 : Word).toNat + (63 * ((256 : Word).toNat % 2 ^ 16) + 64 * elemSize StFmt.f32.code.toNat) ≤ (tTeam tL).tmpl.scratch := by decide
theorem test_wbld_end : let src := (0x4000 : Word).toNat + 2 ^ 32 * (0 : Word).toNat
    src % 16 = 0 ∧ (262128 : Word).toNat + (16 : Word).toNat ≤ 262144 ∧ src + (16 : Word).toNat ≤ 2 ^ 57 ∧ (tTr 2).covers src = true ∧
    src + (16 : Word).toNat ≤ (tTr 2).va + (tTr 2).size ∧ (tTr 2).fmt ∈ [2, 3, 4, 5, 6] ∧ elemFmtOk (tTr 2).fmt (tTr 2).geom = true := by decide
theorem test_wbld : tPasses (tSc [] 2) (checkWbld tU (tScr []) [0x4000, 0, 262128, 16] (tSc [] 2)) :=
  ⟨_, rfl, tCalm _ _ _ _ rfl rfl rfl rfl rfl, by unfold Lockable Quiet; decide⟩
def tMmlOps : List Word := [0x40000, 0, 64, 0, 0, 0x9F]
theorem test_mml_scratch : let o := mmlOp [0, 0, 64, 260864, 0, 0x9F]
    o.inBuffer o.bbase 1280 = true ∧ o.bb < (tTeam tL).tmpl.bbc ∧
    ∀ a ∈ [o.row 0 0, o.row (o.steps - 1) 0, o.row 0 63, o.row (o.steps - 1) 63], a + 32 * elemSize AFmt.f16.fmt ≤ (tTeam tL).tmpl.scratch := by decide
theorem test_mml_page : tPasses (tSc [] 2) (checkMml 0x01 .page none tU (tScr []) tMmlOps (tSc [] 2)) :=
  ⟨_, rfl, tCalm _ _ _ _ rfl rfl rfl rfl rfl, by unfold Lockable Quiet; decide⟩
theorem test_mmlg : tPasses (tSc [(8, 1)] 2) (checkMmlg .f16 tU (tScr [(8, 1)]) [0, 0, 64, 0, 0, 0x9F, 0] (tSc [(8, 1)] 2)) :=
  ⟨_, rfl, tCalm _ _ _ _ rfl rfl rfl rfl rfl, by intro tr h; cases h⟩

/-- `VocabularyCommands`: a VPJINIT of 64 rows with K = 4,096; VPJMRG and VPJFIN of the last blocks of the scratchpad. -/
theorem test_vpjinit : tPasses (tOne tL) (checkVpjinit 0 tU (tTeam tL) [0, 0xFC3F1000, 0] (tOne tL)) :=
  ⟨_, rfl, tCalm _ _ _ _ rfl rfl rfl rfl rfl, by intro tr h; cases h⟩
theorem test_vpjinit_operands : (0xFC3F1000 : Word).toNat % 2 ^ 26 &&& (2 ^ 26 - 1 - 0x013F1FFF) = 0 ∧ (0xFC3F1000 : Word).toNat / 2 ^ 26 % 32 < (tTeam tL).tmpl.bbc ∧
    (0xFC3F1000 : Word).toNat % 2 ^ 13 = 4096 ∧ (0xFC3F1000 : Word).toNat / 2 ^ 24 % 2 = 0 ∧
    (0 : Word).toNat + 576 * ((0xFC3F1000 : Word).toNat / 2 ^ 16 % 64 + 1) ≤ (tTeam tL).tmpl.scratch := by decide
theorem test_vpjmrg : tPasses (tOne tL) (checkVpjmrg tU (tTeam tL) [64, 640, 0] (tOne tL)) :=
  ⟨_, rfl, tCalm _ _ _ _ rfl rfl rfl rfl rfl, by intro tr h; cases h⟩
theorem test_vpjmrg_operands : (64 : Word).toNat % 64 = 0 ∧ (640 : Word).toNat % 64 = 0 ∧ (64 : Word).toNat + 576 * ((0 : Word).toNat % 64 + 1) ≤ (640 : Word).toNat := by
  decide
theorem test_vpjfin : tPasses (tOne tL) (checkVpjfin tU (tTeam tL) [64960, 0x80000000] (tOne tL)) :=
  ⟨_, rfl, tCalm _ _ _ _ rfl rfl rfl rfl rfl, by intro tr h; cases h⟩
theorem test_vpjfin_operands : (64960 : Word).toNat % 64 = 0 ∧ (64960 : Word).toNat + 576 * ((0x80000000 : Word).toNat % 64 + 1) = (tTeam tL).tmpl.scratch := by decide
/-- The same: VSAMP of one row; VPJ and VPJBWD of one hidden row and one shard row of 32; VTOPK and VSMAX of a vector in the scratchpad. -/
def tSamp : Mem := [(1, 8), (14, 0x80), (15, 0x3F)]
theorem test_vsamp : tPasses (tSc tSamp 2) (checkVsamp tU (tScr tSamp) [0] (tSc tSamp 2)) :=
  ⟨_, rfl, tCalm _ _ _ _ rfl rfl rfl rfl rfl, by intro tr h; cases h⟩
def tDesc (out mode ktop : Byte) : Mem :=
  [(2, 4), (8, 1), (16, 32), (19, 1), (21, 4), (29, 8)] ++ (if out = 0 then [] else [(42, out)]) ++
    (if mode = 0 then [] else [(53, mode)]) ++ (if ktop = 0 then [] else [(54, ktop)])
theorem test_vpj : tPasses (tSc (tDesc 0 0 0) 1) (checkVpj tU (tScr (tDesc 0 0 0)) [0] (tSc (tDesc 0 0 0) 1)) :=
  ⟨_, rfl, tCalm _ _ _ _ rfl rfl rfl rfl rfl, by unfold Lockable Quiet; decide⟩
theorem test_vpjbwd : tPasses (tSc (tDesc 5 0 0) 1) (checkVpjbwd tU (tScr (tDesc 5 0 0)) [0] (tSc (tDesc 5 0 0) 1)) :=
  ⟨_, rfl, tCalm _ _ _ _ rfl rfl rfl rfl rfl, by unfold Lockable Quiet; decide⟩
def tVec (mode ktop : Byte) : Mem := [(1, 4), (8, 16), (19, 1), (41, 8), (53, mode)] ++ (if ktop = 0 then [] else [(54, ktop)])
theorem test_vtopk : tPasses (tSc (tVec 1 64) 1) (checkVtopk tU (tScr (tVec 1 64)) [0] (tSc (tVec 1 64) 1)) :=
  ⟨_, rfl, tCalm _ _ _ _ rfl rfl rfl rfl rfl, by intro tr h; cases h⟩
theorem test_vsmax : tPasses (tSc (tVec 1 0) 1) (checkVsmax tU (tScr (tVec 1 0)) [0] (tSc (tVec 1 0) 1)) :=
  ⟨_, rfl, tCalm _ _ _ _ rfl rfl rfl rfl rfl, by intro tr h; cases h⟩

/-- `CopyCommands`: a copy of 16 bytes within the scratchpad, a multicast of 16 bytes to core 0, and a copy of 16 bytes to another package. -/
theorem test_cpy : tU.copyFail (tTeam tL) .cpy 65472 ((Mem.bytes [(8, 16), (16, 16), (20, 1), (22, 1), (40, 3)]) 0 64) = none := by decide
theorem test_cpym : tU.copyFail (tTeam tL) .cpym 0 ((Mem.bytes [(8, 16), (16, 16), (20, 1), (22, 1), (44, 1)]) 0 64) = none := by decide
theorem test_cpyx : tU.copyFail (tTeam tL) .cpyx 0 ((Mem.bytes [(8, 16), (16, 16), (20, 1), (22, 1)]) 0 64) = none := by decide
theorem test_copy_room : (∀ x ∈ (tTeam tL).copies, x.entered = true) ∧ ((tOne tL).pkg 0).copiesOn ((tTeam tL).coreOf 0) < 16 ∧
    65472 % 64 = 0 ∧ 65472 + 64 ≤ (tTeam tL).tmpl.scratch := by decide

/-- `Collectives`: an all-to-all of one FP32 element between packages 0 and 1, whose block stands at 0x4000; a handle that is known, and one that is not. -/
def tBlock : Mem := [(0x87, 0xC0), (0x1000, 0x21), (0x1001, 0x20), (0x2000, 0x21), (0x2001, 0x30), (0x3000, 0x7F), (0x4000, 3), (0x4002, 1), (0x4011, 0x50),
  (0x4019, 0x60), (0x4020, 1)]
def tColl (th : Thread) : State := tS (tTeam th) { tPkg (tTeam th) with cgTab := [(0, 1), (1, 1), (8, 0), (9, 1)] } tBlock
theorem test_coll : let s := tColl (tL [(4, 0x4000)])
    pairAt ((tU.thread s 0).opnds [.pair 4]) 0 = 0x4000 ∧ tU.collFail (tTeam (tL [(4, 0x4000)])) (s.pkg 0) 0x4000 (s.peekN (s.forward (tTr.at 0x4000)) 128) = none ∧
    s.homeFault 0 (s.forward (tTr.at 0x4000)) false = none ∧
    (s.pkg (homeOf (s.forward (tTr.at 0x4000)))).avail (llineOf (s.forward (tTr.at 0x4000))) false = true := by decide
theorem test_coll_held : Held (tColl (tL [(4, 0x4000)])) 0 0 0 0x4000 .read tTr := ⟨by decide, by decide, by decide, by decide⟩
theorem test_collq_unknown : (lastColls ((tOne tL).pkg 0).colls).find? (fun y => y.handle.toNat == 7) = none := by decide +kernel
def tCollOf : Coll := { handle := 7, n := 0, ctx := 0, inst := 1, part := 0, driver := false, pc := 0x48, group := 0, core := 0, block := [], members := [0, 1], rank := 0 }
theorem test_collq_known : (lastColls ({ colls := [tCollOf] } : Package).colls).find? (fun y => y.handle.toNat == 7) = some tCollOf := by decide +kernel

/-! ### Class 6 -/

/-- `TrapsTaken`, `Privilege`, `OperandTraps`, `MemoryTraps`: a word whose traps the handler takes. -/
theorem test_handled (th : Thread) (h : th = tL ∨ th = { tL [(4, 65534)] with dfb := [(5, true)] } ∨ th = { tL with defCount := 16 }) :
    Handled tU tC 0 (tOne th) (tTeam th) := by
  rcases h with rfl | rfl | rfl <;>
    exact ⟨⟨⟨⟨by decide, by decide⟩, by decide, by decide⟩, by decide⟩, by decide, by decide, by decide, by decide⟩
theorem test_no_halt : tU.debugHalt (tOne tL) = false ∧ (tL [(6, 3)]).flags [.one 6] = false := by decide
/-- `OperandTraps`: each kind of flagged source, and sixteen results out. -/
theorem test_flagged_sources : let t : Thread := { tL with dfb := [(5, true)] }
    t.flags (srcs2 .i32 4 (.reg 5)) = true ∧ t.flags (.sized true 4 :: (Src.imm 0).opnd true) = true ∧ t.flags [.one 5] = true ∧ t.flags [.pair 4] = true ∧
    ({ tL with defCount := 16 } : Thread).defCount = 16 := by decide
/-- `MemoryTraps`: an address that is not aligned; the first aligned one past .s, past .l, and any of .p in a team that is no pair. -/
theorem test_trap_addresses : let t := tL [(4, 65534)]
    (t.pair 4 + (0 : BitVec 18).signExtend 64).toNat % Size.b32.bytes ≠ 0 ∧ (t.pair 4 + (2 : BitVec 18).signExtend 64).toNat % Size.b32.bytes = 0 ∧
    (tTeam t).spaceSize .s < (t.pair 4 + (2 : BitVec 18).signExtend 64).toNat + Size.b32.bytes ∧ t.flags [Size.b32.opnd 6, .pair 4, .one 6] = false ∧
    (tTeam t).spaceSize .l < 64 + Size.n8.bytes ∧ (tTeam t).spaceSize .p < 0 + Size.n8.bytes ∧ t.defCount < 16 := by decide

/-- `TrapsStop`: traps are masked; and a task has no handler. -/
theorem test_masked : Alone tU tC 0 (tOne { tL with m := true }) ∧ (tU.thread (tOne { tL with m := true }) 0).m = true :=
  ⟨⟨⟨⟨by decide, by decide⟩, by decide, by decide⟩, by decide⟩, by decide⟩
theorem test_no_handler : let t := { tTeam tL with tmpl := { (tTeam tL).tmpl with handler := 0 } }
    Alone tU tC 0 (tS t) ∧ t.tmpl.handler = 0 := ⟨⟨⟨⟨by decide, by decide⟩, by decide, by decide⟩, by decide⟩, by decide⟩

/-- `BreakpointHalts`: the partition's debug halt is on. -/
theorem test_halts : let s := tS (tTeam tL) { tPkg (tTeam tL) with dbgh := 1 }
    Alone tU tC 0 s ∧ tU.debugHalt s = true := ⟨⟨⟨⟨by decide, by decide⟩, by decide, by decide⟩, by decide⟩, by decide⟩

/-- `ReturnsFromTraps`: the word after the header at 0x80, which is the last of its clause; the header itself is the case of no word between. -/
def tBack : Thread := { tL with inh := true, txPc := 0x88 }
theorem test_back_code (a : Nat) (w : DWord) (h : (a = 0x80 ∧ w = 0xC000000000000000) ∨ (a = 0x88 ∧ w = 0)) : Code tU (tOne tBack) a w := by
  rcases h with ⟨rfl, rfl⟩ | ⟨rfl, rfl⟩ <;>
    exact ⟨⟨tTr, ⟨by decide, by decide, by decide, by decide⟩, ⟨by decide, by decide⟩, by decide⟩, tKept (tTeam tBack) (by decide) rfl _ _⟩
theorem test_back : Alone tU tC 0 (tOne tBack) ∧ tBack.txPc.toNat % 8 = 0 ∧ 8 * 1 ≤ tBack.txPc.toNat ∧ isHeader 0 = false ∧
    isHeader 0xC000000000000000 = true ∧ 0x88 ≤ (clauseOf (BitVec.ofNat 57 0x80) (Header.ofWord 0xC000000000000000)).last.toNat ∧
    0x80 ≤ (clauseOf (BitVec.ofNat 57 0x80) (Header.ofWord 0xC000000000000000)).last.toNat :=
  ⟨⟨⟨⟨by decide, by decide⟩, by decide, by decide⟩, by decide⟩, by decide⟩

/-- `SystemRegisters`, `Privilege`: each form of CTLRD and CTLWR with a selector, the first of them and the last; a value that RTMO takes, the largest. -/
theorem test_selects_imm (w : Bool) : Claims.Selects (tOne tL) tU 0 (tTeam tL) tC 8 w (if w then .ctlwrImm tC 8 0x12 else .ctlrdImm tC 8 0x12) 0x12 .ptroot :=
  ⟨by decide, by decide, by decide, Or.inl ⟨by cases w <;> rfl, by decide⟩⟩
theorem test_selects_reg (w : Bool) :
    Claims.Selects (tOne tL) tU 0 (tTeam tL) tC 8 w (if w then .ctlwrReg tC 8 6 else .ctlrdReg tC 8 6) 0 .fsr :=
  ⟨by decide, by decide, by decide, Or.inr ⟨6, by cases w <;> rfl, by decide, by decide, by decide⟩⟩
theorem test_selects_may : Sel.privileged .fsr = false ∧ Sel.privileged .rtmo = true ∧ Sel.readOnly .rtmo = false ∧ ({ tTeam tL with prio := 11 } : Team).prio = 11 ∧
    (tTeam tL).prio ≠ 11 ∧ tL.parkNow.1.flags [Sel.fsr.opnd 8] = false ∧ (tU.writeSel 0 0 0xFFFF .rtmo (tOne tL)).isSome = true ∧
    (tU.writeSel 0 0 7 .fsr (tOne tL)).isSome = true := by decide

/-- `TranslationsAndRecords`: the last address of 57 bits, with no page locked and nothing on its way; the last 32 bytes of the scratchpad, with one place in the
ring. -/
theorem test_tlbi : let t := { tTeam tL with prio := 11 }
    Alone tU tC 0 (tS t) ∧ t.prio = 11 ∧ ((tS t).pkg 0).pageLocked 0 (some (2 ^ 57 - 1)) = false ∧ ((tS t).pkg 0).usesCovered 0 (some (2 ^ 57 - 1)) = false ∧
    ((tS t).pkg 0).pageLocked 0 none = false ∧ ((tS t).pkg 0).usesCovered 0 none = false :=
  ⟨⟨⟨⟨by decide, by decide⟩, by decide, by decide⟩, by decide⟩, by decide, by decide, by decide, by decide, by decide⟩
theorem test_evrec : ((tL [(6, 65504)]).reg 6).toNat % 32 = 0 ∧ ((tL [(6, 65504)]).reg 6).toNat + 32 ≤ (tTeam tL).tmpl.scratch ∧
    ((tL [(8, 0xFFFF)]).reg 8).toNat < 2 ^ 16 ∧
    (({ evr := [(0, { size := 256 })] } : Package).ring (ringOf (tTeam tL).part (tTeam tL).driver)).roomFor 1 = true := by decide

/-! ### Events: the frontier -/

/-- A team whose port A is idle: one entry inside its clause, or one whose lane stands at the header 0x80. -/
def tIdle (pc : Pc) (k : Option Clause) : Team :=
  { tTeam tL with groups := [(0, { tGroup { tL with pc := pc } with ents := [(pc.toNat, ⟨0, false, k⟩)], portA := none })] }
/-- A team whose port A runs the lane at 0x48, and of which lane 1 stands in a clause of class `ecls` at 0x200. -/
def tBoth (ecls : Nat) : Team :=
  let g := tGroup tL
  { tTeam tL with groups := [(0, { g with
      threads := (0, tL) :: (1, { pc := 0x208 }) :: (List.range 14).map (fun l => (l + 2, ({ st := .exited } : Thread))),
      ents := [(0x48, ⟨0, false, some tK⟩), (0x208, ⟨0, false, some ⟨0x200, 0x208, 0, ecls⟩⟩)] })] }
def tW : Where := ⟨0, 0, 0⟩

/-- `PortAndLaneEvents`: a team that may pick; ports that stay; an entry that port A has taken; a candidate, also at the fullest progress count; none; after port A's
start, a port A that runs with port B idle; and port B's candidate, of the class of port A's entry, and of another class. -/
theorem test_may_pick : let t := tIdle 0x48 (some tK)
    (tS t).team? 0 0 = some t ∧ t.stop = none ∧ t.place ≠ none ∧ (t.group 0).vwait = false ∧ 0 < t.tmpl.groups ∧ (t.group 0).portA = none ∧
    (t.group 0).pickA = none ∧ Claims.bestA (tS t) tW t = some ⟨0x48, 0, some 0, 0, false⟩ := by decide
theorem test_ports_stay : ((tTeam tL).group 0).pickA = none ∧ ((tTeam tL).group 0).portA = some ⟨0x48, tK⟩ ∧ ((tTeam tL).group 0).bFree = false ∧
    ({ tGroup tL with pickA := some 0x48 } : Group).pickA = some 0x48 ∧ ({ tGroup tL with portB := some ⟨0x48, tK⟩ } : Group).portB ≠ none := by decide
theorem test_pick_oldest : let t := tIdle 0x48 (some tK)
    let t := { t with groups := tmap (fun _ g => { g with prog := 64 }) t.groups }
    (t.group 0).prog = 64 ∧ Claims.bestA (tS t) tW t = some ⟨0x48, 0, some 0, 0, false⟩ := by decide
theorem test_pick_none : let t := { tTeam { tL with st := .nbar 3 } with groups := [(0, { tGroup { tL with st := .nbar 3 } with portA := none })] }
    (t.group 0).portA = none ∧ Claims.bestA (tS t) tW t = none := by decide
theorem test_a_started : let t := tIdle 0x48 (some tK)
    let s := tS t
    let m := (Claims.counted s tW (s.eligible 0 t 0) ⟨0x48, 0, some 0, 0, false⟩).startEntry 0 0 0 false 0x48
    (m.team? 0 0).map (fun t => ((t.group 0).portA, (t.group 0).portB)) = some (some ⟨0x48, tK⟩, none) := by decide
/-- The same team, whose port B waits for nothing. -/
def tFree (ecls : Nat) : Team := { tBoth ecls with groups := tmap (fun _ g => { g with bFree := true }) (tBoth ecls).groups }
theorem test_b_picks (ecls : Nat) (h : ecls = 0 ∨ ecls = 1) : let t := tFree ecls
    (t.group 0).pickA = none ∧ (t.group 0).portA = some ⟨0x48, tK⟩ ∧ (t.group 0).portB = none ∧ (t.group 0).bFree = true ∧
    firstBy Cand.before (((tS t).eligible 0 t 0).filter (fun k => !(([(0x48 : Pc)].contains k.pc)))) = some ⟨0x208, 0, some ecls, 0, false⟩ ∧
    (some ecls = some tK.ecls ∨ some ecls ≠ some tK.ecls) := by rcases h with rfl | rfl <;> decide
theorem test_b_none : let t := { tTeam tL with groups := [(0, { tGroup tL with bFree := true })] }
    firstBy Cand.before (((tS t).eligible 0 t 0).filter (fun k => !(([(0x48 : Pc)].contains k.pc)))) = none := by decide
/-- The same: an entry inside its clause, and one at a header without a wait. -/
theorem test_starts_inside : (((tIdle 0x48 (some tK)).group 0).ent 0x48).mid 0x48 = some tK := by decide
def tUH : Iss := ⟨0, 0, 0, 0x80, ⟨0x80, 0x80, 0, 0⟩, [0]⟩
theorem test_starts_header : tUH.lanes = (tIdle 0x80 none).runLanes 0 0x80 ∧ (((tIdle 0x80 none).group 0).ent 0x80).mid 0x80 = none ∧
    decodeHeader (tIdle 0x80 none).tmpl.bbc 0xC000000000000000 = .ok ⟨0, 0, 0, false, 0, false⟩ := ⟨by decide, by decide, rfl⟩
theorem test_header_code : Code tUH (tS (tIdle 0x80 none)) 0x80 0xC000000000000000 :=
  ⟨⟨tTr, ⟨by decide, by decide, by decide, by decide⟩, ⟨by decide, by decide⟩, by decide⟩, tKept (tIdle 0x80 none) (by decide) rfl _ _⟩

/-- The same: a due park whose one result has returned; a result whose value is known; a group with no thread left; a WAITM whose time is over now. -/
def tPend : Pend := ⟨8, false, 1, [(7, false)], true, 0, 0x40, true, none, none⟩
theorem test_park_due : let t := tTeam { tL with pend := [tPend], parkDue := true }
    (t.runLanes 0 0x48).filter (fun l => (t.thread 0 l).parkDue && (t.thread 0 l).settled) = [0] ∧ (t.thread 0 0).settled = true ∧
    (t.thread 0 0).parkNow.2 = none := by decide
theorem test_result_known : ((tOne { tL with pend := [{ tPend with ready := false }] }).thread 0 0 0 0).pend[0]? = some { tPend with ready := false } := by decide
theorem test_group_over : let t := tTeam { tL with st := .exited }
    (∀ l ∈ t.lanes, (t.thread 0 l).live = false ∧ (t.thread 0 l).pend = []) ∧ (t.group 0).retired = false ∧ t.suspended 0 = none := by decide
theorem test_wait_over : let m : Monitor := ⟨1, 0x80, some 0⟩
    (((tTeam { tL with st := .monitor m }).thread 0 0).st = .monitor m) ∧ m.deadline = some 0 ∧ 0 ≤ (tOne tL).clock := by decide

/-! ### Events: the Ringmaster -/

/-- The machine with its package changed. -/
def tWith (f : Package → Package) (m : Mem := tMem) : State := tS (tTeam tL) (f (tPkg (tTeam tL))) m
/-- A message of 64 bytes. -/
def tMsg (m : Mem) : List Byte := Mem.bytes m 0 64
/-- A launch of the template at 0x200 through page 0, with an argument at 0x300. -/
def tMsg0 : List Byte := tMsg [(9, 2), (17, 3)]
def tMail (f : Package → Package) (nbc : Byte := 46) (m : List Byte := tMsg0) : State :=
  tWith (fun k => f { k with mbox := [(0, [m])], ptroot := [(0, 0x1000)], sdReady := 0xFFFFFFFF }) (tTmplMem nbc)

/-- `LaunchesAndMailboxes`: a launch that has a record, one that waits for one, and one that no core can hold. -/
theorem test_message : Claims.Message (tMail id) 0 0 tMsg0 ∧ blkLe tMsg0 0 4 = 0 := ⟨⟨by decide, by decide⟩, by decide⟩
theorem test_message_reads (nbc : Byte) (h : nbc = 46 ∨ nbc = 47) :
    ∃ r, readLaunch (rmRead 0 { part := 0, driver := false }) 0x200 0x300 (Claims.popped (tMail id nbc) 0 0) = (.ok (tTmpl nbc.toNat, []), r) :=
  ⟨(readLaunch (rmRead 0 { part := 0, driver := false }) 0x200 0x300 (Claims.popped (tMail id nbc) 0 0)).2, by rcases h with rfl | rfl <;> rfl⟩
theorem test_message_room : let x := { msgLaunch tMsg0 0 false 0 0x200 with tmpl := tTmpl 46 }
    ((tMail (fun k => { k with recPool := ⟨0x10000, 128⟩ })).pkg 0).launchOk 0 [] x = true ∧ ((tMail id).pkg 0).launchOk 0 [] x = false ∧ x.prio ≠ 11 := by
  decide
/-- The same: a malformed message; one with a tag and no slot; one whose tag has a slot; and a launch that waited. -/
theorem test_message_bad : msgMalformed (some 0) (tMsg [(4, 2)]) = true ∧ blkLe (tMsg [(4, 2)]) 0 4 = 0 := by decide
theorem test_message_tag : Claims.Message (tMail id 46 (tMsg [(0, 7)])) 0 0 (tMsg [(0, 7)]) ∧ blkLe (tMsg [(0, 7)]) 0 4 ≠ 0 ∧
    (((tMail id).pkg 0).mboxPop 0).findSlot 0 7 false = none := ⟨⟨by decide, by decide⟩, by decide, by decide⟩
def tSlot : Slot := ⟨0, 7, 0x200, 10, true, false, 0, false⟩
theorem test_message_slot : (({ (tMail id).pkg 0 with slots := [tSlot] } : Package).mboxPop 0).findSlot 0 7 false = some tSlot ∧
    ((tMail (fun k => { k with recPool := ⟨0x10000, 128⟩ })).tryLaunch 0 (msgLaunch (tMsg [(0, 7)]) 0 false 0 0x200) 10 true).isSome = true := by decide
theorem test_waited : (({ recPool := ⟨0x10000, 128⟩, waitLaunch := [tLaunch] } : Package).nextLaunch 0 [] [tLaunch]) = some ([], tLaunch, []) ∧
    ({ recPool := ⟨0x10000, 128⟩ } : Package).freeRec = some 0 := by decide
/-- The same: a mailbox with room for one more, and a full one; a message window's write that is too short; OVF; and a ring's TAIL. -/
theorem test_mailboxes : ((tMail id).pkg 0).ringReady = true ∧ tMsg0.length = 64 ∧ (tget [] [(8, List.replicate 255 tMsg0)] 8).length < 256 ∧
    256 ≤ (tget [] [(8, List.replicate 256 tMsg0)] 8).length ∧ [(0 : Byte)].length ≠ 64 ∧ (0x10000 : Word).getLsbD 16 = true := by decide +kernel

/-- `Lives`: a READY record at the head of a level, a core that can hold it, and a slot and a context that are free. -/
def tReady : State := tWith (fun k => { k with sdReady := 0xFFFFFFFF, records := [(3, tRec .ready 0 3)], fifos := [(0, [3])], teams := [] })
theorem test_dispatch : (tReady.pkg 0).pickLevel = some 0 ∧ (tReady.pkg 0).headOf 0 = some (3, tRec .ready 0 3) ∧
    (tReady.pkg 0).canDispatch (tRec .ready 0 3) 383 = true ∧ (tReady.pkg 0).slotFree 383 31 = true ∧ tfind (tReady.pkg 0).teams (2 ^ 20 - 1) = none ∧
    (tReady.pkg 0).ringReady = true := by decide
/-- The same: a team of which every group has retired, and its record; a record that may retire; a failed team and one that MIRROR stopped, at rest. -/
def tDone : Team := { tTeam tL with groups := [(0, { retired := true })] }
theorem test_complete : (∀ g, g < tDone.tmpl.groups → (tDone.group g).retired = true ∧ (tDone.group g).rwCount = 0) ∧
    ((tS tDone).pkg 0).engineBusy 0 tDone = false ∧ tDone.cpymHold = 0 ∧
    ({ records := [(3, { tRec .running 0 0 with inst := 1 })] } : Package).records.find? (fun e => e.2.inst == tDone.inst && e.2.st != .free) =
      some (3, { tRec .running 0 0 with inst := 1 }) := by decide
theorem test_may_retire : ((tRecs (tRec .done 0 2)).pkg 0).rec? 5 = some (tRec .done 0 2) ∧ ∀ w ∈ ((tRecs (tRec .done 0 2)).pkg 0).certWaits, w.inst ≠ 5 := by decide
theorem test_stopped (st : Stop) : let t := { tTeam tL with stop := some st }
    (tS t).team? 0 0 = some t ∧ ((tS t).pkg 0).engineBusy 0 t = false ∧ t.cpymHold = 0 := by cases st <;> decide
theorem test_stopped_record : let t := { tTeam tL with stop := some .mirror }
    let s := tS t { tPkg t with records := [(3, { tRec .running 0 0 with inst := 1 })] }
    (((s.modRec 0 t.inst (fun r => r.leave 0)).freeStopped 0 0 { t with stop := some .failed }).pkg 0).findRec t.inst = some 3 := by decide

/-! ### Events: the driver -/

/-- A machine whose command FIFO holds one command: operation, partition, and bytes of the arguments. -/
def tCmd (op part : Byte) (args : Mem := []) : List Byte := tMsg ((0, op) :: (if part = 0 then [] else [(2, part)]) ++ args)
def tDrv (c : List Byte) (f : Package → Package := id) (m : Mem := tMem) : State := tWith (fun k => f { k with cmdFifo := [c] }) m
/-- Records of the instance 5 in a state. -/
def tHas (st : RecSt) (k : Package) : Package := { k with records := [(3, tRec st 0 0)] }

/-- `DriverCommandsAndObjects`: CANCEL and FREE of a record that they take, and of one that they do not. -/
theorem test_cancel (st : RecSt) (h : st ≠ .free) : let s := tDrv (tCmd 1 0 [(8, 5)]) (tHas st)
    (s.pkg 0).cmdHead 1 = some (tCmd 1 0 [(8, 5)]) ∧ (s.pkg 0).recOf (cmdArg0 (tCmd 1 0 [(8, 5)])) = some (3, tRec st 0 0) := by
  cases st <;> first | exact absurd rfl h | decide
theorem test_free_failed : let s := tDrv (tCmd 2 0 [(8, 5)]) (tHas .failed)
    (s.pkg 0).cmdHead 2 = some (tCmd 2 0 [(8, 5)]) ∧ (s.pkg 0).recOf (cmdArg0 (tCmd 2 0 [(8, 5)])) = some (3, tRec .failed 0 0) := by decide
/-- The same: PREEMPT of the last core; SLICE and DBGHALT of the last partition; DEAD of a cell with a member; SCRUB of a poisoned line; the codes around the
assigned ones; W1C. -/
theorem test_preempt_cmd : ((tDrv (tCmd 3 0 [(8, 0x7F), (9, 1)])).pkg 0).cmdHead 3 = some (tCmd 3 0 [(8, 0x7F), (9, 1)]) ∧
    cmdArg0 (tCmd 3 0 [(8, 0x7F), (9, 1)]) % 512 = 383 := by decide
theorem test_slice_cmd : ((tDrv (tCmd 4 7)).pkg 0).cmdHead 4 = some (tCmd 4 7) ∧ ((tDrv (tCmd 9 7)).pkg 0).cmdHead 9 = some (tCmd 9 7) ∧
    cmdPart (tCmd 4 7) = 7 ∧ cmdPart (tCmd 9 7) = 7 := by decide
theorem test_dead_cmd : ((tDrv (tCmd 7 0 [(8, 1)])).pkg 0).cmdHead 7 = some (tCmd 7 0 [(8, 1)]) ∧
    ((tDrv (tCmd 7 0 [(8, 1)])).pkg 0).cellMembers (cmdArg0 (tCmd 7 0 [(8, 1)]) % 64) ≠ [] := by decide +kernel
theorem test_scrub_cmd : let s := tDrv (tCmd 8 0 [(8, 0x80)]) (fun k => { k with dir := [(1, ⟨0, 0, 0, .p, 0⟩)] })
    (s.pkg 0).cmdHead 8 = some (tCmd 8 0 [(8, 0x80)]) ∧ cmdArg0 (tCmd 8 0 [(8, 0x80)]) = 0x80 ∧ homeOf 0x80 = 0 ∧ s.poisoned 0x80 = true := by decide
theorem test_bad_cmds : ((tDrv (tCmd 0 0)).pkg 0).cmdFifo = [tCmd 0 0] ∧ cmdOp (tCmd 0 0) = 0 ∧ 11 < cmdOp (tCmd 12 0) ∧ (0x10000 : Word).getLsbD 16 = true := by
  decide
/-- The same: a page of the package whose lines can all be locked, and one that has begun and of which a cell holds a line; a line that is poisoned, one that is ready,
and one that is not; a page whose migration has switched; an object of the partition; a resident team with a halted lane, which goes on behind the header, or meets an
absent page. -/
def tMigr : List Byte := tCmd 5 0 [(10, 5), (18, 6)]
theorem test_migrate_cmd : ((tDrv tMigr).pkg 0).cmdHead 5 = some tMigr ∧ ((tDrv tMigr).pkg 0).migrates 0 (cmdArg0 tMigr) (cmdArg1 tMigr) = true ∧
    ∀ a ∈ pageLines (cmdArg0 tMigr), ((tDrv tMigr).pkg 0).lineStill a = false ∧ ((tDrv tMigr).lockLine a).locked a = true := by decide +kernel
theorem test_migrate_waits : let s := tDrv tMigr (fun k => { k with migr := [⟨0x50000, 0x60000, false, 0, [], true⟩], dir := [(0xA00, ⟨1, 0, 0, .s, 0⟩)] })
    (s.pkg 0).migr.any (fun m => !m.switched && m.old == cmdArg0 tMigr && m.new == cmdArg1 tMigr && m.locking) = true ∧
    (s.pkg 0).avail (llineOf 0x50000) true = false ∧ s.poisoned 0x50000 = false ∧ s.locked 0x50000 = false ∧ (s.pkg 0).avail (llineOf 0x50080) true = true ∧
    (tWith (fun k => { k with dir := [(1, ⟨0, 0, 0, .p, 0⟩)] })).poisoned 0x80 = true := by decide +kernel
theorem test_endfwd_cmd : let c := tCmd 6 0 [(10, 5)]
    let m : Migr := ⟨0x50000, 0x60000, true, 0, [], false⟩
    ((tDrv c).pkg 0).cmdHead 6 = some c ∧ m ∈ ((tDrv c (fun k => { k with migr := [m] })).pkg 0).migr ∧ m.switched = true ∧ m.old = cmdArg0 c := by decide
theorem test_objdel_cmd : let c := tCmd 10 0 [(8, 1), (13, 2), (15, 0xA0)]
    let s := tDrv c (fun k => { k with dies := [(5, { objs := [(2, tObj [tP 1 true])] })] })
    (s.pkg 0).cmdHead 10 = some c ∧ BitVec.ofNat 64 (cmdArg0 c) = handleOf 5 2 0 1 ∧ tfind (s.die 0 5).objs 2 = some (tObj [tP 1 true]) ∧
    (tObj [tP 1 true]).part = cmdPart c := by decide
def tHalt : Team := tTeam { tL with st := .halted, txPc := 0x88 }
theorem test_dbgcont_cmd : let c := tCmd 11 0 [(8, 1)]
    let s := tS tHalt { tPkg tHalt with cmdFifo := [c] }
    (s.pkg 0).cmdHead 11 = some c ∧ (s.pkg 0).teams.find? (fun t => t.2.inst.toNat == cmdArg0 c && t.2.stop.isNone) = some (0, tHalt) ∧
    tHalt.place ≠ none ∧ cmdArg1 c % 32 < tHalt.tmpl.groups ∧ tHalt.haltedLanes 0 = [0] := by decide
theorem test_unhalts : ∃ cl s1, (tS tHalt).resumeAt 0 0 (dieOf (tHalt.coreOf 0)) (tHalt.thread 0 0).txPc (tHalt.thread 0 0).txPc = (.at cl, s1) := ⟨_, _, rfl⟩
theorem test_unhalts_absent : let t := tTeam { tL with st := .halted, txPc := 0x40000000 }
    (match (tS t).resumeAt 0 0 0 0x40000000 0x40000000 with
      | (.bad .page va, s1) => decide (va = 0x40000000) && (s1.team? 0 0).isSome
      | _ => false) = true := by decide

/-- `PreemptionAndWheelEvents`: a time slice that ends now; a pre-emption that has been asked for; a team that is away, with a place for its record; a pre-empted head
that goes back to its core. -/
def tCore (f : Core → Core) : State := tWith (fun k => { k with cores := [(0, f {})], sdReady := 0xFFFFFFFF })
theorem test_slice_over : ((tCore (fun x => { x with sliceEnd := some 0 })).core 0 0).sliceEnd = some 0 ∧
    0 ≤ (tCore (fun x => { x with sliceEnd := some 0 })).time := by decide
theorem test_may_switch : ((tCore (fun x => { x with preempt := true })).core 0 0).preempt = true ∧
    ((tCore (fun x => { x with preempt := true })).pkg 0).maySwitch 0 = true := by decide
def tAway : Team := { tTeam tL with place := none, tmpl := {} }
theorem test_spill : let k := { tPkg tAway with ctxPool := ⟨0x10000, 2 ^ 20⟩ }
    tAway.place = none ∧ tAway.recDone = false ∧ tAway.stop = none ∧ (tS tAway k).bankWritten 0 0 tAway = false ∧
    ((tS tAway k).pkg 0).recPlace 0 tAway.recMap.size = some 0x10000 := by decide
def tBackTeam : Team := { tAway with recDone := true }
def tResume : State := tS tBackTeam { tPkg tBackTeam with
  records := [(3, { tRec .running 0 0 with inst := 1, ctx := some 0 })], fifos := [(0, [3])], sdReady := 0xFFFFFFFF, cores := [(0, { inactive := [0] })] }
theorem test_resume : (tResume.pkg 0).pickLevel = some 0 ∧ (tResume.pkg 0).headOf 0 = some (3, { tRec .running 0 0 with inst := 1, ctx := some 0 }) ∧
    (tResume.pkg 0).canResume 0 tBackTeam 0 = true ∧ (tResume.pkg 0).slotFree 0 31 = true ∧ (tResume.pkg 0).ringReady = true := by decide
/-- The same: a load of one lane that waits for another package. -/
theorem test_redirects : (∀ e ∈ (tPkg (tTeam tL)).reqs, e.2.ctx = 0 → e.2.op = none) ∧ (tTeam tL).mirror = false ∧
    (∀ b ∈ [(0x7C, 4)], homeOf b.1 = 0) := by decide
/-- The same: the window of core 0 at its time and one beside it, on a core that may be switched and on one that may not, and one that waited; a scan that runs, and that is
over; a core that has been silent for one microsecond, its whole interval. -/
def tWheel (time : Nat) (f : Core → Core) (bank : Bool := false) : State :=
  { tWith (fun k => { k with
      cores := [(0, f { inactive := if bank then [0] else [] })], dies := [(0, { wheel := some 5 })], sdReady := 0xFFFFFFFF,
      teams := if bank then [(0, { tTeam tL with place := none })] else k.teams }) with time := time }
theorem test_window : let s := tWheel 5 id
    (s.pkg 0).sdReady.getLsbD (16 + dieOf 0) = true ∧ (s.core 0 0).outOfDispatch = false ∧ (s.core 0 0).scanning = none ∧ (s.core 0 0).windowLate = false ∧
    (s.time + 1280000 - s.wheelOf 0 0) % 1280000 = 20000 * (0 % 64) ∧ (s.pkg 0).maySwitch 0 = true ∧ ((tWheel 5 id true).pkg 0).maySwitch 0 = false ∧
    ((tWheel 6 id).time + 1280000 - (tWheel 6 id).wheelOf 0 0) % 1280000 ≠ 20000 * (0 % 64) ∧
    ((tWheel 6 (fun x => { x with windowLate := true })).core 0 0).windowLate = true := by decide
theorem test_scanning : ((tWheel 18005 (fun x => { x with scanning := some (7, 5) })).core 0 0).scanning = some (7, 5) ∧ 18004 < 5 + 18000 ∧ 5 + 18000 ≤ 18005 := by decide
theorem test_hang : let s := { tWith (fun k => { k with barkInt := 1 }) with time := 1000 }
    (s.pkg 0).residentOn 0 ≠ [] ∧ (s.pkg 0).barkInt ≠ 0 ∧ (s.core 0 0).lastSink + (s.pkg 0).barkInt.toNat * 1000 ≤ s.time ∧
    ∀ t ∈ (s.pkg 0).residentOn 0, t.2.haltedOn 0 = false := by decide

/-- `FaultAnswers`: a fault of the first page that waits for each answer, and a lane parked on it, at its instruction or as its halt ended; the least reserved
action. -/
def tWaits (st : TSt := .page 0x10 1) : Team := tTeam { tL with st := st }
def tFault (st : TSt := .page 0x10 1) : State := tS (tWaits st) { tPkg (tWaits st) with dies := [(0, { faults := [⟨0, 0, 1, 1, 1, 0x48, true⟩] })] }
theorem test_fault : respAction 0 = 0 ∧ respAction 1 = 1 ∧ 2 ≤ respAction 2 ∧ (tFault.pkg 0).matches 0 = true ∧ (tFault.pkg 0).matches 1 = true ∧
    (tFault.pkg 0).parked 0 = [(0, 0, 0, 0x10)] ∧ (tFault.pkg 0).parked 1 = [(0, 0, 0, 0x10)] ∧ tFault.team? 0 0 = some tWaits ∧ tWaits.part = respPart 0 ∧
    tWaits.part = respPart 1 ∧ (tWaits.thread 0 0).st = .page 0x10 1 ∧ (tFault.thread 0 0 0 0).st.continues = false ∧
    ((tFault (.cont 0x10 4)).pkg 0).parked 1 = [(0, 0, 0, 0x10)] ∧ ((tWaits (.cont 0x10 4)).thread 0 0).st.continues = true := by decide
theorem test_fault_quiet (st : TSt) (h : st = .page 0x10 1 ∨ st = .cont 0x10 4) :
    let pc : DWord := if ((tWaits st).thread 0 0).st.continues then ((tWaits st).thread 0 0).txPc else ((tWaits st).thread 0 0).pc.setWidth 64
    let s1 := ((tFault st).modPkg 0 (fun k => k.answerFaults 1)).modThread 0 0 0 0 (fun t => { t with st := .runnable })
    let s2 := (s1.trap 0 0 0 0 ⟨0x06, pc, some 0x10, some 0x30⟩).modTeam 0 0 (fun t => t.sweepEnts 0)
    (∀ e ∈ (s2.pkg 0).teams, e.2.part = respPart 1 → ∀ x ∈ e.2.copies, x.page.any (onPage 1) = false) ∧
    (∀ c ∈ (s2.pkg 0).colls, c.part = respPart 1 → c.page.any (onPage 1) = false) := by rcases h with rfl | rfl <;> decide

/-! ### Events: the engines -/

/-- A copy of 16 bytes within the scratchpad, which has moved `pos` of them, or of 16 elements; a record is written at `cw`. -/
def tCopyOf (pos : Nat) (sfmt cw : Byte) : Copy :=
  { id := 1, kind := .cpy, pc := 0x48, group := 0, core := 0, off := 0, started := true, pos := pos,
    desc := tMsg ([(8, 16), (16, 16), (20, 1), (22, 1), (40, 3)] ++ (if sfmt = 0 then [] else [(41, sfmt)]) ++ (if cw = 0 then [] else [(49, cw)])) }
def tCopies (x : Copy) : Team := { tTeam tL with copies := [x] }

/-- `EngineEvents`: a copy that may start; its one unit of bytes to move, and of elements; a copy that has moved all, with a record and without. -/
theorem test_copy_starts : (((tS (tCopies (tCopyOf 0 0 0))).enterCopies 0).team? 0 0) = some (tCopies (tCopyOf 0 0 0)) := by decide
theorem test_copy_moves (sfmt : Byte) (h : sfmt = 0 ∨ sfmt = 1) : let x := tCopyOf 0 sfmt 0
    (tS (tCopies x)).team? 0 0 = some (tCopies x) ∧ (tCopies x).copies.find? (fun y => y.id == 1) = some x ∧ x.active = true ∧ x.hasMoved 0 = false ∧
    copyRow 0 < (cdesc x.desc).rows ∧ (cdesc x.desc).sfmt = sfmt.toNat ∧ (cdesc x.desc).dir = 3 ∧ x.read = [] := by rcases h with rfl | rfl <;> decide
theorem test_copy_unit : let d := cdesc (tCopyOf 0 0 0).desc
    chunkSpan 16 1 (d.dstRow (copyRow 0 * d.xn)) d.xn (copyChunk 0) = (0, 16) := by decide
theorem test_copy_over (cw : Byte) (h : cw = 0 ∨ cw = 4) : let x := tCopyOf 16 0 cw
    x.size ≤ x.pos ∧ x.lines = 0 ∧ (cdesc x.desc).sfmt = 0 ∧ (cdesc x.desc).cw = 256 * cw.toNat ∧ x.page = none ∧
    (((tS (tCopies x)).creditPiece 0 0 1 16).team? 0 0).bind (fun t => t.copies.find? (fun x => x.id == 1)) = some x := by
  rcases h with rfl | rfl <;> decide
theorem test_copy_record : let x := tCopyOf 16 0 4
    (((tS (tCopies x)).creditPiece 0 0 1 16).writeRecord 0 (x.who (tCopies x)) (some x.die) 0x400 x.written x.outcome.1 x.outcome.2.2.toNat x.outcome.2.1.toNat).1 =
      none := by decide
/-- The same: heads of a queue: an MML, an ACCZ and a VPJMRG that have not started, a VPJMRG that has a row to go, and heads that may complete. -/
def tHead (op : Nat) (started : Bool) (prog : Nat) : MCmd :=
  { pc := 0x48, op := op, mod := 2, group := 0, ops := [64, 640, 0], started := started, prog := prog }
def tHeads (m : MCmd) : Team := { tTeam tL with engE := { claim := true, mq := [m] } }
theorem test_heads (op : Nat) (h : op = 1 ∨ op = 3 ∨ op = 0x0D) : let t := tHeads (tHead op false 0)
    (tS t).team? 0 0 = some t ∧ t.place ≠ none ∧ t.stop = none ∧ (t.eng false).mq = [tHead op false 0] ∧ (tHead op false 0).suspended = false := by
  rcases h with rfl | rfl | rfl <;> decide
theorem test_units : (tHead 0x0D true 0).prog < (tHead 0x0D true 0).units ∧ (tHead 0x0D true 1).units = (tHead 0x0D true 1).prog := by decide

/-! ### Events: what arrives -/

/-- A machine that a flit with a body is about to reach from package 1 over link 2, the end-to-end number being 0. -/
def tFlit (b : Body) (dst : Nat := 0) : Flit := (mkFlit 1 dst 0 false b).seal 0xF
def tWire (f : Flit) (k : Package → Package := id) : State := tWith (fun x => k { x with links := [(2, { conn := true, peer := 1, wire := [f] })] })
/-- A request for the line at 0x4000 of package 0. -/
def tReqB (op : ReqOp) : Body := .req op 0x4000 0 0xFF 0 false (0, 0) (List.replicate 128 7)

/-- `LinkEvents`, `HomeEventsAndService`, `ArrivalAndCollectiveEvents`: a flit arrives, for the first time, and in its turn; or behind an earlier one about its line. -/
theorem test_arrives (b : Body) (h : b = .launch tMsg0 ∨ b = .heartbeat) : Claims.First (tWire (tFlit b)) 0 2 (tFlit b) [] := by
  rcases h with rfl | rfl <;>
    exact ⟨⟨by decide, by decide, by decide, rfl, by decide +kernel, by decide, by decide, by decide⟩, by decide, by decide, by decide⟩
theorem test_in_turn : Claims.InTurn (tWire (tFlit (tReqB .red))) 0 2 (tFlit (tReqB .red)) [] ∧ (tFlit (tReqB .red)).body.reqOp? = some .red :=
  ⟨⟨⟨⟨by decide, by decide, by decide, rfl, by decide +kernel, by decide, by decide, by decide⟩, by decide, by decide, by decide⟩, by decide, by decide⟩, rfl⟩
theorem test_in_turn_answers (b : Body) (h : b = .snp .inval 0x4000 ∨ b = .snpr 0x4000 true true [] ∨ b = .rsp .ack 0 0x4000 0 []) :
    Claims.InTurn (tWire (tFlit b)) 0 2 (tFlit b) [] := by
  rcases h with rfl | rfl | rfl <;>
    exact ⟨⟨⟨by decide, by decide, by decide, rfl, by decide +kernel, by decide, by decide, by decide⟩, by decide, by decide, by decide⟩, by decide, by decide⟩
theorem test_behind : let f := tFlit (tReqB .gets)
    let f1 := { f with eseq := 1 }
    let s := (tWire f1).modPkg 1 (fun k => { k with e2e := [(0, { sent := [(0, some (0x4000 / 128)), (1, some (0x4000 / 128))] })] })
    behind (((Claims.arrived s 0 2 f1 []).pkg 1).e2e? 0).sent f1 = true ∧ (((Claims.arrived s 0 2 f1 []).pkg 0).e2e? 1).seen 1 = false := by decide

/-- `HomeEventsAndService`: the home of the line; a cell that the Turnstile admits, and one that it does not; a line with a transaction, in P, in L, owned, and in I, of
which a die of the home holds a copy or none. -/
def tHome (e : Option DirEnt) (open_ : Bool := false) : State := tWith (fun k => { k with
  turn := [(0, (2 ^ 65 : BitVec 128) + 2)], dir := (match e with
    | none => []
    | some e => [(0x80, e)]),
  txns := if open_ then [(0x80, ⟨.clear, [1], none⟩)] else [] })
theorem test_home (op : ReqOp) : homeOf 0x4000 = 0 ∧ ((tHome none).pkg 0).walks.filter (fun w => w.1 == llineOf 0x4000) = [] ∧
    ((tHome none).pkg 0).admits 0x4000 (((tHome none).pkg 0).cell 1) op = true ∧ tfind ((tHome none).pkg 0).txns (llineOf 0x4000) = none ∧
    ((tHome none).pkg 0).dirAt (llineOf 0x4000) = ⟨0, 0, 0, .i, 0⟩ ∧ (tHome none).forward 0x4000 = 0x4000 ∧ ((tHome none).pkg 0).dirFull (llineOf 0x4000) = false := by
  cases op <;> decide +kernel
theorem test_home_refused : ((tOne tL).pkg 0).admits 0x4000 (((tOne tL).pkg 0).cell 1) .gets = false ∧
    (tfind ((tHome none true).pkg 0).txns (llineOf 0x4000)).isSome = true ∧ ((tHome none true).pkg 0).admits 0x4000 (((tHome none true).pkg 0).cell 1) .gets = true ∧
    ((tHome (some ⟨0, 0, 0, .i, 3⟩)).pkg 0).dirAt (llineOf 0x4000) = ⟨0, 0, 0, .i, 3⟩ := by decide +kernel
theorem test_home_states (st : DirSt) (h : st = .p ∨ st = .m ∨ st = .e ∨ st = .l) :
    (((tHome (some ⟨2, 1, 0, st, 0⟩)).pkg 0).dirAt (llineOf 0x4000)).st = st := by rcases h with rfl | rfl | rfl | rfl <;> decide +kernel

/-- `ArrivalAndCollectiveEvents`: a request that its response names, and none; the flits of MSG that carry what they name; requests whose time is over. -/
def tReq (kind : ReqKind) : Req :=
  { ctx := 0, group := 0, lanes := [(0, 0x7C)], pc := 0x48, addr := 2 ^ 44 + 0x7C, dst := 1, eseq := 0, kind := kind, deadline := 0, tmo := 1 }
theorem test_request_named : let s := tWire (tFlit (.rsp .ack 0 0x4000 0 [])) (fun k => { k with reqs := [(4, tReq .write)] })
    ((Claims.noted s 0 2 (tFlit (.rsp .ack 0 0x4000 0 [])) []).pkg 0).findReq 1 0 = some (4, tReq .write) ∧
    ((Claims.noted s 0 2 (tFlit (.rsp .ack 0 0x4000 0 [])) []).pkg 0).findReq 1 1 = none := by decide
theorem test_expired (kind : ReqKind) (h : kind = .load ∨ kind = .write ∨ kind = .cpyx 1) : let s := tWith (fun k => { k with reqs := [(4, tReq kind)] })
    tfind (s.pkg 0).reqs 4 = some (tReq kind) ∧ s.expired 0 (tReq kind) = true := by rcases h with rfl | rfl | rfl <;> decide
def tLaunchMsg : List Byte := tMsg [(0, 7), (17, 3)]
theorem test_tagged_launch : msgMalformed none tLaunchMsg = false ∧
    ((tMail (fun k => { k with slots := [{ tSlot with fabric := true }], recPool := ⟨0x10000, 128⟩ })).fire 0 0 0 true tLaunchMsg).isSome = true := by decide
theorem test_tdec_msgs : ((tRecs (tRec .waiting 1 3)).tdecAt 0 0 5).isSome = true ∧ (tRecs (tRec .waiting 1 3)).tdecAt 0 0 6 = none ∧
    ((tRecs (tRec .done 0 1)).pkg 0).rec? 5 = some (tRec .done 0 1) ∧ (tRec .done 0 1).part = 0 ∧ (tRec .done 0 1).verdict = some true := by decide
/-- The same: a collective with a dead member, a queued one, one that runs, one of which every step is complete, and an aborted one that every member has stopped. -/
def tColls (c : Coll) (tab : Table Byte := [(0, 0x80), (1, 0x81)]) : State := tWith (fun k => { k with colls := [c], cellTab := tab })
theorem test_coll_dead : ((tColls tCollOf [(0, 0x80), (1, 0xC1)]).pkg 0).coll? 7 = some tCollOf ∧ tCollOf.st ≠ .aborted ∧
    tCollOf.members.find? (fun q => ((tColls tCollOf [(0, 0x80), (1, 0xC1)]).pkg 0).dead q) = some 1 := by decide
theorem test_coll_alive : (∀ q ∈ tCollOf.members, ((tColls tCollOf).pkg 0).dead q = false) ∧ tCollOf.st = .queued ∧ tCollOf.ended = false ∧ tCollOf.page = none := by decide
theorem test_coll_over : let c := { tCollOf with st := .running, block := tMsg [(0, 4), (1, 2)], steps := 1 }
    c.steps = c.total ∧ c.cw = 0 ∧ c.st ≠ .queued ∧ { c with block := tMsg [(0, 4), (1, 2)] ++ [0, 4, 0, 0, 0, 0, 0, 0] }.cw ≠ 0 ∧
    ((tColls c).writeRecord 0 c.who none 0x400 (c.stepBase + c.steps) 0 0 c.faddr.toNat).1 = none := by decide
theorem test_coll_stopped : let c := { tCollOf with st := .aborted, block := tMsg [(0, 4), (1, 2)] }
    ((tColls c [(0, 0x80), (1, 0xC1)]).pkg 0).coll? 7 = some c ∧ (∀ q ∈ c.members, (tColls c [(0, 0x80), (1, 0xC1)]).collStopped 0 c q = true) ∧ c.cw = 0 ∧
    ((tColls c).writeRecord 0 c.who none 0x400 (c.stepBase + (tColls c).collCommon c) c.status (c.abortRank + 256 * c.cause) c.faddr.toNat).1 = none := by decide

/-! ### Events: coherence, links, host -/

/-- `CoherenceEvents`: fabric dies that are ready and that are not; a line from which a cell's copy is taken, with a live member and with none, an owner that keeps a copy
only, and a line from which nothing is; a region whose lines agree with its masks and of which no recall is out; a migration with no leaf locked, all lines of whose page are
still; a table with room, and one with a fifth member of a cell; a member silent for 2 ms; and a line of a dead owner. -/
def tTurn (e : DirEnt) (v : BitVec 128) (live : Bool := true) : State := tWith (fun k => { k with
  revoking := [3], dir := [(3 * 2 ^ 14, e)], turn := [(3, v)], cellTab := if live then k.cellTab else [], sdReady := 0xFFFFFFFF })
theorem test_fab_ready : ((tTurn ⟨0, 0, 0, .i, 0⟩ 0).pkg 0).fabReady = true ∧ ((tOne tL).pkg 0).fabReady = false := by decide
theorem test_revokes (e : DirEnt) (h : e = ⟨2, 0, 0, .s, 0⟩ ∨ e = ⟨2, 1, 0, .e, 0⟩) (live : Bool) : let k := (tTurn e (if e.st = .s then 0 else 2) live).pkg 0
    k.walks.filter (fun w => w.1 == 3 * 2 ^ 14) = [] ∧ (tfind k.txns (3 * 2 ^ 14)).isSome = false ∧ (k.dirAt (3 * 2 ^ 14)).st ≠ .p ∧
    (let v := tget (0 : BitVec 128) k.turn (3 * 2 ^ 14 * 128 / 2 ^ 21)
     let lost := e.cells &&& ~~~ (v.extractLsb' 0 64)
     let down := e.st.owned && !(v.getLsbD (64 + e.ownc) && v.getLsbD e.ownc)
     (lost ≠ 0 ∨ down = true) ∧
     (decide ((k.asks 0 (cellsOf lost) .inval ++ if down && !lost.getLsbD e.ownc then k.asks 0 [e.ownc] .clean else []) = []) = !live)) := by
  rcases h with rfl | rfl <;> cases live <;> decide +kernel
theorem test_revokes_nothing : let k := (tTurn ⟨2, 0, 0, .s, 0⟩ 2).pkg 0
    ((k.dirAt (3 * 2 ^ 14)).cells &&& ~~~ ((tget (0 : BitVec 128) k.turn (3 * 2 ^ 14 * 128 / 2 ^ 21)).extractLsb' 0 64)) = 0 ∧
    (k.dirAt (3 * 2 ^ 14)).st.owned = false := by decide
theorem test_region_done : let k := (tTurn ⟨2, 0, 0, .s, 0⟩ 2).pkg 0
    k.revoking.contains 3 = true ∧ (∀ x ∈ k.txns, x.1 * 128 / 2 ^ 21 ≠ 3) ∧
    ∀ e ∈ k.regionLines 3, k.dirAt e.1 = e.2 ∧ k.conforms e = true ∧ k.walks.filter (fun w => w.1 == e.1) = [] := by decide
theorem tfind_all (l : List Nat) (f : Nat → Nat) (v : DirEnt) (b : Nat) (h : b ∈ l) : tfind (l.map (fun a => (f a, v))) (f b) = some v := by
  induction l with
  | nil => cases h
  | cons x xs ih =>
    simp only [List.map_cons, tfind]
    split
    · rfl
    · rename_i hn
      rcases List.mem_cons.1 h with rfl | h
      · exact absurd rfl hn
      · exact ih h
def tLocked : State := tWith (fun k => { k with
  migr := [⟨0x50000, 0x60000, false, 0, [], false⟩], dir := (pageLines 0x50000).map (fun a => (llineOf a, ⟨0, 0, 0, .l, 0⟩)) })
theorem test_migr : let m : Migr := ⟨0x50000, 0x60000, false, 0, [], false⟩
    (tLocked.pkg 0).migr.find? (fun m => !m.switched && !m.locking && m.old / 65536 == 5) = some m ∧ tLocked.leafLocked m.old = false ∧
    ∀ a ∈ pageLines m.old, (tLocked.pkg 0).lineStill a = true ∧ ((tLocked.pkg 0).dirAt (llineOf a)).cells = 0 := by
  refine ⟨by decide +kernel, by decide +kernel, fun a h => ?_⟩
  have e : (tLocked.pkg 0).dirAt (llineOf a) = ⟨0, 0, 0, .l, 0⟩ := by
    unfold Package.dirAt
    have hd : (tLocked.pkg 0).dir = (pageLines 0x50000).map (fun a => (llineOf a, ⟨0, 0, 0, .l, 0⟩)) := by
      simp only [tLocked, tWith, tS, State.pkg, tget, if_true]
    rw [hd, tfind_all _ _ _ a h]
  exact ⟨by unfold Package.lineStill; rw [e]; rfl, by rw [e]⟩
theorem test_cells_four : ∀ c, c < 64 →
    (({ cellTab := [(0, 0x80), (1, 0x80), (2, 0x80), (3, 0x80)] } : Package).cellMembers c).length ≤ 4 := by decide +kernel
theorem test_cells_five : (List.range 64).find? (fun c => decide
    (4 < (({ cellTab := [(0, 0xBF), (1, 0xBF), (2, 0xBF), (3, 0xBF), (255, 0xBF)] } : Package).cellMembers c).length)) = some 63 := by decide +kernel
theorem test_walk_entry : let k := (tTurn ⟨2, 1, 0, .m, 0⟩ 0).pkg 0
    (tfind k.txns (3 * 2 ^ 14)).isSome = false ∧ (k.dirAt (3 * 2 ^ 14)).st.owned = true ∧ (k.dirAt (3 * 2 ^ 14)).ownc = 1 ∧
    (k.dirAt (3 * 2 ^ 14)).cells &&& ~~~ (cellBit 1) = 0 := by decide
/-- A schedule that connects packages 0 and 1 over link 2 in the first four slots: SVER, and for each package and slot the peer and bit 15 of link 2's entry (R345). -/
def tSched : SchedImage := ⟨1, 0, (List.range 4).map (fun j => (0, j, 2, 1)) ++ (List.range 4).map (fun j => (1, j, 2, 0))⟩
def tSchedBytes (epoch : Byte) : List (Nat × Byte) :=
  [(0, 1), (8, epoch)] ++ ((List.range 4).flatMap (fun j => [(64 + 256 * j + 4, 1), (64 + 256 * j + 5, 0x80)]) ++
    (List.range 4).flatMap (fun j => [(64 + 2048 + 256 * j + 4, 0), (64 + 2048 + 256 * j + 5, 0x80)]))
theorem test_sched_bytes : SchedImage.parse (tSchedBytes 0) = tSched := by decide +kernel
theorem test_silent : let s := { tWith (fun k => { k with sched := some tSched }) with time := 2000000 }
    (s.pkg 0).sched ≠ none ∧ (s.pkg 0).member 1 = true ∧ (s.pkg 0).dead 1 = false ∧ tget 0 (s.pkg 0).heard 1 + 2000000 ≤ s.time := by decide

/-- `LinkEvents`: a flit that has lost a feed on its way; an IDLE and a REPLAY; a flit for package 1; a replay buffer that LACK has not passed for 2 µs; a connection at the
start of a slot and its drain and guard; a link that owes a REPLAY, one with a flit to send again, and one with a new one; a feed lost with the link down, and one that the
connection uses; a re-striping with flits out; schedules. -/
theorem test_not_intact : (tFlit .heartbeat).intact 0x7 = false ∧ ({ tFlit .heartbeat with fcrc := 0 } : Flit).intact 0xF = false := by decide +kernel
theorem test_control_flits (ty : Nat) (h : ty = 0 ∨ ty = 7) : let f : Flit := ({ mkFlit 1 0 0 false .none with type := ty } : Flit).seal 0xF
    f.intact 0xF = true ∧ f.protocol 0 = none ∧ f.sequenced = false ∧ ((tWire f).pkg 0).slotNo = (tWire f).slot ∧ (((tWire f).pkg 0).link 2).wire = [f] := by
  rcases h with rfl | rfl <;> exact ⟨by decide +kernel, by decide, by decide, by decide, rfl⟩
theorem test_relayed : Claims.Arrives (tWire (tFlit .heartbeat 1)) 0 2 (tFlit .heartbeat 1) [] ∧ (tFlit .heartbeat 1).dst ≠ 0 :=
  ⟨⟨by decide, by decide, by decide, rfl, by decide +kernel, by decide, by decide, by decide⟩, by decide⟩
def tLinks (l : Link) (phase : SlotPhase) (t : Nat) : State :=
  { tWith (fun k => { k with links := [(2, l)], sched := some tSched, phase := phase, sentAt := [(1, 0)], sdReady := 0xFFFFFFFF }) with time := t }
theorem test_replay_due : let s := tLinks { conn := true, peer := 1, replay := [tFlit .heartbeat] } .open_ 2000
    ((s.pkg 0).link 2).conn = true ∧ ((s.pkg 0).link 2).replay ≠ [] ∧ ((s.pkg 0).link 2).ackAt + 2000 ≤ s.time := by decide
theorem test_connects : let s := tLinks {} .closed 8499
    s.intoSlot < 8500 ∧ tSched.peer? 0 s.slot 2 = some 1 ∧ tSched.peer? 0 s.slot 3 = none ∧ s.heartbeatDue 0 1 tSched = false ∧ ((s.pkg 0).link 2).tlive ≠ 0 := by decide
theorem test_drains : 8500 ≤ (tLinks {} .open_ 8500).intoSlot ∧ 9500 ≤ (tLinks {} .drain 9500).intoSlot := by decide
theorem test_link_live (l : Link) (h : l = { conn := true, peer := 1, dueReplay := true } ∨ l = { conn := true, peer := 1, replay := [tFlit .heartbeat], resend := 1 } ∨
    l = { conn := true, peer := 1, credits := [(6, 1)] }) : let s := tLinks l .open_ 8499
    ((s.pkg 0).link 2).live = true ∧ ((s.pkg 0).link 2).idleOnly = false ∧ (s.pkg 0).slotNo = s.slot ∧ s.intoSlot < 8500 ∧ (s.pkg 0).phase = .open_ := by
  rcases h with rfl | rfl | rfl <;> decide
def tNew : State := (tLinks { conn := true, peer := 1, credits := [(6, 1)] } .open_ 0).modPkg 0 (fun k => k.send 0 1 .heartbeat)
theorem test_new_flit : ((tNew.pkg 0).link 2).dueReplay = false ∧ ((tNew.pkg 0).link 2).resend = 0 ∧ ((tNew.pkg 0).link 2).replay.length < 2048 ∧
    (tNew.pickNew 0 2).isSome = true := by
  refine ⟨by decide, by decide, by decide, ?_⟩
  have one : (List.range 7).filter ((tNew.pkg 0).ready ((tNew.pkg 0).link 2) ((tNew.pkg 0).link 2).peer) = [6] := by decide
  unfold State.pickNew
  simp only [one]
  rw [if_neg (by decide)]
  simp only
  rw [Option.isSome_map]
  cases (tNew.choose (([] : List Nat).length + 1)).1 with
  | zero => decide
  | succ n => show ((tNew.pkg 0).queueHead ((tNew.pkg 0).link 2).peer 6).isSome = true; decide
theorem test_feeds : let l : Link := { conn := true, peer := 1, lost := [(3, 7)], replay := [tFlit .heartbeat] }
    (({} : Link).tlive &&& feedBit 3 ≠ 0) ∧ ({} : Link).conn = false ∧ l.lost = [(3, 7)] ∧ l.replay ≠ [] ∧
    (let l : Link := { conn := true, peer := 1 }
     l.tlive &&& feedBit (7 % 4) ≠ 0 ∧ l.using &&& feedBit (7 % 4) ≠ 0 ∧ l.using &&& ~~~ (feedBit (7 % 4)) ≠ 0) := by decide
theorem test_schedules : ((tLinks {} .closed 0).pkg 0).fabReady = true ∧ ((tLinks {} .closed 0).pkg 0).validSched (SchedImage.parse (tSchedBytes 0)) = true ∧
    ((tLinks {} .closed 0).pkg 0).validSched (SchedImage.parse (tSchedBytes 1)) = false ∧
    ({ schedNext := [tSched] } : Package).schedNext = [tSched] ∧ tSched.epoch ≤ (tLinks {} .closed 0).time := by decide +kernel

/-- `HostEvents`: registers of functions that are ready and that are not; the last bytes that are installed; a write that ends with its line; an access one byte beyond BAR2;
the last function; limits on both sides of 800 MHz; power 10 ms after. -/
theorem test_host_read : let s := { tOne tL with agenda := [.hostRead 0 0x1040 4] }
    s.agenda = .hostRead 0 0x1040 4 :: [] ∧ s.isStopped 0 = false ∧ ((tTurn ⟨0, 0, 0, .i, 0⟩ 0).pkg 0).readReg 0x1040 = 64 ∧ ((tOne tL).pkg 0).readReg 0x1040 = 0 := by decide
theorem test_bar2 : Quiet (tOne tL) 0 ∧ ((tOne tL).pkg 0).migr = [] ∧ (Config.installed - 16) + 16 ≤ Config.installed ∧ Config.installed ≤ 2 ^ 44 ∧
    Config.installed ≤ 2 ^ ((tOne tL).pkg 0).bar2 ∧
    (Config.installed - 16) % 128 + [(1 : Byte)].length ≤ 128 ∧ (tOne tL).watchers (lineOf (Config.installed - 16)) = [] := by
  refine ⟨⟨by decide, by decide⟩, by decide⟩
/-- The counter blocks of the last core and of the last link (R371), and of a package of which nothing is ready. -/
theorem test_counters : let k : Package := { sdReady := 0x0FFFFFFF, cores := [(383, { corr := 5, hangs := 2 ^ 56 })], links := [(127, { light := 2 ^ 24, rply := 7 })] }
    k.readReg 0x122FE0 = 5 ∧ k.readReg 0x122FFF = 1 ∧ k.readReg 0x1307F0 = 7 ∧ k.readReg 0x1307FF = 1 ∧ k.readReg 0x120000 = 0 ∧
    ({ k with sdReady := 0 } : Package).readReg 0x122FE0 = 0 := by decide
theorem test_bar2_size : (let s := { tOne tL with agenda := [.resizeBar 0 30] }
    s.agenda = .resizeBar 0 30 :: [] ∧ s.isStopped 0 = false) ∧ 2 ^ ({ bar2 := 30 } : Package).bar2 < (2 ^ 30 - 4) + [(0 : Byte), 0, 0, 0, 0].length := by decide
theorem test_function : ((tOne tL).pkg 0).sdTested.getLsbD 27 = false ∧ ((tLinks {} .closed 0).pkg 0).sdReady.getLsbD 26 = true ∧ 800 < ((tOne tL).pkg 0).clockMHz ∧
    ({ clockMHz := 800 } : Package).clockMHz ≤ 800 := by decide
theorem test_power : ((tWith (fun k => { k with freezeAt := some 0 })).pkg 0).freezeAt = some 0 ∧ 0 + 10000000 ≤ 10000000 := by decide

/-- `Attestation`: the security processor is ready, and each stage follows the one before; a request outside the list of codes. -/
theorem test_spdm : ((tLinks {} .closed 0).pkg 0).sdReady.getLsbD 27 = true ∧ ({ version := true, caps := true, algs := true } : Spdm).algs = true ∧
    offersSm (List.replicate 4 0 ++ leBytes 4 0x200 ++ leBytes 4 0x40) = true ∧ spdmCodes.contains 0x99 = false := by decide

/-! ### The machine as a whole -/

/-- `StepRuns`: a machine with an issuing entry whose code is held; one whose port is idle; one whose entry has a park due; one that is stopped; an agenda of each kind. -/
def tRun (w : Byte) : State := { tS (tTeam tL) (tPkg (tTeam tL)) ([(0x4F, w)] ++ tMem) with cur := tW }
theorem test_steps : ((tRun 0x40).isStopped 0) = false ∧ (tRun 0x40).iss? = some tU ∧ tU.blocked (tRun 0x40) = false ∧ (tS (tIdle 0x48 (some tK))).iss? = none ∧
    tU.blocked (tOne { tL with parkDue := true }) = true ∧ (tWith (fun k => { k with frozen := true })).isStopped 0 = true ∧
    ({ tOne tL with agenda := [.event (.freeze 0)] } : State).agenda = [.event (.freeze 0)] ∧ (Instr.freeze 0).isWord = false := by decide
theorem test_step_code : Code tU (tRun 0x40) 0x48 0x4000000000000000 :=
  ⟨⟨tTr, ⟨by decide, by decide, by decide, by decide⟩, ⟨by decide, by decide⟩, by decide⟩, tKept (tTeam tL) (by decide) rfl _ _⟩

/-- The same: a cycle in which port A alone holds an entry, and one in which both do; words that an error strikes, and that it does not; a line of memory that holds its
data; a package beyond the last; a step that wants a line recalled. -/
def tTwoPorts : Team := { tBoth 1 with groups := tmap (fun _ g => { g with
  portA := some ⟨0x48, { tK with last := 0x50 }⟩, portB := some ⟨0x208, ⟨0x200, 0x208, 0, 1⟩⟩ }) (tBoth 1).groups }
theorem test_cycle_one : goesOn ((tRun 0x40).issueAt tW false) = true ∧ (tRun 0x40).bothIssue tW = false := by decide
theorem test_cycle_both : let s := tS tTwoPorts (tPkg tTwoPorts) ([(0x4F, 0x40), (0x87, 0xC0), (0x20F, 0x40)] ++ tMem.drop 1)
    (match s.issueAt tW false with
      | .next s2 => s.bothIssue tW && goesOn (({ s2 with prior := some (s.threadsOf tW) } : State).issueAt tW true)
      | _ => false) = true := by decide
def tUpset : State :=
  { tS (tTeam tL) (tPkg (tTeam tL)) ([(0x49, 3), (0x4B, 0x48), (0x4C, 0x90), (0x4D, 0xA0), (0x4F, 0x40)] ++ tMem) with cur := tW, upset := some (0, .double) }
theorem test_struck : tUpset.iss? = some tU ∧ tU.blocked tUpset = false ∧ (0 ∈ tU.lanes ∧ (tU.thread tUpset 0).guard tC = true) ∧
    (∀ e ∈ [Upset.single, .double, .residue], e.strikes (.iadd tC .i32 false 9 9 (.imm 1)) ((0x4000A09048000300 : DWord).extractLsb' 52 3).toNat = true) ∧
    Upset.single.strikes (.movi tC .b32 9 1) 0 = false ∧ (Instr.iadd tC .i32 false 9 9 (.imm 1)).ctl = some tC := by decide
theorem test_struck_code : Code tU tUpset 0x48 0x4000A09048000300 :=
  ⟨⟨tTr, ⟨by decide, by decide, by decide, by decide⟩, ⟨by decide, by decide⟩, by decide⟩, tKept (tTeam tL) (by decide) rfl _ _⟩
theorem test_mem_error : homeOf (5 * 128) = 0 ∧ localOf (5 * 128) < Config.installed ∧ (tOne tL).poisoned (5 * 128) = false ∧ (tOne tL).locked (5 * 128) = false ∧
    ((tOne tL).pkg 0).avail (llineOf (5 * 128)) true = true ∧ (tOne tL).isStopped 256 = true ∧ ({ tOne tL with wants := [⟨0x80, true, 0⟩] } : State).wants ≠ [] := by
  decide

/-- `InvariantKept`: the state before and after a step. -/
theorem test_inv : State.Inv (tRun 0x40) ∧ goesOn (step (tRun 0x40)) = true := ⟨by unfold State.Inv; decide, by decide⟩

/-! ### Words of the spec and what they stand for

Each number is the word as the spec's tables give its fields: VER in bits 63:62, SW 61, KEEP 60:59, PNEG 58, PRED 57:55, OPC 54:45, DST 44:36,
SA 35:27, SB 26:18, SC 17:9 and MOD 8:0 (R81). -/

/-- SW. -/
def tZ : Ctl := ⟨false, true, 0, false, 0⟩
/-- Under a guard. -/
def tQ (p : PredIx) (neg sw : Bool := false) : Ctl := ⟨false, sw, 0, neg, p⟩

/-- R85, R86, R120: the moves, the arithmetic and the shifts. -/
def wordsInt : List (Nat × Instr) := [
  (0x6000000000000000, .nop ⟨false, true, 0, false, 0⟩),
  (0x1680000000000000, .nop ⟨true, false, 2, true, 5⟩),
  (0x41803FE150000060, .mov ⟨false, false, 0, false, 3⟩ .n64 510 42),
  (0x40004079579BDFE0, .movi tC .b32 7 0x4ABCDEF),
  (0x4000609041000300, .movhi tC 9 8 (.imm 0x8001)),
  (0x40008050301C08E0, .sel tC .b32 5 6 7 4),
  (0x4000A09047FFFD01, .iadd tC .i32 true 9 8 (.imm 0x3FFFE)),
  (0x4000C09044B000A0, .isub tC .n16x2 false 9 8 (.reg 300)),
  (0x4000E090401C00C1, .imul tC .i8x4 true 9 8 (.reg 7)),
  (0x4001008030100060, .imulh tC .n64 8 6 (.reg 4)),
  (0x40012090401C0C81, .imad tC .i16x2 true 9 8 7 6),
  (0x4001408038140820, .imadw tC .n32 8 7 5 4),
  (0x4001604040280058, .idiv tC .i64 .rd 4 8 10),
  (0x4001804040280030, .irem tC .n32 .ru 4 8 10),
  (0x4001A040400000C1, .iabs tC .i8x4 true 4 8),
  (0x4001C04040000040, .ineg tC .i64 false 4 8),
  (0x4001E040402C0020, .imin tC .n32 4 8 (.reg 11)),
  (0x4002004040000B80, .imax tC .i16x2 4 8 (.imm 5)),
  (0x400220404001FFE0, .ishl tC .b32 4 8 (.imm 255)),
  (0x4002404040080060, .ishr tC .n64 4 8 (.reg 2)),
  (0x40026040400800A0, .isar tC .n16x2 4 8 (.reg 2)),
  (0x40028040400800C0, .irot tC .i8x4 4 8 (.reg 2))]

theorem test_words_int : ∀ p ∈ wordsInt, decodeTableWord 64 p.1 = some p.2 := by decide

/-- R120, R128, R132: the bit operations, predicates and control transfers. -/
def wordsBits : List (Nat × Instr) := [
  (0x4002A040400C00E0, .and tC .b32 4 8 (.reg 3)),
  (0x4002C04044000160, .or tC .n64 4 8 (.imm 0x20000)),
  (0x4002E040400C00E0, .xor tC .b32 4 8 (.reg 3)),
  (0x40030040400000E0, .not tC .b32 4 8),
  (0x40032040400C00E0, .andn tC .b32 4 8 (.reg 3)),
  (0x4003404040100B20, .bfx tC .n32 4 8 (.imm 0x0805)),
  (0x4003604040181A60, .bfi tC .n64 4 8 6 13),
  (0x4003805040000060, .popc tC .n64 5 8),
  (0x4003A050380000E0, .clz tC .b32 5 7),
  (0x4003C050380000E0, .ctz tC .b32 5 7),
  (0x4003E04040000060, .brev tC .n64 4 8),
  (0x4004005040ECA900, .prmb tC 5 8 (.imm 0x7654)),
  (0x40042040400C0025, .lea tC .n32 5 4 8 (.reg 3)),
  (0x40044060400C0005, .isetp tC .i32 .ge 6 8 (.reg 3)),
  (0x40046060100C000E, .plop tC 0xE 6 (.pred 2) 3),
  (0x40046066400C0018, .plop tC 8 6 (.reg 200) 3),
  (0x400484D000000000, .p2g tC 77),
  (0x4004A4D0000000AA, .g2p tC 0x55 77),
  (0x4004E00FFFFFFB00, .bra tC 0x7FFFFFD),
  (0x4005022000000000, .brx tC 34),
  (0x4005222000000B00, .call tC 34 5),
  (0x6005422000000000, .ret ⟨false, true, 0, false, 0⟩ 34),
  (0x4785600000000000, .exit ⟨false, false, 0, true, 7⟩),
  (0x4005800000000000, .yield tC),
  (0x4005A22007FFFF01, .chkd tC true 34 0x3FFFF)]

theorem test_words_bits : ∀ p ∈ wordsBits, decodeTableWord 64 p.1 = some p.2 := by decide

/-- R130: the special values. -/
def wordsSread : List (Nat × Instr) := [
  (0x4004C05000000100, .sread tC 5 .lane),
  (0x4004C05000000300, .sread tC 5 .group),
  (0x4004C05000000500, .sread tC 5 .team),
  (0x4004C05000000700, .sread tC 5 .core),
  (0x4004C05000000900, .sread tC 5 .die),
  (0x4004C05000000B00, .sread tC 5 .pkg),
  (0x4004C05000000D00, .sread tC 5 .cell),
  (0x4004C06000000F00, .sread tC 6 .task),
  (0x4004C06000001100, .sread tC 6 .arg),
  (0x4004C06000001300, .sread tC 6 .clock),
  (0x4004C05000001500, .sread tC 5 .width),
  (0x4004C05000001700, .sread tC 5 .mirror)]

theorem test_words_sread : ∀ p ∈ wordsSread, decodeTableWord 64 p.1 = some p.2 := by decide

/-- R142, R148 to R151, R157: class 1. -/
def wordsVec : List (Nat × Instr) := [
  (0x4010005031FC0119, .fadd tC .f32 .rd .satf 5 6 (.imm 0x0FE00)),
  (0x40102050301C002A, .fsub tC .f16x2 .rz .sat01 5 6 (.reg 7)),
  (0x4010406040280070, .fmul tC .f64 .ru .none 6 8 (.reg 10)),
  (0x40106050301C1240, .ffma tC .bf16x2 .rne .none 5 6 7 9),
  (0x40108050301C0000, .fmin tC .f32 5 6 (.reg 7)),
  (0x4010A06043FF0160, .fmax tC .f64 6 8 (.imm 0x1FF80)),
  (0x4010C03040280066, .fsetp tC .f64 .num 3 8 (.reg 10)),
  (0x4010E05040000060, .fclass tC .f64 5 8),
  (0x4011005048000039, .frnd tC .f16x2 .rd true 5 9),
  (0x401120504028008B, .fcvt tC .e4m3 .f64 .rz 5 8 10),
  (0x4011206048000001, .fcvt tC .f32 .f16 .rne 6 9 0),
  (0x401140604800005F, .icvt tC true .bf16 .n64 .rd 6 9),
  (0x4011406048000069, .icvt tC false .f64 .n32 .rz 6 9),
  (0x4011606040240070, .fscale tC .f64 .ru 6 8 9),
  (0x4011806040007F63, .shfl tC true .xor 6 8 (.imm 63)),
  (0x4011807048140001, .shfl tC false .up 7 9 (.reg 5)),
  (0x4011B2C028000000, .vote tC .ballot 300 5),
  (0x4011A07028000002, .vote tC .any 7 5),
  (0x4011C05030000010, .gred tC .f32 .add .ru 5 6),
  (0x4011E050300000A4, .gscan tC .n32 .or .rne 5 6),
  (0x40120080301000FF, .rand tC 0xFF 8 6 4)]

theorem test_words_vec : ∀ p ∈ wordsVec, decodeTableWord 64 p.1 = some p.2 := by decide

/-- R158: class 2. -/
def wordsSfu : List (Nat × Instr) := [
  (0x4020005030000000, .frcp tC .rne 5 6),
  (0x4020205030000008, .frsq tC .rz 5 6),
  (0x4020405030000010, .fsqrt tC .ru 5 6),
  (0x40206050301C0018, .fdiv tC .rd 5 6 7),
  (0x4020805030000000, .fexp2 tC .rne 5 6),
  (0x4020A05030000008, .flog2 tC .rz 5 6),
  (0x4020C05030000010, .fsinpi tC .ru 5 6),
  (0x4020E05030000018, .fcospi tC .rd 5 6),
  (0x4021005030000000, .ftanh tC .rne 5 6)]

theorem test_words_sfu : ∀ p ∈ wordsSfu, decodeTableWord 64 p.1 = some p.2 := by decide

/-- R87, R161, R166, R169, R176: class 3. -/
def wordsMem : List (Nat × Instr) := [
  (0x4030008010008124, .ldOff tC .g .b32 true 8 2 64),
  (0x4030008010140871, .ldIdx tC .s .b128 (.acq .cell) 8 2 5),
  (0x40300080101400C8, .ldIdx tC .l .i8 .plain 8 2 5),
  (0x4030208017FFE1A8, .stOff tC .p .b64 8 2 0x3FFF0),
  (0x4030208010140612, .stIdx tC .g .n16 (some .pkg) 8 2 5),
  (0x403040801000A138, .ldeOff tC 7 8 2 80),
  (0x4030408010148050, .ldeIdx tC .s 2 8 8 2 5),
  (0x4030608010000900, .steOff tC 0 8 2 4),
  (0x40306080101490B8, .steIdx tC .p 7 9 8 2 5),
  (0x4030808010107A1B, .atom tC .g .n64 .cas (.acqRel .space) 8 2 4),
  (0x403080801010624A, .atom tC .s .n32 .exch (.rel .grp) 8 2 4),
  (0x4030A09010564000, .red tC .g .i32 .or true none 9 2 21),
  (0x4030A090100004B2, .red tC .p .f16x2 .add false (some .team) 9 2 0),
  (0x4030C00000000A10, .fence tC .all .space),
  (0x4030E18050580E03, .waitm tC .pkg 24 10 22 7),
  (0x4031000050010128, .prefOff tC .b64 10 128),
  (0x40310000500C0000, .prefIdx tC .n8 10 3),
  (0x4031202050000120, .cmntOff tC .b32 .evict 10 0),
  (0x40312010500C0030, .cmntIdx tC .b128 .wb 10 3),
  (0x4031414080000000, .rbeg tC 20 16),
  (0x4031600000000000, .rcmt tC),
  (0x4031800000000000, .rabt tC)]

theorem test_words_mem : ∀ p ∈ wordsMem, decodeTableWord 64 p.1 = some p.2 := by decide

/-- R186: class 4. -/
def wordsSyn : List (Nat × Instr) := [
  (0x4040000178000000, .nbinit tC 47),
  (0x4040200018240000, .nbarv tC 3 (.reg 9)),
  (0x4040400018000B00, .nbsync tC 3 (.imm 5)),
  (0x40406000F8240000, .bbinit tC 31 9),
  (0x4040800018800100, .bbexp tC 3 (.imm 16384)),
  (0x4040A00018240000, .bbarv tC 3 (.reg 9)),
  (0x4040C00018000000, .bbwait tC 3),
  (0x4040E06018000000, .bbtest tC 6 3),
  (0x604100A020000401, .tkreq ⟨false, true, 0, false, 0⟩ true 10 4 2),
  (0x4041206020000000, .tktry tC 6 4),
  (0x4041400020000000, .tkwait tC 4),
  (0x4041600020200000, .tkgive tC 4 8),
  (0x4041806020200000, .tkswap tC 6 4 8),
  (0x4041A00020000000, .tkaban tC 4),
  (0x4041C00020000000, .tkrel tC 4),
  (0x4041E0A020000000, .tkinfo tC 10 4),
  (0x404200A028000000, .honew tC 10 5),
  (0x4042200020000000, .hodel tC 4),
  (0x404240A02020063F, .tspawn tC 63 10 4 8 3),
  (0x4042600020000000, .tdec tC 4),
  (0x4042800028200600, .tarm tC 5 8 3),
  (0x4042A06028000000, .tdisarm tC 6 5),
  (0x4042C06020000000, .certw tC 6 4)]

theorem test_words_syn : ∀ p ∈ wordsSyn, decodeTableWord 64 p.1 = some p.2 := by decide

/-- R207, R236: class 5. -/
def wordsEng : List (Nat × Instr) := [
  (0x40500000201C1200, .wbld tC 4 7 9),
  (0x4050200040300030, .mml tC .bf16 8 12),
  (0x4050200040300008, .mml tC .page 8 12),
  (0x4050400040300E60, .mmlg tC .i8 8 12 7),
  (0x4050600040000000, .accz tC 8),
  (0x4050840040000006, .accrd tC 6 64 8),
  (0x4050A0004024145E, .accst tC .e5m2 .rd true 8 9 10),
  (0x4050C000A0000000, .cpy tC 20),
  (0x4050E000A0000000, .cpym tC 20),
  (0x40510000A0000000, .cpyx tC 20),
  (0x405120A0A0000000, .coll tC 10 20),
  (0x405140C0A0000000, .collq tC 12 20),
  (0x4051600020140E00, .vpjinit tC 4 5 7),
  (0x4051800030000000, .vpj tC 6),
  (0x4051A00080442400, .vpjmrg tC 16 17 18),
  (0x4051C00080440000, .vpjfin tC 16 17),
  (0x4051E00098000000, .vsamp tC 19),
  (0x4052000098000000, .vpjbwd tC 19),
  (0x4052200098000000, .vtopk tC 19),
  (0x4052400098000000, .vsmax tC 19)]

theorem test_words_eng : ∀ p ∈ wordsEng, decodeTableWord 64 p.1 = some p.2 := by decide

/-- R257: class 6. -/
def wordsSys : List (Nat × Instr) := [
  (0x41E00000B0000000, .trapReg ⟨false, false, 0, false, 3⟩ 22),
  (0x4060000000000F00, .trapImm tC 7),
  (0x4060200000000000, .rtt tC),
  (0x40604000B0000000, .tmaskReg tC 22),
  (0x4060400000000300, .tmaskImm tC 1),
  (0x4060628000240000, .ctlrdReg tC 40 9),
  (0x4060628000000500, .ctlrdImm tC 40 2),
  (0x4060829000240000, .ctlwrReg tC 41 9),
  (0x406082A000000300, .ctlwrImm tC 42 1),
  (0x4060A00040000000, .tlbiPage tC 8),
  (0x4060A00000000001, .tlbiAll tC),
  (0x4060C000000000A5, .bkpt tC 0xA5),
  (0x4060E00040240000, .evrec tC 8 9)]

theorem test_words_sys : ∀ p ∈ wordsSys, decodeTableWord 64 p.1 = some p.2 := by decide

/-- Words that the spec prints, from its examples and its tables of selected words. -/
def wordsPrinted : List (Nat × Instr) := [
  (0x6030008010008120, .ldOff tZ .g .b32 false 8 2 64),
  (0x4000A09040000300, .iadd tC .i32 false 9 8 (.imm 1)),
  (0x4084E00FFFFFFB00, .bra (tQ 1) 0x7FFFFFD),
  (0x4005600000000000, .exit tC),
  (0x4001604028180018, .idiv tC .i32 .rd 4 5 6),
  (0x4004C04000000100, .sread tC 4 .lane),
  (0x4005202000000B00, .call tC 2 5),
  (0x40022040200003E0, .ishl tC .b32 4 4 (.imm 1)),
  (0x401180C058002103, .shfl tC false .xor 12 11 (.imm 16)),
  (0x4011C0A040000000, .gred tC .f32 .add .rne 10 8),
  (0x6020205020000000, .frsq tZ .rne 5 4),
  (0x4010006029FC0100, .fadd tC .f32 .rne .none 6 5 (.imm 0x0FE00)),
  (0x4030A09010560000, .red tC .g .i32 .add true none 9 2 21),
  (0x604100A020000401, .tkreq tZ true 10 4 2),
  (0x4050200040300030, .mml tC .bf16 8 12),
  (0x4051A00080442400, .vpjmrg tC 16 17 18),
  (0x4060000000000F00, .trapImm tC 7),
  (0x4060606000000900, .ctlrdImm tC 6 4)]

theorem test_words_printed : ∀ p ∈ wordsPrinted, decodeTableWord 64 p.1 = some p.2 := by decide

/-- More of them; `?p3 bbexp bb0, 16384`, which the table of chapter 23 prints with the bits of OPC 0x004, is not among them (log entry 16). -/
def wordsPrinted2 : List (Nat × Instr) := [
  (0x6142008050000000, .honew (tQ 2 false true) 8 10),
  (0x6241014040000201, .tkreq (tQ 4 false true) true 20 8 1),
  (0x61C18060A0600000, .tkswap (tQ 3 false true) 6 20 24),
  (0x4040400000000B00, .nbsync tC 0 (.imm 5)),
  (0x6030014050000A21, .ldIdx tZ .g .b32 (.acq .space) 20 10 0),
  (0x6030E18050580005, .waitm tZ .space 24 10 22 0),
  (0x46E0000000000100, .trapImm (tQ 5 true) 0),
  (0x406082A000000500, .ctlwrImm tC 42 2),
  (0x603081C0F0006000, .atom tZ .g .i32 .exch .plain 28 30 0),
  (0x4030210070000A22, .stIdx tC .g .b32 (some .space) 16 14 0),
  (0x4004404180880060, .isetp tC .n64 .eq 4 48 (.reg 34)),
  (0x400420C020380020, .lea tC .n32 0 12 4 (.reg 14)),
  (0x40B0212050005160, .stOff (tQ 1) .s .b32 18 10 40),
  (0x40C0800000300000, .bbexp (tQ 1) 0 (.reg 12)),
  (0x4011C1C0C0000080, .gred tC .i32 .add .rne 28 24),
  (0x4030204000000170, .stOff tC .s .b128 4 0 0),
  (0x4051000000000000, .cpyx tC 0)]

theorem test_words_printed2 : ∀ p ∈ wordsPrinted2, decodeTableWord 64 p.1 = some p.2 := by decide

def tHdr (bbc : Nat) (w : DWord) : Option Header :=
  match decodeHeader bbc w with
  | .ok h => some h
  | .error _ => none
def tBadHdr (bbc : Nat) (w : DWord) : Option DecTrap :=
  match decodeHeader bbc w with
  | .ok _ => none
  | .error e => some e

/-- R77: headers that the spec prints. -/
theorem test_headers : tHdr 32 0xC4CA230000000000 = some ⟨1, 3, 40, true, 3, false⟩ ∧
    tHdr 32 0xC407800000000000 = some ⟨1, 0, 30, false, 0, false⟩ ∧ tHdr 32 0xC14F210000000000 = some ⟨0, 5, 60, true, 1, false⟩ ∧
    tHdr 0 0xE4C5000000000000 = some ⟨9, 3, 20, false, 0, false⟩ := by decide

/-- R96, steps 1 to 4: no header; ECLS 7; bit 0, and WBB without WBE; bb3 of three. -/
theorem test_bad_headers : tBadHdr 32 0x4000000000000000 = some ⟨true, 1⟩ ∧ tBadHdr 32 0xC1C0000000000000 = some ⟨true, 2⟩ ∧
    tBadHdr 32 0xC000000000000001 = some ⟨true, 3⟩ ∧ tBadHdr 32 0xC000010000000000 = some ⟨true, 3⟩ ∧
    tBadHdr 3 0xC4CA230000000000 = some ⟨true, 4⟩ := by decide

/-- A word that decode refuses in a clause of class `cls`, with 64 registers, two named barriers and one byte barrier. -/
def refused (cls : BitVec 4) (last : Bool) (w : DWord) : Option DecTrap :=
  match decode ⟨cls, last, 64, 2, 1⟩ w with
  | .ok _ => none
  | .error e => some e

/-- R96, steps 5 to 16: the class of the clause, whether the word ends it, the word, and the trap. In order: VER 3; VER 2; classes 7 and 0 and 6 beyond
their lists; FRSQ in a MEM clause; EXIT that is not last; I on MOV, and MOVI without it; a type, an order without a scope, a count and a special value
that are not listed; SC of MOV, and RBEG to g0; a negated p0; g64 of 64 registers, and a pair that ends at g63, which passes; an odd pair and an odd
quad; nb2 of two and bb1 of one; a selector that R265 does not list. -/
def wordsRefused : List (BitVec 4 × Bool × DWord × Option DecTrap) := [
  (0, true, 0xC000000000000000, some ⟨true, 7⟩),
  (0, true, 0x8000000000000000, some ⟨false, 1⟩),
  (7, true, 0x4070000000000000, some ⟨false, 2⟩),
  (0, true, 0x4005C00000000000, some ⟨false, 2⟩),
  (6, true, 0x4061000000000000, some ⟨false, 2⟩),
  (3, true, 0x4020205020000000, some ⟨true, 5⟩),
  (0, false, 0x4005600000000000, some ⟨true, 6⟩),
  (0, true, 0x40002050300001E0, some ⟨false, 5⟩),
  (0, true, 0x40004050300000E0, some ⟨false, 5⟩),
  (0, true, 0x4000A050301C00E0, some ⟨false, 3⟩),
  (3, true, 0x4030006010100021, some ⟨false, 3⟩),
  (5, true, 0x4050808028000007, some ⟨false, 3⟩),
  (0, true, 0x4004C05000001900, some ⟨false, 3⟩),
  (0, true, 0x40002050300002E0, some ⟨false, 4⟩),
  (3, true, 0x4031400030000000, some ⟨false, 4⟩),
  (0, true, 0x4400000000000000, some ⟨false, 6⟩),
  (0, true, 0x4000A052001C0000, some ⟨false, 7⟩),
  (0, true, 0x400023E010000060, none),
  (0, true, 0x4000205030000060, some ⟨false, 8⟩),
  (3, true, 0x4030006010100030, some ⟨false, 8⟩),
  (4, true, 0x4040000010000000, some ⟨false, 9⟩),
  (4, true, 0x4040C00008000000, some ⟨false, 9⟩),
  (6, true, 0x4060604000000D00, some ⟨false, 3⟩)]

theorem test_refusals : ∀ p ∈ wordsRefused, refused p.1 p.2.1 p.2.2.1 = p.2.2.2 := by decide

/-! ### Statements about words -/

/-- `RefusedWords`: a word for each of its clauses about words. -/
theorem test_refused_words : (Fields.unpack 0xC000000000000000).ver = 3 ∧ (Fields.unpack 0x8000000000000000).ver = 2 ∧
    (let f := Fields.unpack 0x4005C00000000000; f.ver.toNat < 2 ∧ classSize f.cls ≤ f.ix.toNat) ∧
    (let f := Fields.unpack 0x4020205020000000; f.ver.toNat < 2 ∧ f.ix.toNat < classSize f.cls ∧ f.cls ≠ 0 ∧ f.cls.setWidth 4 ≠ (3 : BitVec 4)) ∧
    (let f := Fields.unpack 0x4005600000000000; f.ver.toNat < 2 ∧ f.ix.toNat < classSize f.cls ∧ (f.cls ≠ 0 → f.cls.setWidth 4 = (3 : BitVec 4)) ∧
      mustBeLast f.cls f.ix = true) := by decide

/-- `RefusedWords`: a header for each of its clauses about headers. -/
theorem test_refused_headers : (0x4000000000000000 : DWord).toNat / 2 ^ 62 ≠ 3 ∧
    ((0xC1C0000000000000 : DWord).toNat / 2 ^ 62 = 3 ∧ 7 ≤ (0xC1C0000000000000 : DWord).toNat / 2 ^ 54 % 16) ∧
    decodeHeader 32 0xC4CA230000000000 = .ok ⟨1, 3, 40, true, 3, false⟩ := ⟨by decide, by decide, by rfl⟩

/-- `DecodeAndEncodeAgree`: an instruction of class 3 in its clause, and a word that decodes. -/
theorem test_agree : let i : Instr := .atom tC .g .n64 .cas (.acqRel .space) 8 2 4
    let k : DecCtx := ⟨3, true, 512, 48, 32⟩
    (i.isWord = true ∧ i.wf = true ∧ k.regs = 512 ∧ k.nbc = 48 ∧ k.bbc = 32 ∧ k.last = true ∧ k.ecls = i.fields.cls.setWidth 4) ∧
    decode k 0x4030808010107A1B = .ok i := ⟨by decide, by rfl⟩

/-! ### Ill-formed instructions, one for each check of `Instr.wf` -/

/-- Step 11: a type, an immediate, a format, a count or an operation that the entry does not list. -/
theorem test_ill_fields : ∀ i ∈ ([.iadd tC .b32 false 5 6 (.reg 7), .mov tC .i32 5 6, .movhi tC 5 6 (.imm 0x10000), .ishl tC .b32 5 6 (.imm 256),
    .fadd tC .f16x2 .rne .none 5 6 (.imm 0), .fcvt tC .f32 .f32 .rne 5 6 0, .shfl tC false .idx 5 6 (.imm 64), .vote tC .all 8 1,
    .gred tC .f32 .and .rne 5 6, .stOff tC .g .i8 5 6 0, .ldeIdx tC .s 6 9 8 2 5, .atom tC .l .i32 .add .plain 5 2 6, .red tC .s .i32 .add true none 5 2 6,
    .red tC .g .i32 .exch false none 5 2 0, .accrd tC 7 8 9, .tmaskImm tC 2, .ctlrdImm tC 5 6, .ctlwrImm tC 5 0x10] : List Instr),
    i.fieldsOk = false ∧ i.wf = false := by decide
/-- Step 12: an unused register that is not 0, and RBEG to g0. -/
theorem test_ill_unused : ∀ i ∈ ([.fcvt tC .f16 .bf16 .rne 5 6 7, .red tC .g .i32 .add false none 5 2 6, .rbeg tC 0 6] : List Instr),
    i.unusedOk = false ∧ i.wf = false := by decide
/-- Steps 13, 14 and 15: a negated p0; a run past g511; an odd pair, and a quad at g6. -/
theorem test_ill_operands : (Instr.nop ⟨false, false, 0, true, 0⟩).wf = false ∧ (Instr.accrd tC 6 452 9).wf = false ∧ (Instr.mov tC .n64 5 6).wf = false ∧
    (Instr.rand tC 0 6 4 2).wf = false := by decide
/-- Step 16: nb48 and bb32. -/
theorem test_ill_barriers : (Instr.nbinit tC 48).wf = false ∧ (Instr.bbwait tC 32).wf = false := by decide

/-! ### Single steps, with results worked out from the rules -/

/-- What lane 0 is after the word. -/
def tDo (i : Instr) (regs : Table Word) : Thread :=
  match exec i (tOne (tL regs)) with
  | .next s => tU.thread s 0
  | _ => {}
/-- A register after the word, and the value of a deferred result. -/
def tGet (i : Instr) (r : Reg) (regs : Table Word) : Word := (tDo i regs).reg r
def tLate (i : Instr) (regs : Table Word) : List Word := ((tDo i regs).pend.map (fun p => p.vals.map Prod.fst)).flatten

/-- R118: 2^31 − 1 + 1 wraps, and with .sat stays; i8x4 lanes 127 + 1 clamp one by one. -/
theorem test_iadd : tGet (.iadd tC .i32 false 4 5 (.imm 1)) 4 [(5, 0x7FFFFFFF)] = 0x80000000 ∧
    tGet (.iadd tC .i8x4 true 4 5 (.reg 6)) 4 [(5, 0x7F80FF01), (6, 0x01FF0101)] = 0x7F800002 := by decide
/-- R122: −2 × 3 in 64 bits; the upper half of 2^31 × 2^31. -/
theorem test_mul : tGet (.imul tC .i64 false 4 6 (.imm 3)) 5 [(6, 0xFFFFFFFE), (7, 0xFFFFFFFF)] = 0xFFFFFFFF ∧
    tGet (.imulh tC .n32 4 5 (.reg 5)) 4 [(5, 0x80000000)] = 0x40000000 := by decide
/-- The example after R123: −7 / 2 under RD is −4; and n32 7 / 2 under RU leaves 0xFFFFFFFF. -/
theorem test_div : tLate (.idiv tC .i32 .rd 4 5 6) [(5, 0xFFFFFFF9), (6, 2)] = [0xFFFFFFFC] ∧
    tLate (.irem tC .n32 .ru 4 5 6) [(5, 7), (6, 2)] = [0xFFFFFFFF] := by decide
/-- R124: amounts 32 and 255; 16-bit lanes shift apart. -/
theorem test_shift : tGet (.ishl tC .b32 4 5 (.imm 32)) 4 [(5, 1)] = 0 ∧ tGet (.isar tC .b32 4 5 (.imm 255)) 4 [(5, 0x80000000)] = 0xFFFFFFFF ∧
    tGet (.ishr tC .n16x2 4 5 (.imm 4)) 4 [(5, 0xF00FF00F)] = 0x0F000F00 := by decide
/-- R121: MOVHI keeps the low half; SEL under p0. -/
theorem test_mov : tGet (.movhi tC 4 5 (.imm 0x1234)) 4 [(5, 0xAAAA5678)] = 0x12345678 ∧ tGet (.sel tC .b32 4 5 6 0) 4 [(5, 1), (6, 2)] = 1 := by decide
/-- The example of R148: 300.0 and 500.0 as E4M3 are 0x79 and 0x7E, with OF and NX. -/
theorem test_fcvt : tGet (.fcvt tC .e4m3 .f32 .rne 6 4 5) 6 [(4, 0x43960000), (5, 0x43FA0000)] = 0x00007E79 := by decide
/-- The example of R149: −0.5 as n32 under RZ is 0, and −1.0 is 0. -/
theorem test_icvt : tGet (.icvt tC true .f32 .n32 .rz 6 4) 6 [(4, 0xBF000000)] = 0 ∧ tGet (.icvt tC true .f32 .n32 .rz 6 4) 6 [(4, 0xBF800000)] = 0 ∧
    (tDo (.icvt tC true .f32 .n32 .rz 6 4) [(4, 0xBF000000)]).fsr ≠ (tDo (.icvt tC true .f32 .n32 .rz 6 4) [(4, 0xBF800000)]).fsr := by decide
/-- The example after R158: 1 / √4 is 0.5, without NX; and 0.5 + 1.0 is 1.5. -/
theorem test_frsq : tLate (.frsq tC .rne 5 4) [(4, 0x40800000)] = [0x3F000000] ∧ tGet (.fadd tC .f32 .rne .none 6 5 (.imm 0x0FE00)) 6 [(5, 0x3F000000)] = 0x3FC00000 := by
  decide
/-- R39, R41: 1 + 2^−24 rounds to 1 under RNE and up under RU; (+0) − (+0) under RD is −0. -/
theorem test_fadd : tGet (.fadd tC .f32 .rne .none 6 4 (.reg 5)) 6 [(4, 0x3F800000), (5, 0x33800000)] = 0x3F800000 ∧
    tGet (.fadd tC .f32 .ru .none 6 4 (.reg 5)) 6 [(4, 0x3F800000), (5, 0x33800000)] = 0x3F800001 ∧ tGet (.fsub tC .f32 .rd .none 6 4 (.reg 5)) 6 [] = 0x80000000 := by decide
/-- R157: Philox4x32-10 of key (1, 2) and counter (3, 4, 0, 7), by its recurrence. -/
theorem test_rand : (tDo (.rand tC 7 8 4 6) [(4, 1), (5, 2), (6, 3), (7, 4)]).regs.drop 4 = [(8, 0xE054ED9A), (9, 0x8638D8F2), (10, 0x9076A0D0), (11, 0x5E24EA69)] := by decide
/-- R154: the tree adds lanes 0 and 1 first, so 1 + 2^24 + 1 − 2^24 in a group of sixteen, of which lane 0 alone is active, is lane 0's value; R150: its ballot. -/
theorem test_lanes : tGet (.gred tC .f32 .add .rne 10 8) 10 [(8, 0x3F800000)] = 0x3F800000 ∧ tGet (.vote tC .ballot 4 0) 4 [] = 1 := by decide
/-- R130: the width of the template's group. -/
theorem test_sread : tGet (.sread tC 4 .width) 4 [] = 16 := by decide
/-- R259, R262: TRAP delivers SOFTWARE (0x12) with its number and the next word's address, and the lane is at the template's handler, 0x80. -/
theorem test_trap : let t := tDo (.trapImm tC 7) []
    t.txCode = 0x12 ∧ t.txInfo = 7 ∧ t.txPc = 0x50 ∧ t.m = true ∧ t.pm = false ∧ t.pc = 0x80 := by decide
/-- Bytes of memory after the word, with 11 22 33 F4 at 0x40 before it. -/
def tBytes (i : Instr) (regs : Table Word) (a n : Nat) : List Byte :=
  match exec i (tS (tTeam (tL regs)) (tPkg (tTeam (tL regs))) ([(0x40, 0x11), (0x41, 0x22), (0x42, 0x33), (0x43, 0xF4)] ++ tMem)) with
  | .next s => s.mem.bytes a n
  | _ => []
def tLoad (i : Instr) (regs : Table Word) : List Word :=
  match exec i (tS (tTeam (tL regs)) (tPkg (tTeam (tL regs))) ([(0x40, 0x11), (0x41, 0x22), (0x42, 0x33), (0x43, 0xF4)] ++ tMem)) with
  | .next s => ((tU.thread s 0).pend.map (fun p => p.vals.map Prod.fst)).flatten
  | _ => []
/-- R164: the lowest byte lies lowest; a half word leaves its neighbours. -/
theorem test_store : tBytes (.stOff tC .g .b32 6 4 0x3FFFC) [(4, 0x44), (6, 0xA1B2C3D4)] 0x40 4 = [0xD4, 0xC3, 0xB2, 0xA1] ∧
    tBytes (.stOff tC .g .n16 6 4 2) [(4, 0x40), (6, 0xA1B2C3D4)] 0x40 4 = [0x11, 0x22, 0xD4, 0xC3] := by decide
/-- R164: a signed byte is extended, an unsigned half word is not; the index of the second form is signed. -/
theorem test_load : tLoad (.ldOff tC .g .i8 false 6 4 3) [(4, 0x40)] = [0xFFFFFFF4] ∧ tLoad (.ldIdx tC .g .n16 .plain 6 4 8) [(4, 0x44), (8, 0xFFFFFFFE)] = [0xF433] := by
  decide
/-- R169, R170: the old value comes back and the sum is stored; signed .min against an unsigned one. -/
theorem test_atom : tLoad (.atom tC .g .i32 .min .plain 6 4 8) [(4, 0x40), (8, 1)] = [0xF4332211] ∧
    tBytes (.atom tC .g .i32 .min .plain 6 4 8) [(4, 0x40), (8, 1)] 0x40 4 = [0x11, 0x22, 0x33, 0xF4] ∧
    tBytes (.atom tC .g .n32 .min .plain 6 4 8) [(4, 0x40), (8, 1)] 0x40 4 = [1, 0, 0, 0] ∧
    tBytes (.red tC .g .i32 .add false none 8 4 0) [(4, 0x40), (8, 0xF)] 0x40 4 = [0x20, 0x22, 0x33, 0xF4] := by decide

/-- The example of R345: the header of a relayed REQ, above its FCRC; and where the schedule's entries stand. -/
theorem test_flit_header : leNat (Flit.header
    { type := 1, ch := 0, hop := 1, dst := 5, src := 2, lseq := 0x010, lack := 0x00C, eseq := 0x42, crch := 1, crinc := 20, blen := 176, body := .none } 0) = 0x1082810080060000 * 2 ^ 64 + 0x0021152C0000 * 2 ^ 16 := by decide
theorem test_sched_entries : (SchedImage.parse [(0x1062, 0x05), (0x1063, 0x80), (0x1490, 0x05), (0x1491, 0x80), (0x2C90, 0x02), (0x2C91, 0x80), (0x12BA, 0x09),
    (0x12BB, 0x80)]).ents = [(2, 0, 17, 5), (2, 2, 61, 9), (2, 4, 40, 5), (5, 4, 40, 2)] := by decide +kernel
/-- CRC-16 with polynomial 0x1021 and initial value 0xFFFF, of the bytes of "123456789": 0x29B1 (R333). -/
theorem test_crc : crc16 [0x31, 0x32, 0x33, 0x34, 0x35, 0x36, 0x37, 0x38, 0x39] = 0x29B1 := by decide +kernel

/-- R45, R47: the spec's encoded block, 128 values of 0.5 but for −3.0 at 5 and 40.0 at 9, encoded and decoded. -/
def tI4xVals : List FVal := (List.replicate 128 (fp32.val 0x3F000000)).set 5 (fp32.val 0xC0400000) |>.set 9 (fp32.val 0x42200000)
def tI4xBytes : List Byte :=
  [0x7C, 0x02, 0x44, 0x44, 0x84, 0xDC, 0x44, 0x84, 0x7A] ++ List.replicate 59 0x44 ++ List.replicate 12 0x00
theorem test_i4x_encode : i4xEncode tI4xVals = (tI4xBytes, 0) := by decide +kernel
theorem test_i4x_decode : (i4xDecode tI4xBytes).map (List.map (fun v => (fp32.ofVal .rne v).1)) =
    some (((List.replicate 128 0x3F000000).set 5 0xC0400000).set 9 0x42200000) := by decide +kernel

end Sys2Proof.Tests
end

section
/-! What reset leaves: memory, every package and its links right after reset (R312, R319, R347, R355, R357). -/

namespace Sys2Proof.Machine

/-- Memory lists nothing right after reset (log entry 1). -/
theorem State.reset_inv : State.Inv State.reset := Mem.wf_nil

/-- No package is listed right after reset, so each reads as the one with every field at its reset value. -/
theorem State.reset_pkg (p : Nat) : State.reset.pkg p = {} := tget_nil ({} : Package) p

theorem State.team?_of_teams_nil {s : State} {p : Nat} (h : (s.pkg p).teams = []) (c : Nat) : s.team? p c = none := by
  rw [State.team?, h, tfind_nil]

/-- ctl.rtmo where no partition has set its own (R265). -/
theorem State.readSel_rtmo_of_rtmo_nil {s : State} {p : Nat} (h : (s.pkg p).rtmo = []) (part : Nat) (t : Thread) :
    s.readSel p part t .rtmo = 400 := by
  simp only [State.readSel, h, tget_nil]
  rfl

theorem Package.link_of_links_nil {k : Package} (h : k.links = []) (i : Nat) : k.link i = {} := by
  rw [Package.link, h, tget_nil]

/-- A link runs degraded unless all 16 wavelengths live in both directions (R347). -/
theorem Link.deg_eq_false_iff (l : Link) : l.deg = false ↔ l.tlive = 0xF ∧ l.rlive = 0xF := by
  simp [Link.deg]

/-- Settles O56: reset lists no package, so each one reads as the reset values of its registers, its cell table, its links and
its teams as those of empty tables. That BAR2's size is 2 TiB is log entry 93's choice. -/
theorem resetState : Obligations.ResetState := by
  unfold Obligations.ResetState
  refine ⟨State.reset_inv, rfl, fun p => ?_⟩
  have rtmo (part : Nat) (t : Thread) : State.reset.readSel p part t .rtmo = 400 :=
    State.readSel_rtmo_of_rtmo_nil (by rw [State.reset_pkg]) part t
  have team (c : Nat) : State.reset.team? p c = none := State.team?_of_teams_nil (by rw [State.reset_pkg]) c
  simp [State.reset_pkg, rtmo, team, Package.link_of_links_nil, Link.deg_eq_false_iff]

end Sys2Proof.Machine
end

section
/-! The lane operations SHFL, VOTE, GRED and GSCAN (R29 to R31, R34, R150 to R156). -/

namespace Sys2Proof.Machine

section LaneOps

variable {s : State} {u : Iss} {c : Ctl}

/-- A lane passes the checks before the word's own entry where its registers do and the word reads no operand that raises DEFERRED and
has no deferred result. -/
theorem Iss.before_of_regCheck {k : Pre} {t : Thread} (h : regCheck (u.nregs s) (k.regs u t) = none) (hf : k.reads = [])
    (hc : k.counts = false) : u.before k s t = none := by
  simp [Iss.before, h, hf, hc, Thread.flags]

/-- The law of a lane operation whose pairs agree: each active lane takes what the operation gives its visible lane (R34). -/
theorem State.laneOp_next {β : Type} [DecidableEq β] {k : Pre} {same : Thread → β} {f : Iss → Nat → Nat → State → State × LaneEnd}
    {F : Nat → Thread → Thread} (hi : Issues u s) (hr : NoRegion u s) (hk : k.force = false)
    (hb : ∀ l, u.before k s (u.thread s l) = none) (ha : ∀ l ∈ u.active c s, u.pairAgrees c l same s = true)
    (hf : ∀ l t, u.thread t l = u.thread s l → (u.thread s l).region = none →
      f u l (u.visLane s l) t = (u.setThread t l (F l (u.thread s l)), .done) ∧ (F l (u.thread s l)).region = none) :
    ∃ t, s.issue c k (fun u l s' => u.laneOp c l same s s' (f u l)) = .next t ∧ Did u c F s t := by
  apply State.issue_local hi hr hk
  intro l hl hg
  obtain ⟨a, hteam, _⟩ := State.iss?_team hi.1
  rw [Iss.thread_stamp' hi.1] at hg ⊢
  refine ⟨(OnlyGroup.stamp hteam).before k _ ▸ hb l, (hf l s rfl (hr l hl)).2, fun t ho ht => ho.bySet ?_⟩
  simp only [Iss.laneOp, ha l (List.mem_filter.2 ⟨hl, hg⟩), if_true]
  exact (hf l t ht (hr l hl)).1

/-- A register result written at a lane whose thread the earlier lanes have left alone. -/
theorem Iss.write_of_thread_eq {t : State} {l : Nat} (d : Reg) (vs : List (Word × Bool)) (fl : BitVec 5)
    (ht : u.thread t l = u.thread s l) (h : (u.thread s l).region = none) :
    u.write l d vs fl t = (u.setThread t l ((u.thread s l).wrote d vs fl), .done) ∧ ((u.thread s l).wrote d vs fl).region = none := by
  rw [← ht] at h ⊢
  exact Iss.write_noRegion l d vs fl h

/-- A predicate result set at such a lane. -/
theorem Iss.setPred_of_thread_eq {t : State} {l : Nat} (p : PredIx) (b : Bool) (ht : u.thread t l = u.thread s l)
    (h : (u.thread s l).region = none) :
    (u.setThread t l ((u.thread t l).setPred p b), LaneEnd.done) = (u.setThread t l ((u.thread s l).setPred p b), .done) ∧
      ((u.thread s l).setPred p b).region = none :=
  ⟨by rw [ht], (Thread.region_setPred _ _ _).trans h⟩

/-- A lane operation with a register result alone makes no check before its own entry. -/
theorem Iss.before_default (l : Nat) : u.before {} s (u.thread s l) = none := Iss.before_of_regCheck rfl rfl rfl

end LaneOps

/-- Settles O9: SHFL and VOTE are lane operations; what they read is of the state before the word, so no lane sees another's result. -/
theorem shuffleAndVote : Obligations.ShuffleAndVote := by
  refine ⟨fun c wide mode d a b u s hi hr hp => ?_, fun c mode d pa u s hi hr hp hd => ?_⟩
  · exact State.laneOp_next hi hr rfl Iss.before_default hp (fun l t ht h => Iss.write_of_thread_eq d _ 0 ht h)
  · refine State.laneOp_next hi hr rfl (fun l => Iss.before_of_regCheck ?_ rfl rfl) hp (fun l t ht h => ?_)
    · by_cases hm : mode = .ballot ∧ u.vis s = 64
      · simpa [hm] using hd hm.1 hm.2
      · simp [hm, regCheck]
    · cases mode with
      | ballot => exact Iss.write_of_thread_eq d _ 0 ht h
      | all => exact Iss.setPred_of_thread_eq _ _ ht h
      | any => exact Iss.setPred_of_thread_eq _ _ ht h

/-- Settles O10: GRED and GSCAN are lane operations over the leaves as they stood before the word. That a lane of GSCAN is flagged by the
sources of its own fold alone follows R94. -/
theorem reduceAndScan : Obligations.ReduceAndScan :=
  ⟨fun _ _ _ _ d _ _ _ hi hr hp =>
      State.laneOp_next hi hr rfl Iss.before_default hp (fun _ _ ht h => Iss.write_of_thread_eq d _ _ ht h),
    fun _ _ _ _ d _ _ _ hi hr hp =>
      State.laneOp_next hi hr rfl Iss.before_default hp (fun _ _ ht h => Iss.write_of_thread_eq d _ _ ht h)⟩

end Sys2Proof.Machine
end

section
/-! TSPAWN: what its lane has read makes a launch, which is refused, made, or kept waiting (R14, R202, R206, R276, R280 to R282). -/

namespace Sys2Proof.Machine

/-- The launch that TSPAWN makes of the template and the intervals that its lane has read (R202). -/
def Iss.spawned (u : Iss) (l : Nat) (tm : Team) (n : BitVec 6) (a b : DWord) (prio : Nat) (tl : Tmpl) (rs : List (Nat × Nat × Nat)) : Launch :=
  { template := a, arg := b, prio := prio, stream := tm.stream, ndep := n.toNat, part := tm.part, driver := tm.driver, tmpl := tl,
    regions := rs, parent := tm.inst, cookie := 0, result := none, page := 0, asker := some (.lane u.ctx u.group l tm.inst) }

section Spawns

variable {u : Iss} {c : Ctl} {l : Nat} {s m r : State} {tm t : Team} {n : BitVec 6} {d a b e : Reg} {tl : Tmpl}
  {rs : List (Nat × Nat × Nat)} {prio : Nat}

theorem Team.part_of_shell (h : t.shell = tm.shell) : t.part = tm.part := (congrArg Team.part h : t.shell.part = tm.shell.part)
theorem Team.driver_of_shell (h : t.shell = tm.shell) : t.driver = tm.driver :=
  (congrArg Team.driver h : t.shell.driver = tm.shell.driver)
theorem Team.prio_of_shell (h : t.shell = tm.shell) : t.prio = tm.prio := (congrArg Team.prio h : t.shell.prio = tm.shell.prio)

theorem Team.evRec_of_shell (h : t.shell = tm.shell) (g type code : Nat) (pc : DWord) (lane : Nat) (data : List Byte) :
    t.evRec g type code pc lane data = tm.evRec g type code pc lane data :=
  (congrArg (fun x => Team.evRec x g type code pc lane data) h : t.shell.evRec g type code pc lane data = tm.shell.evRec g type code pc lane data)

theorem Iss.spawned_of_shell (h : t.shell = tm.shell) (x y : DWord) :
    u.spawned l t n x y prio tl rs = u.spawned l tm n x y prio tl rs :=
  (congrArg (fun z => u.spawned l z n x y prio tl rs) h :
    u.spawned l t.shell n x y prio tl rs = u.spawned l tm.shell n x y prio tl rs)

theorem State.team?_event (m : State) (p page : Nat) (x : Rec) (q d : Nat) : (m.event p page x).team? q d = m.team? q d :=
  State.team?_modPkg _ _ _ (Package.teams_postRec _ _ _) _ _

/-- The code of a priority that TSPAWN takes fills the register alone (R202). -/
theorem spawnCode_fields {v : Word} (h : v.toNat ≤ 11 ∨ v.toNat = 15) :
    (v.extractLsb' 0 4).toNat = v.toNat ∧ v.extractLsb' 4 28 = 0 := by
  constructor
  · simp only [BitVec.extractLsb'_toNat, Nat.shiftRight_zero]
    omega
  · apply BitVec.eq_of_toNat_eq
    simp only [BitVec.extractLsb'_toNat, Nat.shiftRight_eq_div_pow, BitVec.ofNat_eq_ofNat, BitVec.toNat_ofNat]
    omega

theorem Iss.level11_none {v : Word} (h : prio = 11 → tm.prio = 11) : u.level11 tm prio v = none := by
  unfold Iss.level11
  exact if_neg fun ⟨hp, ht⟩ => ht (h hp)

theorem Iss.spawnBad_none {th : Thread} (hc : (th.reg e).toNat ≤ 11 ∨ (th.reg e).toNat = 15)
    (h11 : (th.reg e).toNat = 11 → tm.prio = 11) (hb : (th.pair b).toNat % 8 = 0) : u.spawnBad tm b e th = none := by
  obtain ⟨hlow, hhigh⟩ := spawnCode_fields hc
  have hok : ¬ (11 < (th.reg e).toNat ∧ (th.reg e).toNat ≠ 15) := by omega
  simp only [Iss.spawnBad, hlow, hhigh, ne_eq, not_true_eq_false, false_or]
  rw [if_neg hok, Iss.level11_none h11]
  simp [hb]

/-- TSPAWN at a lane that has read a template and its intervals: the launch is refused, made, or waits. -/
theorem actTspawn_read (ht : u.team m = some t) (hbad : u.spawnBad t b e (u.thread m l) = none)
    (hrd : readLaunch (u.loadVas c t l) ((u.thread m l).pair a).toNat ((u.thread m l).pair b).toNat m = (.ok (tl, rs), r))
    (hprio : (if (((u.thread m l).reg e).extractLsb' 0 4).toNat = 15 then tl.prio
      else (((u.thread m l).reg e).extractLsb' 0 4).toNat) = prio) (h11 : prio = 11 → t.prio = 11) :
    actTspawn c n d a b e u l m =
      let x := u.spawned l t n ((u.thread m l).pair a) ((u.thread m l).pair b) prio tl rs
      if tl.refused prio then
        u.defer l d [(0, false), (0, false)] 0 (r.event u.pkg (ringOf t.part t.driver)
          (t.evRec u.group 0x08 0 u.pc64 (t.visLane l) (dataAt [(56, leBytes 8 t.inst.toNat)])))
      else if (r.pkg u.pkg).launchOk u.pkg (r.pkg u.pkg).waitLaunch x then
        u.defer l d ((words2 ((r.launchNow u.pkg x).1.setWidth 64)).map (fun w => (w, false))) 0 (r.launchNow u.pkg x).2
      else ((r.modPkg u.pkg (fun k => { k with waitLaunch := k.waitLaunch ++ [x] })).modThread u.pkg u.ctx u.group l (fun t => { t with
        wait := some 0, defCount := t.defCount + 1,
        pend := t.pend ++ [⟨d.toNat, false, 2, [], false, 0, u.pc, false, t.undo, none⟩] }), .done) := by
  simp only [actTspawn, ht, hbad, hrd, hprio, Iss.level11_none h11, Iss.spawned]
  rfl

/-- A lane whose reads succeed does not wait at TSPAWN's issue. -/
theorem Iss.spawnWaits_false {k : Pre} {r0 : State} (hl : u.lanes = [l]) (ht : u.team s = some tm)
    (hrd : readLaunch (u.loadVas c tm l) ((u.thread s l).pair a).toNat ((u.thread s l).pair b).toNat s = (.ok (tl, rs), r0)) :
    u.spawnWaits c k a b e s = (s, false) := by
  have hset : u.laneSet c s = [] ∨ u.laneSet c s = [l] := by
    simp only [Iss.laneSet, Iss.active, hl, List.filter_cons, List.filter_nil]
    by_cases hg : (u.thread s l).guard c = true
    · rw [if_pos hg, List.filter_cons, List.filter_nil]
      split
      · exact .inr rfl
      · exact .inl rfl
    · rw [if_neg hg]
      exact .inl rfl
  unfold Iss.spawnWaits
  obtain h | h := hset
  · rw [h]; rfl
  · simp only [h, List.foldl_cons, List.foldl_nil, ht, hrd, ite_self]

/-- A pending result that TSPAWN leaves at its lane, outside a region. -/
theorem Iss.defer_pending (hm : u.thread m l = u.thread s l) (hr : (u.thread s l).region = none) (vs : List (Word × Bool)) :
    u.defer l d vs 0 m = (u.setThread m l (Claims.pending (u.thread s l) u d vs 0), .done) := by
  simp only [Iss.defer, hm, Thread.defer, Thread.undo_none hr, Claims.pending]

/-- THE LAW of TSPAWN: where its lane's reads succeed, the word is what its act does in the state that they leave. -/
theorem Claims.Ticket.tspawn {r0 : State} {x : Thread} (h : Claims.Ticket u c l s tm [.pair a, .pair b, .one e])
    (hd : (u.thread s l).defCount < 16) (hw : (tm.group u.group).rwCount = 0) (hf : (tm.group u.group).fails = [])
    (hr0 : Claims.Reads u c s l ((u.thread s l).pair a) ((u.thread s l).pair b) tl rs r0)
    (hact : actTspawn c n d a b e u l (u.stamp s) = (u.setThread m l x, .done)) (hk : Kept u l s m) (hx : x.region = none) :
    ∃ t, exec (.tspawn c n d a b e) s = .next t ∧ After u l u.next c.park (u.setThread m l x) t := by
  obtain ⟨⟨y, hy, hys, _⟩, hth⟩ := hk.setThread x
  have hsingle : ∀ t, u.team (u.setThread m l x) = some t → t.mirror = false := fun t ht => by
    rw [hy] at ht; obtain rfl := Option.some.inj ht; exact hys
  rw [exec_tspawn, execTspawn]
  refine ⟨_, h.issues.issueHold ?_, h.done ?_ (h.release_run h.team h.single hf hact hsingle) hy (by rw [hth]; exact hx) (Bool.or_false _)⟩
  · simp only [Iss.releaseHold_none h.team hw, Iss.spawnWaits_false h.lanes h.team (hr0.1 tm h.team), Bool.false_eq_true, if_false]
  · exact Iss.before_none _ rfl h.plain (fun _ => hd)

end Spawns

/-- Settles O26: after the lane's reads, whose state keeps every team, TSPAWN's act is the branch of its launch's answer. That the
launch's level decides a refusal is log entry 101's choice, and which templates are refused is 26's. -/
theorem spawn : Obligations.Spawn := by
  intro c n d a b e u l s tm tl rs r r0 h hd hw hf hr0 hr th code prio hcode h11 hp11 hb x
  obtain ⟨t, ht, hs, hsm, _, hl, _⟩ := h.stampTeam h.team h.single
  have hst : u.thread (u.stamp s) l = u.thread s l := h.stamped.2 l
  have hx : u.spawned l tm n ((u.thread s l).pair a) ((u.thread s l).pair b) prio tl rs = x := rfl
  have hk : Kept u l s r := (Kept.stamp h.toLone h.team h.single).sameTeams (hr.2 _ _)
  have hprio := Team.prio_of_shell hs
  have hlow := (spawnCode_fields hcode).1
  have hact := actTspawn_read (n := n) (d := d) (prio := prio) (r := r) (a := a) (b := b) (e := e) (c := c) (tl := tl) (rs := rs) (l := l) ht
    (by rw [hst]; exact Iss.spawnBad_none hcode (fun h => hprio.trans (h11 h)) hb)
    (by rw [hst]; exact hr.1 t ht) (by rw [hst, hlow]) (fun h => hprio.trans (hp11 h))
  simp only [hst, Iss.spawned_of_shell hs, hx, Team.visLane_single hsm hl, Team.evRec_of_shell hs,
    Team.part_of_shell hs, Team.driver_of_shell hs, Team.inst_of_shell hs] at hact
  refine ⟨fun hrf => ?_, fun hrf hok => ?_, fun hrf hok => ?_⟩
  · have hm : Kept u l s _ := hk.sameTeams (State.team?_event r u.pkg (ringOf tm.part tm.driver)
      (tm.evRec u.group 0x08 0 u.pc64 l (dataAt [(56, leBytes 8 tm.inst.toNat)])) _ _)
    simp only [hrf, if_true, Iss.defer_pending hm.thread h.region] at hact
    exact h.tspawn hd hw hf hr0 hact hm h.region
  · have hm : Kept u l s _ := hk.sameTeams (State.team?_launchNow r u.pkg x _ _)
    simp only [hrf, hok, if_true, Bool.false_eq_true, if_false] at hact
    rw [Iss.defer_pending hm.thread h.region] at hact
    exact h.tspawn hd hw hf hr0 hact hm h.region
  · have hm : Kept u l s _ := hk.modPkg u.pkg (fun k => { k with waitLaunch := k.waitLaunch ++ [x] }) rfl
    obtain ⟨y, hy⟩ := hm.there
    simp only [hrf, hok, Bool.false_eq_true, if_false] at hact
    rw [State.modThread_eq hy, hm.thread, Thread.undo_none h.region] at hact
    exact h.tspawn hd hw hf hr0 hact hm h.region

end Sys2Proof.Machine
end

section
/-! Lives of tasks and teams: what TEAM_DISPATCH, TASK_COMPLETE, RECORD_RETIRE and the freeing of a stopped team do where they are
enabled (R15, R18, R19, R35, R261, R279, R283 to R286). -/

namespace Sys2Proof.Machine

section Lives

variable {p ctx : Nat} {s : State} {t : Team}

theorem State.modPkg_congr {f g : Package → Package} (h : f (s.pkg p) = g (s.pkg p)) : s.modPkg p f = s.modPkg p g := by
  simp only [State.modPkg, h]

theorem State.pkg_withMem (m : State) (x : Mem) (q : Nat) : ({ m with mem := x } : State).pkg q = m.pkg q := rfl

theorem State.pkg_putRec (ix : Nat) (r : TRec) :
    (s.putRec p ix r).pkg p = { s.pkg p with records := tput (s.pkg p).records ix r } := by
  unfold State.putRec
  rw [State.pkg_withMem, State.pkg_modPkg_same]

/-- A record written leaves the clock of its package alone. -/
theorem State.cycles_putRec (ix : Nat) (r : TRec) :
    ((s.putRec p ix r).pkg p).cycles (s.putRec p ix r).clock = (s.pkg p).cycles s.clock := by
  rw [State.pkg_putRec]
  rfl

/-- A team dispatched: where nothing refuses the task's core and slots, its record and the team are as R15 and R286 say. -/
theorem exec_teamDispatch_next {core slot h ix : Nat} {r : TRec} (hpick : (s.pkg p).pickLevel = some h)
    (hhead : (s.pkg p).headOf h = some (ix, r)) (hctx : r.ctx = none) (hcore : (s.pkg p).canDispatch r core = true)
    (hslot : (s.pkg p).slotFree core slot = true) (hpair : r.tmpl.pair = true → (s.pkg p).slotFree (core + 1) slot = true)
    (hfree : tfind (s.pkg p).teams ctx = none) (hlt : ctx < 2 ^ 20) (hring : (s.pkg p).ringReady = true) :
    exec (.teamDispatch p core slot ctx) s =
      .next ((r.tmpl.coresAt core).foldl (fun s c => (s.dropL1 p c).startSlice p c r.part)
        (((s.putRec p ix { r.addCores (r.tmpl.coresAt core) with st := .running, cert := 0, ctx := some ctx, mirrorCore := none }).modPkg p
          (fun k => { k.dequeue h ix with
            teams := tput k.teams ctx (newTeam r core slot ((s.pkg p).cycles s.clock) (r.tmpl.mirror || (s.pkg p).mirrorPolicy.getLsbD r.part)) })).modPkg p
          (fun k => k.countDispatch h))) := by
  have hopen : (r.ctx.isSome || !(s.pkg p).canDispatch r core || !(s.pkg p).slotFree core slot ||
      (r.tmpl.pair && !(s.pkg p).slotFree (core + 1) slot) || (tfind (s.pkg p).teams ctx).isSome || decide (2 ^ 20 ≤ ctx) ||
      !(s.pkg p).ringReady) = false := by
    have hodd : (r.tmpl.pair && !(s.pkg p).slotFree (core + 1) slot) = false := by
      cases hp : r.tmpl.pair with
      | false => rfl
      | true => simp [hpair hp]
    simp only [hctx, hcore, hslot, hodd, hfree, hring, Nat.not_le.2 hlt, decide_false, Option.isSome_none, Bool.not_true, Bool.or_false]
  simp only [exec_teamDispatch, execTeamDispatch, hpick, hhead, hopen, Bool.false_eq_true, if_false]
  refine congrArg (fun m : State => Host.Outcome.next ((r.tmpl.coresAt core).foldl (fun s c => (s.dropL1 p c).startSlice p c r.part)
    (m.modPkg p (fun k => k.countDispatch h)))) (State.modPkg_congr ?_)
  simp only [State.cycles_putRec]

/-- A team completes whose groups have all retired, with nothing outstanding. -/
theorem exec_taskComplete_next {ix : Nat} {r : TRec} (ht : s.team? p ctx = some t) (hstop : t.stop = none)
    (hret : ∀ g, g < t.tmpl.groups → (t.group g).retired = true ∧ (t.group g).rwCount = 0) (hbusy : (s.pkg p).engineBusy ctx t = false)
    (hhold : t.cpymHold = 0) (hrec : (s.pkg p).records.find? (fun e => e.2.inst == t.inst && e.2.st != .free) = some (ix, r)) :
    exec (.taskComplete p ctx) s =
      .next ((r.succ.foldl (fun s i => s.applyDep p i)
        (((s.putRec p ix { r with st := .done, tdone := (s.pkg p).cycles s.clock, cert := 0, ctx := none }).modPkg p
          (fun k => k.dequeue r.prio ix)).freeCtx p ctx t.inst)).certify p) := by
  have hall : (List.range t.tmpl.groups).all (fun g => (t.group g).retired && (t.group g).rwCount == 0) = true := by
    simp only [List.all_eq_true, List.mem_range, Bool.and_eq_true, beq_iff_eq]
    exact hret
  simp only [exec_taskComplete, execTaskComplete, ht, hstop, hall, hbusy, hhold, hrec, Option.isSome_none, Bool.not_true, Bool.or_false,
    bne_self_eq_false, Bool.false_eq_true, if_false]

/-- A DONE record retires whose certification is final and that no CERTW names. -/
theorem exec_recordRetire_next {inst : BitVec 40} {r : TRec} (hrec : (s.pkg p).rec? inst = some r) (hdone : r.st = .done)
    (hcert : r.cert = 1 ∨ r.cert = 2) (hwait : ∀ w ∈ (s.pkg p).certWaits, w.inst ≠ inst) :
    exec (.recordRetire p inst) s =
      .next (((s.modRec p inst (fun r => { r with st := .free })).retireAt p inst).modPkg p (fun k => k.sendAll p (.retire inst))) := by
  have hnone : (s.pkg p).certWaits.any (fun w => w.inst == inst) = false := by
    simpa only [List.any_eq_false, beq_iff_eq] using hwait
  have hopen : ¬ (r.st ≠ .done ∨ (r.cert ≠ 1 ∧ r.cert ≠ 2) ∨ (s.pkg p).certWaits.any (fun w => w.inst == inst) = true) := by
    rintro (h | ⟨h1, h2⟩ | h)
    · exact h hdone
    · exact hcert.elim h1 h2
    · simp [hnone] at h
  simp only [exec_recordRetire, execRecordRetire, hrec, if_neg hopen]

/-- A stopped team whose operations have ended is freed, by the event of its stop. -/
theorem stopped_opens {x : Stop} (hstop : t.stop = some x) (hbusy : (s.pkg p).engineBusy ctx t = false) (hhold : t.cpymHold = 0) :
    ¬ (t.stop ≠ some x ∨ (s.pkg p).engineBusy ctx t = true ∨ t.cpymHold ≠ 0) := by
  simp [hstop, hbusy, hhold]

theorem exec_teamResourcesFree_next (ht : s.team? p ctx = some t) (hstop : t.stop = some .failed)
    (hbusy : (s.pkg p).engineBusy ctx t = false) (hhold : t.cpymHold = 0) :
    exec (.teamResourcesFree p ctx) s = .next ((s.modRec p t.inst (fun r => r.leave ctx)).freeStopped p ctx t) := by
  simp only [exec_teamResourcesFree, execTeamResourcesFree, ht, if_neg (stopped_opens hstop hbusy hhold)]

theorem exec_mirrorRedispatch_next {ix : Nat} (ht : s.team? p ctx = some t) (hstop : t.stop = some .mirror)
    (hbusy : (s.pkg p).engineBusy ctx t = false) (hhold : t.cpymHold = 0)
    (hrec : (((s.modRec p t.inst (fun r => r.leave ctx)).freeStopped p ctx { t with stop := some .failed }).pkg p).findRec t.inst = some ix) :
    exec (.mirrorRedispatch p ctx) s =
      .next (((s.modRec p t.inst (fun r => r.leave ctx)).freeStopped p ctx { t with stop := some .failed }).makeReady p ix) := by
  simp only [exec_mirrorRedispatch, execMirrorRedispatch, ht, if_neg (stopped_opens hstop hbusy hhold), hrec]

end Lives

/-- Settles O38: each event of a life is enabled by its clause's premises, and then does what its clause says. -/
theorem lives : Obligations.Lives :=
  ⟨fun _ _ _ _ _ _ _ _ hpick hhead hctx hcore hslot hpair hfree hlt hring =>
      exec_teamDispatch_next hpick hhead hctx hcore hslot hpair hfree hlt hring,
    fun _ _ _ _ _ _ ht hstop hret hbusy hhold hrec => exec_taskComplete_next ht hstop hret hbusy hhold hrec,
    fun _ _ _ _ hrec hdone hcert hwait => exec_recordRetire_next hrec hdone hcert hwait,
    fun _ _ _ _ ht hbusy hhold => ⟨fun hstop => exec_teamResourcesFree_next ht hstop hbusy hhold,
      fun hstop _ hrec => exec_mirrorRedispatch_next ht hstop hbusy hhold hrec⟩⟩

end Sys2Proof.Machine
end

section
/-! The frontier's picks and the start of a picked entry (R20 to R24, R80, R136), one equation per case. -/

namespace Sys2Proof.Machine

section Picks

variable {w : Where} {s : State} {t : Team}

/-- A port's clause has the class of the other's (R23). -/
theorem Group.clashes_iff (g : Group) (b : Bool) (e : Nat) :
    g.clashes b e = true ↔ ∃ o, g.port (!b) = some o ∧ o.clause.ecls = e := by
  unfold Group.clashes
  cases g.port (!b) with
  | none => simp
  | some o => simp

/-- PORT_PICK where the group may pick. -/
theorem exec_portPick_next (ht : s.team? w.pkg w.ctx = some t) (hstop : t.stop = none) (hplace : t.place ≠ none)
    (hwait : (t.group w.group).vwait = false) (hg : w.group < t.tmpl.groups) :
    exec (.portPick w) s = .next (s.pickPorts w.pkg w.ctx w.group) := by
  have hopen : (t.stop.isSome || t.place.isNone || (t.group w.group).vwait || decide (t.tmpl.groups ≤ w.group)) = false := by
    simp [hstop, Option.isSome_iff_ne_none.2 hplace, hwait, hg]
  simp only [exec_portPick, execPortPick, ht, hopen, Bool.false_eq_true, if_false]

/-- The class of what port B would take is that of port A's clause. -/
theorem Group.clashesB_iff (g : Group) (e : Option Nat) :
    (match e with | some e => g.clashes true e | none => false) = true ↔ ∃ o, g.portA = some o ∧ e = some o.clause.ecls := by
  cases e with
  | none => simp
  | some e =>
    simp only [Group.clashes_iff, Option.some.injEq]
    exact exists_congr fun o => and_congr_right fun _ => eq_comm

/-- Port B's pick is the one that R23 gives. -/
theorem State.pickB_picksB (cs : List Cand) (a : List Pc) : Claims.picksB s w cs a (s.pickB w.pkg w.ctx w.group cs a) := by
  intro t ht
  unfold State.pickB
  simp only [ht]
  refine ⟨fun hnone => by rw [hnone], fun k hk => ⟨fun hclash => ?_, fun hclear => ?_⟩⟩
  · rw [hk]
    exact if_pos ((Group.clashesB_iff _ _).2 hclash)
  · rw [hk]
    refine if_neg fun h => ?_
    obtain ⟨o, ho, he⟩ := (Group.clashesB_iff _ _).1 h
    exact hclear o ho he

/-- While port A has taken an entry, nothing is picked, and the entry begins once port B is idle. -/
theorem State.pickPorts_taken {pc : Pc} (ht : s.team? w.pkg w.ctx = some t) (hp : (t.group w.group).pickA = some pc) :
    s.pickPorts w.pkg w.ctx w.group = if (t.group w.group).portB.isSome then s
      else (s.modGroup w.pkg w.ctx w.group (fun x => { x with pickA := none })).startEntry w.pkg w.ctx w.group false pc := by
  simp only [State.pickPorts, ht, hp]

/-- While port A runs a clause, port B picks where it has become free. -/
theorem State.pickPorts_running {o : Port} (ht : s.team? w.pkg w.ctx = some t) (hp : (t.group w.group).pickA = none)
    (ho : (t.group w.group).portA = some o) :
    s.pickPorts w.pkg w.ctx w.group = if (t.group w.group).portB.isNone && (t.group w.group).bFree then
      s.pickB w.pkg w.ctx w.group (s.eligible w.pkg t w.group) [o.pc] else s := by
  simp only [State.pickPorts, ht, hp, ho]

/-- What port B does once port A's pick has started. -/
def State.thenB (s : State) (w : Where) (cs : List Cand) (k : Cand) : State :=
  match s.team? w.pkg w.ctx with
  | none => s
  | some t =>
    match (t.group w.group).portA, (t.group w.group).portB with
    | some o, none => s.pickB w.pkg w.ctx w.group cs [k.pc, o.pc]
    | _, _ => s

/-- Port A's pick, as the model finds it. -/
theorem Claims.bestA_eq : Claims.bestA s w t = firstBy (if (t.group w.group).prog == 64 then Cand.older else Cand.before)
    ((s.eligible w.pkg t w.group).filter (fun k => some k.pc != (t.group w.group).portB.map (·.pc))) := by
  unfold Claims.bestA
  by_cases h : (t.group w.group).prog = 64 <;> simp [h]

/-- An idle port A with no entry to take stays. -/
theorem State.pickPorts_none (ht : s.team? w.pkg w.ctx = some t) (hp : (t.group w.group).pickA = none) (ho : (t.group w.group).portA = none)
    (hbest : Claims.bestA s w t = none) : s.pickPorts w.pkg w.ctx w.group = s := by
  rw [Claims.bestA_eq] at hbest
  simp only [State.pickPorts, ht, hp, ho, hbest]

/-- An idle port A takes the entry that it picks, and port B's turn follows. -/
theorem State.pickPorts_some {k : Cand} (ht : s.team? w.pkg w.ctx = some t) (hp : (t.group w.group).pickA = none)
    (ho : (t.group w.group).portA = none) (hbest : Claims.bestA s w t = some k) :
    s.pickPorts w.pkg w.ctx w.group = ((Claims.counted s w (s.eligible w.pkg t w.group) k).startEntry w.pkg w.ctx w.group false k.pc).thenB w
      (s.eligible w.pkg t w.group) k := by
  rw [Claims.bestA_eq] at hbest
  simp only [State.pickPorts, ht, hp, ho, hbest]
  rfl

theorem State.thenB_busy {cs : List Cand} {k : Cand} (ht : s.team? w.pkg w.ctx = some t)
    (h : (t.group w.group).portA = none ∨ (t.group w.group).portB ≠ none) : s.thenB w cs k = s := by
  simp only [State.thenB, ht]
  split
  · rename_i hA hB
    exact absurd h (by simp [hA, hB])
  · rfl

theorem State.thenB_idle {cs : List Cand} {k : Cand} {o : Port} (ht : s.team? w.pkg w.ctx = some t)
    (hA : (t.group w.group).portA = some o) (hB : (t.group w.group).portB = none) :
    s.thenB w cs k = s.pickB w.pkg w.ctx w.group cs [k.pc, o.pc] := by
  simp only [State.thenB, ht, hA, hB]

/-- A picked entry inside its clause goes on, unless its class is the other port's. -/
theorem State.startEntry_mid {b : Bool} {pc : Pc} {k : Clause} (ht : s.team? w.pkg w.ctx = some t)
    (hk : ((t.group w.group).ent pc).mid pc = some k) :
    s.startEntry w.pkg w.ctx w.group b pc = if (t.group w.group).clashes b k.ecls then s.holdPick w.pkg w.ctx w.group b pc
      else s.modGroup w.pkg w.ctx w.group (fun x => x.setPort b (some ⟨pc, k⟩)) := by
  simp only [State.startEntry, ht, hk]

/-- A picked entry at a header without a wait: its lanes stand at the first word of the clause. -/
theorem State.startEntry_header {u : Iss} {b : Bool} {x : DWord} {h : Header} (ht : u.team s = some t)
    (hlanes : u.lanes = t.runLanes u.group u.pc)
    (hmid : ((t.group u.group).ent u.pc).mid u.pc = none) (hcode : Code u s u.pc.toNat x) (hdec : decodeHeader t.tmpl.bbc x = .ok h)
    (hwbe : h.wbe = false) (hwrs : h.wrs = true → (t.group u.group).rwCount = 0) (hecls : h.ecls ≠ 5)
    (hother : ∀ o, (t.group u.group).port (!b) = some o → o.clause.ecls ≠ h.ecls.toNat) :
    s.startEntry u.pkg u.ctx u.group b u.pc =
      (u.lanes.foldl (fun s l => s.moveLane u.pkg u.ctx u.group l (u.pc + 8) (some (clauseOf u.pc h))) (u.keeps u.pc.toNat x s)).modTeam
        u.pkg u.ctx (fun t => (t.modGroup u.group (fun g => g.setPort b (some ⟨u.pc + 8, clauseOf u.pc h⟩))).sweepEnts u.group) := by
  obtain ⟨tr, hfetch⟩ := hcode.fetch ht
  have hdie : u.die s = dieOf (t.coreOf u.group) := by simp only [Iss.die, ht]
  have hclash : (t.group u.group).clashes b (clauseOf u.pc h).ecls = false := by
    rw [Bool.eq_false_iff]
    intro hc
    obtain ⟨o, ho, he⟩ := (Group.clashes_iff _ _ _).1 hc
    exact hother o ho he
  have hw : (h.wrs && (t.group u.group).rwCount != 0) = false := by
    cases hr : h.wrs with
    | false => rfl
    | true => simp [hwrs hr]
  have he5 : ((clauseOf u.pc h).ecls == 5) = false := by
    simp only [clauseOf, beq_eq_false_iff_ne, ne_eq]
    exact fun h5 => hecls (BitVec.eq_of_toNat_eq h5)
  have ht' : s.team? u.pkg u.ctx = some t := ht
  rw [hdie] at hfetch
  simp only [State.startEntry, ht', hmid, hfetch, hdec, hclash, hw, he5, hwbe, Bool.false_and, Bool.or_false, Bool.false_eq_true, if_false,
    hlanes]

end Picks

/-- The picks of idle ports and the start of a picked entry are as R20 to R24, R80 and R136 give them. -/
theorem portPicks : Claims.PortPicks := by
  refine ⟨fun w s t ht hstop hplace hwait hg => exec_portPick_next ht hstop hplace hwait hg, fun w s t ht => ⟨fun pc hp => ?_, fun o hp ho => ?_,
    fun hp ho => ?_⟩, fun w s t b pc k ht hk => ?_, fun u s t b x h ht hl _ hmid hcode hdec hwbe hwrs he ho =>
      State.startEntry_header ht hl hmid hcode hdec hwbe hwrs he ho⟩
  · rw [State.pickPorts_taken ht hp]
    exact ⟨fun hB => if_pos (Option.isSome_iff_ne_none.2 hB), fun hB => if_neg (by simp [hB])⟩
  · rw [State.pickPorts_running ht hp ho]
    refine ⟨fun hB => if_neg ?_, fun hB hF => ?_⟩
    · rcases hB with hB | hB <;> simp [hB]
    · rw [if_pos (by simp [hB, hF])]
      exact State.pickB_picksB _ _
  · refine ⟨fun hnone => State.pickPorts_none ht hp ho hnone, fun k hk => ?_⟩
    intro m t' ht'
    have hthen : s.pickPorts w.pkg w.ctx w.group = m.thenB w (s.eligible w.pkg t w.group) k := State.pickPorts_some ht hp ho hk
    rw [hthen]
    refine ⟨fun hbusy => State.thenB_busy ht' hbusy, fun o hA hB => ?_⟩
    rw [State.thenB_idle ht' hA hB]
    exact State.pickB_picksB _ _
  · rw [State.startEntry_mid ht hk]
    simp only [Group.clashes_iff, State.holdPick]

end Sys2Proof.Machine
end

section
/-! What a lane and a group do by themselves: parks, results that return, retirement, and WAITM's timeout (R17, R18, R90, R174, R246). -/

namespace Sys2Proof.Machine

section LaneEvents

variable {w : Where} {s : State} {t : Team} {l : Nat}

/-- The one lane of an entry whose park is due, and whose results have returned, writes them. -/
theorem exec_park_next {pc : Pc} (ht : s.team? w.pkg w.ctx = some t) (hstop : t.stop = none) (hplace : t.place ≠ none)
    (hwait : (t.group w.group).vwait = false)
    (hone : (t.runLanes w.group pc).filter (fun l => (t.thread w.group l).parkDue && (t.thread w.group l).settled) = [l])
    (hset : (t.thread w.group l).settled = true) (hlog : (t.thread w.group l).parkNow.2 = none) :
    exec (.park w pc) s = .next (s.setThread w.pkg w.ctx w.group l (t.thread w.group l).parkNow.1) := by
  have hopen : ((t.group w.group).vwait || t.place.isNone) = false := by
    simp [hwait, Option.isSome_iff_ne_none.2 hplace]
  have hth : s.thread w.pkg w.ctx w.group l = t.thread w.group l := State.thread_of_team ht _ _
  have hpark : s.parkLane w.pkg w.ctx w.group l = s.setThread w.pkg w.ctx w.group l (t.thread w.group l).parkNow.1 := by
    rw [State.parkLane_none _ _ _ _ _ (by rw [hth]; exact hlog), hth]
    simp only [Thread.parked, hset, if_true]
  simp only [exec_park, execPark, ht, hopen, Bool.false_eq_true, if_false, hone, List.foldl_cons, List.foldl_nil, hstop, Option.isSome_none,
    hpark]

/-- A known result of a resident team returns. -/
theorem exec_deferredResultReturn_next {k : Nat} {r : Pend} (hr : (s.thread w.pkg w.ctx w.group l).pend[k]? = some r) (hknown : r.known = true)
    (ht : s.team? w.pkg w.ctx = some t) (hplace : t.place ≠ none) :
    exec (.deferredResultReturn w l k) s =
      .next (s.modThread w.pkg w.ctx w.group l (fun t => { t with pend := t.pend.set k { r with ready := true } })) := by
  have hopen : (r.known && ((s.team? w.pkg w.ctx).bind (·.place)).isSome) = true := by
    simp [hknown, ht, Option.isSome_iff_ne_none, hplace]
  simp only [exec_deferredResultReturn, execDeferredResultReturn, hr, hopen, if_true]

/-- A group retires that has no thread and no outstanding result left, and no suspended command. -/
theorem exec_groupRetire_next (ht : s.team? w.pkg w.ctx = some t) (hg : w.group < t.tmpl.groups) (hstop : t.stop = none)
    (hret : (t.group w.group).retired = false) (hdead : ∀ l ∈ t.lanes, (t.thread w.group l).live = false ∧ (t.thread w.group l).pend = [])
    (hsus : t.suspended w.group = none) :
    exec (.groupRetire w) s = .next (s.modGroup w.pkg w.ctx w.group (fun g => { g.idlePorts with retired := true })) := by
  have hall : t.lanes.all (fun l => !(t.thread w.group l).live && (t.thread w.group l).pend.isEmpty) = true := by
    simpa only [List.all_eq_true, Bool.and_eq_true, Bool.not_eq_true', List.isEmpty_iff] using hdead
  have hopen : w.group < t.tmpl.groups ∧ t.stop.isNone = true ∧ (!(t.group w.group).retired) = true ∧
      t.lanes.all (fun l => !(t.thread w.group l).live && (t.thread w.group l).pend.isEmpty) = true := by
    simp only [hg, hstop, hret, hall, Option.isNone_none, Bool.not_false, and_self]
  have hdiscard : s.discardSuspended w.pkg w.ctx w.group = s := by simp only [State.discardSuspended, ht, hsus]
  simp only [exec_groupRetire, execGroupRetire, ht, if_pos hopen, hdiscard]

/-- A WAITM whose timeout has expired completes with reason 2. -/
theorem exec_waitmTimeout_next {m : Monitor} {d : Nat} (ht : s.team? w.pkg w.ctx = some t) (hstop : t.stop = none) (hplace : t.place ≠ none)
    (hst : (t.thread w.group l).st = .monitor m) (hd : m.deadline = some d) (hdue : d ≤ (s.pkg w.pkg).cycles s.clock) :
    exec (.waitmTimeout w l) s = .next (s.wakeMonitor w.pkg w.ctx w.group l 2) := by
  have hopen : (t.place.isSome && t.stop.isNone && decide (d ≤ (s.pkg w.pkg).cycles s.clock)) = true := by
    simp [hstop, hdue, Option.isSome_iff_ne_none, hplace]
  simp only [exec_waitmTimeout, execWaitmTimeout, ht, hst, hd, hopen, if_true]

end LaneEvents

/-- What lanes and groups do by themselves is as R17, R18, R90 and R174 give it. -/
theorem laneEvents : Claims.LaneEvents :=
  ⟨fun _ _ _ _ _ ht hstop hplace hwait hone hset hlog => exec_park_next ht hstop hplace hwait hone hset hlog,
    fun _ _ _ _ _ hr hknown ⟨_, ht, hplace⟩ => exec_deferredResultReturn_next hr hknown ht hplace,
    fun _ _ _ ht hg hstop hret hdead hsus => exec_groupRetire_next ht hg hstop hret hdead hsus,
    fun _ _ _ _ _ _ ht hstop hplace hst hd hdue => exec_waitmTimeout_next ht hstop hplace hst hd hdue⟩

/-- Settles O39: the picks and starts of the frontier, and the events of lanes and groups. -/
theorem portAndLaneEvents : Obligations.PortAndLaneEvents := ⟨portPicks, laneEvents⟩

end Sys2Proof.Machine
end

section
/-! The step: which move it makes, and what the port of a move does (R2, R22, R81, R90, R96, R134, R354, R356). -/

namespace Sys2Proof.Machine

section Issues

variable {s : State} {u : Iss} {tm : Team} {wd : DWord}

/-- The fetch keeps a code word in the team alone. -/
theorem Iss.upset_keeps (va : Nat) : (u.keeps va wd s).upset = s.upset := (State.sameWorld_modTeam _ _ _ _).upset

/-- An idle port picks. -/
theorem State.issueStep_idle (hi : s.iss? = none) : s.issueStep = exec (.portPick s.cur) s := by
  simp only [State.issueStep, hi]

/-- An entry whose park is due parks. -/
theorem State.issueStep_blocked (hi : s.iss? = some u) (hb : u.blocked s = true) : s.issueStep = exec (.park s.cur u.pc) s := by
  simp only [State.issueStep, hi, hb, if_true]

/-- A ready entry decodes the code word that it fetches, and executes the instruction. -/
theorem State.issueStep_decoded {i : Instr} (hi : s.iss? = some u) (hb : u.blocked s = false) (ht : u.team s = some tm)
    (hw : Code u s u.pc.toNat wd) (hd : decode (u.decCtx tm) wd = .ok i) (hu : s.upset = none) :
    s.issueStep = exec i (u.keeps u.pc.toNat wd s) := by
  obtain ⟨tr, hfetch⟩ := hw.fetch ht
  simp only [State.issueStep, hi, hb, Bool.false_eq_true, if_false, ht, hfetch, hd, Iss.upset_keeps, hu]

/-- The same where an error strikes it. -/
theorem State.issueStep_struck {i : Instr} {lane : Nat} {e : Upset} (hi : s.iss? = some u) (hb : u.blocked s = false) (ht : u.team s = some tm)
    (hw : Code u s u.pc.toNat wd) (hd : decode (u.decCtx tm) wd = .ok i) (hu : s.upset = some (lane, e)) :
    s.issueStep = u.struck i (wd.extractLsb' 52 3).toNat lane e (u.keeps u.pc.toNat wd s) (exec i) := by
  obtain ⟨tr, hfetch⟩ := hw.fetch ht
  simp only [State.issueStep, hi, hb, Bool.false_eq_true, if_false, ht, hfetch, hd, Iss.upset_keeps, hu]

/-- A code word that is no instruction traps. -/
theorem State.issueStep_refused {e : DecTrap} (hi : s.iss? = some u) (hb : u.blocked s = false) (ht : u.team s = some tm)
    (hw : Code u s u.pc.toNat wd) (hd : decode (u.decCtx tm) wd = .error e) :
    s.issueStep = .next (u.decodeTrap e (u.keeps u.pc.toNat wd s)) := by
  obtain ⟨tr, hfetch⟩ := hw.fetch ht
  simp only [State.issueStep, hi, hb, Bool.false_eq_true, if_false, ht, hfetch, hd]

/-- An error strikes nothing where its lane does not issue the word, or the word has nothing that it could strike. -/
theorem Iss.struck_miss {i : Instr} {c : Ctl} {cls lane : Nat} {e : Upset} {go : State → Host.Outcome State Fault Refusal} (ht : u.team s = some tm)
    (hc : i.ctl = some c) (hmiss : ¬ (lane ∈ u.lanes ∧ (u.thread s lane).guard c = true ∧ e.strikes i cls = true)) :
    u.struck i cls lane e s go = go s := by
  have hcond : (!u.lanes.contains lane || !(u.thread s lane).guard c || !e.strikes i cls) = true := by
    cases hl : u.lanes.contains lane with
    | false => rfl
    | true =>
      cases hg : (u.thread s lane).guard c with
      | false => rfl
      | true =>
        cases hs : e.strikes i cls with
        | false => rfl
        | true => exact absurd ⟨List.contains_iff_mem.1 hl, hg, hs⟩ hmiss
  simp only [Iss.struck, ht, hc, hcond, if_true]

/-- A single-bit error is corrected and counted; any other raises CHECK. -/
theorem Iss.struck_hit {i : Instr} {c : Ctl} {cls lane : Nat} {e : Upset} {go : State → Host.Outcome State Fault Refusal} (ht : u.team s = some tm)
    (hc : i.ctl = some c) (hhit : lane ∈ u.lanes ∧ (u.thread s lane).guard c = true ∧ e.strikes i cls = true) :
    u.struck i cls lane e s go =
      if e = .single then go (s.modCore u.pkg (tm.coreOf u.group) (fun x => { x with corr := sat 64 x.corr }))
      else .next (s.trap u.pkg u.ctx u.group lane (u.bare 0x14 none)) := by
  obtain ⟨hl, hg, hs⟩ := hhit
  have hcond : (!u.lanes.contains lane || !(u.thread s lane).guard c || !e.strikes i cls) = false := by simp [hl, hg, hs]
  simp only [Iss.struck, ht, hc, hcond, Bool.false_eq_true, if_false]

end Issues

section Moves

variable {s : State} {p : Nat}

/-- The team of an entry is there after its fetch, on the same cores. -/
theorem Iss.team_keeps {u : Iss} {tm : Team} (va : Nat) (wd : DWord) (ht : u.team s = some tm) :
    ∃ t, u.team (u.keeps va wd s) = some t ∧ t.coreOf u.group = tm.coreOf u.group := by
  have h := State.team?_modTeam s u.pkg u.ctx (fun tm => { tm with icache :=
    (let kept := tget [] tm.icache va
     if kept.contains wd then tm.icache else tput tm.icache va (kept ++ [wd])) })
  rw [show s.team? u.pkg u.ctx = some tm from ht] at h
  exact ⟨_, h, rfl⟩

/-- The state from which a port issues: the move is off the agenda, a cycle of its package has passed, and the error that it brings is there. -/
def State.issuing (s : State) (ms : List Move) (e : Option (Nat × Upset)) (w : Where) (b : Bool) : State :=
  { ({ s.fresh with agenda := ms, upset := e }.modPkg w.pkg (fun k => { k with issued := k.issued + 1 })) with cur := w, curB := b }

/-- A step whose port has the move, by the agenda or because nothing is due. -/
def State.portMoves (s : State) (w : Where) (b : Bool) (ms : List Move) : Prop :=
  (s.agenda = [] ∧ ms = [] ∧ w = s.cur ∧ b = s.curB) ∨ s.agenda = .issue w b :: ms

/-- Such a step of a stopped package faults (R2, R357). -/
theorem step_stopped {w : Where} {b : Bool} {ms : List Move} (ha : s.portMoves w b ms) (h : s.isStopped w.pkg = true) :
    step s = .fault (.stopped w.pkg) := by
  rcases ha with ⟨ha, -, rfl, -⟩ | ha
  · simp only [step, ha, h, if_true]
  · simp only [step, ha]
    exact if_pos h

/-- A step of a port issues. -/
theorem step_issue {w : Where} {b : Bool} {ms : List Move} (ha : s.portMoves w b ms) (h : s.isStopped w.pkg = false) :
    step s = (s.issuing ms none w b).settle (s.issuing ms none w b).issueStep := by
  rcases ha with ⟨ha, rfl, rfl, rfl⟩ | ha
  · have hnone : s.fresh = { s.fresh with agenda := [], upset := none } := by
      simp only [State.fresh, ha]
    simp only [step, ha, h, Bool.false_eq_true, if_false, State.issuing, ← hnone]
    rfl
  · simp only [step, ha]
    exact if_neg (ne_true_of_eq_false h)

/-- A step of a port with an error that strikes a lane of it. -/
theorem step_upset {w : Where} {b : Bool} {lane : Nat} {e : Upset} {ms : List Move} (ha : s.agenda = .upset w b lane e :: ms)
    (h : s.isStopped w.pkg = false) :
    step s = (s.issuing ms (some (lane, e)) w b).settle (s.issuing ms (some (lane, e)) w b).issueStep := by
  simp only [step, ha]
  exact if_neg (ne_true_of_eq_false h)

theorem State.settle_ready {s0 t : State} (h : t.wants = []) : s0.settle (.next t) = .next t := by
  simp only [State.settle, h, List.isEmpty_nil, if_true]

theorem State.settle_unready {s0 t : State} (h : t.wants ≠ []) :
    s0.settle (.next t) = .next (t.wants.foldl (fun s w => s.openWant w) { s0 with wants := [] }) := by
  have hw : t.wants.isEmpty = false := by simpa using h
  simp only [State.settle, hw, Bool.false_eq_true, if_false]

theorem State.modPkg_modPkg (s : State) (p : Nat) (f g : Package → Package) :
    (s.modPkg p f).modPkg p g = s.modPkg p (fun k => g (f k)) := by
  simp only [State.modPkg, State.pkg_setPkg_same]
  simp only [State.setPkg, tput_tput]

/-- An error of memory at a line of the package that is in its memory. -/
theorem State.memError_poisons {line : Nat} (hhome : homeOf (line * 128) = p) (hin : localOf (line * 128) < Config.installed)
    (hpois : s.poisoned (line * 128) = false) (hlock : s.locked (line * 128) = false) (hav : (s.pkg p).avail (llineOf (line * 128)) true = true) :
    s.memError p line = s.modPkg p (fun k => (k.dropL1Line line).setDir (llineOf (line * 128)) ⟨0, 0, 0, .p, 0⟩) := by
  have hopen : ¬ (homeOf (line * 128) ≠ p ∨ Config.installed ≤ localOf (line * 128) ∨ s.poisoned (line * 128) = true ∨
      s.locked (line * 128) = true ∨ (!(s.pkg p).avail (llineOf (line * 128)) true) = true) := by
    simp [hhome, hin, hpois, hlock, hav]
  unfold State.memError
  exact (if_neg hopen).trans (by rw [State.setDir, hhome, State.modPkg_modPkg])

theorem step_memError {line : Nat} {ms : List Move} (ha : s.agenda = .memError p line :: ms) (h : s.isStopped p = false) :
    step s = { s.fresh with agenda := ms }.settle (.next ({ s.fresh with agenda := ms }.memError p line)) := by
  have h' : ({ s.fresh with agenda := ms } : State).isStopped p = false := h
  simp only [step, ha, State.move, h', Bool.false_eq_true, if_false]

theorem step_event {i : Instr} {ms : List Move} (ha : s.agenda = .event i :: ms) (hi : i.isWord = false) (h : s.isStopped (evPkg i) = false) :
    step s = { s.fresh with agenda := ms }.settle (exec i { s.fresh with agenda := ms }) := by
  have hap : ({ s.fresh with agenda := ms } : State).happens i = true := by
    have h' : ({ s.fresh with agenda := ms } : State).isStopped (evPkg i) = false := h
    simp only [State.happens, hi, h', Bool.not_false, Bool.true_or, Bool.and_self]
  simp only [step, ha, State.move, hap, if_true]

/-- Time passes. -/
theorem step_tick {c n : Nat} {ms : List Move} (ha : s.agenda = .tick c n :: ms) :
    step s = .next { s.fresh with agenda := ms, clock := s.clock + c, time := s.time + n } := by
  simp only [step, ha, State.move]
  rfl

theorem step_cycle {w : Where} {ms : List Move} (ha : s.agenda = .cycle w :: ms) (h : s.isStopped w.pkg = false) :
    step s = ({ s.fresh with agenda := ms }.modPkg w.pkg (fun k => { k with issued := k.issued + 1 })).cycle w := by
  simp only [step, ha, State.move]
  exact if_neg (ne_true_of_eq_false h)

/-- A cycle of a group in which port A alone issues, or both. -/
theorem State.cycle_alone {w : Where} {t : State} (hA : s.issueAt w false = .next t) (hone : s.bothIssue w = false) : s.cycle w = .next t := by
  simp only [State.cycle, hA, hone, Bool.not_false, if_true]

theorem State.cycle_both {w : Where} {t r : State} (hA : s.issueAt w false = .next t) (htwo : s.bothIssue w = true)
    (hB : ({ t with prior := some (s.threadsOf w) } : State).issueAt w true = .next r) : s.cycle w = .next { r with prior := none } := by
  simp only [State.cycle, hA, htwo, Bool.not_true, Bool.false_eq_true, if_false, hB]

end Moves

/-- Settles O51: the step makes the agenda's next move, or else the current port's, and each kind of move has its equation. Which numbers fault
is log entry 89's choice, that a look takes a cycle 7's, and that a step whose lines are not ready is made again 23's and 105's. -/
theorem stepRuns : Obligations.StepRuns := by
  refine ⟨fun s w b ms ha => ⟨fun h => step_stopped ha h, fun h => ?_⟩, fun s w ms ha h => ?_, fun s w b lane e ms ha h => ?_,
    fun s p line ms ha h hhome hin hpois hlock hav => ?_, fun s i ms ha hi h => step_event ha hi h, fun s c n ms ha => step_tick ha,
    fun s0 t => ⟨State.settle_ready, State.settle_unready⟩, fun s p hp => by simp [State.isStopped, hp]⟩
  · intro s1
    have hstep : step s = s1.settle s1.issueStep := step_issue ha h
    rw [hstep]
    refine ⟨fun hi => by rw [State.issueStep_idle hi], fun u hi hb => by rw [State.issueStep_blocked hi hb], fun u tm wd hi hb ht hw =>
      ⟨fun i hd => by rw [State.issueStep_decoded hi hb ht hw hd rfl], fun e hd => by rw [State.issueStep_refused hi hb ht hw hd]⟩⟩
  · intro s1 s2 hA
    rw [step_cycle ha h]
    exact ⟨fun hone => State.cycle_alone hA hone, fun htwo t hB => State.cycle_both hA htwo hB⟩
  · intro s1 u tm wd i c hi hb ht hw hd hc x hit
    have hstep : step s = s1.settle s1.issueStep := step_upset ha h
    obtain ⟨t, htx, hcore⟩ := Iss.team_keeps u.pc.toNat wd ht
    have hrun : s1.issueStep = u.struck i (wd.extractLsb' 52 3).toNat lane e x (exec i) := State.issueStep_struck hi hb ht hw hd rfl
    rw [hstep, hrun]
    refine ⟨fun hmiss => by rw [Iss.struck_miss htx hc hmiss], fun hhit he => ?_, fun hhit he => ?_⟩
    · rw [Iss.struck_hit htx hc hhit, if_pos he, hcore]
    · rw [Iss.struck_hit htx hc hhit, if_neg he]
      rfl
  · rw [step_memError ha h]
    rw [State.memError_poisons (s := { s.fresh with agenda := ms }) hhome hin hpois hlock hav]
    exact State.settle_ready rfl

end Sys2Proof.Machine
end

section
/-! Floating-point words with a fixed-latency register result (R139 to R149). -/

namespace Sys2Proof.Machine

/-- A word whose meaning is a fixed-latency register result gives it at every active lane. -/
theorem Claims.gives_of_fixed {i : Instr} {c : Ctl} {d : Reg} {os : List Opnd} (f : Thread → List Word × BitVec 5)
    (h : ∀ s, exec i s = s.fixed c d os f) :
    Claims.Gives i c (fun t => t.wrote d ((f t).1.map (fun w => (w, t.flags os))) (f t).2) := by
  intro u s hi hr
  rw [h s]
  exact State.fixed_next hi hr d os f

/-- The same of a result of a floating-point type. -/
theorem Claims.gives_of_resF {i : Instr} {c : Ctl} {d : Reg} {os : List Opnd} {ty : FTy} {r : Thread → Nat × BitVec 5}
    (h : ∀ s, exec i s = s.fixed c d os (fun t => resF ty (r t))) :
    Claims.Gives i c (fun t =>
      t.wrote d ((wordsOf ty.wide (BitVec.ofNat 64 (r t).1)).map (fun w => (w, t.flags os))) (r t).2) :=
  Claims.gives_of_fixed (fun t => resF ty (r t)) h

/-- A word of two sources, the second a register or an immediate. -/
theorem Claims.gives_of_execF2 {i : Instr} {c : Ctl} {ty : FTy} {f : Nat → Nat → Nat × BitVec 5} {d a : Reg} {b : Src}
    (h : ∀ s, exec i s = execF2 c ty f d a b s) :
    Claims.Gives i c (fun t =>
      let r := ty.map2 f (t.flt ty a) (t.srcF ty b)
      t.wrote d ((wordsOf ty.wide (BitVec.ofNat 64 r.1)).map (fun w => (w, t.flags (.sized ty.wide a :: b.opnd ty.wide)))) r.2) :=
  Claims.gives_of_resF (r := fun t => ty.map2 f (t.flt ty a) (t.srcF ty b)) h

/-- ICVT of a floating-point source (R149). -/
theorem Claims.gives_icvt_of_float (c : Ctl) (flt : FFmt) (int : CvtInt) (rm : Rm) (d a : Reg) :
    Claims.Gives (.icvt c true flt int rm d a) c (fun t =>
      let r := (flt.fmt.val (laneOf flt.fmt.bits 0 (t.val (flt == .f64) a).toNat)).toInteger rm int.w int.signed
      t.wrote d ((wordsOf int.wide (BitVec.ofInt 64 r.1)).map (fun w => (w, t.flags [.sized (flt == .f64) a]))) r.2) := by
  have h (s : State) := exec_icvt s c true flt int rm d a
  simp only [execIcvt, if_true] at h
  exact (Claims.gives_of_fixed _ h :)

/-- ICVT of an integer source (R149). -/
theorem Claims.gives_icvt_of_int (c : Ctl) (flt : FFmt) (int : CvtInt) (rm : Rm) (d a : Reg) :
    Claims.Gives (.icvt c false flt int rm d a) c (fun t =>
      let r := flt.fmt.ofInt rm (toInt int.w int.signed (t.val int.wide a).toNat)
      t.wrote d ((wordsOf (flt == .f64) (BitVec.ofNat 64 r.1)).map (fun w => (w, t.flags [.sized int.wide a]))) r.2) := by
  have h (s : State) := exec_icvt s c false flt int rm d a
  simp only [execIcvt, Bool.false_eq_true, if_false] at h
  exact (Claims.gives_of_fixed _ h :)

/-- Settles O5: each of the words is its meaning's fixed-latency result, which the law of such words gives at every active lane. -/
theorem floatResults : Obligations.FloatResults := by
  unfold Obligations.FloatResults
  exact ⟨fun c ty rm sat d a b => Claims.gives_of_execF2 (exec_fadd · c ty rm sat d a b),
    fun c ty rm sat d a b => Claims.gives_of_execF2 (exec_fsub · c ty rm sat d a b),
    fun c ty rm sat d a b => Claims.gives_of_execF2 (exec_fmul · c ty rm sat d a b),
    fun c ty rm sat d a b e => Claims.gives_of_resF (exec_ffma · c ty rm sat d a b e),
    fun c ty d a b => Claims.gives_of_execF2 (exec_fmin · c ty d a b),
    fun c ty d a b => Claims.gives_of_execF2 (exec_fmax · c ty d a b),
    fun c ty d a => Claims.gives_of_fixed (fun t => ([fclass ty (t.flt ty a)], 0)) (exec_fclass · c ty d a),
    fun c ty rm x d a => Claims.gives_of_resF (exec_frnd · c ty rm x d a),
    fun c ty rm d a b => Claims.gives_of_resF (exec_fscale · c ty rm d a b),
    fun c dst src rm d a b => Claims.gives_of_fixed (fun t => fcvtRegs dst src rm (t.val (src == .f64) a) (t.val (src == .f64) b))
      (exec_fcvt · c dst src rm d a b),
    Claims.gives_icvt_of_float, Claims.gives_icvt_of_int⟩

end Sys2Proof.Machine
end

section
/-! Element loads and stores of one lane outside mirror mode (R48, R49, R166 to R168, R382). -/

namespace Sys2Proof.Machine

/-! ### The bytes of elements -/

theorem i4xEncode_length (vs : List FVal) : (i4xEncode vs).1.length = 80 := by
  unfold i4xEncode
  split <;> simp [nibBytes]

theorem leBytes_flatMap_length (z : Nat) (f : Nat → Nat) (vs : List Nat) : (vs.flatMap (fun v => leBytes z (f v))).length = vs.length * z := by
  induction vs with
  | nil => rw [List.flatMap_nil, List.length_nil, List.length_nil, Nat.zero_mul]
  | cons v vs ih => rw [List.flatMap_cons, List.length_append, leBytes_length, ih, List.length_cons, Nat.succ_mul, Nat.add_comm]

theorem elemsStore_length (fmt : Nat) (vs : List Nat) : (elemsStore fmt vs).1.length = elemBytes fmt vs.length := by
  by_cases hf : fmt = 9
  · simp only [elemsStore, elemBytes, hf, if_true, i4xEncode_length]
  · simp only [elemsStore, elemBytes, hf, if_false, leBytes_flatMap_length]

theorem Thread.elems_length (t : Thread) (fmt n : Nat) (d : Reg) : (t.elems fmt n d).length = n := by simp [Thread.elems]

/-! ### Runs cut into lines -/

/-- A piece holds a byte at least, and lies within one line. -/
theorem State.pieces_inLine (s : State) {fuel a n : Nat} {x : Nat × Nat} (h : x ∈ s.pieces fuel a n) : 0 < x.2 ∧ x.1 % 128 + x.2 ≤ 128 := by
  induction fuel generalizing a n with
  | zero => simp [State.pieces] at h
  | succ fuel ih =>
    simp only [State.pieces] at h
    split at h
    · simp at h
    · rcases List.mem_cons.1 h with rfl | h
      · simp only [State.forward_mod]; omega
      · exact ih h

theorem State.pieces_sum_le (s : State) (fuel a n : Nat) : ((s.pieces fuel a n).map Prod.snd).sum ≤ n := by
  induction fuel generalizing a n with
  | zero => simp [State.pieces]
  | succ fuel ih =>
    simp only [State.pieces]
    split
    · simp
    · have := ih (a + min n (128 - a % 128)) (n - min n (128 - a % 128))
      simp only [List.map_cons, List.sum_cons]
      omega

/-! ### Bytes stored piece by piece at a quiet home -/

theorem Mild.modCore (s : State) (p c : Nat) (f : Core → Core) : Mild s (s.modCore p c f) := Mild.modPkg _ _ _ rfl (fun h => h) rfl rfl

theorem Claims.storedL1_mild (p core : Nat) (s : State) (ps : List (Nat × Nat)) (bs : List Byte) : Mild s (Claims.storedL1 p core s ps bs) := by
  induction ps generalizing s bs with
  | nil => exact Mild.refl s
  | cons x ps ih => exact ((Mild.modCore s p core _).trans (Mild.dropDies _ x.1)).trans (ih _ _)

/-- What a store leaves at its home: no lane sees it but in memory. -/
theorem Claims.stored_mild (p core : Nat) (s : State) (m : Mem) (ps : List (Nat × Nat)) (bs : List Byte) :
    Mild s { Claims.storedL1 p core (s.sink p core) ps bs with mem := m } :=
  (Mild.modCore s p core _).trans ((Claims.storedL1_mild p core _ ps bs).trans (Mild.withMem _ m))

/-- The L1 copies and the dies do not depend on memory. -/
theorem Claims.storedL1_withMem (p core : Nat) (s : State) (m : Mem) (ps : List (Nat × Nat)) (bs : List Byte) :
    Claims.storedL1 p core { s with mem := m } ps bs = { Claims.storedL1 p core s ps bs with mem := m } := by
  induction ps generalizing s bs with
  | nil => rfl
  | cons x ps ih => exact ih ((s.l1Store p core x.1 (bs.take x.2)).dropDies x.1) (bs.drop x.2)

/-- Bytes stored at a quiet home that nobody watches are the bytes, the core's L1 copies and the dies that drop the lines. -/
theorem Iss.storePieces_home {u : Iss} {tm : Team} {l : Nat} {ea : DWord} {ps : List (Nat × Nat)} {bs : List Byte} {s : State}
    (hq : Quiet s u.pkg) (hh : ∀ x ∈ ps, homeOf x.1 = u.pkg) (hw : ∀ x ∈ ps, Unwatched s (lineOf x.1))
    (hl : ∀ x ∈ ps, 0 < x.2 ∧ x.1 % 128 + x.2 ≤ 128) (hb : (ps.map Prod.snd).sum ≤ bs.length) :
    u.storePieces tm l ea ps bs s =
      { Claims.storedL1 u.pkg (tm.coreOf u.group) s ps bs with mem := Claims.stored s.mem ps bs } := by
  induction ps generalizing s bs with
  | nil => rfl
  | cons x ps ih =>
    obtain ⟨a, n⟩ := x
    simp only [List.forall_mem_cons] at hh hw hl
    obtain ⟨ha, hh⟩ := hh
    obtain ⟨hwa, hw⟩ := hw
    obtain ⟨⟨hn, hfit⟩, hl⟩ := hl
    simp only [List.map_cons, List.sum_cons] at hb
    have hlen : (bs.take n).length = n := by simp only [List.length_take]; omega
    have m1 : Mild s (s.l1Store u.pkg (tm.coreOf u.group) a (bs.take n)) := Mild.modCore _ _ _ _
    have hpoke := (m1.quiet _ hq).poke (bs := bs.take n) ha (m1.watch _ hwa) (by omega) (by omega)
    simp only [Iss.storePieces, ha, if_true, hpoke]
    have m2 := (m1.trans (Mild.dropDies _ a)).trans (Mild.withMem _ (s.mem.put a (bs.take n)))
    have hrest := ih (m2.quiet _ hq) hh (fun x hx => m2.watch _ (hw x hx)) hl (bs := bs.drop n) (by simp only [List.length_drop]; omega)
    refine hrest.trans ?_
    rw [Claims.storedL1_withMem]
    rfl

/-! ### Places of elements -/

section Elements

variable {u : Iss} {c : Ctl} {l : Nat} {s : State} {tm : Team} {sp : Space} {ea : Thread → DWord} {n fmt : Nat} {d : Reg} {acc : Access}
  {rm : Remote} {tr : PageTr} {ps : List (Nat × Nat)} {os : List Opnd}

/-- Where the teams are the same, so is each lane. -/
theorem Calm.thread {m r : State} (h : Calm m r) : u.thread r l = u.thread m l := by simp only [Iss.thread, State.thread, h.teams]

theorem Iss.countOp_noRegion (h : (u.thread s l).region = none) : u.countOp l ps s = s := by simp [Iss.countOp, h]

/-- A page that takes the elements decides their bytes. -/
theorem Claims.Elems.elemPage {va : DWord} (h : Claims.Elems u s tm va n d acc tr ps) : elemPage n d u s tr va = .inr (elemBytes tr.fmt n) := by
  have hfmt : (!elemFmtOk tr.fmt tr.geom || (tr.fmt == 9 && n != 128)) = false := by
    by_cases h9 : tr.fmt = 9
    · simp only [h.format, h.block h9, bne_self_eq_false, Bool.and_false, Bool.not_true, Bool.or_self]
    · simp [h.format, h9]
  have hrun : ¬ ((va.toNat - tr.va) % elemSize tr.fmt ≠ 0 ∨ tr.size < va.toNat - tr.va + elemBytes tr.fmt n) := by
    have := h.aligned
    have := h.fits
    omega
  simp only [Machine.elemPage, hfmt, h.regs, hrun, Bool.false_eq_true, if_false]

/-- An access of elements in global memory (R168). -/
theorem Iss.locate_elems (ht : u.team s = some tm) (hr : (u.thread s l).region = none)
    (h : Claims.Elems u s tm (ea (u.thread s l)) n d acc tr ps) : u.locate (elemReq .g n fmt d ea acc rm) l s = (.mem ps tr.fmt, s) := by
  have hlow : ¬ 2 ^ 57 ≤ (ea (u.thread s l)).toNat := Nat.not_le.2 h.low
  unfold Iss.locate
  simp only [elemReq, if_true, ht, Nat.mod_one, ne_eq, not_true_eq_false, if_false, hlow, h.held.translate, h.elemPage, hr, ← h.pieces,
    Bool.false_eq_true]

/-- An access of elements in one of the team's own spaces. -/
theorem Iss.locate_elems_own (ht : u.team s = some tm) (hs : sp ≠ .g)
    (ha : (ea (u.thread s l)).toNat % (if fmt = 9 then 16 else elemSize fmt) = 0)
    (hn : (ea (u.thread s l)).toNat + elemBytes fmt n ≤ tm.spaceSize sp) :
    u.locate (elemReq sp n fmt d ea acc rm) l s = (.own (ea (u.thread s l)).toNat (elemBytes fmt n), s) := by
  rw [elemReq, if_neg hs]
  exact Iss.locate_own ht hs ha hn

/-- A place where an element access is made at once: found, with nothing to wait for and nothing that its home refuses (R317, R329, R382). -/
structure ElemPlace (u : Iss) (l : Nat) (s : State) (m : MemReq) (loc : Loc) : Prop where
  found : u.locate m l s = (loc, s)
  free : ∀ c spec op, u.waitAll c m spec op [(l, loc)] s = (s, false)
  kind : (∃ ps f, loc = .mem ps f) ∨ ∃ a n, loc = .own a n
  served : ∀ va, u.unserved l va loc.parts (u.stamp s) = none
  clean : (u.stamp s).badLine u.pkg loc.parts = false

theorem Lone.quiet_stamp (h : Lone u c l s) (hq : Quiet s u.pkg) : Quiet (u.stamp s) u.pkg := hq.same h.stamped.1.sameMem

/-- A run of elements in global memory whose lines are the package's own is such a place. -/
theorem Claims.Elems.place (h : Claims.Elems u s tm (ea (u.thread s l)) n d acc tr ps) (hr : Claims.Ready3 u c l s tm os) :
    ElemPlace u l s (elemReq .g n fmt d ea acc rm) (.mem ps tr.fmt) := by
  have hq := hr.toLone.quiet_stamp h.quiet
  exact ⟨Iss.locate_elems hr.team hr.region h, fun _ _ _ => Iss.waitAll_quiet hr.team h.quiet h.home, .inl ⟨_, _, rfl⟩,
    fun va => (hq.served h.home va).1, (hq.served (l := l) h.home 0).2⟩

/-- So is a run inside one of the team's own spaces. -/
theorem ElemPlace.own (hr : Claims.Ready3 u c l s tm os) (hs : sp ≠ .g)
    (ha : (ea (u.thread s l)).toNat % (if fmt = 9 then 16 else elemSize fmt) = 0)
    (hn : (ea (u.thread s l)).toNat + elemBytes fmt n ≤ tm.spaceSize sp) :
    ElemPlace u l s (elemReq sp n fmt d ea acc rm) (.own (ea (u.thread s l)).toNat (elemBytes fmt n)) :=
  ⟨Iss.locate_elems_own hr.team hs ha hn, fun _ _ _ => Iss.waitAll_own hr.team, .inr ⟨_, _, rfl⟩, fun _ => rfl, rfl⟩

/-- A class 3 word of elements at such a place does its act there. -/
theorem ElemPlace.next {k : Pre} {m : MemReq} {x : MemAct} {loc : Loc} {r : State} (h : ElemPlace u l s m loc) (hl : Lone u c l s)
    (ht : u.team s = some tm) (hm : tm.mirror = false) (hk : u.before k s (u.thread s l) = none) (hpark : k.force = false)
    (h1 : x.first u (u.thread s l) = none) (hrel : x.rel = false) (hw : x.wait u l loc s = false)
    (hact : x.act u l loc (u.stamp s) = (r, .done)) (hr : ∃ b, u.team r = some b ∧ b.mirror = false) (hreg : (u.thread r l).region = none) :
    ∃ t, s.issueMem c k m (fun _ => false) x = .next t ∧ After u l u.next c.park r t := by
  obtain ⟨b, hb, hbm⟩ := hr
  have hteam : ∀ t, u.team r = some t → t.mirror = false := fun t h => by rw [hb] at h; obtain rfl := Option.some.inj h; exact hbm
  obtain ⟨hnext, hlane⟩ := hl.mem (skip := fun _ => false) ht hm hk rfl h1 (by simp [hrel]) h.found (h.free c _ _) hw h.kind hact hteam
  exact ⟨_, hnext, hl.done hk hlane hb hreg (by simp [hpark])⟩

/-! ### LDE -/

/-- A result deferred at the lane, in a state that has kept the teams. -/
theorem Claims.Ready3.defer_pending {m : State} (hr : Claims.Ready3 u c l s tm os) (hkeep : Keeps (u.stamp s) m) (ws : List (Word × Bool))
    (fl : BitVec 5) :
    let r := u.setThread m l (Claims.pending (u.thread s l) u d ws fl)
    u.defer l d ws fl m = (r, .done) ∧ (∃ b, u.team r = some b ∧ b.mirror = false) ∧ (u.thread r l).region = none := by
  obtain ⟨b, hb, _, hbm, _⟩ := hr.toLone.stampTeam hr.team hr.single
  have hpend : (u.thread s l).defer u.pc d.toNat false ws fl = Claims.pending (u.thread s l) u d ws fl := by
    simp only [Thread.defer, Claims.pending, Thread.undo_none hr.region]
  obtain ⟨hdef, ⟨b', hb'⟩, hreg, hmirror⟩ := hr.toAlone.load_end (d := d) (vs := ws) (fl := fl) hkeep.1
  rw [hpend] at hdef hb' hreg hmirror
  exact ⟨hdef, ⟨b', hb', hmirror b hb hbm b' hb'⟩, hreg⟩

/-- LDE at a place whose bytes are elements: they wait at the lane for its park. -/
theorem Claims.Ready3.lde {loc : Loc} {bs : List Byte} {m : State} {vs : List Nat} {fl : BitVec 5} {cn : BitVec 3} {code : BitVec 4}
    (hr : Claims.Ready3 u c l s tm os) (h : ElemPlace u l s (elemReq sp (2 ^ cn.toNat) code.toNat d ea .read .read) loc)
    (hread : u.readLoc sp l loc (u.stamp s) = (bs, m)) (hkeep : Keeps (u.stamp s) m)
    (hv : elemsLoad (loc.fmt code.toNat) (2 ^ cn.toNat) bs = some (vs, fl)) :
    ∃ t, execLde c sp cn code d ea os s = .next t ∧ After u l u.next c.park (u.setThread m l (Claims.pending (u.thread s l) u d
      ((vs.flatMap (fun v => wordsOf (loc.fmt code.toNat == 8) (BitVec.ofNat 64 v))).map (fun w => (w, false))) fl)) t := by
  have hreg : (u.thread m l).region = none := by
    have hm : u.thread m l = u.thread (u.stamp s) l := by simp only [Iss.thread, State.thread, hkeep.1]
    rw [hm, hr.toLone.stamped.2]
    exact hr.region
  obtain ⟨hdefer, hteam, hlane⟩ := hr.defer_pending (d := d) hkeep
    ((vs.flatMap (fun v => wordsOf (loc.fmt code.toNat == 8) (BitVec.ofNat 64 v))).map (fun w => (w, false))) fl
  refine h.next hr.toLone hr.team hr.single (Iss.before_none _ rfl hr.plain (fun _ => hr.room)) rfl rfl rfl rfl ?_ hteam hlane
  simp only [actLde, h.served, hread, hv, Iss.countOp_noRegion hreg, hdefer]

theorem Iss.setThread_mem (m : State) (x : Thread) : (u.setThread m l x).mem = m.mem := State.modTeam_mem _ _ _ _

/-- LDE loads its elements, whatever the form of its address. -/
theorem Claims.loadsElems_of_execLde {i : Instr} {cn : BitVec 3} {code : BitVec 4} (h : ∀ s, exec i s = execLde c sp cn code d ea os s) :
    Claims.LoadsElems i c sp (2 ^ cn.toNat) code.toNat d ea os := by
  intro u l s tm vs fl hr
  rw [h s]
  obtain ⟨b, hb, _, _, hcore, _, hspace⟩ := hr.toLone.stampTeam hr.team hr.single
  constructor
  · intro hs ha hn hv
    have hplace := ElemPlace.own (d := d) (acc := .read) (rm := .read) hr hs ha hn
    have hread : u.readLoc sp l (.own (ea (u.thread s l)).toNat (elemBytes code.toNat (2 ^ cn.toNat))) (u.stamp s) =
        ((tm.spaceMem u.group l sp).bytes (ea (u.thread s l)).toNat (elemBytes code.toNat (2 ^ cn.toNat)), u.stamp s) := by
      simp only [Iss.readLoc, hb, hspace]
    exact (hr.lde hplace hread (Keeps.refl _) hv :)
  · intro tr ps hs he hv
    subst hs
    have hplace := he.place (fmt := code.toNat) (rm := .read) hr
    have hkeep := State.loadPieces_frame (u.stamp s) u.pkg (tm.coreOf u.group) ps
    have hread : u.readLoc .g l (.mem ps tr.fmt) (u.stamp s) = (u.stamp s).loadPieces u.pkg (tm.coreOf u.group) ps := by
      simp only [Iss.readLoc, hb, hcore]
    obtain ⟨t, ht, hafter⟩ := hr.lde hplace hread hkeep hv
    have hmem : t.mem = s.mem := by
      rw [hafter.1.world.mem, Iss.setThread_mem, hkeep.2, hr.toLone.stamped.1.world.mem]
    exact ⟨t, ht, hmem, hafter⟩

/-! ### STE -/

/-- STE at a place: what the write of its bytes leaves, and the flags of the conversions in FSR. -/
theorem Claims.Ready3.ste {loc : Loc} {m : State} {bs : List Byte} {fl : BitVec 5} {cn : BitVec 3} {code : BitVec 4}
    (hr : Claims.Ready3 u c l s tm (elemRun cn code d :: os))
    (h : ElemPlace u l s (elemReq sp (2 ^ cn.toNat) code.toNat d ea .write .write) loc)
    (hplain : (u.thread s l).flags [elemOpnd (loc.fmt code.toNat) (2 ^ cn.toNat) d] = false)
    (hdata : elemsStore (loc.fmt code.toNat) ((u.thread s l).elems (loc.fmt code.toNat) (2 ^ cn.toNat) d) = (bs, fl))
    (hwrite : u.writeLoc sp l (ea (u.thread s l)) loc bs (u.stamp s) = m)
    (hm : ∃ b, u.team m = some b ∧ b.mirror = false) (hreg : (u.thread m l).region = none) :
    ∃ t, execSte c sp cn code d ea os s = .next t ∧
      After u l u.next c.park (m.modThread u.pkg u.ctx u.group l (fun th => th.raise fl)) t := by
  obtain ⟨b, hb, hbm⟩ := hm
  have hraise := State.modThread_eq (l := l) hb (fun th => th.raise fl)
  obtain ⟨o, e⟩ := Iss.setThread_only (u := u) hb l ((u.thread m l).raise fl)
  obtain ⟨b', hb', hbs⟩ := o.teamOf hb
  rw [hraise]
  refine h.next hr.toLone hr.team hr.single (Iss.before_none _ rfl hr.plain (by simp)) rfl rfl rfl rfl ?_
    ⟨b', hb', (Team.mirror_of_shell hbs).trans hbm⟩ (by rw [e, if_pos rfl]; exact hreg)
  simp only [actSte, hr.toLone.stamped.2 l, hplain, Iss.storePoison, h.clean, hdata, hwrite, hb, Team.sharers, Team.partner_single hbm,
    List.foldl_cons, List.foldl_nil, hraise, Bool.false_eq_true, if_false]

/-- A write in one of the team's own spaces is the bytes in the space, and a sink event of the core. -/
theorem Iss.writeLoc_own {m : State} {va : DWord} {k : Nat} {bs : List Byte} (hm : u.team m = some tm) :
    u.writeLoc sp l va (.own k n) bs m = (m.sink u.pkg (tm.coreOf u.group)).modTeam u.pkg u.ctx
      (fun x => x.setSpaceMem u.group l ((x.spaceMem u.group l sp).put k bs) sp) := by
  simp only [Iss.writeLoc, hm]

/-- A write at a quiet home that nobody watches. -/
theorem Iss.writeLoc_home {m : State} {va : DWord} {bs : List Byte} (hm : u.team m = some tm) (hreg : (u.thread m l).region = none)
    (hq : Quiet m u.pkg) (hh : ∀ x ∈ ps, homeOf x.1 = u.pkg) (hw : ∀ x ∈ ps, Unwatched m (lineOf x.1))
    (hl : ∀ x ∈ ps, 0 < x.2 ∧ x.1 % 128 + x.2 ≤ 128) (hb : (ps.map Prod.snd).sum ≤ bs.length) :
    u.writeLoc sp l va (.mem ps fmt) bs m =
      { Claims.storedL1 u.pkg (tm.coreOf u.group) (m.sink u.pkg (tm.coreOf u.group)) ps bs with mem := Claims.stored m.mem ps bs } := by
  have hsink : Mild m (m.sink u.pkg (tm.coreOf u.group)) := Mild.modCore _ _ _ _
  have hstore := Iss.storePieces_home (tm := tm) (l := l) (ea := va) (hsink.quiet _ hq) hh (fun x hx => hsink.watch _ (hw x hx)) hl hb
  simp only [Iss.writeLoc, hm, hstore]
  have hlane := (Claims.stored_mild u.pkg (tm.coreOf u.group) m (Claims.stored m.mem ps bs) ps bs).toCalm.thread (u := u) (l := l)
  exact Iss.countOp_noRegion ((congrArg Thread.region hlane).trans hreg)

/-- STE stores its elements, whatever the form of its address. -/
theorem Claims.storesElems_of_execSte {i : Instr} {cn : BitVec 3} {code : BitVec 4} (h : ∀ s, exec i s = execSte c sp cn code d ea os s) :
    Claims.StoresElems i c sp (2 ^ cn.toNat) code.toNat d ea (elemRun cn code d :: os) := by
  intro u l s tm hr
  rw [h s]
  obtain ⟨b, hb, _, _, hcore, _⟩ := hr.toLone.stampTeam hr.team hr.single
  have hmem := hr.toLone.stamped.1.world.mem
  have hsink := (Kept.stamp hr.toLone hr.team hr.single).sink u.pkg (tm.coreOf u.group)
  constructor
  · intro hs ha hn hplain
    have hplace := ElemPlace.own (d := d) (acc := .write) (rm := .write) hr hs ha hn
    rcases hdata : elemsStore code.toNat ((u.thread s l).elems code.toNat (2 ^ cn.toNat) d) with ⟨bs, fl⟩
    obtain ⟨b0, hb0, hbm, hwidth⟩ := hsink.team
    obtain ⟨⟨b', hb', hbm', _⟩, ⟨_, hlane⟩, hspace⟩ := State.setSpace_frame (l := l) _ hb0 hbm hwidth sp
      (fun x => x.put (ea (u.thread s l)).toNat bs)
    have hwrite := hcore ▸ Iss.writeLoc_own (l := l) (sp := sp) (va := ea (u.thread s l)) (k := (ea (u.thread s l)).toNat)
      (n := elemBytes code.toNat (2 ^ cn.toNat)) (bs := bs) hb
    obtain ⟨t, ht, hafter⟩ := hr.ste hplace hplain hdata hwrite ⟨b', hb', hbm'⟩ (by rw [hlane, hsink.thread]; exact hr.region)
    have hsame : t.mem = s.mem := by
      rw [hafter.1.world.mem, State.modThread, State.modGroup, State.modTeam_mem, hspace]
      exact hmem
    exact ⟨t, ht, hsame, hafter⟩
  · intro tr ps hs he hplain hw
    subst hs
    have hplace := he.place (fmt := code.toNat) (rm := .write) hr
    have hlen := elemsStore_length tr.fmt ((u.thread s l).elems tr.fmt (2 ^ cn.toNat) d)
    rw [Thread.elems_length] at hlen
    rcases hdata : elemsStore tr.fmt ((u.thread s l).elems tr.fmt (2 ^ cn.toNat) d) with ⟨bs, fl⟩
    rw [hdata] at hlen
    have hwrite := Iss.writeLoc_home (sp := .g) (fmt := tr.fmt) (va := ea (u.thread s l)) (ps := ps) (bs := bs) hb
      (by rw [hr.toLone.stamped.2]; exact hr.region) (hr.toLone.quiet_stamp he.quiet) he.home
      (fun x hx => (State.watchers_nil.1 (hw x hx)).stamp u) (fun x hx => s.pieces_inLine (he.pieces ▸ hx))
      (by rw [hlen, he.pieces]; exact s.pieces_sum_le _ _ _)
    rw [hcore, hmem] at hwrite
    have hkept := (Kept.stamp hr.toLone hr.team hr.single).sameTeams
      ((Claims.stored_mild u.pkg (tm.coreOf u.group) (u.stamp s) (Claims.stored s.mem ps bs) ps bs).teams u.pkg u.ctx)
    obtain ⟨b', hb', hbm', _⟩ := hkept.team
    exact (hr.ste hplace hplain hdata hwrite ⟨b', hb', hbm'⟩ (by rw [hkept.thread]; exact hr.region) :)

end Elements

/-- Settles O15: each form is LDE or STE at a place that one lane finds, the offset form always in .g, where the page gives the format.
That FP64 elements move their bits is log entry 15's reading; the mixed units of a load rest on log entries 5 and 23, a store's making at
issue on 6, and the DIES bits on 17. -/
theorem elementAccesses : Obligations.ElementAccesses :=
  ⟨⟨fun c cn d a off => Claims.loadsElems_of_execLde (code := 0) (exec_ldeOff · c cn d a off),
      fun c sp cn fmt d a b => Claims.loadsElems_of_execLde (exec_ldeIdx · c sp cn fmt d a b)⟩,
    fun c cn d a off => Claims.storesElems_of_execSte (code := 0) (exec_steOff · c cn d a off),
    fun c sp cn fmt d a b => Claims.storesElems_of_execSte (exec_steIdx · c sp cn fmt d a b)⟩

end Sys2Proof.Machine
end

section
/-! RAND (R33, R34, R157). -/

namespace Sys2Proof.Machine

theorem Team.visLane_of_shell {a b : Team} (h : b.shell = a.shell) (l : Nat) : b.visLane l = a.visLane l := by
  have hvis : b.vis = a.vis := by rw [Team.vis, Team.vis, Team.width, Team.width, Team.mirror_of_shell h, Team.tmpl_of_shell h]
  rw [Team.visLane, Team.visLane, hvis]

/-- Settles O8: RAND writes a fixed-latency result at each active lane. The lanes before it change only their own threads, so its
visible lane is that of the team as it stood before the word. -/
theorem randomWords : Obligations.RandomWords := by
  intro c stream d a b u s tm hi hr ht
  rw [exec_rand]
  apply State.issue_local hi hr rfl
  intro l hl _
  have hthread := Iss.thread_stamp' hi.1 l
  obtain ⟨a0, hteam, _⟩ := State.iss?_team hi.1
  refine ⟨Iss.before_default l, ?_, fun t ho htl => ho.bySet ?_⟩
  · rw [hthread]
    exact (Iss.write_noRegion l d _ 0 (hr l hl)).2
  · obtain ⟨tm', ht', hshell⟩ := ((OnlyGroup.stamp hteam).trans ho).teamOf ht
    simp only [ht', Team.visLane_of_shell hshell]
    rw [htl, hthread]
    exact (Iss.write_of_thread_eq d _ 0 (htl.trans hthread) (hr l hl)).1

end Sys2Proof.Machine
end

section
/-! NaN operands and results, and the choice of FMIN and FMAX (R36, R39 to R42, R143, R144, R147). -/

namespace Sys2Proof

/-! ### Codes of the binary formats of arithmetic (R36) -/

/-- A format with a sign, an exponent and a fraction that has infinities. -/
structure Fmt.Binary (f : Fmt) : Prop where
  infinite : f.e4m3 = false
  bits : f.bits = f.exp + f.frac + 1
  exp : 0 < f.exp

theorem Fmt.binary_of_mem {f : Fmt} (h : f ∈ [fp64, fp32, fp16, fpBF16]) : f.Binary := by
  simp only [List.mem_cons, List.not_mem_nil, or_false] at h
  rcases h with rfl | rfl | rfl | rfl <;> exact ⟨rfl, rfl, by decide⟩

/-- A code that, if it holds a NaN, is the canonical one (R40). -/
def Fmt.Canonical (f : Fmt) (v : Nat) : Prop := (f.val v).isNan = true → v = f.nan

theorem Fmt.canonical_nan (f : Fmt) : f.Canonical f.nan := fun _ => rfl

theorem Fmt.infCode_lt (f : Fmt) : f.infCode < 2 ^ f.exp * 2 ^ f.frac :=
  Nat.mul_lt_mul_of_pos_right (Nat.sub_lt (Nat.two_pow_pos _) Nat.one_pos) (Nat.two_pow_pos _)

section Binary

variable {f : Fmt} (hf : f.Binary)
include hf

/-- The fields of a code: the sign above the magnitude, whose fraction lies below its exponent. -/
theorem Fmt.Binary.fields (neg : Bool) {c : Nat} (h : c < 2 ^ f.exp * 2 ^ f.frac) :
    ((f.sign neg + c) / 2 ^ (f.bits - 1) % 2 == 1) = neg ∧ (f.sign neg + c) / 2 ^ f.frac % 2 ^ f.exp = c / 2 ^ f.frac ∧
      (f.sign neg + c) % 2 ^ f.frac = c % 2 ^ f.frac := by
  have hw : 2 ^ (f.bits - 1) = 2 ^ f.frac * 2 ^ f.exp := by rw [hf.bits, Nat.add_sub_cancel, Nat.add_comm, Nat.pow_add]
  have hs : f.sign neg + c = 2 ^ f.frac * (2 ^ f.exp * neg.toNat) + c := by
    cases neg with
    | false => rw [Fmt.sign, if_neg Bool.false_ne_true, Bool.toNat_false, Nat.mul_zero, Nat.mul_zero]
    | true => rw [Fmt.sign, if_pos rfl, hw, Bool.toNat_true, Nat.mul_one]
  have hfrac : 0 < 2 ^ f.frac := Nat.two_pow_pos _
  have he : c / 2 ^ f.frac < 2 ^ f.exp := Nat.div_lt_of_lt_mul (Nat.mul_comm _ _ ▸ h)
  have hd : (f.sign neg + c) / 2 ^ f.frac = 2 ^ f.exp * neg.toNat + c / 2 ^ f.frac := by rw [hs, Nat.mul_add_div hfrac]
  refine ⟨?_, ?_, ?_⟩
  · rw [hw, ← Nat.div_div_eq_div_mul, hd, Nat.mul_add_div (Nat.two_pow_pos _), Nat.div_eq_of_lt he]
    cases neg <;> rfl
  · rw [hd, Nat.mul_add_mod, Nat.mod_eq_of_lt he]
  · rw [hs, Nat.mul_add_mod]

theorem Fmt.Binary.infCode_pos : 0 < f.infCode :=
  Nat.mul_pos (Nat.sub_pos_of_lt (Nat.one_lt_two_pow (Nat.ne_of_gt hf.exp))) (Nat.two_pow_pos _)

/-- Below the code of the infinity lie the finite values. -/
theorem Fmt.Binary.val_of_lt (neg : Bool) {c : Nat} (h : c < f.infCode) :
    f.val (f.sign neg + c) = if c / 2 ^ f.frac = 0 then .fin neg (c % 2 ^ f.frac) f.qmin
      else .fin neg (c % 2 ^ f.frac + 2 ^ f.frac) (f.qmin + (c / 2 ^ f.frac : Nat) - 1) := by
  obtain ⟨hs, he, hm⟩ := hf.fields neg (Nat.lt_trans h f.infCode_lt)
  have hlow : c / 2 ^ f.frac ≠ 2 ^ f.exp - 1 := Nat.ne_of_lt (Nat.div_lt_of_lt_mul (Nat.mul_comm _ _ ▸ h))
  simp only [Fmt.val, hf.infinite, hs, he, hm, hlow, Bool.false_eq_true, if_false]

theorem Fmt.Binary.val_inf (neg : Bool) : f.val (f.inf neg) = .inf neg := by
  obtain ⟨hs, he, hm⟩ := hf.fields neg f.infCode_lt
  have hexp : f.infCode / 2 ^ f.frac = 2 ^ f.exp - 1 := Nat.mul_div_cancel _ (Nat.two_pow_pos _)
  have hfrac : f.infCode % 2 ^ f.frac = 0 := Nat.mul_mod_left _ _
  simp only [Fmt.val, Fmt.inf, hf.infinite, hs, he, hm, hexp, hfrac, Bool.false_eq_true, if_false, if_true]

theorem Fmt.Binary.val_zero (neg : Bool) : f.val (f.zero neg) = .fin neg 0 f.qmin := by
  have h := hf.val_of_lt neg hf.infCode_pos
  simpa only [Fmt.zero, Nat.add_zero, Nat.zero_div, Nat.zero_mod, if_true] using h

theorem Fmt.Binary.canonical_of_lt (neg : Bool) {c : Nat} (h : c < f.infCode) : f.Canonical (f.sign neg + c) := by
  intro hn
  rw [hf.val_of_lt neg h] at hn
  split at hn <;> cases hn

theorem Fmt.Binary.canonical_inf (neg : Bool) : f.Canonical (f.inf neg) := by
  intro hn
  rw [hf.val_inf] at hn
  cases hn

theorem Fmt.Binary.canonical_zero (neg : Bool) : f.Canonical (f.zero neg) := hf.canonical_of_lt neg hf.infCode_pos

theorem Fmt.Binary.maxCode_lt : f.maxCode < f.infCode := by
  rw [Fmt.maxCode, hf.infinite, if_neg Bool.false_ne_true]
  exact Nat.sub_lt hf.infCode_pos Nat.one_pos

theorem Fmt.Binary.canonical_largest (neg : Bool) : f.Canonical (f.largest neg) := hf.canonical_of_lt neg hf.maxCode_lt

theorem Fmt.Binary.canonical_one : f.Canonical f.one := by
  have hexp : 2 ^ (f.exp - 1) - 1 < 2 ^ f.exp - 1 := by
    have := Nat.pow_lt_pow_right Nat.one_lt_two (Nat.sub_lt hf.exp Nat.one_pos)
    have := Nat.two_pow_pos (f.exp - 1)
    omega
  have h := hf.canonical_of_lt false (c := f.one) (Nat.mul_lt_mul_of_pos_right hexp (Nat.two_pow_pos _))
  simpa only [Fmt.sign, Bool.false_eq_true, if_false, Nat.zero_add] using h

/-- A result past the largest finite value, in either direction of rounding. -/
theorem Fmt.Binary.canonical_overflow (neg toInf : Bool) : f.Canonical (if toInf then f.inf neg else f.largest neg) := by
  cases toInf with
  | false => exact hf.canonical_largest neg
  | true => exact hf.canonical_inf neg

/-! ### Rounding gives no NaN, and arithmetic the canonical one (R39 to R43, R143, R147) -/

theorem Fmt.Binary.canonical_round (rm : Rm) (neg : Bool) (m : Nat) (e : Int) : f.Canonical (f.round rm neg m e).1 := by
  simp only [Fmt.round, hf.infinite, Bool.false_eq_true, if_false]
  split
  · exact hf.canonical_zero neg
  · split
    · exact hf.canonical_overflow neg _
    · next h => exact hf.canonical_of_lt neg (Nat.lt_of_le_of_lt (Nat.not_lt.1 h) hf.maxCode_lt)

end Binary

/-- A result that holds no NaN but the canonical one, and raises IV where an operand is a signalling NaN (R40, R42). -/
structure Fmt.NanRule (f : Fmt) (snan : Bool) (r : Nat × BitVec 5) : Prop where
  canonical : f.Canonical r.1
  invalid : snan = true → r.2.getLsbD 4 = true

theorem flagIf_iv {b : Bool} (h : b = true) : (flagIf b flagIV).getLsbD 4 = true := by
  subst h
  decide

/-- The canonical NaN under the flag of a condition that covers the operands. -/
theorem Fmt.NanRule.nan (f : Fmt) {snan b : Bool} (h : snan = true → b = true) : f.NanRule snan (f.nan, flagIf b flagIV) :=
  ⟨f.canonical_nan, fun hs => flagIf_iv (h hs)⟩

/-- Where no operand is a signalling NaN, only the code matters. -/
theorem Fmt.NanRule.quiet {f : Fmt} {r : Nat × BitVec 5} (h : f.Canonical r.1) : f.NanRule false r := ⟨h, nofun⟩

theorem Fmt.NanRule.mono {f : Fmt} {s t : Bool} {r : Nat × BitVec 5} (h : f.NanRule s r) (ht : t = true → s = true) :
    f.NanRule t r := ⟨h.canonical, fun hs => h.invalid (ht hs)⟩

theorem FVal.isSnan_negate (x : FVal) : x.negate.isSnan = x.isSnan := by cases x <;> rfl

theorem FVal.eq_nan_of_isSnan {x : FVal} (h : x.isSnan = true) : x = .nan true := by
  cases x with
  | nan s => exact congrArg FVal.nan h
  | inf _ => cases h
  | fin _ _ _ => cases h

theorem FVal.isNan_mul_of_isSnan {x y : FVal} (h : (x.isSnan || y.isSnan) = true) : (x.mul y).isNan = true := by
  rcases Bool.or_eq_true_iff.1 h with h | h
  · rw [FVal.eq_nan_of_isSnan h]
    rfl
  · rw [FVal.eq_nan_of_isSnan h]
    cases x <;> rfl

section Arithmetic

variable {f : Fmt} (hf : f.Binary)
include hf

theorem Fmt.Binary.ofVal_nanRule (rm : Rm) (x : FVal) : f.NanRule x.isSnan (f.ofVal rm x) := by
  cases x with
  | nan s => exact .nan f id
  | inf neg =>
    simp only [Fmt.ofVal, hf.infinite, Bool.false_eq_true, if_false]
    exact .quiet (hf.canonical_inf neg)
  | fin neg m e => exact .quiet (hf.canonical_round rm neg m e)

theorem Fmt.Binary.addVal_nanRule (rm : Rm) (x y : FVal) : f.NanRule (x.isSnan || y.isSnan) (f.addVal rm x y) := by
  cases x with
  | nan s => exact .nan f id
  | inf a =>
    cases y with
    | nan s => exact .nan f id
    | inf b =>
      simp only [Fmt.addVal]
      split
      · exact .quiet (hf.canonical_inf a)
      · exact .quiet f.canonical_nan
    | fin b n g => exact .quiet (hf.canonical_inf a)
  | fin a m e =>
    cases y with
    | nan s => exact .nan f id
    | inf b => exact .quiet (hf.canonical_inf b)
    | fin b n g =>
      simp only [Fmt.addVal]
      split
      · exact .quiet (hf.canonical_zero _)
      · split
        · exact .quiet (hf.canonical_zero _)
        · exact .quiet (hf.canonical_round rm _ _ _)

theorem Fmt.Binary.mulVal_nanRule (rm : Rm) (x y : FVal) : f.NanRule (x.isSnan || y.isSnan) (f.mulVal rm x y) := by
  unfold Fmt.mulVal
  split
  · exact .nan f fun h => by rw [mulIV, h, Bool.true_or]
  · next hprod => exact (hf.ofVal_nanRule rm _).mono fun h => absurd (FVal.isNan_mul_of_isSnan h) hprod

theorem Fmt.Binary.fmaVal_nanRule (rm : Rm) (x y z : FVal) :
    f.NanRule (x.isSnan || y.isSnan || z.isSnan) (f.fmaVal rm x y z) := by
  unfold Fmt.fmaVal
  split
  · refine .nan f fun h => ?_
    rcases Bool.or_eq_true_iff.1 h with h | h
    · rw [mulIV, h, Bool.true_or, Bool.true_or]
    · rw [h, Bool.or_true]
  · next hprod =>
    refine (hf.addVal_nanRule rm _ z).mono fun h => ?_
    rcases Bool.or_eq_true_iff.1 h with h | h
    · exact absurd (FVal.isNan_mul_of_isSnan h) hprod
    · rw [h, Bool.or_true]

/-- Saturation keeps the rule: a code that it gives instead is a zero, 1.0 or the largest finite value. -/
theorem Fmt.Binary.saturate_nanRule (sat : FSat) {snan : Bool} {r : Nat × BitVec 5} (h : f.NanRule snan r) :
    f.NanRule snan (f.saturate sat r) := by
  have hzero : f.Canonical 0 := hf.canonical_zero false
  obtain ⟨hcode, hflags⟩ := h
  cases sat with
  | none => exact ⟨hcode, hflags⟩
  | satf =>
    simp only [Fmt.saturate]
    split
    · exact ⟨hf.canonical_largest _, hflags⟩
    · exact ⟨hcode, hflags⟩
  | sat01 =>
    simp only [Fmt.saturate]
    split
    · exact ⟨hzero, hflags⟩
    · next neg _ =>
      cases neg with
      | false => exact ⟨hf.canonical_one, hflags⟩
      | true => exact ⟨hzero, hflags⟩
    · split
      · exact ⟨hzero, hflags⟩
      · split
        · exact ⟨hf.canonical_one, hflags⟩
        · exact ⟨hcode, hflags⟩

theorem Fmt.Binary.rnd_nanRule (rm : Rm) (x : Bool) (v : Nat) : f.NanRule (f.val v).isSnan (f.rnd rm x v) := by
  unfold Fmt.rnd
  cases f.val v with
  | nan s => exact .nan f id
  | inf neg => exact .quiet (hf.canonical_inf neg)
  | fin neg m e => exact .quiet (hf.canonical_round rm neg _ 0)

theorem Fmt.Binary.scale_nanRule (rm : Rm) (v : Nat) (n : Int) : f.NanRule (f.val v).isSnan (f.scale rm v n) := by
  unfold Fmt.scale
  cases f.val v with
  | nan s => exact hf.ofVal_nanRule rm (.nan s)
  | inf neg => exact hf.ofVal_nanRule rm (.inf neg)
  | fin neg m e => exact .quiet (hf.canonical_round rm neg m _)

end Arithmetic

/-! ### FMIN and FMAX (R144) -/

theorem sgn_mul_two_pow (neg : Bool) (m k : Nat) : sgn neg (m * 2 ^ k) = (if neg then -1 else 1) * (m : Int) * 2 ^ k := by
  have hcast : ((m * 2 ^ k : Nat) : Int) = (m : Int) * 2 ^ k := by rw [Int.natCast_mul, Int.natCast_pow]; rfl
  cases neg with
  | false => rw [sgn, if_neg Bool.false_ne_true, if_neg Bool.false_ne_true, hcast, Int.one_mul]
  | true => rw [sgn, if_pos rfl, if_pos rfl, hcast, Int.neg_one_mul, Int.neg_mul]

namespace Machine

/-- A value that lies below another compares so, from either side; neither is a NaN. -/
theorem Claims.below_cmp {x y : FVal} (h : Claims.below x y) :
    x.isNan = false ∧ y.isNan = false ∧ x.cmp y = .lt ∧ y.cmp x = .gt := by
  cases x with
  | nan _ => exact h.elim
  | inf a =>
    cases y with
    | nan _ => exact h.elim
    | inf b =>
      obtain ⟨rfl, rfl⟩ := h
      exact ⟨rfl, rfl, rfl, rfl⟩
    | fin b n g =>
      obtain rfl := h
      exact ⟨rfl, rfl, rfl, rfl⟩
  | fin a m e =>
    cases y with
    | nan _ => exact h.elim
    | inf b =>
      obtain rfl := h
      exact ⟨rfl, rfl, rfl, rfl⟩
    | fin b n g =>
      have hlt : sgn a (m * 2 ^ (e - min e g).toNat) < sgn b (n * 2 ^ (g - min e g).toNat) := by
        rw [sgn_mul_two_pow, sgn_mul_two_pow]
        exact h
      refine ⟨rfl, rfl, Int.compare_eq_lt.2 hlt, ?_⟩
      rw [FVal.cmp, Int.min_comm]
      exact Int.compare_eq_gt.2 hlt

end Machine

section MinMax

variable {f : Fmt} {a b : Nat} (least : Bool)

theorem Fmt.minMax_flags : (f.minMax least a b).2 = if (f.val a).isSnan || (f.val b).isSnan then flagIV else 0 := by
  unfold Fmt.minMax
  dsimp only
  split
  · rfl
  · split <;> rfl

theorem Fmt.minMax_nan_left (hx : (f.val a).isNan = true) :
    (f.minMax least a b).1 = if (f.val b).isNan then f.nan else b := by
  simp only [Fmt.minMax, hx, if_true]

theorem Fmt.minMax_nan_right (hx : (f.val a).isNan = false) (hy : (f.val b).isNan = true) : (f.minMax least a b).1 = a := by
  simp only [Fmt.minMax, hx, hy, Bool.false_eq_true, if_false, if_true]

variable (hx : (f.val a).isNan = false) (hy : (f.val b).isNan = false)
include hx hy

/-- Of two numbers, one of them. -/
theorem Fmt.minMax_mem : (f.minMax least a b).1 = a ∨ (f.minMax least a b).1 = b := by
  simp only [Fmt.minMax, hx, hy, Bool.false_eq_true, if_false]
  exact (Decidable.em _).imp (fun h => if_pos h) (fun h => if_neg h)

theorem Fmt.minMax_of_lt (h : (f.val a).cmp (f.val b) = .lt) : (f.minMax least a b).1 = if least then a else b := by
  simp only [Fmt.minMax, hx, hy, h, Bool.false_eq_true, if_false]
  cases least <;> rfl

theorem Fmt.minMax_of_gt (h : (f.val a).cmp (f.val b) = .gt) : (f.minMax least a b).1 = if least then b else a := by
  simp only [Fmt.minMax, hx, hy, h, Bool.false_eq_true, if_false]
  cases least <;> rfl

/-- Of two equal numbers, the first is the lower where it is negative. -/
theorem Fmt.minMax_of_eq (h : (f.val a).cmp (f.val b) = .eq) :
    (f.minMax least a b).1 = if (f.val a).neg = least then a else b := by
  simp only [Fmt.minMax, hx, hy, h, Bool.false_eq_true, if_false]

end MinMax

/-- Of two zeros, the first is the lower where it is −0. -/
theorem Fmt.Binary.minMax_zeros {f : Fmt} (hf : f.Binary) (least p q : Bool) :
    (f.minMax least (f.zero p) (f.zero q)).1 = if p = least then f.zero p else f.zero q := by
  have hp := hf.val_zero p
  have hq := hf.val_zero q
  have hcmp : (f.val (f.zero p)).cmp (f.val (f.zero q)) = .eq := by
    rw [hp, hq]
    simp only [FVal.cmp, Nat.zero_mul]
    cases p <;> cases q <;> rfl
  rw [Fmt.minMax_of_eq least (by rw [hp]; rfl) (by rw [hq]; rfl) hcmp, hp, FVal.neg]

namespace Machine

/-- Settles O58: FMIN and FMAX by the comparison of their operands, and the rule of NaN results of each other word by the cases of its
operands, since rounding and saturation give no NaN. -/
theorem nanResults : Obligations.NaNResults := by
  intro f hmem
  have hf := Fmt.binary_of_mem hmem
  constructor
  · intro least a b
    refine ⟨fun h => ?_, fun h => ?_, Fmt.minMax_mem least, ?_, ?_, fun hx hy => ?_, Fmt.minMax_nan_right least, fun hx hy => ?_,
      Fmt.minMax_flags least⟩
    · obtain ⟨hx, hy, hlt, -⟩ := Claims.below_cmp h
      exact Fmt.minMax_of_lt least hx hy hlt
    · obtain ⟨hy, hx, -, hgt⟩ := Claims.below_cmp h
      exact Fmt.minMax_of_gt least hx hy hgt
    · rintro rfl rfl
      rw [hf.minMax_zeros]
      cases least <;> rfl
    · rintro rfl rfl
      rw [hf.minMax_zeros]
      cases least <;> rfl
    · rw [Fmt.minMax_nan_left least hx, if_neg (ne_true_of_eq_false hy)]
    · rw [Fmt.minMax_nan_left least hx, if_pos hy]
  · intro rm sat a b e x n rs r hr
    have rule : f.NanRule r.2.2 (r.1, r.2.1) := by
      simp only [rs, List.mem_cons, List.not_mem_nil, or_false] at hr
      rcases hr with rfl | rfl | rfl | rfl | rfl | rfl
      · exact hf.saturate_nanRule sat (hf.addVal_nanRule rm _ _)
      · exact hf.saturate_nanRule sat ((f.val b).isSnan_negate ▸ hf.addVal_nanRule rm _ _)
      · exact hf.saturate_nanRule sat (hf.mulVal_nanRule rm _ _)
      · exact hf.saturate_nanRule sat (hf.fmaVal_nanRule rm _ _ _)
      · exact hf.rnd_nanRule rm x a
      · exact hf.scale_nanRule rm a n
    exact ⟨rule.canonical, rule.invalid⟩

end Machine
end Sys2Proof
end

section
/-! Remote regions: RBEG, RCMT and RABT (R163, R177 to R182). -/

namespace Sys2Proof.Machine

/-! ### The park that RBEG makes (R90, R177) -/

section Parks

variable {t th x : Thread} {u : Iss}

theorem Thread.parkNow_pend (t : Thread) : t.parkNow.1.pend = [] := by
  unfold Thread.parkNow
  split <;> rfl

theorem Thread.landAll_append_of_none {rs : List Pend} (h : (t.landAll rs).2 = none) (qs : List Pend) :
    t.landAll (rs ++ qs) = (t.landAll rs).1.landAll qs := by
  induction rs generalizing t with
  | nil => rfl
  | cons r rs ih =>
    simp only [List.cons_append, Thread.landAll] at h ⊢
    cases hr : t.land r with
    | none => simp [hr] at h
    | some v =>
      simp only [hr] at h ⊢
      exact ih h

/-- Outside a region a deferred result keeps nothing to bring back. -/
theorem Thread.defer_eq_pending (h : th.region = none) (d : Reg) (vs : List (Word × Bool)) (fl : BitVec 5) :
    th.defer u.pc d.toNat false vs fl = Claims.pending th u d vs fl := by
  simp only [Thread.defer, Claims.pending, Thread.undo_none h]

theorem Thread.reg_of_regs_eq (h : t.regs = x.regs) (d : Reg) : t.reg d = x.reg d := by
  rw [Thread.reg, Thread.reg, h]

/-- A run of one register that is written at once. -/
theorem Thread.reg_putRun_singleton {d : Reg} {v : Word × Bool} (h : t.region = none) :
    ∃ x, t.putRun d [v] = some x ∧ x.reg d = if d = 0 then 0 else v.1 := by
  by_cases hd : d = 0
  · exact ⟨t, by simp [Thread.putRun, hd], by simp [Thread.reg, hd]⟩
  · refine ⟨{ t with regs := tput t.regs d.toNat v.1, dfb := tput t.dfb d.toNat v.2 }, ?_, by simp [Thread.reg]⟩
    simp only [Thread.putRun, if_neg hd, Thread.putFrom, Thread.put_noRegion h]

/-- Outside a region a park writes the youngest result last, so its register holds it. -/
theorem Claims.reg_parkNow_pending (h : th.region = none) (d : Reg) (v : Word × Bool) (fl : BitVec 5) :
    (Claims.pending th u d [v] fl).parkNow.1.reg d = if d = 0 then 0 else v.1 := by
  have hp : (Claims.pending th u d [v] fl).region = none := h
  obtain ⟨hnone, hreg⟩ := Thread.landAll_noRegion hp th.pend
  obtain ⟨x, hx, hval⟩ := Thread.reg_putRun_singleton (d := d) (v := v) hreg
  have hpend : (Claims.pending th u d [v] fl).pend = th.pend ++ [⟨d.toNat, false, 1, [v], false, fl, u.pc, true, none, none⟩] := rfl
  have hpark : (Claims.pending th u d [v] fl).parkNow.1 = (x.raise fl).cleared := by
    simp only [Thread.parkNow, hpend, Thread.landAll_append_of_none hnone, Thread.landAll, Thread.land, Bool.false_eq_true, if_false,
      BitVec.ofNat_toNat, BitVec.setWidth_eq, hx, Option.map_some]
  rw [hpark]
  exact hval

/-- A park of a thread with no result pending writes nothing. -/
theorem Thread.parkNow_idle (h : x.pend = []) : x.parkNow = (x.cleared, none) := by
  simp only [Thread.parkNow, h, Thread.landAll]

/-- A thread with no result pending keeps its region and its registers as it leaves a word. -/
theorem Thread.goTo_idle (h : x.pend = []) (pc : Pc) (park : Bool) :
    (x.goTo u pc park).region = x.region ∧ (x.goTo u pc park).regs = x.regs ∧ (x.goTo u pc park).pend = [] := by
  have hidle : ({ x with pc := pc } : Thread).parkNow = (_, none) := Thread.parkNow_idle h
  simp only [Thread.goTo, Thread.parked, hidle]
  cases park with
  | false => exact ⟨rfl, rfl, h⟩
  | true =>
    simp only [if_true]
    split
    · exact ⟨rfl, rfl, rfl⟩
    · exact ⟨rfl, rfl, h⟩

end Parks

/-! ### The rollback (R180) -/

/-- A lane's region operations that are still in flight are reported nowhere else (R180). -/
def Package.silence (k : Package) (c g l : Nat) : Package :=
  { k with reqs := tmap (fun _ q =>
      if q.ctx == c && q.group == g && q.region && q.lanes.any (fun x => x.1 == l) then { q with region := false, silent := true } else q) k.reqs }

/-- The lane's thread is rolled back, and its region's operations are silenced: where a rollback fetches its target from. -/
def Iss.unrolled (u : Iss) (s : State) (l : Nat) (r : Region) (cause : Nat) : State :=
  (u.setThread s l (((u.thread s l).unroll r).setStatus r (BitVec.ofNat 32 cause))).modPkg u.pkg (fun k => k.silence u.ctx u.group l)

section Rollback

variable {s : State} {u : Iss} {c : Ctl} {l : Nat} {r : Region} {w : DWord} {tm : Team} {cause : Nat}

theorem Iss.team?_unrolled (q d : Nat) : (u.unrolled s l r cause).team? q d =
    (u.setThread s l (((u.thread s l).unroll r).setStatus r (BitVec.ofNat 32 cause))).team? q d :=
  State.team?_modPkg _ _ _ rfl _ _

/-- Unrolling a lane keeps the team but for its groups, and what accesses read. -/
theorem Iss.unrolled_frame (ht : u.team s = some tm) :
    SameMem s (u.unrolled s l r cause) ∧ ∃ b, u.team (u.unrolled s l r cause) = some b ∧ b.shell = tm.shell := by
  obtain ⟨o, -⟩ := Iss.setThread_only (u := u) ht l (((u.thread s l).unroll r).setStatus r (BitVec.ofNat 32 cause))
  obtain ⟨b, hb, hs⟩ := o.teamOf ht
  exact ⟨o.sameMem.trans (SameMem.modPkg _ _ _ rfl rfl), b, (Iss.team?_unrolled _ _).trans hb, hs⟩

theorem Iss.thread_unrolled (ht : u.team s = some tm) :
    u.thread (u.unrolled s l r cause) l = ((u.thread s l).unroll r).setStatus r (BitVec.ofNat 32 cause) := by
  obtain ⟨-, e⟩ := Iss.setThread_only (u := u) ht l (((u.thread s l).unroll r).setStatus r (BitVec.ofNat 32 cause))
  rw [← (e l).trans (if_pos rfl)]
  simp only [Iss.thread, State.thread, Iss.team?_unrolled]

/-- A word that the fetch keeps is the team's, not its lanes'. -/
theorem Iss.thread_keeps (ht : u.team s = some tm) (va : Nat) : u.thread (u.keeps va w s) l = u.thread s l := by
  unfold Iss.keeps
  rw [State.modTeam_some _ _ _ _ ht]
  simp only [Iss.thread]
  rw [State.thread_of_team (State.team?_setTeam_same _ _ _ _), State.thread_of_team ht]
  rfl

/-- A rollback without tx.* to a target that is held code: the unrolled lane stands at the target. -/
theorem Iss.rollback_code (ht : u.team s = some tm) (hr : (u.thread s l).region = some r) (hc : Code u s r.target.toNat w)
    (hw : isHeader w = true) (failing : DWord) :
    s.rollback u.pkg u.ctx u.group l cause none failing =
      (u.keeps r.target.toNat w (u.unrolled s l r cause)).moveLane u.pkg u.ctx u.group l (r.target.setWidth 57) none := by
  obtain ⟨hmem, b, hb, hs⟩ := Iss.unrolled_frame (l := l) (r := r) (cause := cause) ht
  obtain ⟨tr, hfetch⟩ := (hmem.code ht hb hs hc).fetch hb
  have hdie : u.die (u.unrolled s l r cause) = dieOf (tm.coreOf u.group) := by
    simp only [Iss.die, hb]
    exact (congrArg (fun t => dieOf (Team.coreOf t u.group)) hs : dieOf (b.shell.coreOf u.group) = dieOf (tm.shell.coreOf u.group))
  have hth : tm.thread u.group l = u.thread s l := (State.thread_of_team ht _ _).symm
  have ht' : s.team? u.pkg u.ctx = some tm := ht
  rw [hdie] at hfetch
  simp only [Iss.unrolled, Package.silence, Iss.setThread] at hfetch ⊢
  simp only [State.rollback, ht', hth, hr, hfetch, hw, if_true]

/-- What such a rollback leaves: memory as it was, and the unrolled lane at the target. -/
theorem Iss.rollback_code_spec (ht : u.team s = some tm) (hr : (u.thread s l).region = some r) (hc : Code u s r.target.toNat w)
    (hw : isHeader w = true) (failing : DWord) :
    let m := s.rollback u.pkg u.ctx u.group l cause none failing
    m.mem = s.mem ∧ (∃ b, u.team m = some b) ∧
      u.thread m l = { ((u.thread s l).unroll r).setStatus r (BitVec.ofNat 32 cause) with pc := r.target.setWidth 57 } := by
  intro m
  have hm : m = _ := Iss.rollback_code ht hr hc hw failing
  obtain ⟨hmem, b, hb, -⟩ := Iss.unrolled_frame (l := l) (r := r) (cause := cause) ht
  obtain ⟨b', hb', -⟩ := Iss.team_keeps r.target.toNat w hb
  have o := OnlyGroup.moveLane (g := u.group) hb' l (r.target.setWidth 57) none
  have e := State.thread_moveLane (g := u.group) hb' l l (r.target.setWidth 57) none |>.trans (if_pos rfl)
  rw [hm]
  refine ⟨?_, o.team_some, ?_⟩
  · exact (o.world.mem.trans (State.modTeam_mem _ _ _ _)).trans hmem.mem
  · have hth := (Iss.thread_keeps (l := l) (w := w) hb r.target.toNat).trans (Iss.thread_unrolled ht)
    simp only [Iss.thread] at hth e ⊢
    rw [e, hth]

end Rollback

/-- A thread that has opened a region with the predicates that it holds (R177). -/
def Thread.opened (th : Thread) (target : DWord) (d : Reg) : Thread := { th with region := some ⟨target, d, th.preds, [], 0, []⟩ }

section Regions

variable {s : State} {u : Iss} {c : Ctl} {l : Nat} {r : Region} {w : DWord} {tm : Team}

/-- RBEG of a lane opens a region at its park. -/
theorem exec_rbeg_next {d a : Reg} (h : Alone u c l s) (hf : (u.thread s l).flags [.pair a] = false) (hd : (u.thread s l).defCount < 16)
    (hlow : ((u.thread s l).pair a).toNat < 2 ^ 57) (hal : ((u.thread s l).pair a).toNat % 8 = 0) :
    ∃ t, exec (.rbeg c d a) s = .next t ∧ After u l u.next true
      (u.setThread (u.stamp s) l ((Claims.pending (u.thread s l) u d [(0, false)] 0).parkNow.1.opened ((u.thread s l).pair a) d)) t := by
  rw [exec_rbeg, execRbeg]
  obtain ⟨o, hst⟩ := h.stamped
  obtain ⟨b, hb⟩ := o.team_some
  obtain ⟨a', ha', -⟩ := h.team
  have hidle := Thread.parkNow_pend (Claims.pending (u.thread s l) u d [(0, false)] 0)
  have hdefer := Thread.defer_eq_pending (u := u) h.region d [(0, false)] 0
  generalize Claims.pending (u.thread s l) u d [(0, false)] 0 = x at hidle hdefer ⊢
  obtain ⟨o', e⟩ := Iss.setThread_only (u := u) hb l (x.parkNow.1.opened ((u.thread s l).pair a) d)
  obtain ⟨b', hb'⟩ := o'.team_some
  refine ⟨_, h.issues.issue, h.ends (OnlyGroup.refl ha') rfl ?_ (.inl ⟨rfl, rfl⟩) ?_ hb' (Bool.or_true _) (fun _ => ?_)⟩
  · exact Iss.before_none _ rfl hf (fun _ => hd)
  · simp only [hst, h.region, Option.isSome_none, Bool.false_eq_true, if_false, Nat.not_le.2 hlow, hal, ne_eq, not_true_eq_false, hdefer]
    rfl
  · rw [e, if_pos rfl]
    exact congrArg Prod.snd (Thread.parkNow_idle (x := { x.parkNow.1.opened ((u.thread s l).pair a) d with pc := u.next }) hidle)

/-- RCMT of a lane whose region has nothing open and nothing failed closes it. -/
theorem exec_rcmt_next (h : Lone u c l s) (ht : u.team s = some tm) (hm : tm.mirror = false) (hr : (u.thread s l).region = some r)
    (hf : r.fails = []) (ho : u.regionOpen s l = false) :
    ∃ t, exec (.rcmt c) s = .next t ∧ After u l u.next true
      (u.acquire (some .space) ((u.stamp s).modThread u.pkg u.ctx u.group l (fun x => { x with region := none }))) t := by
  rw [exec_rcmt, execRcmt]
  obtain ⟨o, hst⟩ := h.stamped
  obtain ⟨b, hb⟩ := o.team_some
  have hclosed : ¬ (u.active c s).any (u.regionOpen s) = true := by
    simp only [Iss.active, h.lanes, List.any_eq_true, List.mem_filter, List.mem_singleton]
    rintro ⟨j, ⟨rfl, -⟩, hj⟩
    exact absurd hj (by simp [ho])
  have hvis : u.visLane s l = l := by simp [Iss.visLane, ht, Team.visLane_single hm (h.inWidth ht)]
  generalize hm' : (u.stamp s).modThread u.pkg u.ctx u.group l (fun x => { x with region := none }) = m
  have e : u.thread m l = { u.thread s l with region := none } := by
    rw [← hm', ← hst l]
    exact (State.thread_modThread hb _ l l).trans (if_pos rfl)
  obtain ⟨b', hb'⟩ := (hm' ▸ OnlyGroup.modThread hb _ l : OnlyGroup u.pkg u.ctx u.group (u.stamp s) m).team_some
  have hteam := (Iss.acquire_frame u (some .space) m).1
  have hth : u.thread (u.acquire (some .space) m) l = u.thread m l := by simp only [Iss.thread, State.thread, hteam]
  refine ⟨_, h.issues.issueHold (if_neg hclosed), h.done (Iss.before_none _ rfl rfl (by simp)) ?_ ((hteam _ _).trans hb') ?_ (Bool.or_true _)⟩
  · simp only [hst, hr, hvis, Option.map_some, Option.getD_some, hf, Iss.commit, hm']
  · rw [hth, e]

/-- The one lane of a word whose effect has set its thread leaves with that thread. -/
theorem After.thread_setThread {m t : State} {pc : Pc} {park : Bool} {x : Thread} (h : After u l pc park (u.setThread m l x) t)
    (hm : u.team m = some tm) : u.thread t l = x.goTo u pc park := by
  have e : u.thread (u.setThread m l x) l = x := ((Iss.setThread_only hm l x).2 l).trans (if_pos rfl)
  exact ((h.2 l).trans (if_pos rfl)).trans (congrArg (fun y => y.goTo u pc park) e)

theorem Stays.thread_lane {m t : State} (h : Stays u m t) (hl : u.lanes = [l]) :
    u.thread t l = { u.thread m l with yielded := (u.thread m l).yielded && !u.ends (u.thread m l).pc } :=
  (h.2 l).trans (if_pos (by rw [hl]; exact List.mem_singleton_self l))

/-- RABT of a lane with an open region is its rollback (R182). -/
theorem exec_rabt_next (h : Lone u c l s) (hr : (u.thread s l).region = some r)
    {b : Team} (hb : u.team ((u.stamp s).rollback u.pkg u.ctx u.group l 0x80 none u.pc64) = some b) :
    ∃ t, exec (.rabt c) s = .next t ∧ Stays u ((u.stamp s).rollback u.pkg u.ctx u.group l 0x80 none u.pc64) t := by
  rw [exec_rabt, execRabt]
  refine ⟨_, h.issues.issue, h.left (Iss.before_default l) (.inl rfl) ?_ hb⟩
  simp only [h.stamped.2, hr, Option.isNone_some, Bool.false_eq_true, if_false]

/-- Where its target is held code, the lane stands there, rolled back. -/
theorem exec_rabt_code (h : Lone u c l s) (hr : (u.thread s l).region = some r) (hc : Code u s r.target.toNat w) (hw : isHeader w = true) :
    ∃ t, exec (.rabt c) s = .next t ∧ t.mem = s.mem ∧ u.thread t l =
      { ((u.thread s l).unroll r).setStatus r 0x80 with
        pc := r.target.setWidth 57, yielded := (u.thread s l).yielded && !u.ends (r.target.setWidth 57) } := by
  obtain ⟨o, hst⟩ := h.stamped
  obtain ⟨b, hb⟩ := o.team_some
  obtain ⟨hmem, ⟨b', hb'⟩, hth⟩ := Iss.rollback_code_spec (cause := 0x80) hb ((hst l).symm ▸ hr) (o.code hc) hw u.pc64
  obtain ⟨t, hexec, hstays⟩ := exec_rabt_next h hr hb'
  refine ⟨t, hexec, (hstays.1.world.mem.trans hmem).trans o.world.mem, ?_⟩
  rw [hstays.thread_lane h.lanes, hth, hst]
  rfl

end Regions

/-- Settles O19: RBEG opens a region at the park that it makes, RCMT closes one whose operations have all succeeded, and RABT rolls
one back to its recovery target. -/
theorem regions : Obligations.Regions := by
  refine ⟨fun c d a u l s h hf hd hlow hal => ?_, fun c u l s tm r h ht hm hr hf ho => exec_rcmt_next h ht hm hr hf ho,
    fun c u l s r w h hr hc hw => exec_rabt_code h hr hc hw⟩
  obtain ⟨t, hexec, hafter⟩ := exec_rbeg_next (d := d) h hf hd hlow hal
  obtain ⟨b, hb⟩ := h.stamped.1.team_some
  have hth : t.thread u.pkg u.ctx u.group l = _ := hafter.thread_setThread hb
  have hval := Claims.reg_parkNow_pending (u := u) h.region d (0, false) 0
  have hidle := Thread.parkNow_pend (Claims.pending (u.thread s l) u d [(0, false)] 0)
  generalize (Claims.pending (u.thread s l) u d [(0, false)] 0).parkNow.1 = x at hafter hth hval hidle ⊢
  obtain ⟨hregion, hregs, hpend⟩ := Thread.goTo_idle (u := u) (x := x.opened ((u.thread s l).pair a) d) hidle u.next true
  refine ⟨t, hexec, hafter, ?_⟩
  rw [hth]
  exact ⟨hregion, (Thread.reg_of_regs_eq hregs d).trans (hval.trans (ite_self _)), hpend⟩

end Sys2Proof.Machine
end
